-- ==== Sys2Proof/Word.lean ====
section
/-! DEFINITION. The plain types of the DL416: bytes, samples, and the numbers of its objects (00 section 4.1, 4.2). -/

namespace Sys2Proof

/-- A byte of a frame, a transaction or a record (R188). -/
abbrev Byte := BitVec 8

/-- A 24-bit two's-complement sample (00 section 4.2). -/
abbrev Sample := BitVec 24

/-- E0 to E3, and by extension their links. -/
abbrev Engine := Fin 4

/-- L0 to L127. -/
abbrev LineNo := Fin 128

/-- T0 to T511. -/
abbrev TapNo := Fin 512

/-- M0 to M15. -/
abbrev OscNo := Fin 16

/-- P0 to P4095. -/
abbrev Page := Fin 4096

/-- The 32-bit period count (R3). -/
abbrev PeriodCount := BitVec 32

/-- A reading of the 40-bit sample counter (R3). -/
abbrev SampleCount := BitVec 40

end Sys2Proof
end

