-- ==== Sys2Proof/Config.lean ====
section
/-! DEFINITION. What an implementation of the DL416 fixes and the spec does not: uninterpreted functions, without a
body, which the meanings bring into the bounds the spec states. Nothing in Lean can evaluate one of them. -/

namespace Sys2Proof.Config

/-- FREE VALUE (log 15). How many blocks of an OUTPUT frame have gone onto the lane when the transmitter ends it with
ABORT (R75); the argument numbers the aborts. The meaning takes no more than the blocks handed. -/
opaque laneProgress : Nat → Nat

/-- FREE VALUE (log 16). The approximate reciprocal of an effective cycle length (R144), before the bound. -/
opaque reciprocal : Nat → Nat

/-- FREE VALUE (log 17). The SINE shape over the first quarter of the cycle, at a phase from 0 to 2^30 (R148), before
the bound. -/
opaque sine : Nat → Rat

/-- FREE VALUE (log 18). The equal-power gain function g (R125), before the bound. -/
opaque equalPower : Rat → Rat

end Sys2Proof.Config
end

