-- ==== Sys2Proof/Syntax.lean ====
section
/-! DEFINITION. The commands of the DL416: one constructor for each row of spec/opcode_table.json, in the table's
order, with what the event carries. -/

namespace Sys2Proof

/-- What a WRITE_COMMAND transaction carried after the command code (R166, R193, R194). -/
inductive CommandRecord where
  /-- The select line was released before the argument length was in. -/
  | cut
  /-- The argument length, then every byte shifted in after it. -/
  | sent (length : Byte) (args : List Byte)
deriving DecidableEq, Repr

/-- A transaction that names no command of the command table and no reading transaction (R166, R169), after its code. That
the row BAD_COMMAND stands for both forms, the table having no row of its own for the second, is the model's choice (DESIGN
CHOICE, log 34). -/
inductive BadTransaction where
  /-- The code is a command code, outside the command table, of a WRITE_COMMAND (R169). -/
  | command (record : CommandRecord)
  /-- The code is a transaction code, and the port ignores the transaction (R166): the code is none of the three, or it is
  WRITE_COMMAND's and the transaction was released before a command code was in. So many bytes were clocked after it. -/
  | ignored (clocked : Nat)
deriving DecidableEq, Repr

/-- An event that adopts a tempo interval, as it may be taken between the tap table's and the oscillator bank's work for
one boundary (R128, R162): a SET_TEMPO, TAP_TEMPO or POP_SCENE transaction, or a pulse on the tempo clock line (log 4). -/
inductive Adoption where
  | setTempo (record : CommandRecord)
  | tapTempo (record : CommandRecord)
  | popScene (record : CommandRecord)
  | tempoPulse
deriving DecidableEq, Repr

/-- The order of the parts of one counted edge that is also a period boundary. R147 lets a bar start and the boundary
work be taken in either order, R60 and R72 give the receivers' edge and the tally no order, and R128 lets the tap table
and the oscillator bank take the boundary in either order with adoptions taken between the two: every order is a command
(logs 4 and 5). -/
structure EdgeOrder where
  /-- The tempo unit takes the sample edge after the boundary event that the same edge makes. -/
  tempoAfter : Bool
  /-- The link receivers take the sample edge after the boundary event that the same edge makes. -/
  receiversAfter : Bool
  /-- The oscillator bank does its boundary work before the tap table. -/
  bankFirst : Bool
  /-- What is taken between the two, in order. -/
  between : List Adoption
deriving DecidableEq, Repr

/-- What has happened to the stored bits of the word being read since it was last written or read (R31). The array's
own behaviour is not the part's: it is an input, carried by the read's completion. R31 gives the outcome for one wrong bit
and none for three or more: that such a word may read as uncorrectable, as clean or as corrected, to any sample, is the
model's choice (DESIGN CHOICE, log 8). -/
inductive Upset where
  /-- No bit has changed. -/
  | untouched
  /-- One more bit is wrong. -/
  | oneBit
  /-- Two or more bits are wrong, in a way the check bits detect and cannot correct. -/
  | manyBits
  /-- The word holds another sample whose check bits match, so the check sees nothing. -/
  | altered (v : Sample)
  /-- Three or more bits are wrong in a way that the check takes for one wrong bit of another sample, which the read puts
  right and returns. -/
  | miscorrected (v : Sample)
deriving DecidableEq, Repr

/-- The rows of spec/opcode_table.json. A row whose summary names a mailbox command is the WRITE_COMMAND transaction
that carries that command's code (R167, R193); its operand is the rest of the record. -/
inductive Instr where
  /-- RESET_LINE (R11). -/
  | resetLine
  /-- REAL_EDGE (R1): an edge on the word clock line at a reading of the reference oscillator. -/
  | realEdge (reading : Nat) (order : EdgeOrder)
  /-- LOSS_TIMER_EXPIRY (R4). -/
  | lossTimerExpiry (order : EdgeOrder)
  /-- FLYWHEEL_EDGE (R5): the flywheel timer expires. -/
  | flywheelEdge (order : EdgeOrder)
  /-- OPEN_MARK (R58, R59): an open mark on an engine's inbound lane. -/
  | openMark (engine : Engine)
  /-- INPUT_FRAME (R62): a close mark on an engine's inbound lane. -/
  | inputFrame (engine : Engine)
  /-- RECEIVE_TIMEOUT (R60). -/
  | receiveTimeout (engine : Engine)
  /-- CLOSE_MARK_LEAVES_LANE (R74). -/
  | closeMarkLeavesLane (engine : Engine)
  /-- COMMIT_WRITE_COMPLETE (R69). -/
  | commitWriteComplete
  /-- FILL_WRITE_COMPLETE (R22). -/
  | fillWriteComplete
  /-- PASS_START (R97). -/
  | passStart
  /-- PASS_READ_COMPLETE (R99). -/
  | passReadComplete (upset : Upset)
  /-- REFRESH_TIMER_EXPIRY (R39). -/
  | refreshTimerExpiry
  /-- REFRESH_ACCESS_COMPLETE (R40). -/
  | refreshAccessComplete
  /-- SCRUB_CLEAR_WRITE_COMPLETE (R44). -/
  | scrubClearWriteComplete
  /-- SCRUB_VERIFY_READ_COMPLETE (R45, R46). -/
  | scrubVerifyReadComplete (upset : Upset)
  /-- ALLOC_COMPLETE (R49): the passing VERIFY read that completes the waiting allocation. -/
  | allocComplete (upset : Upset)
  /-- ALLOC_NO_SPACE (R50): the failing VERIFY read that ends the waiting allocation. -/
  | allocNoSpace (upset : Upset)
  /-- TEMPO_PULSE (R137 to R139). -/
  | tempoPulse
  /-- PULSE_LOSS_TIMER_EXPIRY (R139). -/
  | pulseLossTimerExpiry
  /-- READ_RESULT (R171): with the number of bytes clocked after the transaction code. -/
  | readResult (clocked : Nat)
  /-- READ_STATUS (R175): with the number of bytes clocked after the transaction code. -/
  | readStatus (clocked : Nat)
  /-- COMMAND_COLLISION (R168): a WRITE_COMMAND that meets a HELD mailbox. -/
  | commandCollision (code : Byte) (record : CommandRecord)
  /-- BAD_COMMAND (R169): a WRITE_COMMAND whose code is not in the command table; also a transaction that the port ignores
  (R166). -/
  | badCommand (code : Byte) (transaction : BadTransaction)
  /-- SET_PERIOD (R8). -/
  | setPeriod (record : CommandRecord)
  /-- READ_CLOCK (R10). -/
  | readClock (record : CommandRecord)
  /-- ALLOC_LINE (R14, R48). -/
  | allocLine (record : CommandRecord)
  /-- FREE_LINE (R26). -/
  | freeLine (record : CommandRecord)
  /-- SET_WRITER (R20). -/
  | setWriter (record : CommandRecord)
  /-- READ_LINE (R27). -/
  | readLine (record : CommandRecord)
  /-- READ_POOL (R52). -/
  | readPool (record : CommandRecord)
  /-- SET_LINK (R57). -/
  | setLink (record : CommandRecord)
  /-- READ_LINK (R77). -/
  | readLink (record : CommandRecord)
  /-- READ_COUNTERS (R176). -/
  | readCounters (record : CommandRecord)
  /-- SET_TAP (R83, R84). -/
  | setTap (record : CommandRecord)
  /-- CLEAR_TAP (R86). -/
  | clearTap (record : CommandRecord)
  /-- READ_TAP (R87). -/
  | readTap (record : CommandRecord)
  /-- SAVE_TAP (R87). -/
  | saveTap (record : CommandRecord)
  /-- SET_TEMPO (R132). -/
  | setTempo (record : CommandRecord)
  /-- TAP_TEMPO (R133). -/
  | tapTempo (record : CommandRecord)
  /-- SET_TEMPO_SOURCE (R134). -/
  | setTempoSource (record : CommandRecord)
  /-- SET_METER (R135). -/
  | setMeter (record : CommandRecord)
  /-- RESYNC (R136). -/
  | resync (record : CommandRecord)
  /-- READ_TEMPO (R140). -/
  | readTempo (record : CommandRecord)
  /-- SET_OSC (R151). -/
  | setOsc (record : CommandRecord)
  /-- READ_OSC (R152). -/
  | readOsc (record : CommandRecord)
  /-- PUSH_SCENE (R157). -/
  | pushScene (record : CommandRecord)
  /-- POP_SCENE (R158). -/
  | popScene (record : CommandRecord)
  /-- DROP_SCENE (R163). -/
  | dropScene (record : CommandRecord)
  /-- READ_SCENES (R164). -/
  | readScenes (record : CommandRecord)
  /-- ACK_NOTICE (R180). -/
  | ackNotice (record : CommandRecord)
  /-- SET_MASK (R181). -/
  | setMask (record : CommandRecord)
  /-- READ_FAULT (R183). -/
  | readFault (record : CommandRecord)
  /-- CLEAR_FAULT (R184). -/
  | clearFault (record : CommandRecord)
  /-- PART_RESET (R173). -/
  | partReset (record : CommandRecord)
  /-- DATA_BYTE (R59). -/
  | dataByte (engine : Engine) (byte : Byte)
deriving DecidableEq, Repr

end Sys2Proof
end

