-- ==== Sys2Proof/Decode.lean ====
section
/-! DEFINITION. Reading commands from bits. No row of spec/opcode_table.json gives bits, so no word spells a row. The
bytes of an SPI transaction do (R193, R194): decodeTransaction reads them and encodeTransaction writes them. -/

namespace Sys2Proof

/-- The command a word spells by the opcode table's bits: none, since no row of the table gives bits (log 27). -/
def decodeTableWord (_nbits _w : Nat) : Option Instr := none

/-- The command codes with the argument length each command's layout defines (R194). -/
def commandTable : List (Byte × Nat) :=
  [(0x01, 1), (0x02, 0), (0x10, 4), (0x11, 1), (0x12, 2), (0x13, 2), (0x14, 1), (0x20, 2)]
  ++ [(0x21, 1), (0x22, 2), (0x30, 26), (0x31, 2), (0x32, 2), (0x33, 2), (0x40, 4), (0x41, 0)]
  ++ [(0x42, 1), (0x43, 1), (0x44, 0), (0x45, 0), (0x50, 11), (0x51, 1), (0x60, 0), (0x61, 0)]
  ++ [(0x62, 0), (0x63, 0), (0x70, 0), (0x71, 2), (0x72, 0), (0x73, 0), (0x7F, 0)]

/-- The row a WRITE_COMMAND with this command code is (R194); a code outside the table is BAD_COMMAND (R169). -/
def decodeCommand (code : Byte) (record : CommandRecord) : Instr :=
  match code.toNat with
  | 0x01 => .setPeriod record
  | 0x02 => .readClock record
  | 0x10 => .allocLine record
  | 0x11 => .freeLine record
  | 0x12 => .setWriter record
  | 0x13 => .readLine record
  | 0x14 => .readPool record
  | 0x20 => .setLink record
  | 0x21 => .readLink record
  | 0x22 => .readCounters record
  | 0x30 => .setTap record
  | 0x31 => .clearTap record
  | 0x32 => .readTap record
  | 0x33 => .saveTap record
  | 0x40 => .setTempo record
  | 0x41 => .tapTempo record
  | 0x42 => .setTempoSource record
  | 0x43 => .setMeter record
  | 0x44 => .resync record
  | 0x45 => .readTempo record
  | 0x50 => .setOsc record
  | 0x51 => .readOsc record
  | 0x60 => .pushScene record
  | 0x61 => .popScene record
  | 0x62 => .dropScene record
  | 0x63 => .readScenes record
  | 0x70 => .ackNotice record
  | 0x71 => .setMask record
  | 0x72 => .readFault record
  | 0x73 => .clearFault record
  | 0x7F => .partReset record
  | _ => .badCommand code (.command record)

/-- The row a whole SPI transaction is, from the bytes shifted in (R166, R193): none for no byte. -/
def decodeTransaction (bytesIn : List Byte) : Option Instr :=
  match bytesIn with
  | [] => none
  | code :: rest =>
    if code = 0xC1 then
      match rest with
      | [] => some (.badCommand code (.ignored 0))
      | [command] => some (decodeCommand command .cut)
      | command :: length :: args => some (decodeCommand command (.sent length args))
    else if code = 0xC2 then some (.readResult rest.length)
    else if code = 0xC3 then some (.readStatus rest.length)
    else some (.badCommand code (.ignored rest.length))

/-- The record is one that R168 lets a HELD mailbox ignore: a whole one, and not PART_RESET's own. -/
def collides (code : Byte) : CommandRecord → Bool
  | .cut => false
  | .sent length args => !(code == 0x7F && length == 0 && args.isEmpty)

/-- The transaction is one that the port ignores (R166): its code is none of the three, or it is a WRITE_COMMAND released
before its command code was in. -/
def ignoredTransaction (code : Byte) (clocked : Nat) : Bool :=
  if code = 0xC1 then clocked == 0 else code != 0xC2 && code != 0xC3

/-- The transaction is what its form says: a code outside the command table (R169), or one that the port ignores (R166). -/
def BadTransaction.isBad (code : Byte) : BadTransaction → Bool
  | .command _ => commandTable.all fun row => row.1 != code
  | .ignored clocked => ignoredTransaction code clocked

/-- The bytes shifted in by a WRITE_COMMAND (R193). -/
def encodeCommand (code : Byte) : CommandRecord → List Byte
  | .cut => [0xC1, code]
  | .sent length args => 0xC1 :: code :: length :: args

/-- The bytes shifted in by a transaction row; none for a row that is not an SPI transaction of its own. -/
def encodeTransaction : Instr → Option (List Byte)
  | .readResult clocked => some (0xC2 :: List.replicate clocked 0)
  | .readStatus clocked => some (0xC3 :: List.replicate clocked 0)
  | .badCommand code (.command record) => some (encodeCommand code record)
  | .badCommand code (.ignored clocked) => some (code :: List.replicate clocked 0)
  | .setPeriod record => some (encodeCommand 0x01 record)
  | .readClock record => some (encodeCommand 0x02 record)
  | .allocLine record => some (encodeCommand 0x10 record)
  | .freeLine record => some (encodeCommand 0x11 record)
  | .setWriter record => some (encodeCommand 0x12 record)
  | .readLine record => some (encodeCommand 0x13 record)
  | .readPool record => some (encodeCommand 0x14 record)
  | .setLink record => some (encodeCommand 0x20 record)
  | .readLink record => some (encodeCommand 0x21 record)
  | .readCounters record => some (encodeCommand 0x22 record)
  | .setTap record => some (encodeCommand 0x30 record)
  | .clearTap record => some (encodeCommand 0x31 record)
  | .readTap record => some (encodeCommand 0x32 record)
  | .saveTap record => some (encodeCommand 0x33 record)
  | .setTempo record => some (encodeCommand 0x40 record)
  | .tapTempo record => some (encodeCommand 0x41 record)
  | .setTempoSource record => some (encodeCommand 0x42 record)
  | .setMeter record => some (encodeCommand 0x43 record)
  | .resync record => some (encodeCommand 0x44 record)
  | .readTempo record => some (encodeCommand 0x45 record)
  | .setOsc record => some (encodeCommand 0x50 record)
  | .readOsc record => some (encodeCommand 0x51 record)
  | .pushScene record => some (encodeCommand 0x60 record)
  | .popScene record => some (encodeCommand 0x61 record)
  | .dropScene record => some (encodeCommand 0x62 record)
  | .readScenes record => some (encodeCommand 0x63 record)
  | .ackNotice record => some (encodeCommand 0x70 record)
  | .setMask record => some (encodeCommand 0x71 record)
  | .readFault record => some (encodeCommand 0x72 record)
  | .clearFault record => some (encodeCommand 0x73 record)
  | .partReset record => some (encodeCommand 0x7F record)
  | .resetLine => none
  | .realEdge _ _ => none
  | .lossTimerExpiry _ => none
  | .flywheelEdge _ => none
  | .openMark _ => none
  | .inputFrame _ => none
  | .receiveTimeout _ => none
  | .closeMarkLeavesLane _ => none
  | .commitWriteComplete => none
  | .fillWriteComplete => none
  | .passStart => none
  | .passReadComplete _ => none
  | .refreshTimerExpiry => none
  | .refreshAccessComplete => none
  | .scrubClearWriteComplete => none
  | .scrubVerifyReadComplete _ => none
  | .allocComplete _ => none
  | .allocNoSpace _ => none
  | .tempoPulse => none
  | .pulseLossTimerExpiry => none
  | .commandCollision _ _ => none
  | .dataByte _ _ => none

end Sys2Proof
end

