-- ==== Sys2Proof/WellFormed.lean ====
section
/-! DEFINITION. Which commands are well formed: a BAD_COMMAND carries a code outside the command table (R169) or is a
transaction that the port ignores (R166), and a COMMAND_COLLISION carries a whole record that is not the PART_RESET that a
HELD mailbox takes (R168). -/

namespace Sys2Proof

/-- The well-formedness of a command. An argument that the part itself judges (a BAD_LENGTH or BAD_ARG record) is well
formed: judging it is the command's meaning. -/
def Instr.wellFormed : Instr → Bool
  | .badCommand code transaction => transaction.isBad code
  | .commandCollision code record => collides code record
  | .setPeriod _ => true
  | .readClock _ => true
  | .allocLine _ => true
  | .freeLine _ => true
  | .setWriter _ => true
  | .readLine _ => true
  | .readPool _ => true
  | .setLink _ => true
  | .readLink _ => true
  | .readCounters _ => true
  | .setTap _ => true
  | .clearTap _ => true
  | .readTap _ => true
  | .saveTap _ => true
  | .setTempo _ => true
  | .tapTempo _ => true
  | .setTempoSource _ => true
  | .setMeter _ => true
  | .resync _ => true
  | .readTempo _ => true
  | .setOsc _ => true
  | .readOsc _ => true
  | .pushScene _ => true
  | .popScene _ => true
  | .dropScene _ => true
  | .readScenes _ => true
  | .ackNotice _ => true
  | .setMask _ => true
  | .readFault _ => true
  | .clearFault _ => true
  | .partReset _ => true
  | .resetLine => true
  | .realEdge _ _ => true
  | .lossTimerExpiry _ => true
  | .flywheelEdge _ => true
  | .openMark _ => true
  | .inputFrame _ => true
  | .receiveTimeout _ => true
  | .closeMarkLeavesLane _ => true
  | .commitWriteComplete => true
  | .fillWriteComplete => true
  | .passStart => true
  | .passReadComplete _ => true
  | .refreshTimerExpiry => true
  | .refreshAccessComplete => true
  | .scrubClearWriteComplete => true
  | .scrubVerifyReadComplete _ => true
  | .allocComplete _ => true
  | .allocNoSpace _ => true
  | .tempoPulse => true
  | .pulseLossTimerExpiry => true
  | .dataByte _ _ => true
  | .readResult _ => true
  | .readStatus _ => true

end Sys2Proof
end

