-- ==== Sys2Proof/Machine/State.lean ====
section
/-! DEFINITION. The state of the DL416, block by block (00 section 2.2), as plain data, and the machine right after
the reset line. INVENTORY.md lists every piece with its rule. -/

namespace Sys2Proof.Machine

/-! ### The period timer (01) -/

/-- The word-clock state (01 section 1.1). -/
inductive WclkState where
  | unlocked
  | locked
  | flywheel
deriving DecidableEq, Repr

/-- The period size B: 16, 32 or 64 (R8). -/
inductive PeriodSize where
  | b16
  | b32
  | b64
deriving DecidableEq, Repr

/-- What the period timer holds (01 section 1.1). Times are readings of the reference oscillator (log 1). -/
structure Timer where
  wclk : WclkState
  lastEdge : Option Nat
  window : List Nat
  mean : Option Nat
  relockRun : List Nat
  relockReady : Bool
  running : Bool
  size : PeriodSize
  stagedSize : Option PeriodSize
  /-- The edge count e. -/
  edge : Nat
  /-- The period count; its low 8 bits are the period tag. -/
  period : PeriodCount
  /-- The sample counter. -/
  samples : SampleCount
  /-- The reading at which the loss timer expires, when armed (R4). -/
  lossTimer : Option Nat
  /-- The reading at which the flywheel timer expires, when armed (R5). -/
  flyTimer : Option Nat
deriving DecidableEq, Repr

/-! ### The delay store, its arbiter, refresh and the page pool (03) -/

/-- What the check bits of a word can tell (R31): nothing wrong, one wrong bit, or more than one. -/
inductive Integrity where
  | sound
  | oneWrong
  | manyWrong
deriving DecidableEq, Repr

/-- One store word: the sample last written and how its bits stand (log 8). -/
structure StoreWord where
  sample : Sample
  integrity : Integrity
deriving DecidableEq, Repr

/-- The store array: the words that differ from an unlisted one, word numbers strictly rising. -/
abbrev Memory := List (Nat × StoreWord)

/-- The array and the corrected count (R31, R32). -/
structure Store where
  cells : Memory
  corrected : Nat
deriving DecidableEq, Repr

/-- The outcome of a store read (R31). -/
inductive ReadOutcome where
  | clean (v : Sample)
  | corrected (v : Sample)
  | uncorrectable
deriving DecidableEq, Repr

/-- One access the arbiter serves (R34). A commit write, a fill write or a pass read whose claimant has withdrawn is no
longer live: it completes with its full effect on the store, and no claimant takes it up. -/
inductive Access where
  /-- A commit's sample write, of this engine's frame and this line's block (R69). -/
  | commitWrite (engine : Engine) (line : LineNo) (word : Nat) (v : Sample) (live : Bool)
  /-- A zero-fill write of the owed fill of this line and period (R22). -/
  | fillWrite (line : LineNo) (period : PeriodCount) (word : Nat) (live : Bool)
  /-- A pass read of this line for this engine (R33). -/
  | passRead (line : LineNo) (engine : Engine) (word : Nat) (live : Bool)
  /-- The refresh of the row at the row pointer (R40). -/
  | refresh
  /-- The scrub walker's access at its pointer, in its phase (R44, R45). -/
  | scrub
deriving DecidableEq, Repr

/-- The store arbiter (R34, R36; log 25 for the two flags). -/
structure Arbiter where
  inService : Option Access
  /-- The last access completed was a refresh. -/
  lastRefresh : Bool
  /-- No choice has been made since the backlog became urgent. -/
  urgentFirst : Bool
deriving DecidableEq, Repr

/-- The refresh walker (R39). -/
structure Refresh where
  row : Nat
  backlog : Nat
  urgent : Bool
  timerArmed : Bool
deriving DecidableEq, Repr

/-- The scrub phase (03 section 3.5). -/
inductive ScrubPhase where
  | clear
  | verify
deriving DecidableEq, Repr

/-- The scrub walker's record while it holds a page (03 section 3.5); the remaining count is 4096 less the pointer. -/
structure Walk where
  page : Page
  phase : ScrubPhase
  pointer : Nat
deriving DecidableEq, Repr

/-- The waiting allocation (R48). -/
structure Waiting where
  line : LineNo
  writer : Engine
  count : Nat
deriving DecidableEq, Repr

/-- The page pool and the scrub walker (R42, R43). -/
structure Pool where
  free : List Page
  dirty : List Page
  retired : List Page
  walker : Option Walk
  waiting : Option Waiting
deriving DecidableEq, Repr

/-! ### The line table (02) -/

/-- A line's state (02 section 2.1). -/
inductive LineState where
  | free
  | active
deriving DecidableEq, Repr

/-- A line's last-close result (R18). -/
inductive CloseResult where
  | written
  | filled
deriving DecidableEq, Repr

/-- A line record (02 section 2.1). -/
structure Line where
  state : LineState
  generation : BitVec 8
  writer : Option Engine
  stagedWriter : Option Engine
  pages : List Page
  head : Nat
  taken : Bool
  gapRun : Nat
  lastClose : CloseResult
deriving DecidableEq, Repr

/-- An owed fill on the fill list (R21). -/
structure Fill where
  period : PeriodCount
  line : LineNo
  position : Nat
  written : Nat
deriving DecidableEq, Repr

/-! ### The engine links and the commit queue (04) -/

/-- The link state (04 section 4.2). -/
inductive LinkState where
  | off
  | down
  | up
  | lost
deriving DecidableEq, Repr

/-- The input status (R72). -/
inductive InputStatus where
  | none
  | ok
  | check
  | badFrame
  | noClock
  | late
  | repeated
  | noBuffer
  | timeout
deriving DecidableEq, Repr

/-- A tally, or the input report it becomes (R72). -/
structure Tally where
  accepted : Nat
  refused : Nat
  status : InputStatus
deriving DecidableEq, Repr

/-- One link counter with its overflow flag (R73). -/
structure Counter where
  count : BitVec 16
  overflow : Bool
deriving DecidableEq, Repr

/-- A link's four counters (R73). -/
structure Counters where
  late : Counter
  refused : Counter
  check : Counter
  short : Counter
deriving DecidableEq, Repr

/-- Which of the four counters (R73). -/
inductive CounterName where
  | late
  | refused
  | check
  | short
deriving DecidableEq, Repr

/-- The receiver state, with the receive window while RECEIVING (R58, R60). -/
inductive Receiver where
  | hunt
  | receiving (buffer : Fin 2) (window : Nat)
deriving DecidableEq, Repr

/-- A staging buffer (R61). The samples of a queued buffer stand in its frame's kept blocks (log 28). -/
inductive Buffer where
  | free
  | receiving (bytes : List Byte) (overlong : Bool)
  | queued
deriving DecidableEq, Repr

/-- The state of an OUTPUT frame the transmitter holds (R74). -/
inductive FrameState where
  | opened
  | sending
  | ended
deriving DecidableEq, Repr

/-- The end status of an OUTPUT frame (R75). -/
inductive EndStatus where
  | complete
  | short
  | abort
  | muted
deriving DecidableEq, Repr

/-- The flags of an OUTPUT block (R100). -/
structure BlockFlags where
  clamped : Bool
  fading : Bool
  gap : Bool
  fault : Bool
  muted : Bool
deriving DecidableEq, Repr

/-- One OUTPUT block (R99). -/
structure OutBlock where
  tap : TapNo
  flags : BlockFlags
  samples : List Sample
deriving DecidableEq, Repr

/-- An OUTPUT frame held by a transmitter (R74). The planned count is 0 until handed; the sent count is the number of
blocks that stay in the frame. -/
structure OutFrame where
  period : PeriodCount
  report : Tally
  state : FrameState
  planned : Nat
  blocks : List OutBlock
  endStatus : Option EndStatus
deriving DecidableEq, Repr

/-- A kept block (R66). -/
structure KeptBlock where
  line : LineNo
  generation : BitVec 8
  head : Nat
  samples : List Sample
  written : Nat
deriving DecidableEq, Repr

/-- A queued frame (R68), with the kept blocks not yet written or dropped. -/
structure QueuedFrame where
  engine : Engine
  period : PeriodCount
  buffer : Fin 2
  blocks : List KeptBlock
deriving DecidableEq, Repr

/-- What an engine link holds (04 section 4.1). laneOut is the model's own: the bytes of the latest OUTPUT frame whose
close mark left the lane (log 24). -/
structure Link where
  state : LinkState
  missed : Nat
  accepted : Bool
  receiver : Receiver
  buffers : Vector Buffer 2
  tally : Tally
  report : Tally
  counters : Counters
  tx : List OutFrame
  laneOut : List Byte
deriving DecidableEq, Repr

/-! ### The tap table and the tap processor (05, 06) -/

/-- The delay mode of a set (05 section 5.1). -/
inductive DelayMode where
  | fixed
  | tempo
deriving DecidableEq, Repr

/-- A note modifier (R129). -/
inductive Modifier where
  | straight
  | dotted
  | triplet
deriving DecidableEq, Repr

/-- How a position between two samples is read (R93). -/
inductive Interpolation where
  | none
  | linear
deriving DecidableEq, Repr

/-- How a tap moves to a new setting (06 section 6.4). -/
inductive Method where
  | jump
  | glide
  | xfade
deriving DecidableEq, Repr

/-- A parameter set (05 section 5.1). Delays and depths are in 256ths of a sample. -/
structure ParamSet where
  reader : Engine
  line : LineNo
  mode : DelayMode
  fixedDelay : Nat
  noteExp : Nat
  modifier : Modifier
  gain : Nat
  inverted : Bool
  interp : Interpolation
  osc : Option OscNo
  depth : Nat
  quadrant : Nat
  method : Method
  glideRate : Nat
  /-- The crossfade length K. -/
  fadeLen : Nat
  /-- The edge fade E. -/
  edgeFade : Nat
  run : Bool
deriving DecidableEq, Repr

/-- A parameter set as SET_TAP carries it, before its fields are known to be legal (R83, R84, 12). -/
structure RawSet where
  reader : Nat
  line : Nat
  mode : Nat
  fixedDelay : Nat
  noteExp : Nat
  modifier : Nat
  gain : Nat
  polarity : Nat
  interp : Nat
  osc : Nat
  depth : Nat
  quadrant : Nat
  method : Nat
  glideRate : Nat
  fadeLen : Nat
  edgeFade : Nat
  run : Nat
  /-- Some reserved bit is not zero. -/
  reserved : Bool
deriving DecidableEq, Repr

/-- A staged edit (05 section 5.3). -/
inductive Edit where
  | start (set : ParamSet)
  | preset (set : ParamSet)
  | stop
deriving DecidableEq, Repr

/-- A tap's state (R80). -/
inductive TapState where
  | idle
  | starting
  | running
  | gliding
  | fading
  | stopping
deriving DecidableEq, Repr

/-- The reading a crossfade is leaving (R119). -/
structure OldSide where
  line : LineNo
  delay : Nat
  gain : Nat
  inverted : Bool
  interp : Interpolation
  osc : Option OscNo
  depth : Nat
  quadrant : Nat
deriving DecidableEq, Repr

/-- A tap record (05 section 5.2). Delays are in 256ths of a sample. -/
structure Tap where
  state : TapState
  current : ParamSet
  staged : Option Edit
  delay : Nat
  target : Nat
  /-- The fade progress: a count k of the fade length (R109). -/
  fadeCount : Nat
  fadeOf : Nat
  oldSide : Option OldSide
  pendingTarget : Option ParamSet
  clamped : Bool
deriving DecidableEq, Repr

/-- One store read a tap's readings need: which reading (0 the old side of a crossfade or the one reading, 1 the new
side), its line and the ring position (R93, R94). -/
structure ReadReq where
  side : Nat
  line : LineNo
  position : Nat
deriving DecidableEq, Repr

/-- A sample a pass has read. -/
structure GotSample where
  side : Nat
  position : Nat
  v : Sample
deriving DecidableEq, Repr

/-- The pass running (05 section 5.6). -/
structure Pass where
  engine : Engine
  period : PeriodCount
  planned : Nat
  handed : Nat
  /-- The taps not yet handed, the tap being computed first. -/
  taps : List TapNo
  /-- The reads of the tap being computed still to be made, the next first. -/
  todo : List ReadReq
  got : List GotSample
  /-- A read for the tap being computed was uncorrectable (R105). -/
  faulted : Bool
deriving DecidableEq, Repr

/-- The tap processor (05 section 5.6). -/
structure TapProc where
  queue : List Engine
  lead : Engine
  pass : Option Pass
deriving DecidableEq, Repr

/-- One reading of a tap, as a pass computes it for a period (R88 to R95): edge delays clamped, in 256ths, and the
transition gains at the period's two edges. It is no part of State. -/
structure Reading where
  line : LineNo
  startDelay : Nat
  endDelay : Nat
  clamped : Bool
  interp : Interpolation
  gain : Nat
  inverted : Bool
  startGain : Rat
  endGain : Rat

/-! ### The tempo unit and the oscillator bank (07, 08) -/

/-- The tempo source (07 section 7.1). -/
inductive TempoSource where
  | internal
  | external
deriving DecidableEq, Repr

/-- The external tempo state (07 section 7.7). -/
inductive ExtState where
  | idle
  | acquiring
  | following
  | lost
deriving DecidableEq, Repr

/-- What the tempo unit holds (07 section 7.1). The interval and the beat position are in 256ths of a sample. -/
structure Tempo where
  source : TempoSource
  interval : Nat
  tapSide : Bool
  oscSide : Bool
  beatsPerBar : Nat
  beatPosition : Nat
  beatNumber : Nat
  tapList : List Nat
  lastTap : Option SampleCount
  ext : ExtState
  lastPulse : Option SampleCount
  window : List Nat
  phase : Nat
  lossTimer : Option Nat
deriving DecidableEq, Repr

/-- An oscillator's shape (R148). -/
inductive Shape where
  | sine
  | triangle
  | random
deriving DecidableEq, Repr

/-- An oscillator's rate mode (R143). -/
inductive RateMode where
  | free
  | sync
deriving DecidableEq, Repr

/-- An oscillator's setting (R151). -/
structure OscSetting where
  shape : Shape
  mode : RateMode
  cycle : Nat
  noteExp : Nat
  modifier : Modifier
  restartOnBar : Bool
deriving DecidableEq, Repr

/-- A staged setting with its restart request (R151). -/
structure StagedOsc where
  setting : OscSetting
  restart : Bool
deriving DecidableEq, Repr

/-- An oscillator record (08 section 8.1). The held value is kept times 2^31. -/
structure Osc where
  setting : OscSetting
  effective : Nat
  increment : Nat
  phase : BitVec 32
  endPhase : BitVec 32
  endWrap : Bool
  held : Int
  lfsr : BitVec 32
  restartPending : Bool
  staged : Option StagedOsc
deriving DecidableEq, Repr

/-! ### Scenes, the control port, notices and faults (09, 10, 11) -/

/-- An entry of the scene stack (09 section 9.1). -/
structure Scene where
  sets : Vector ParamSet 512
  tempo : Option Nat
deriving DecidableEq, Repr

/-- The result codes (10 section 10.4). -/
inductive ResultCode where
  | ok
  | discarded
  | badCommand
  | badLength
  | badArg
  | state
  | inUse
  | noSpace
  | check
  | empty
  | source
  | safe
deriving DecidableEq, Repr

/-- The result record (R170). -/
structure ResultRecord where
  command : Byte
  code : ResultCode
  /-- The number of the failed check; 0 unless CHECK. -/
  check : Nat
  bytes : List Byte
deriving DecidableEq, Repr

/-- The command mailbox (R167). -/
inductive Mailbox where
  | empty
  | held (command : Byte)
  | done (result : ResultRecord)
deriving DecidableEq, Repr

/-- The control port. dataOut is the model's own: the bytes shifted out in the latest transaction, the zero of its
transaction code first (R193, log 24). -/
structure Port where
  mailbox : Mailbox
  collide : Bool
  dataOut : List Byte
deriving DecidableEq, Repr

/-- What an owner answers to the port: a completion with a result code, a check number and result bytes, or, for a
waiting ALLOC_LINE, nothing yet (R167, R170). -/
inductive Reply where
  | done (code : ResultCode) (check : Nat) (bytes : List Byte)
  | waits
deriving DecidableEq, Repr

/-- The notice sources in code order (11 section 11.1). -/
inductive Source where
  | safeEntered
  | storeFault
  | wclkLost
  | wclkRestored
  | tempoClockLost
  | linkLost (engine : Engine)
  | overrun (engine : Engine)
  | counterOverflow
  | poolExhausted
  | commandDone
deriving DecidableEq, Repr

/-- The pending and mask flags, source code c at bit c - 1 (R179, R194). -/
structure NoticeUnit where
  pending : BitVec 16
  mask : BitVec 16
deriving DecidableEq, Repr

/-- The kind of a store fault (11 section 11.2). -/
inductive FaultKind where
  | read
  | verify
  | refresh
deriving DecidableEq, Repr

/-- A fault entry (11 section 11.2). -/
structure FaultEntry where
  kind : FaultKind
  page : Page
  offset : Nat
  line : Option LineNo
  engine : Option Engine
deriving DecidableEq, Repr

/-- NORMAL or SAFE (11 section 11.4). -/
inductive Mode where
  | normal
  | safe
deriving DecidableEq, Repr

/-- The fault record, the fault level and the mode (11 section 11.2). -/
structure FaultUnit where
  first : Option FaultEntry
  later : Nat
  retireFull : Bool
  level : Nat
  mode : Mode
deriving DecidableEq, Repr

/-! ### The whole part -/

/-- The state of the DL416, with the queue of commands that are waiting, first in first out. -/
structure State where
  timer : Timer
  store : Store
  arbiter : Arbiter
  refresh : Refresh
  pool : Pool
  lines : Vector Line 128
  /-- The fill list of all lines (R21). -/
  fills : List Fill
  /-- The oldest period not yet closed (R24). -/
  oldestOpen : PeriodCount
  links : Vector Link 4
  /-- The commit queue (R68). -/
  commits : List QueuedFrame
  taps : Vector Tap 512
  proc : TapProc
  tempo : Tempo
  oscs : Vector Osc 16
  /-- The scene stack, the newest entry first (R155). -/
  scenes : List Scene
  port : Port
  notices : NoticeUnit
  faults : FaultUnit
  /-- The model's own: how many free values have been used (log 15). -/
  freeIx : Nat
  pending : List Instr
deriving DecidableEq, Repr

/-- A record the POP_SCENE walk carries from tap to tap (R158). It is no part of State. -/
structure PopProgress where
  state : State
  restored : Nat
  skipped : Nat
  firstSkipped : Option (TapNo × Nat)

/-- No condition of the spec stops the part: a store fault is recorded (R182), a bad command is answered (R169) and a
bad frame is refused with a status (R62), so no step of the model faults and the type has no constructor. -/
inductive Fault
deriving DecidableEq, Repr

/-- Why a step has no meaning. -/
inductive Refusal where
  /-- Raised by a refused arm of Dispatch.exec only: the command of this mnemonic is not modelled yet. Safe: nothing is
  claimed of such a step. -/
  | notModelled (mnemonic : String)
deriving DecidableEq, Repr

/-! ### The state after the reset line -/

/-- The period timer after the reset line (R11). -/
def Timer.reset : Timer :=
  { wclk := .unlocked, lastEdge := none, window := [], mean := none, relockRun := [], relockReady := false,
    running := false, size := .b32, stagedSize := none, edge := 0, period := 0, samples := 0,
    lossTimer := none, flyTimer := none }

/-- The refresh walker after the reset line (R53). -/
def Refresh.reset : Refresh := { row := 0, backlog := 0, urgent := false, timerArmed := true }

/-- Every page, P0 to P4095 in ascending order (R53). -/
def allPages : List Page := (List.range 4096).map (Fin.ofNat 4096)

/-- The page pool after the reset line: every page dirty, of which the scrub walker then takes P0 at once (R53, R43). -/
def Pool.reset : Pool :=
  { free := [], dirty := allPages.tail, retired := [],
    walker := some { page := 0, phase := .clear, pointer := 0 }, waiting := none }

/-- The arbiter after the reset line: idle, and then serving the claim of the scrub walker that has just taken P0
(R53, R43, R34; DEDUCED, log 22). -/
def Arbiter.reset : Arbiter := { inService := some .scrub, lastRefresh := false, urgentFirst := false }

/-- A line after the reset line (R30). -/
def Line.reset : Line :=
  { state := .free, generation := 0, writer := none, stagedWriter := none, pages := [], head := 0, taken := false,
    gapRun := 0, lastClose := .written }

/-- The empty tally (R72). -/
def Tally.empty : Tally := { accepted := 0, refused := 0, status := .none }

/-- A counter at 0 with its flag clear (R73). -/
def Counter.zero : Counter := { count := 0, overflow := false }

/-- Four counters at 0 (R78). -/
def Counters.zero : Counters :=
  { late := Counter.zero, refused := Counter.zero, check := Counter.zero, short := Counter.zero }

/-- A link after the reset line (R78). -/
def Link.reset : Link :=
  { state := .down, missed := 0, accepted := false, receiver := .hunt, buffers := Vector.replicate 2 .free,
    tally := Tally.empty, report := Tally.empty, counters := Counters.zero, tx := [], laneOut := [] }

/-- The all-zero parameter set (05 section 5.1). -/
def ParamSet.allZero : ParamSet :=
  { reader := 0, line := 0, mode := .fixed, fixedDelay := 0, noteExp := 0, modifier := .straight, gain := 0,
    inverted := false, interp := .none, osc := none, depth := 0, quadrant := 0, method := .jump, glideRate := 0,
    fadeLen := 0, edgeFade := 0, run := false }

/-- A tap after either reset (R107, R126). -/
def Tap.reset : Tap :=
  { state := .idle, current := ParamSet.allZero, staged := none, delay := 0, target := 0, fadeCount := 0, fadeOf := 0,
    oldSide := none, pendingTarget := none, clamped := false }

/-- The tap processor after either reset (R107). -/
def TapProc.reset : TapProc := { queue := [], lead := 3, pass := none }

/-- The tempo unit after the reset line (R141). -/
def Tempo.reset : Tempo :=
  { source := .internal, interval := 24000 * 256, tapSide := false, oscSide := false, beatsPerBar := 4,
    beatPosition := 0, beatNumber := 0, tapList := [], lastTap := none, ext := .idle, lastPulse := none, window := [],
    phase := 0, lossTimer := none }

/-- An oscillator after either reset: its LFSR holds its number plus one (R153). -/
def Osc.reset (m : OscNo) : Osc :=
  { setting := { shape := .sine, mode := .free, cycle := 0, noteExp := 0, modifier := .straight, restartOnBar := false },
    effective := 0, increment := 0, phase := 0, endPhase := 0, endWrap := false, held := 0,
    lfsr := BitVec.ofNat 32 (m.val + 1), restartPending := false, staged := none }

/-- The control port after the reset line (R178). -/
def Port.reset : Port := { mailbox := .empty, collide := false, dataOut := [] }

/-- The notice unit after the reset line: nothing pending, everything masked (R187). -/
def NoticeUnit.reset : NoticeUnit := { pending := 0, mask := 0xFFFF }

/-- The fault unit after either reset (R187). -/
def FaultUnit.reset : FaultUnit := { first := none, later := 0, retireFull := false, level := 0, mode := .normal }

/-- The machine right after the reset line, with a store that nothing has written (log 7) and an empty queue. -/
def State.reset : State :=
  { timer := Timer.reset, store := { cells := [], corrected := 0 }, arbiter := Arbiter.reset, refresh := Refresh.reset,
    pool := Pool.reset, lines := Vector.replicate 128 Line.reset, fills := [], oldestOpen := 0,
    links := Vector.replicate 4 Link.reset, commits := [], taps := Vector.replicate 512 Tap.reset,
    proc := TapProc.reset, tempo := Tempo.reset, oscs := Vector.ofFn Osc.reset, scenes := [], port := Port.reset,
    notices := NoticeUnit.reset, faults := FaultUnit.reset, freeIx := 0, pending := [] }

end Sys2Proof.Machine
end

