-- ==== Sys2Proof/Machine/Flags.lean ====
section
/-! DEFINITION. Every flag computation of the spec: the notice flags and the notice line (R179, R181), the link counters
with their overflow flags (R73), the flags of an OUTPUT block (R100, R190), the status word (R175, R193), and the codes
the names travel as (R193, R194). -/

namespace Sys2Proof.Machine

/-! ### Codes: names are numbered from 0 in the order their table lists them (R194) -/

/-- The period size as a number of samples. -/
def PeriodSize.toNat : PeriodSize → Nat
  | .b16 => 16
  | .b32 => 32
  | .b64 => 64

/-- The period size a number names, if it is 16, 32 or 64 (R8). -/
def PeriodSize.ofNat? : Nat → Option PeriodSize
  | 16 => some .b16
  | 32 => some .b32
  | 64 => some .b64
  | _ => none

def WclkState.code : WclkState → Nat
  | .unlocked => 0
  | .locked => 1
  | .flywheel => 2

def ScrubPhase.code : ScrubPhase → Nat
  | .clear => 0
  | .verify => 1

def LineState.code : LineState → Nat
  | .free => 0
  | .active => 1

def CloseResult.code : CloseResult → Nat
  | .written => 0
  | .filled => 1

def LinkState.code : LinkState → Nat
  | .off => 0
  | .down => 1
  | .up => 2
  | .lost => 3

/-- The input status codes (R190). -/
def InputStatus.code : InputStatus → Nat
  | .none => 0
  | .ok => 1
  | .check => 2
  | .badFrame => 3
  | .noClock => 4
  | .late => 5
  | .repeated => 6
  | .noBuffer => 7
  | .timeout => 8

def FrameState.code : FrameState → Nat
  | .opened => 0
  | .sending => 1
  | .ended => 2

/-- The end status codes (R190). -/
def EndStatus.code : EndStatus → Nat
  | .complete => 0
  | .short => 1
  | .abort => 2
  | .muted => 3

def TapState.code : TapState → Nat
  | .idle => 0
  | .starting => 1
  | .running => 2
  | .gliding => 3
  | .fading => 4
  | .stopping => 5

/-- The kinds of staged edit in the order of 05 section 5.2: a start, a preset, a stop, or none. -/
def Edit.code : Option Edit → Nat
  | some (.start _) => 0
  | some (.preset _) => 1
  | some .stop => 2
  | none => 3

def DelayMode.code : DelayMode → Nat
  | .fixed => 0
  | .tempo => 1

def Modifier.code : Modifier → Nat
  | .straight => 0
  | .dotted => 1
  | .triplet => 2

def Interpolation.code : Interpolation → Nat
  | .none => 0
  | .linear => 1

def Method.code : Method → Nat
  | .jump => 0
  | .glide => 1
  | .xfade => 2

def TempoSource.code : TempoSource → Nat
  | .internal => 0
  | .external => 1

def ExtState.code : ExtState → Nat
  | .idle => 0
  | .acquiring => 1
  | .following => 2
  | .lost => 3

def Shape.code : Shape → Nat
  | .sine => 0
  | .triangle => 1
  | .random => 2

def RateMode.code : RateMode → Nat
  | .free => 0
  | .sync => 1

def FaultKind.code : FaultKind → Nat
  | .read => 0
  | .verify => 1
  | .refresh => 2

def Mode.code : Mode → Nat
  | .normal => 0
  | .safe => 1

/-- The result codes (R193). -/
def ResultCode.code : ResultCode → Nat
  | .ok => 0
  | .discarded => 1
  | .badCommand => 2
  | .badLength => 3
  | .badArg => 4
  | .state => 5
  | .inUse => 6
  | .noSpace => 7
  | .check => 8
  | .empty => 9
  | .source => 10
  | .safe => 11

/-- The mailbox state codes (R193). -/
def Mailbox.code : Mailbox → Nat
  | .empty => 0
  | .held _ => 1
  | .done _ => 2

/-! ### Notices -/

/-- A source's code, 1 to 16, which is also its priority (11 section 11.1). -/
def Source.code : Source → Nat
  | .safeEntered => 1
  | .storeFault => 2
  | .wclkLost => 3
  | .wclkRestored => 4
  | .tempoClockLost => 5
  | .linkLost e => 6 + e.val
  | .overrun e => 10 + e.val
  | .counterOverflow => 14
  | .poolExhausted => 15
  | .commandDone => 16

/-- The flag of the source with this code: bit code - 1 (R194). -/
def sourceBit (code : Nat) : BitVec 16 := 1#16 <<< (code - 1)

/-- The pending flags after a raising: a source already pending stays pending (R179). -/
def NoticeUnit.raise (n : NoticeUnit) (src : Source) : NoticeUnit :=
  { n with pending := n.pending ||| sourceBit src.code }

/-- A source is raised (R179): its pending flag is set, masked or not. -/
def raise (src : Source) (s : State) : State := { s with notices := s.notices.raise src }

/-- The notice line: some source is both pending and unmasked (R179). -/
def NoticeUnit.line (n : NoticeUnit) : Bool := (n.pending &&& ~~~n.mask) != 0

/-- The lowest-numbered source that is both pending and unmasked, or 0 (R180). -/
def NoticeUnit.first (n : NoticeUnit) : Nat :=
  (((List.range 16).find? fun i => (n.pending &&& ~~~n.mask).getLsbD i).map (· + 1)).getD 0

/-- The flags after the source with this code is acknowledged; code 0 clears nothing (R180). -/
def NoticeUnit.acknowledge (n : NoticeUnit) (code : Nat) : NoticeUnit :=
  if code = 0 then n else { n with pending := n.pending &&& ~~~(sourceBit code) }

/-! ### Link counters -/

/-- A counter's count after an advance: it wraps from 65535 to 0, and a wrap sets the overflow flag (R73). -/
def Counter.advance (c : Counter) (k : Nat) : Counter :=
  { count := c.count + BitVec.ofNat 16 k, overflow := c.overflow || decide (65536 ≤ c.count.toNat + k) }

/-- The advance takes the overflow flag from clear to set, which raises COUNTER_OVERFLOW (R73). -/
def Counter.newlyOverflows (c : Counter) (k : Nat) : Bool := !c.overflow && decide (65536 ≤ c.count.toNat + k)

def Counters.get (c : Counters) : CounterName → Counter
  | .late => c.late
  | .refused => c.refused
  | .check => c.check
  | .short => c.short

def Counters.put (c : Counters) (x : Counter) : CounterName → Counters
  | .late => { c with late := x }
  | .refused => { c with refused := x }
  | .check => { c with check := x }
  | .short => { c with short := x }

/-- A counter with its count set to 0 and its flag kept (R176). -/
def Counter.clearCount (c : Counter) : Counter := { c with count := 0 }

/-- The four counters with their counts set to 0 and their flags kept (R176, CLEAR_KEEP_FLAGS). -/
def Counters.clearCounts (c : Counters) : Counters :=
  { late := c.late.clearCount, refused := c.refused.clearCount, check := c.check.clearCount,
    short := c.short.clearCount }

/-! ### The flags of a block and the status word -/

/-- A block's flags byte (R190). -/
def BlockFlags.byte (f : BlockFlags) : Byte :=
  BitVec.ofNat 8 (f.clamped.toNat + 2 * f.fading.toNat + 4 * f.gap.toNat + 8 * f.fault.toNat + 16 * f.muted.toNat)

/-- The flags of a block made in SAFE: MUTED and no other (R100). -/
def BlockFlags.mutedOnly : BlockFlags :=
  { clamped := false, fading := false, gap := false, fault := false, muted := true }

/-- The period tag: the low 8 bits of a period count (R3). -/
def periodTag (p : PeriodCount) : Byte := p.setWidth 8

/-- The status word (R175, R193). -/
def statusWord (s : State) : List Byte :=
  [BitVec.ofNat 8 (s.port.mailbox.code + 4 * s.port.collide.toNat + 8 * s.notices.line.toNat
      + 16 * s.faults.mode.code + 32 * s.timer.wclk.code),
   BitVec.ofNat 8 s.tempo.ext.code,
   periodTag s.timer.period]

end Sys2Proof.Machine
end

