-- ==== Sys2Proof/Machine/Operands.lean ====
section
/-! DEFINITION. Every operand form: the fields of a command record (R194), the parameter set's 24 bytes (12), the bytes
of a result item (R188, R194), and the bytes of INPUT and OUTPUT frames with their CRC (R190 to R192). -/

namespace Sys2Proof.Machine

/-! ### Numbers in bytes, most significant first (R188) -/

/-- The number a list of bytes carries. -/
def natOfBytes (bs : List Byte) : Nat := bs.foldl (fun acc b => acc * 256 + b.toNat) 0

/-- A number in n bytes; a number too wide for the field keeps its low bits. -/
def bytesOf (n v : Nat) : List Byte := (List.range n).map fun i => BitVec.ofNat 8 (v / 256 ^ (n - 1 - i))

/-- A number that may be absent: none is all ones in the field's width (R194). -/
def bytesOfOption (n : Nat) : Option Nat → List Byte
  | some v => bytesOf n v
  | none => List.replicate n 0xFF

/-- A flag as a byte (R194). -/
def flagByte (b : Bool) : List Byte := [BitVec.ofNat 8 b.toNat]

/-- The argument byte at an offset. -/
def argByte (args : List Byte) (i : Nat) : Nat := (args.getD i 0).toNat

/-- The n-byte argument at an offset. -/
def argField (args : List Byte) (i n : Nat) : Nat := natOfBytes ((args.drop i).take n)

/-! ### The parameter set (12, "The parameter set") -/

/-- The parameter set at an offset of the arguments, field by field, with whether some reserved bit is not zero. -/
def RawSet.parse (args : List Byte) (o : Nat) : RawSet :=
  let note := argByte args (o + 7)
  let phase := argByte args (o + 17)
  { reader := argByte args o
    line := argByte args (o + 1)
    mode := argByte args (o + 2)
    fixedDelay := (argField args (o + 3) 3 % 2 ^ 20) * 256 + argByte args (o + 6)
    noteExp := note % 16
    modifier := note / 16 % 4
    gain := argField args (o + 8) 3
    polarity := argByte args (o + 11)
    interp := argByte args (o + 12)
    osc := argByte args (o + 13)
    depth := argField args (o + 14) 3
    quadrant := phase % 4
    method := argByte args (o + 18)
    glideRate := argField args (o + 19) 2
    fadeLen := argByte args (o + 21)
    edgeFade := argByte args (o + 22)
    run := argByte args (o + 23)
    reserved := argByte args (o + 3) / 16 != 0 || note / 64 != 0 || phase / 4 != 0 }

/-- A modifier code; code 3 has no value and the checks refuse it (R84, R129, R151). -/
def Modifier.ofCode (c : Nat) : Modifier := if c = 0 then .straight else if c = 1 then .dotted else .triplet

/-- The screen of R83: a field outside its range or a code its layout does not define is refused BAD_ARG. -/
def RawSet.screened (r : RawSet) : Bool :=
  decide (65536 < r.gain) || decide (256 < r.glideRate) || decide (64 < r.fadeLen) || decide (64 < r.edgeFade)
    || decide (16 < r.osc) || decide (1 < r.mode) || decide (1 < r.polarity) || decide (1 < r.interp)
    || decide (2 < r.method) || decide (1 < r.run)

/-- The parameter set the fields name, once the screen and the checks have passed. -/
def RawSet.toSet (r : RawSet) : ParamSet :=
  { reader := Fin.ofNat 4 r.reader
    line := Fin.ofNat 128 r.line
    mode := if r.mode = 0 then .fixed else .tempo
    fixedDelay := r.fixedDelay
    noteExp := r.noteExp
    modifier := Modifier.ofCode r.modifier
    gain := r.gain
    inverted := r.polarity != 0
    interp := if r.interp = 0 then .none else .linear
    osc := if r.osc = 0 then none else some (Fin.ofNat 16 (r.osc - 1))
    depth := r.depth
    quadrant := r.quadrant
    method := if r.method = 0 then .jump else if r.method = 1 then .glide else .xfade
    glideRate := r.glideRate
    fadeLen := r.fadeLen
    edgeFade := r.edgeFade
    run := r.run != 0 }

/-- An oscillator's code in a set: none 0, M0 to M15 as 1 to 16. -/
def oscCode : Option OscNo → Nat
  | none => 0
  | some m => m.val + 1

/-- The fields of a kept set, as a set just received (R159 judges an entry's set by the checks of SET_TAP). -/
def ParamSet.toRaw (p : ParamSet) : RawSet :=
  { reader := p.reader.val, line := p.line.val, mode := p.mode.code, fixedDelay := p.fixedDelay, noteExp := p.noteExp,
    modifier := p.modifier.code, gain := p.gain, polarity := p.inverted.toNat, interp := p.interp.code,
    osc := oscCode p.osc, depth := p.depth, quadrant := p.quadrant, method := p.method.code, glideRate := p.glideRate,
    fadeLen := p.fadeLen, edgeFade := p.edgeFade, run := p.run.toNat, reserved := false }

/-- The 24 bytes of a parameter set. -/
def ParamSet.bytes (p : ParamSet) : List Byte :=
  bytesOf 1 p.reader.val ++ bytesOf 1 p.line.val ++ bytesOf 1 p.mode.code ++ bytesOf 4 p.fixedDelay
    ++ bytesOf 1 (p.noteExp + 16 * p.modifier.code) ++ bytesOf 3 p.gain ++ flagByte p.inverted
    ++ bytesOf 1 p.interp.code ++ bytesOf 1 (oscCode p.osc) ++ bytesOf 3 p.depth ++ bytesOf 1 p.quadrant
    ++ bytesOf 1 p.method.code ++ bytesOf 2 p.glideRate ++ bytesOf 1 p.fadeLen ++ bytesOf 1 p.edgeFade
    ++ flagByte p.run

/-- A set that may be absent: its first byte, the reader engine, is all ones when there is none (R194, log 20). -/
def optionalSetBytes : Option ParamSet → List Byte
  | some p => p.bytes
  | none => [0xFF]

/-- The old side of a crossfade: its first byte, the line, is all ones when there is none (R194, log 20). -/
def optionalOldSideBytes : Option OldSide → List Byte
  | some o => bytesOf 1 o.line.val ++ bytesOf 4 o.delay ++ bytesOf 3 o.gain ++ flagByte o.inverted
      ++ bytesOf 1 o.interp.code ++ bytesOf 1 (oscCode o.osc) ++ bytesOf 3 o.depth ++ bytesOf 1 o.quadrant
  | none => [0xFF]

/-- The set a staged edit carries, if it is a start or a preset (R87). -/
def stagedSetBytes : Option Edit → List Byte
  | some (.start p) => p.bytes
  | some (.preset p) => p.bytes
  | some .stop => []
  | none => []

/-! ### The oscillator setting (R194) -/

/-- SET_OSC's arguments carry a code its layout does not define, k above 15 or modifier code 3 (R151). -/
def oscArgsIllegal (args : List Byte) : Bool :=
  decide (15 < argByte args 0) || decide (2 < argByte args 1) || decide (1 < argByte args 2)
    || decide (15 < argByte args 7) || decide (2 < argByte args 8) || decide (1 < argByte args 9)
    || decide (1 < argByte args 10)

/-- The setting SET_OSC carries, with its restart request (R151, R194). -/
def StagedOsc.parse (args : List Byte) : StagedOsc :=
  { setting :=
      { shape := if argByte args 1 = 0 then .sine else if argByte args 1 = 1 then .triangle else .random
        mode := if argByte args 2 = 0 then .free else .sync
        cycle := argField args 3 4
        noteExp := argByte args 7
        modifier := Modifier.ofCode (argByte args 8)
        restartOnBar := argByte args 9 != 0 }
    restart := argByte args 10 != 0 }

/-- The bytes of a setting (R152, R194). -/
def OscSetting.bytes (o : OscSetting) : List Byte :=
  bytesOf 1 o.shape.code ++ bytesOf 1 o.mode.code ++ bytesOf 4 o.cycle ++ bytesOf 1 o.noteExp
    ++ bytesOf 1 o.modifier.code ++ flagByte o.restartOnBar

/-- The staged setting with its restart request, or all ones in its first byte (R152, log 20). -/
def optionalStagedOscBytes : Option StagedOsc → List Byte
  | some o => o.setting.bytes ++ flagByte o.restart
  | none => [0xFF]

/-- A signed number in 4 bytes, two's complement (R194). -/
def bytesOfInt32 (v : Int) : List Byte := bytesOf 4 (BitVec.ofInt 32 v).toNat

/-! ### The CRC and the frames (R190 to R192) -/

/-- One data bit into the CRC register (R192). -/
def crcBit (reg : BitVec 16) (bit : Bool) : BitVec 16 :=
  let shifted := reg <<< 1
  if xor reg.msb bit then shifted ^^^ 0x8005 else shifted

/-- One byte into the CRC register, bit 7 first (R192). -/
def crcByte (reg : BitVec 16) (b : Byte) : BitVec 16 :=
  (List.range 8).foldl (fun r i => crcBit r (b.getLsbD (7 - i))) reg

/-- The CRC-16 over the covered bytes (R192). -/
def crc16 (bs : List Byte) : BitVec 16 := bs.foldl crcByte 0xFFFF

/-- The bytes of an INPUT frame with n blocks at a period size: 6 + n × (2 + 3B) (R190). -/
def inputLength (b n : Nat) : Nat := 6 + n * (2 + 3 * b)

/-- The largest legal number of data bytes of an INPUT frame (R190). -/
def maxInputLength (b : Nat) : Nat := inputLength b 64

/-- The CRC a frame carries, its last two data bytes, is the CRC of the bytes before them (R190). -/
def crcMatches (bs : List Byte) : Bool :=
  decide (natOfBytes (bs.drop (bs.length - 2)) = (crc16 (bs.take (bs.length - 2))).toNat)

/-- A sample carried in three bytes at an offset (R188). -/
def sampleAt (bs : List Byte) (o : Nat) : Sample := BitVec.ofNat 24 (argField bs o 3)

/-- Block i of an INPUT frame: its line-number byte and its B samples (12 section 12.1). -/
def inputBlock (bs : List Byte) (b i : Nat) : Nat × List Sample :=
  let o := 4 + i * (2 + 3 * b)
  (argByte bs o, (List.range b).map fun j => sampleAt bs (o + 2 + 3 * j))

/-- The blocks of an INPUT frame, in frame order. -/
def inputBlocks (bs : List Byte) (b : Nat) : List (Nat × List Sample) :=
  (List.range (argByte bs 3)).map (inputBlock bs b)

/-- The bytes of an OUTPUT block (R190). -/
def OutBlock.bytes (b : OutBlock) : List Byte :=
  bytesOf 2 b.tap.val ++ [b.flags.byte] ++ b.samples.flatMap fun v => bytesOf 3 v.toNat

/-- The bytes of a tally as an input report (R190). -/
def Tally.bytes (t : Tally) : List Byte :=
  bytesOf 1 t.accepted ++ bytesOf 1 t.refused ++ bytesOf 1 t.status.code

/-- The data bytes of an OUTPUT frame from the kind through the sent count (R190, R191). -/
def OutFrame.body (f : OutFrame) (e : Engine) : List Byte :=
  [0x81] ++ bytesOf 1 e.val ++ [periodTag f.period] ++ f.report.bytes ++ bytesOf 2 f.planned
    ++ f.blocks.flatMap OutBlock.bytes
    ++ bytesOf 1 ((f.endStatus.map EndStatus.code).getD 0) ++ bytesOf 2 f.blocks.length

/-- The data bytes of an OUTPUT frame with its CRC (R191, R192). -/
def OutFrame.bytes (f : OutFrame) (e : Engine) : List Byte :=
  f.body e ++ bytesOf 2 (crc16 (f.body e)).toNat

end Sys2Proof.Machine
end

