-- ==== Sys2Proof/Machine/Ops.lean ====
section
/-! DEFINITION. The named operations that the meanings share: reading and writing the tables, the store array and the
ring (R12, R31), the fill list (R21) and the close of periods (R24), the arbiter's choice (R34 to R38), OUTPUT frames
(R74, R75), the completion of a command (R170), the page pool's moves (R43, R48) and the taking of a store fault with
the entry into SAFE (R182, R185), which is this part's one exception. -/

namespace Sys2Proof.Machine

/-! ### The tables -/

def State.line (s : State) (l : LineNo) : Line := s.lines[l.val]
def State.setLine (s : State) (l : LineNo) (x : Line) : State := { s with lines := s.lines.set l.val x }
def State.link (s : State) (e : Engine) : Link := s.links[e.val]
def State.setLink (s : State) (e : Engine) (x : Link) : State := { s with links := s.links.set e.val x }
def State.tap (s : State) (t : TapNo) : Tap := s.taps[t.val]
def State.setTap (s : State) (t : TapNo) (x : Tap) : State := { s with taps := s.taps.set t.val x }
def State.osc (s : State) (m : OscNo) : Osc := s.oscs[m.val]
def State.setOsc (s : State) (m : OscNo) (x : Osc) : State := { s with oscs := s.oscs.set m.val x }

/-- The period size B in samples. -/
def State.size (s : State) : Nat := s.timer.size.toNat

/-- The part is in SAFE. -/
def State.inSafe (s : State) : Bool := s.faults.mode == .safe

/-- E0 to E3 in order. -/
def allEngines : List Engine := [0, 1, 2, 3]

/-- L0 to L127 in order. -/
def allLines : List LineNo := (List.range 128).map (Fin.ofNat 128)

/-- T0 to T511 in order. -/
def allTaps : List TapNo := (List.range 512).map (Fin.ofNat 512)

/-! ### The store array (R31) -/

/-- What a word that is not listed reads as (DESIGN CHOICE, log 7). -/
def StoreWord.unlisted : StoreWord := { sample := 0, integrity := .sound }

/-- The word at a word number. -/
def Memory.read : Memory → Nat → StoreWord
  | [], _ => StoreWord.unlisted
  | (a, x) :: m, w => if a = w then x else Memory.read m w

/-- A list entry for a word, unless the word is what an unlisted one reads as. -/
def Memory.consWord (w : Nat) (v : StoreWord) (m : Memory) : Memory := if v = StoreWord.unlisted then m else (w, v) :: m

/-- The array with one word replaced, in canonical form. -/
def Memory.write : Memory → Nat → StoreWord → Memory
  | [], w, v => Memory.consWord w v []
  | (a, x) :: m, w, v =>
    if w < a then Memory.consWord w v ((a, x) :: m)
    else if a = w then Memory.consWord w v m
    else (a, x) :: Memory.write m w v

/-- The canonical form above a bound: word numbers strictly rising and above the bound, no entry equal to an unlisted
word. -/
def Memory.wfFrom : Option Nat → Memory → Bool
  | _, [] => true
  | low, (a, x) :: m => low.all (· < a) && x != StoreWord.unlisted && Memory.wfFrom (some a) m

/-- The canonical form of the array. -/
def Memory.wf (m : Memory) : Bool := Memory.wfFrom none m

/-- A store write places a sample with fresh check bits (R31). -/
def storeWrite (w : Nat) (v : Sample) (s : State) : State :=
  { s with store := { s.store with cells := s.store.cells.write w { sample := v, integrity := .sound } } }

/-- What has happened to a word's bits shows in it (R31, log 8): one wrong bit more makes a sound word a word with a
single wrong bit, and a word with a wrong bit one with two. What three or more wrong bits read as is the upset's to say, the
spec being silent (DESIGN CHOICE, log 8). -/
def StoreWord.upset (c : StoreWord) : Upset → StoreWord
  | .untouched => c
  | .oneBit => { c with integrity := if c.integrity = .sound then .oneWrong else .manyWrong }
  | .manyBits => { c with integrity := .manyWrong }
  | .altered v => { sample := v, integrity := .sound }
  | .miscorrected v => { sample := v, integrity := .oneWrong }

/-- The outcome of reading a word (R31). -/
def StoreWord.outcome (c : StoreWord) : ReadOutcome :=
  match c.integrity with
  | .sound => .clean c.sample
  | .oneWrong => .corrected c.sample
  | .manyWrong => .uncorrectable

/-- The sample a read returns: zero for an uncorrectable word (R31). -/
def ReadOutcome.sample : ReadOutcome → Sample
  | .clean v => v
  | .corrected v => v
  | .uncorrectable => 0

/-- The outcome of the read of a word that meets an upset. -/
def readOutcome (w : Nat) (u : Upset) (s : State) : ReadOutcome := ((s.store.cells.read w).upset u).outcome

/-- A store read (R31, R32): the word keeps its wrong bits, and a corrected read advances the corrected count, which
stays at 65535. -/
def storeRead (w : Nat) (u : Upset) (s : State) : State :=
  let cell := (s.store.cells.read w).upset u
  let corrected := if cell.integrity = .oneWrong then min 65535 (s.store.corrected + 1) else s.store.corrected
  { s with store := { cells := s.store.cells.write w cell, corrected := corrected } }

/-! ### The ring (R12) -/

/-- The page of a word. -/
def pageOfWord (w : Nat) : Page := Fin.ofNat 4096 (w / 4096)

/-- The word of a page at an offset (R12). -/
def wordOf (p : Page) (offset : Nat) : Nat := p.val * 4096 + offset

/-- A line's length L. -/
def Line.length (l : Line) : Nat := l.pages.length * 4096

/-- The store word at a ring position, taken modulo L; a FREE line has no mapping (R12). -/
def Line.wordAt (l : Line) (position : Nat) : Option Nat :=
  if l.state = .active ∧ l.length ≠ 0 then
    let p := position % l.length
    (l.pages[p / 4096]?).map fun page => wordOf page (p % 4096)
  else none

/-- The ACTIVE line whose page list holds a page, or none (R41). -/
def lineHolding (s : State) (p : Page) : Option LineNo :=
  allLines.find? fun l => (s.line l).state == .active && (s.line l).pages.contains p

/-! ### Ages of periods, the fill list and the close of periods (R21, R24, R37) -/

/-- How many boundaries ago a period began, modulo 2^32: the older of two periods has the larger age (log 12). -/
def age (now p : PeriodCount) : Nat := (now - p).toNat

/-- One period is older than another. -/
def olderThan (now p q : PeriodCount) : Bool := decide (age now q < age now p)

/-- The place of an owed fill on the fill list: after every fill of an older period and after the fills of its own
period on lower-numbered lines (R21). -/
def insertFill (now : PeriodCount) (f : Fill) : List Fill → List Fill
  | [] => [f]
  | g :: gs =>
    if olderThan now g.period f.period || (g.period == f.period && decide (g.line < f.line)) then
      g :: insertFill now f gs
    else f :: g :: gs

/-- A line's owed fills, oldest first (02 section 2.1). -/
def owedFills (fs : List Fill) (l : LineNo) : List Fill := fs.filter (·.line == l)

/-- A fill of this line and period is owed. -/
def owesFill (fs : List Fill) (l : LineNo) (p : PeriodCount) : Bool := fs.any fun f => f.line == l && f.period == p

/-- A fill is owed (R21): inserted in its place; if its line then holds three, the oldest of the three is withdrawn. -/
def oweFill (now : PeriodCount) (f : Fill) (fs : List Fill) : List Fill :=
  let fs' := insertFill now f fs
  if 2 < (owedFills fs' f.line).length then fs'.eraseP (·.line == f.line) else fs'

/-- The oldest of some periods, none being older than now. -/
def oldestOf (now : PeriodCount) (ps : List PeriodCount) : PeriodCount :=
  ps.foldl (fun o p => if olderThan now p o then p else o) now

/-- The oldest period not yet closed, worked out from the commit queue and the fill list: no period before the oldest
of theirs and of the current one waits for a write (R24). -/
def closedUpTo (s : State) : PeriodCount :=
  oldestOf s.timer.period (s.commits.map (·.period) ++ s.fills.map (·.period))

/-- The line table brings its oldest period not yet closed up to date (R24). -/
def updateClosed (s : State) : State := { s with oldestOpen := closedUpTo s }

/-! ### Staging buffers and the commit queue (R61, R68, R69) -/

/-- A staging buffer becomes free (R61). -/
def freeBuffer (e : Engine) (b : Fin 2) (s : State) : State :=
  s.setLink e { s.link e with buffers := (s.link e).buffers.set b.val .free }

/-- A kept block's line is ACTIVE with the generation recorded (R25). -/
def blockStands (s : State) (k : KeptBlock) : Bool :=
  (s.line k.line).state == .active && (s.line k.line).generation == k.generation

/-- The commit has nothing more to write of this block: it is written, or its line has gone (R25, R69). -/
def blockOver (s : State) (k : KeptBlock) : Bool := !blockStands s k || decide (s.size ≤ k.written)

/-- Frames leave the head of the commit queue while they have no block left to write, each freeing its buffer; the
blocks at the head of the first frame that stays are dropped while their lines are gone (R69). -/
def drainFrames (s : State) : List QueuedFrame → State
  | [] => { s with commits := [] }
  | f :: fs =>
    match f.blocks.dropWhile (blockOver s) with
    | [] => drainFrames (freeBuffer f.engine f.buffer s) fs
    | blocks => { s with commits := { f with blocks := blocks } :: fs }

/-- The commit queue after an event that may end its head frame. -/
def drainCommits (s : State) : State := drainFrames s s.commits

/-! ### The arbiter (R34 to R38) -/

/-- The commit's claim: the next sample of the head frame's head block (R69). -/
def commitClaim (s : State) : Option (PeriodCount × Access) :=
  match s.commits with
  | [] => none
  | f :: _ =>
    match f.blocks with
    | [] => none
    | k :: _ =>
      ((s.line k.line).wordAt (k.head + k.written)).map fun w =>
        (f.period, .commitWrite f.engine k.line w (k.samples.getD k.written 0) true)

/-- The claim of the fill at the head of the fill list (R22). -/
def fillClaim (s : State) : Option (PeriodCount × Access) :=
  match s.fills with
  | [] => none
  | f :: _ =>
    ((s.line f.line).wordAt (f.position + f.written)).map fun w => (f.period, .fillWrite f.line f.period w true)

/-- Class 2 serves the older period first, and the commit where both belong to the same period (R37). -/
def class2Claim (s : State) : Option Access :=
  match commitClaim s, fillClaim s with
  | some (p, c), some (q, f) => some (if olderThan s.timer.period q p then f else c)
  | some (_, c), none => some c
  | none, some (_, f) => some f
  | none, none => none

/-- Class 3: the next read of the pass in progress (R99). -/
def passClaim (s : State) : Option Access :=
  match s.proc.pass with
  | none => none
  | some p =>
    match p.todo with
    | [] => none
    | r :: _ => ((s.line r.line).wordAt r.position).map fun w => .passRead r.line p.engine w true

/-- Refresh claims while its backlog is at least 1 (R39). -/
def refreshClaim (s : State) : Option Access := if s.refresh.backlog = 0 then none else some .refresh

/-- Class 5: the scrub walker claims while it holds a page (R44, R45). -/
def scrubClaim (s : State) : Option Access := if s.pool.walker.isSome then some .scrub else none

/-- The arbiter's choice among the waiting claims (R35, R36, R38). -/
def chooseClaim (s : State) : Option Access :=
  if s.inSafe then refreshClaim s
  else if s.refresh.urgent then
    if s.arbiter.urgentFirst || !s.arbiter.lastRefresh then
      (refreshClaim s).or ((class2Claim s).or ((passClaim s).or (scrubClaim s)))
    else (class2Claim s).or ((passClaim s).or ((scrubClaim s).or (refreshClaim s)))
  else (class2Claim s).or ((passClaim s).or ((refreshClaim s).or (scrubClaim s)))

/-- An idle arbiter serves its choice at once; one with an access in service goes on with it (R34). -/
def serve (s : State) : State :=
  match s.arbiter.inService with
  | some _ => s
  | none =>
    match chooseClaim s with
    | none => s
    | some a => { s with arbiter := { s.arbiter with inService := some a, urgentFirst := false } }

/-- The access in service has completed (R34). -/
def endAccess (wasRefresh : Bool) (s : State) : State :=
  { s with arbiter := { s.arbiter with inService := none, lastRefresh := wasRefresh } }

/-- What follows every event that may change the claims: the commit queue is drained, the closed periods are brought up
to date, and the arbiter serves its choice if it is idle. -/
def settle (s : State) : State := serve (updateClosed (drainCommits s))

/-- The write in service, if it is a commit's that a test names, has lost its claimant; it completes all the same (R34,
log 10). -/
def orphanCommit (which : Engine → LineNo → Bool) (s : State) : State :=
  match s.arbiter.inService with
  | some (.commitWrite e l w v live) =>
    { s with arbiter := { s.arbiter with inService := some (.commitWrite e l w v (live && !which e l)) } }
  | _ => s

/-- The fill write in service, if its fill is owed no longer, has lost its claimant; it completes all the same, and no
fill that is owed later takes it up (R22, R34, log 10). -/
def orphanFills (s : State) : State :=
  match s.arbiter.inService with
  | some (.fillWrite l p w live) =>
    { s with arbiter := { s.arbiter with inService := some (.fillWrite l p w (live && owesFill s.fills l p)) } }
  | _ => s

/-- The pass read in service, if there is one, has lost its pass; it completes all the same (R34, R102). -/
def orphanPassRead (s : State) : State :=
  match s.arbiter.inService with
  | some (.passRead l e w _) => { s with arbiter := { s.arbiter with inService := some (.passRead l e w false) } }
  | _ => s

/-! ### OUTPUT frames (R74, R75) -/

/-- The tap processor hands something to an engine's OUTPUT frame of a period; a frame that has ended takes nothing
further (R75). -/
def handFrame (e : Engine) (period : PeriodCount) (hand : OutFrame → OutFrame) (s : State) : State :=
  s.setLink e { s.link e with tx := (s.link e).tx.map fun f => if f.period = period ∧ f.state ≠ .ended then hand f else f }

/-- The planned block count is handed: the frame is SENDING (R74). -/
def OutFrame.plan (n : Nat) (f : OutFrame) : OutFrame := { f with state := .sending, planned := n }

/-- A block is handed (R99). -/
def OutFrame.addBlock (b : OutBlock) (f : OutFrame) : OutFrame := { f with blocks := f.blocks ++ [b] }

/-- The end status is handed: the frame is ENDED (R74). -/
def OutFrame.finish (status : EndStatus) (f : OutFrame) : OutFrame := { f with state := .ended, endStatus := some status }

/-- ABORT (R75): a frame in SENDING keeps the blocks already on the lane, one in OPENED is sent with a planned count of
0 and no blocks, and one already ENDED goes on as it was. -/
def OutFrame.abort (onLane : Nat) (f : OutFrame) : OutFrame :=
  match f.state with
  | .opened => { f with state := .ended, planned := 0, blocks := [], endStatus := some .abort }
  | .sending => { f with state := .ended, blocks := f.blocks.take onLane, endStatus := some .abort }
  | .ended => f

/-- Every frame a transmitter holds is aborted; only the first can have blocks on the lane (R74, R75). -/
def abortFrames (onLane : Nat) : List OutFrame → List OutFrame
  | [] => []
  | f :: fs => f.abort onLane :: fs.map (OutFrame.abort 0)

/-- A transmitter ends its frames with ABORT. How many blocks are on the lane is a free value (log 15), and never more
than were handed. -/
def abortTransmitter (e : Engine) (s : State) : State :=
  let s' := s.setLink e { s.link e with tx := abortFrames (Config.laneProgress s.freeIx) (s.link e).tx }
  { s' with freeIx := s.freeIx + 1 }

/-! ### Advancing a link counter (R73) -/

/-- A counter of an engine's link advances; when its overflow flag goes from clear to set, COUNTER_OVERFLOW is raised
(R73). -/
def advanceCounter (e : Engine) (name : CounterName) (k : Nat) (s : State) : State :=
  let c := (s.link e).counters.get name
  let s' := s.setLink e { s.link e with counters := (s.link e).counters.put (c.advance k) name }
  if c.newlyOverflows k then raise .counterOverflow s' else s'

/-! ### Completing a command (R170) -/

/-- A command completes: its result record is in the mailbox, which is DONE, and COMMAND_DONE is raised (R170). -/
def complete (command : Byte) (code : ResultCode) (check : Nat) (bytes : List Byte) (s : State) : State :=
  raise .commandDone
    { s with port :=
      { s.port with mailbox := .done { command := command, code := code, check := check, bytes := bytes } } }

/-! ### The page pool (R43, R48) -/

/-- ALLOC_LINE's command code (R194). -/
def allocCode : Byte := 0x10

/-- The number of pages that scrub could still bring to the free list without any line being freed (R48). -/
def Pool.reachable (p : Pool) : Nat := p.free.length + p.dirty.length + (if p.walker.isSome then 1 else 0)

/-- While it holds no page, in NORMAL, the scrub walker takes the head of the dirty queue, in CLEAR (R43). -/
def walkerTakes (s : State) : State :=
  if s.inSafe || s.pool.walker.isSome then s
  else
    match s.pool.dirty with
    | [] => s
    | p :: ps =>
      { s with pool := { s.pool with dirty := ps, walker := some { page := p, phase := .clear, pointer := 0 } } }

/-- The n pages at the head of the free list become the page list of a line, which becomes ACTIVE (R15, R48, R49). -/
def takePages (l : LineNo) (writer : Engine) (n : Nat) (s : State) : State :=
  let old := s.line l
  let s' := s.setLine l
    { state := .active, generation := old.generation + 1, writer := some writer, stagedWriter := none,
      pages := s.pool.free.take n, head := 0, taken := old.taken, gapRun := 0, lastClose := .written }
  { s' with pool := { s.pool with free := s.pool.free.drop n } }

/-- The result of an allocation: the new generation and the page count (R15). -/
def allocResult (l : LineNo) (n : Nat) (s : State) : List Byte := bytesOf 1 (s.line l).generation.toNat ++ bytesOf 2 n

/-- The waiting allocation ends without pages, with a result code (R50). -/
def endWaiting (code : ResultCode) (s : State) : State :=
  match s.pool.waiting with
  | none => s
  | some _ => complete allocCode code 0 [] { s with pool := { s.pool with waiting := none } }

/-- The page pool looks at the waiting allocation after a page has joined the free list (R49). -/
def lookAtWaiting (s : State) : State :=
  match s.pool.waiting with
  | none => s
  | some w =>
    if w.count ≤ s.pool.free.length then
      let s' := takePages w.line w.writer w.count { s with pool := { s.pool with waiting := none } }
      complete allocCode .ok 0 (allocResult w.line w.count s') s'
    else s

/-- The page pool looks at the waiting allocation after a page has been retired (R50). -/
def lookAtShortage (s : State) : State :=
  match s.pool.waiting with
  | none => s
  | some w =>
    if s.pool.reachable < w.count then
      endWaiting .noSpace (if s.pool.dirty.isEmpty then s else raise .poolExhausted s)
    else s

/-! ### A store fault, and the entry into SAFE (R182, R185) -/

/-- A tap is handed as a MUTED block of B zero samples, which clears its CLAMPED indicator (R106). -/
def handMuted (e : Engine) (period : PeriodCount) (t : TapNo) (s : State) : State :=
  let block : OutBlock := { tap := t, flags := BlockFlags.mutedOnly, samples := List.replicate s.size 0 }
  (handFrame e period (OutFrame.addBlock block) s).setTap t { s.tap t with clamped := false }

/-- The taps of a pass that are left are handed MUTED and the pass ends MUTED (R101, R106). -/
def muteTaps (e : Engine) (period : PeriodCount) (ts : List TapNo) (s : State) : State :=
  handFrame e period (OutFrame.finish .muted) (ts.foldl (fun s t => handMuted e period t s) s)

/-- A pass that runs when SAFE is entered places no further read (R106). R106 lets the boundary cut such a pass before all
its MUTED blocks are handed: that they are all handed, and the pass ended MUTED, at the entry itself, even with a read of
the pass in service, so that no boundary finds it running, is the model's choice (DESIGN CHOICE, log 35). -/
def mutePass (s : State) : State :=
  match s.proc.pass with
  | none => s
  | some p =>
    let s' := muteTaps p.engine p.period p.taps (orphanPassRead s)
    { s' with proc := { s'.proc with pass := none } }

/-- Every queued frame leaves the commit queue, its buffer free, and nothing is owed for it (R71, R79). -/
def emptyCommits (s : State) : State :=
  let s' := s.commits.foldl (fun s f => freeBuffer f.engine f.buffer s) (orphanCommit (fun _ _ => true) s)
  { s' with commits := [] }

/-- Every owed fill is withdrawn (R28). -/
def withdrawFills (s : State) : State := orphanFills { s with fills := [] }

/-- The entry into SAFE, block by block (R185): the links' queued frames leave, the owed fills are withdrawn, the
running pass is muted and a waiting allocation ends with SAFE. The scrub walker and the arbiter follow the mode. -/
def enterSafe (s : State) : State :=
  let s1 := raise .safeEntered { s with faults := { s.faults with mode := .safe } }
  endWaiting .safe (mutePass (withdrawFills (emptyCommits s1)))

/-- The fault record after a store fault: the first fault is kept as it was taken, later ones are counted, and the
RETIRE_FULL note sets its indicator (R182). -/
def FaultUnit.record (u : FaultUnit) (entry : FaultEntry) (retireFull : Bool) : FaultUnit :=
  { u with
    first := some (u.first.getD entry)
    later := if u.first.isSome then min 255 (u.later + 1) else u.later
    retireFull := u.retireFull || retireFull
    level := min 3 (u.level + 1) }

/-- A store fault is taken (R182): recorded, STORE_FAULT raised, and, in NORMAL at level 3, SAFE entered. -/
def storeFault (entry : FaultEntry) (retireFull : Bool) (s : State) : State :=
  let s' := raise .storeFault { s with faults := s.faults.record entry retireFull }
  if s.faults.mode = .normal ∧ 3 ≤ s.faults.level then enterSafe s' else s'

end Sys2Proof.Machine
end

