-- ==== Sys2Proof/Machine/Port.lean ====
section
/-! DEFINITION. The control port (10): taking and judging a command (R167 to R170, R172), the two reading transactions
(R171, R175), a collision (R168), an unknown command code (R169) and an ignored transaction (R166). The commands' owners stand in their own families;
PART_RESET stands in Reset.lean. -/

namespace Sys2Proof.Machine

/-! ### Taking a command -/

/-- Test 2 of R169: the argument length is the one the command's layout defines, it is at most 60, and the transaction
carried exactly that many argument bytes. -/
def lengthFits (code length : Byte) (args : List Byte) : Bool :=
  commandTable.any fun row =>
    row.1 == code && length.toNat == row.2 && args.length == row.2 && decide (length.toNat ≤ 60)

/-- The commands SAFE takes, by their codes (R172, R194): READ_CLOCK, READ_LINE, READ_POOL, READ_LINK, READ_COUNTERS,
READ_TAP, READ_TEMPO, READ_OSC, READ_SCENES, ACK_NOTICE, SET_MASK, READ_FAULT, CLEAR_FAULT and PART_RESET. -/
def takenInSafe (code : Byte) : Bool :=
  [0x02, 0x13, 0x14, 0x21, 0x22, 0x32, 0x45, 0x51, 0x63, 0x70, 0x71, 0x72, 0x73, 0x7F].contains code

/-- The mailbox holds the command in progress; what it held before is discarded (R167). -/
def hold (code : Byte) (s : State) : State := { s with port := { s.port with mailbox := .held code } }

/-- A command is ignored and COLLIDE set (R168). -/
def collide (s : State) : State := { s with port := { s.port with collide := true } }

/-- The owner's answer completes the command, or leaves it waiting in the mailbox (R167, R170). -/
def answer (code : Byte) (reply : Reply × State) : State :=
  match reply with
  | (.done result check bytes, s) => complete code result check bytes s
  | (.waits, s) => s

/-- A command taken into the mailbox is judged by tests 2 and 3 and handed to its owner (R169). -/
def takeCommand (code : Byte) (owner : List Byte → State → Reply × State) (length : Byte) (args : List Byte) (s : State) :
    State :=
  if !lengthFits code length args then complete code .badLength 0 [] (hold code s)
  else if s.inSafe && !takenInSafe code then complete code .safe 0 [] (hold code s)
  else answer code (owner args (hold code s))

/-- The port has shifted out as many zeros in the latest transaction (R193). -/
def zerosOut (n : Nat) (s : State) : State := { s with port := { s.port with dataOut := List.replicate n 0 } }

/-- The bytes of a WRITE_COMMAND transaction: the transaction code, the command code and, unless it was released before,
the argument length and the argument bytes. A zero is shifted out for each (R193). -/
def recordBytes : CommandRecord → Nat
  | .cut => 2
  | .sent _ args => 3 + args.length

/-- The WRITE_COMMAND transaction that carries a command's code (R166 to R168): it shifts out zeros; released before the
argument length it changes nothing else, in HELD it collides, in EMPTY and DONE it is taken. -/
def writeCommand (code : Byte) (owner : List Byte → State → Reply × State) (record : CommandRecord) (s : State) : State :=
  let s' := zerosOut (recordBytes record) s
  match record with
  | .cut => s'
  | .sent length args =>
    match s.port.mailbox with
    | .held _ => collide s'
    | _ => takeCommand code owner length args s'

/-- An owner that completes with OK and some result bytes, and changes nothing. -/
def okBytes (bytes : List Byte) (s : State) : Reply × State := (.done .ok 0 bytes, s)

/-- An owner that refuses with a code, and changes nothing. -/
def refuse (code : ResultCode) (s : State) : Reply × State := (.done code 0 [], s)

/-! ### The reading transactions -/

/-- The bytes of the result record (R193). A READ_LINK result has no bound, since no rule bounds the frames a transmitter
holds: that the result length of one longer than 65,535 bytes sends its low 16 bits, with every byte still behind it, so
that only a transaction that shifts them all out takes the result away, is the model's choice (DESIGN CHOICE, log 33). -/
def ResultRecord.wire (r : ResultRecord) : List Byte :=
  [r.command] ++ bytesOf 1 r.code.code ++ bytesOf 1 r.check ++ bytesOf 2 r.bytes.length ++ r.bytes

/-- The reply of a READ_RESULT (R171, R193): the mailbox state, and the result record in DONE. -/
def resultReply (s : State) : List Byte :=
  match s.port.mailbox with
  | .done r => bytesOf 1 2 ++ r.wire
  | m => bytesOf 1 m.code

/-- The bytes shifted out after the transaction code: the reply, then zeros, as many as were clocked (R193, R194). -/
def shiftOut (reply : List Byte) (clocked : Nat) : List Byte :=
  (reply ++ List.replicate (clocked - reply.length) 0).take clocked

/-- The result record is removed (R171). -/
def collect (s : State) : State :=
  match s.port.mailbox with
  | .done _ => { s with port := { s.port with mailbox := .empty } }
  | _ => s

/-- The port has shifted out a reply, behind the zero it shifts out during the transaction code (R193). -/
def shifted (reply : List Byte) (clocked : Nat) (s : State) : State :=
  { s with port := { s.port with dataOut := 0 :: shiftOut reply clocked } }

/-- READ_RESULT (R171): the result is removed when the whole reply was shifted out. -/
def execReadResult (clocked : Nat) (s : State) : Host.Outcome State Fault Refusal :=
  let s' := shifted (resultReply s) clocked s
  .next (if (resultReply s).length ≤ clocked then collect s' else s')

/-- READ_STATUS (R175): COLLIDE is cleared when the whole word was shifted out. -/
def execReadStatus (clocked : Nat) (s : State) : Host.Outcome State Fault Refusal :=
  let s' := shifted (statusWord s) clocked s
  .next (if (statusWord s).length ≤ clocked then { s' with port := { s'.port with collide := false } } else s')

/-! ### A collision and an unknown code -/

/-- COMMAND_COLLISION (R168). A record that R168 lets a HELD mailbox ignore sets COLLIDE; anything else is no collision
and changes nothing (log 26). -/
def execCommandCollision (code : Byte) (record : CommandRecord) (s : State) : Host.Outcome State Fault Refusal :=
  .next
    (match s.port.mailbox with
    | .held _ => if collides code record then collide (zerosOut (recordBytes record) s) else s
    | _ => s)

/-- A WRITE_COMMAND whose code is not in the command table (R166 to R169, test 1). -/
def refuseUnknown (code : Byte) (record : CommandRecord) (s : State) : State :=
  let s' := zerosOut (recordBytes record) s
  match record with
  | .cut => s'
  | .sent _ _ =>
    match s.port.mailbox with
    | .held _ => collide s'
    | _ => complete code .badCommand 0 [] (hold code s')

/-- BAD_COMMAND (R169), and a transaction that the port ignores (R166): that one shifts out a zero for every byte, its code's
among them, and changes nothing else (log 34). A code of the command table is no bad command, and a transaction that the
port does not ignore is none of these: they change nothing (log 26). -/
def execBadCommand (code : Byte) (transaction : BadTransaction) (s : State) : Host.Outcome State Fault Refusal :=
  .next
    (if transaction.isBad code then
      match transaction with
      | .command record => refuseUnknown code record s
      | .ignored clocked => zerosOut (1 + clocked) s
    else s)

end Sys2Proof.Machine
end

