-- ==== Sys2Proof/Machine/Tempo.lean ====
section
/-! DEFINITION. The tempo unit (07): adoption (R127), note lengths (R129), beats and bars (R130, R131), the tempo
commands (R132 to R136, R140) and the tempo clock line (R137 to R139). Intervals and positions are in 256ths of a sample. -/

namespace Sys2Proof.Machine

/-! ### Beats and bars -/

/-- A bar start reaches the oscillator bank: the restart-pending flag of each oscillator whose present setting restarts on
the bar is set (R147). -/
def barStart (s : State) : State :=
  { s with oscs := s.oscs.map fun o => { o with restartPending := o.restartPending || o.setting.restartOnBar } }

/-- The beat number advances by one, with a bar start if it reaches beats per bar (R130). -/
def advanceBeat (s : State) : State :=
  if s.tempo.beatNumber + 1 = s.tempo.beatsPerBar then
    barStart { s with tempo := { s.tempo with beatNumber := 0 } }
  else { s with tempo := { s.tempo with beatNumber := s.tempo.beatNumber + 1 } }

/-- The beat position advances by one sample, and the beat wraps at Ib (R130). -/
def advancePosition (s : State) : State :=
  let position := s.tempo.beatPosition + 256
  if s.tempo.interval ≤ position then
    advanceBeat { s with tempo := { s.tempo with beatPosition := position - s.tempo.interval } }
  else { s with tempo := { s.tempo with beatPosition := position } }

/-- The tempo clock is judged lost: the external state becomes LOST, the timer is disarmed and TEMPO_CLOCK_LOST is raised
(R139). -/
def loseTempoClock (s : State) : State :=
  raise .tempoClockLost { s with tempo := { s.tempo with ext := .lost, lossTimer := none } }

/-- The external state is one in which the pulse loss timer is judged (R139). -/
def ExtState.isFollower : ExtState → Bool
  | .acquiring => true
  | .following => true
  | .idle => false
  | .lost => false

/-- The pulse loss timer counts down by one, and at 0 in ACQUIRING or FOLLOWING the clock is lost (R139). -/
def countPulseLoss (s : State) : State :=
  match s.tempo.lossTimer with
  | none => s
  | some n =>
    if n ≤ 1 ∧ s.tempo.ext.isFollower then loseTempoClock s
    else { s with tempo := { s.tempo with lossTimer := some (n - 1) } }

/-- The tempo unit takes a sample edge (R130, R139). -/
def tempoEdge (s : State) : State := countPulseLoss (advancePosition s)

/-- The beat is aligned to a tap or a pulse, judged with the Ib that stood before the event (R131). -/
def alignBeat (ib : Nat) (s : State) : State :=
  let s' := { s with tempo := { s.tempo with beatPosition := 0 } }
  if ib ≤ 2 * s.tempo.beatPosition then advanceBeat s' else s'

/-- The beat position and beat number become 0, with a bar start (R133, R136). -/
def restartBeat (s : State) : State :=
  barStart { s with tempo := { s.tempo with beatPosition := 0, beatNumber := 0 } }

/-! ### The interval -/

/-- 4096 samples. -/
def minInterval : Nat := 4096 * 256

/-- 524,288 samples. -/
def maxInterval : Nat := 524288 * 256

/-- An interval brought into range (R127). -/
def clampInterval (v : Nat) : Nat := min maxInterval (max minInterval v)

/-- The tempo unit adopts an interval (R127). -/
def adopt (v : Nat) (s : State) : State :=
  let ib := clampInterval v
  let tempo := { s.tempo with interval := ib, tapSide := true, oscSide := true }
  if ib ≤ tempo.beatPosition then
    advanceBeat { s with tempo := { tempo with beatPosition := tempo.beatPosition % ib } }
  else { s with tempo := tempo }

/-- The margin an offer from taps or pulses must exceed: 256 × |new − Ib| > Ib (R127). -/
def passesHysteresis (ib v : Nat) : Bool :=
  let new := clampInterval v
  decide (ib < 256 * ((new - ib) + (ib - new)))

/-- An interval offered with hysteresis (R127). -/
def offer (v : Nat) (s : State) : State := if passesHysteresis s.tempo.interval v then adopt v s else s

/-- A fraction rounded to the nearest whole number, a value exactly halfway being rounded up. -/
def roundUpHalf (n d : Nat) : Nat := (2 * n + d) / (2 * d)

/-- The numerator of the modifier's factor f, over 6: 1, 3/2 and 2/3 (R129). -/
def Modifier.sixths : Modifier → Nat
  | .straight => 6
  | .dotted => 9
  | .triplet => 4

/-- The note length of an exponent and a modifier at an interval, as an exact fraction in the interval's unit (R129). -/
def noteLength (ib k : Nat) (m : Modifier) : Nat × Nat := (ib * 4 * m.sixths, 6 * 2 ^ (k % 8))

/-! ### The tempo commands -/

/-- SET_TEMPO's work (R132). -/
def ownSetTempo (args : List Byte) (s : State) : Reply × State :=
  match s.tempo.source with
  | .external => refuse .source s
  | .internal =>
    let s' := adopt (argField args 0 4) s
    (.done .ok 0 (bytesOf 4 s'.tempo.interval), s')

/-- SET_TEMPO (R132). -/
def execSetTempo (record : CommandRecord) (s : State) : Host.Outcome State Fault Refusal :=
  .next (writeCommand 0x40 ownSetTempo record s)

/-- The difference of two sample-counter values, modulo 2^40 (07 section 7.1). -/
def sampleSpan (now before : SampleCount) : Nat := (now - before).toNat

/-- The mean of the tap list, rounded to the nearest 256th (R133). -/
def tapMean (taps : List Nat) : Nat := roundUpHalf (taps.foldl (· + ·) 0 * 256) taps.length

/-- A list to whose tail an item joins, the oldest leaving first if it already held n (R133, R138, R1). -/
def joinTail (n : Nat) (xs : List Nat) (x : Nat) : List Nat := (if n ≤ xs.length then xs.drop 1 else xs) ++ [x]

/-- The result of a tap: the outcome (IGNORED 0, RESTART 1, COUNTED 2), the number of intervals in the list, the mean
offered, and whether it was adopted (R133, R194). R133 lists the mean if the tap was counted: that an IGNORED or RESTART tap
sends it as none, four bytes of all ones, is the model's choice (DESIGN CHOICE, log 32). -/
def tapResult (outcome : Nat) (mean : Option Nat) (adopted : Bool) (s : State) : List Byte :=
  bytesOf 1 outcome ++ bytesOf 1 s.tempo.tapList.length ++ bytesOfOption 4 mean ++ flagByte adopted

/-- A tap that begins a new sequence (R133). -/
def restartTaps (s : State) : Reply × State :=
  let s' := restartBeat { s with tempo := { s.tempo with tapList := [], lastTap := some s.timer.samples } }
  (.done .ok 0 (tapResult 1 none false s'), s')

/-- A tap counted (R133): the interval joins the list, the beat is aligned, and then the mean is offered. -/
def countTap (span : Nat) (s : State) : Reply × State :=
  let taps := joinTail 4 s.tempo.tapList span
  let s1 := alignBeat s.tempo.interval { s with tempo := { s.tempo with tapList := taps, lastTap := some s.timer.samples } }
  let s2 := offer (tapMean taps) s1
  (.done .ok 0 (tapResult 2 (some (tapMean taps)) (passesHysteresis s1.tempo.interval (tapMean taps)) s2), s2)

/-- TAP_TEMPO's work (R133). -/
def ownTapTempo (_args : List Byte) (s : State) : Reply × State :=
  match s.tempo.source with
  | .external => refuse .source s
  | .internal =>
    match s.tempo.lastTap with
    | none => restartTaps s
    | some t =>
      let span := sampleSpan s.timer.samples t
      if span < 4096 then (.done .ok 0 (tapResult 0 none false s), s)
      else if 524288 < span then restartTaps s
      else countTap span s

/-- TAP_TEMPO (R133). -/
def execTapTempo (record : CommandRecord) (s : State) : Host.Outcome State Fault Refusal :=
  .next (writeCommand 0x41 ownTapTempo record s)

/-- The follower with nothing measured, in an external state (R134, R142). -/
def Tempo.clearFollower (ext : ExtState) (t : Tempo) : Tempo :=
  { t with ext := ext, lastPulse := none, window := [], phase := 0, lossTimer := none }

/-- SET_TEMPO_SOURCE's work (R134): INTERNAL 0, EXTERNAL 1. -/
def ownSetTempoSource (args : List Byte) (s : State) : Reply × State :=
  if 1 < argByte args 0 then refuse .badArg s
  else if argByte args 0 = s.tempo.source.code then okBytes [] s
  else if argByte args 0 = 0 then
    okBytes [] { s with tempo :=
      { s.tempo.clearFollower .idle with source := .internal, tapList := [], lastTap := none } }
  else
    okBytes [] { s with tempo :=
      { s.tempo.clearFollower .acquiring with source := .external, tapList := [], lastTap := none } }

/-- SET_TEMPO_SOURCE (R134). -/
def execSetTempoSource (record : CommandRecord) (s : State) : Host.Outcome State Fault Refusal :=
  .next (writeCommand 0x42 ownSetTempoSource record s)

/-- SET_METER's work (R135). -/
def ownSetMeter (args : List Byte) (s : State) : Reply × State :=
  let beats := argByte args 0
  if beats < 1 ∨ 16 < beats then refuse .badArg s
  else
    okBytes [] { s with tempo := { s.tempo with beatsPerBar := beats, beatNumber := s.tempo.beatNumber % beats } }

/-- SET_METER (R135). -/
def execSetMeter (record : CommandRecord) (s : State) : Host.Outcome State Fault Refusal :=
  .next (writeCommand 0x43 ownSetMeter record s)

/-- RESYNC's work (R136). -/
def ownResync (_args : List Byte) (s : State) : Reply × State :=
  okBytes [] (restartBeat { s with tempo := { s.tempo with phase := 0 } })

/-- RESYNC (R136). -/
def execResync (record : CommandRecord) (s : State) : Host.Outcome State Fault Refusal :=
  .next (writeCommand 0x44 ownResync record s)

/-- The bytes READ_TEMPO returns (R140, R194, log 20). The first spacing of ACQUIRING has no bound: that a pulse window
whose sum is above 2^32 − 1 sends the sum's low 32 bits is the model's choice (DESIGN CHOICE, log 33). -/
def tempoBytes (t : Tempo) : List Byte :=
  bytesOf 1 t.source.code ++ bytesOf 4 t.interval ++ flagByte t.tapSide ++ flagByte t.oscSide ++ bytesOf 1 t.beatsPerBar
    ++ bytesOf 1 t.beatNumber ++ bytesOf 4 t.beatPosition ++ bytesOf 1 t.tapList.length ++ t.tapList.flatMap (bytesOf 4 <| · * 256)
    ++ bytesOfOption 5 (t.lastTap.map BitVec.toNat) ++ bytesOf 1 t.ext.code ++ bytesOf 1 t.window.length
    ++ bytesOf 4 (t.window.foldl (· + ·) 0) ++ bytesOf 1 t.phase ++ flagByte t.lossTimer.isSome

/-- READ_TEMPO's work (R140). -/
def ownReadTempo (_args : List Byte) (s : State) : Reply × State := okBytes (tempoBytes s.tempo) s

/-- READ_TEMPO (R140). -/
def execReadTempo (record : CommandRecord) (s : State) : Host.Outcome State Fault Refusal :=
  .next (writeCommand 0x45 ownReadTempo record s)

/-! ### The tempo clock line -/

/-- A pulse's spacing joins the window, its reading becomes the last pulse time and the loss timer is armed for three
times the spacing (R137, R138). -/
def Tempo.takeSpacing (now : SampleCount) (spacing : Nat) (t : Tempo) : Tempo :=
  { t with window := joinTail 24 t.window spacing, lastPulse := some now, lossTimer := some (3 * spacing) }

/-- The window's sum, in 256ths, is offered with hysteresis (R137, R138). -/
def offerWindow (s : State) : State := offer (s.tempo.window.foldl (· + ·) 0 * 256) s

/-- A pulse in ACQUIRING with a spacing (R137). -/
def acquirePulse (spacing : Nat) (s : State) : State :=
  let s1 := { s with tempo := s.tempo.takeSpacing s.timer.samples spacing }
  if s1.tempo.window.length = 24 then
    let s2 := offerWindow { s1 with tempo := { s1.tempo with ext := .following } }
    alignBeat s.tempo.interval { s2 with tempo := { s2.tempo with phase := 0 } }
  else s1

/-- A pulse in FOLLOWING with a spacing (R138). -/
def followPulse (spacing : Nat) (s : State) : State :=
  let s1 := offerWindow { s with tempo := s.tempo.takeSpacing s.timer.samples spacing }
  if s1.tempo.phase + 1 = 24 then
    alignBeat s.tempo.interval { s1 with tempo := { s1.tempo with phase := 0 } }
  else { s1 with tempo := { s1.tempo with phase := s1.tempo.phase + 1 } }

/-- A pulse measured from the last pulse time: with none held it only sets it, and one with a spacing of 0 is ignored
(R137, R138). -/
def measurePulse (take : Nat → State → State) (s : State) : State :=
  match s.tempo.lastPulse with
  | none => { s with tempo := { s.tempo with lastPulse := some s.timer.samples } }
  | some t => if sampleSpan s.timer.samples t = 0 then s else take (sampleSpan s.timer.samples t) s

/-- A pulse on the tempo clock line (R137 to R139). -/
def takePulse (s : State) : State :=
  match s.tempo.ext with
  | .idle => s
  | .acquiring => measurePulse acquirePulse s
  | .following => measurePulse followPulse s
  | .lost =>
    { s with tempo := { s.tempo with ext := .acquiring, window := [], phase := 0, lastPulse := some s.timer.samples } }

/-- TEMPO_PULSE (R137 to R139). -/
def execTempoPulse (s : State) : Host.Outcome State Fault Refusal := .next (takePulse s)

/-- PULSE_LOSS_TIMER_EXPIRY (R139): the timer reaches 0 in ACQUIRING or FOLLOWING. It expires at the sample edge that takes
its last count (log 14); with more left, or not armed, nothing expires (log 2). -/
def execPulseLossTimerExpiry (s : State) : Host.Outcome State Fault Refusal :=
  .next
    (match s.tempo.lossTimer with
    | none => s
    | some n => if n ≤ 1 ∧ s.tempo.ext.isFollower then loseTempoClock s else s)

end Sys2Proof.Machine
end

