-- ==== Sys2Proof/Machine/Osc.lean ====
section
/-! DEFINITION. The oscillator bank (08): cycle length and increment (R143, R144), the boundary work (R145), the random
shape (R146), what an oscillator gives a tap (R148, R149), and its two commands (R151, R152). -/

namespace Sys2Proof.Machine

/-! ### Cycle length and increment -/

/-- A length brought into the range 2B to 2^24 (R143). -/
def clampCycle (b v : Nat) : Nat := min (2 ^ 24) (max (2 * b) v)

/-- The effective cycle length of a setting at a period size and a tempo interval (R143). -/
def effectiveLength (b ib : Nat) (o : OscSetting) : Nat :=
  match o.mode with
  | .free => if o.cycle = 0 then 0 else clampCycle b o.cycle
  | .sync =>
    let (n, d) := noteLength ib o.noteExp o.modifier
    clampCycle b (roundUpHalf n (d * 256))

/-- The number is a power of two. -/
def isPowerOfTwo (n : Nat) : Bool := n != 0 && n &&& (n - 1) == 0

/-- A number brought between two bounds. -/
def clampNat (low high v : Nat) : Nat := min high (max low v)

/-- The increment of an effective cycle length (R144): 0 for 0, exact for a power of two, and else the free value brought
within a relative 2^-14 of 2^32/Lc; where no whole number lies within it, one of the two whole numbers about 2^32/Lc
(log 16). -/
def approxReciprocal (lc : Nat) : Nat :=
  if lc = 0 then 0
  else if isPowerOfTwo lc then 2 ^ 32 / lc
  else
    let low := (2 ^ 18 * (2 ^ 14 - 1) + lc - 1) / lc
    let high := 2 ^ 18 * (2 ^ 14 + 1) / lc
    if low ≤ high then clampNat low high (Config.reciprocal lc)
    else clampNat (2 ^ 32 / lc) (2 ^ 32 / lc + 1) (Config.reciprocal lc)

/-! ### The random shape -/

/-- One step of the LFSR (R146). -/
def lfsrStep (r : BitVec 32) : BitVec 32 :=
  let bit := xor (xor (r.getLsbD 31) (r.getLsbD 21)) (xor (r.getLsbD 1) (r.getLsbD 0))
  (r <<< 1) ||| (BitVec.ofBool bit).setWidth 32

/-- The 32 steps that make a new value (R146). -/
def lfsrRenew (r : BitVec 32) : BitVec 32 := (List.range 32).foldl (fun r _ => lfsrStep r) r

/-- The value of a register, times 2^31 (R146). -/
def randomValue (r : BitVec 32) : Int := (r.toNat : Int) - 2 ^ 31

/-- The next value, times 2^31: the register is not stepped (R146). -/
def Osc.nextValue (o : Osc) : Int := randomValue (lfsrRenew o.lfsr)

/-- A new value is taken (R146); an oscillator of another shape only steps its register (R145). -/
def Osc.renew (o : Osc) : Osc :=
  let r := lfsrRenew o.lfsr
  match o.setting.shape with
  | .random => { o with lfsr := r, held := randomValue r }
  | .sine => { o with lfsr := r }
  | .triangle => { o with lfsr := r }

/-! ### The boundary work of one oscillator (R145) -/

/-- Step 1: the staged setting becomes the setting. -/
def Osc.applySetting (o : Osc) : Osc :=
  match o.staged with
  | none => o
  | some x => { o with setting := x.setting, restartPending := o.restartPending || x.restart, staged := none }

/-- Step 2: the effective cycle length and the increment are recomputed. -/
def Osc.recompute (b ib : Nat) (o : Osc) : Osc :=
  let lc := effectiveLength b ib o.setting
  { o with effective := lc, increment := approxReciprocal lc }

/-- Steps 3 and 4: restart or advance, and the random value. -/
def Osc.move (o : Osc) : Osc :=
  if o.restartPending then { o with phase := 0, restartPending := false }.renew
  else if o.endWrap then { o with phase := o.endPhase }.renew
  else { o with phase := o.endPhase }

/-- Step 5: the end phase and the end-wrap flag. -/
def Osc.aim (b : Nat) (o : Osc) : Osc :=
  let sum := o.phase.toNat + b * o.increment
  { o with endPhase := BitVec.ofNat 32 sum, endWrap := decide (2 ^ 32 ≤ sum) }

/-- The five steps (R145). found: the oscillator-side indicator was set; resized: B changed at this boundary. -/
def Osc.boundary (b ib : Nat) (found resized : Bool) (o : Osc) : Osc :=
  let o1 := o.applySetting
  let o2 := if o.staged.isSome || (o1.setting.mode == .sync && found) || resized then o1.recompute b ib else o1
  o2.move.aim b

/-- The bank's boundary work (R145): the oscillator-side indicator is read and cleared. -/
def oscBoundary (resized : Bool) (s : State) : State :=
  { s with
    oscs := s.oscs.map (Osc.boundary s.size s.tempo.interval s.tempo.oscSide resized)
    tempo := { s.tempo with oscSide := false } }

/-! ### What an oscillator gives (R148, R149) -/

/-- π to twenty places. -/
def piApprox : Rat := 314159265358979323846 / 10 ^ 20

/-- The divisors 2n(2n + 1) of the sine's series. -/
def sineDivisors : List Nat := [6, 20, 42, 72, 110, 156, 210, 272, 342, 420, 506]

/-- The sine of an angle up to a quarter turn, by its series to the twenty-third power; its error is below 2^-60. -/
def sineSeries (x : Rat) : Rat := x * sineDivisors.foldr (fun (d : Nat) tail => 1 - x * x / d * tail) 1

/-- The series at the angle of a phase up to 2^30. -/
def sineNear (p : Nat) : Rat := sineSeries (2 * piApprox * p / 2 ^ 32)

/-- How far a SINE value may lie from the series: R148's bound, less what the series itself may be off. -/
def sineMargin : Rat := 1 / 2 ^ 16 - 1 / 2 ^ 60

/-- A value brought between two bounds. -/
def clampRat (low high v : Rat) : Rat := min high (max low v)

/-- The SINE shape over the first quarter, at a phase from 0 to 2^30: exact at its ends, elsewhere the free value brought
within 2^-16 of the true value (R148, log 17). -/
def sineQuarter (p : Nat) : Rat :=
  if p = 0 then 0
  else if p = 2 ^ 30 then 1
  else clampRat (max 0 (sineNear p - sineMargin)) (min 1 (sineNear p + sineMargin)) (Config.sine p)

/-- The first half of the SINE shape, by its symmetry: the value at 2^31 − φ equals the value at φ (R148). -/
def sineHalf (p : Nat) : Rat := if p ≤ 2 ^ 30 then sineQuarter p else sineQuarter (2 ^ 31 - p)

/-- The SINE shape: the value at φ + 2^31 is the negative of the value at φ (R148). -/
def sineValue (p : BitVec 32) : Rat :=
  if p.toNat < 2 ^ 31 then sineHalf p.toNat else -(sineHalf (p.toNat - 2 ^ 31))

/-- The TRIANGLE shape, exactly (R148). -/
def triangleValue (p : BitVec 32) : Rat :=
  let x : Rat := (p.toNat : Rat) / 2 ^ 32
  if p.toNat ≤ 2 ^ 30 then 4 * x else if p.toNat ≤ 3 * 2 ^ 30 then 2 - 4 * x else 4 * x - 4

/-- A phase with a quadrant added (R149). -/
def quadrantPhase (p : BitVec 32) (quadrant : Nat) : BitVec 32 := p + BitVec.ofNat 32 (quadrant * 2 ^ 30)

/-- The start value for a tap with a quadrant (R149). -/
def Osc.startValue (quadrant : Nat) (o : Osc) : Rat :=
  match o.setting.shape with
  | .sine => sineValue (quadrantPhase o.phase quadrant)
  | .triangle => triangleValue (quadrantPhase o.phase quadrant)
  | .random => (o.held : Rat) / 2 ^ 31

/-- The end value for a tap with a quadrant (R149). -/
def Osc.endValue (quadrant : Nat) (o : Osc) : Rat :=
  match o.setting.shape with
  | .sine => sineValue (quadrantPhase o.endPhase quadrant)
  | .triangle => triangleValue (quadrantPhase o.endPhase quadrant)
  | .random => ((if o.endWrap then o.nextValue else o.held : Int) : Rat) / 2 ^ 31

/-! ### The commands -/

/-- SET_OSC's work (R151). -/
def ownSetOsc (args : List Byte) (s : State) : Reply × State :=
  if oscArgsIllegal args then refuse .badArg s
  else
    let m : OscNo := Fin.ofNat 16 (argByte args 0)
    okBytes [] (s.setOsc m { s.osc m with staged := some (StagedOsc.parse args) })

/-- SET_OSC (R151). -/
def execSetOsc (record : CommandRecord) (s : State) : Host.Outcome State Fault Refusal :=
  .next (writeCommand 0x50 ownSetOsc record s)

/-- The bytes READ_OSC returns (R152, R194). -/
def Osc.bytes (o : Osc) : List Byte :=
  o.setting.bytes ++ bytesOf 4 o.effective ++ bytesOf 4 o.increment ++ bytesOf 4 o.phase.toNat
    ++ bytesOf 4 o.endPhase.toNat ++ flagByte o.endWrap ++ bytesOfInt32 o.held ++ bytesOfInt32 o.nextValue
    ++ flagByte o.restartPending ++ optionalStagedOscBytes o.staged

/-- READ_OSC's work (R152). -/
def ownReadOsc (args : List Byte) (s : State) : Reply × State :=
  if 15 < argByte args 0 then refuse .badArg s
  else okBytes (s.osc (Fin.ofNat 16 (argByte args 0))).bytes s

/-- READ_OSC (R152). -/
def execReadOsc (record : CommandRecord) (s : State) : Host.Outcome State Fault Refusal :=
  .next (writeCommand 0x51 ownReadOsc record s)

end Sys2Proof.Machine
end

