-- ==== Sys2Proof/Machine/Transitions.lean ====
section
/-! DEFINITION. The tap table's boundary work (06): fades and glides in progress (R109 to R111), staged edits (R112 to
R120), pending targets (R121), the tempo (R122, R123) and the transition gains (R124, R125). Delays are in 256ths. -/

namespace Sys2Proof.Machine

/-! ### Delays -/

/-- The largest delay, 1,048,575 + 255/256 samples (00 section 4.4). -/
def maxDelay : Nat := 1048575 * 256 + 255

/-- The base delay of a parameter set at a tempo interval (R88). -/
def baseDelay (ib : Nat) (p : ParamSet) : Nat :=
  match p.mode with
  | .fixed => p.fixedDelay
  | .tempo =>
    let (n, d) := noteLength ib p.noteExp p.modifier
    min maxDelay (roundUpHalf n d)

/-- A delay moved toward a target by a step, and held at the target if the step would pass it (R89, R110). -/
def moveToward (delay target step : Nat) : Nat :=
  if delay ≤ target then min target (delay + step) else max target (delay - step)

/-- The glide position at the end of a period: in GLIDING, one step of glide rate × B / 256 samples on (R89, R110). -/
def Tap.glided (b : Nat) (t : Tap) : Nat :=
  match t.state with
  | .gliding => moveToward t.delay t.target (t.current.glideRate * b)
  | _ => t.delay

/-! ### Steps 1 and 2: advance and completion (R109 to R111) -/

/-- The tap is in a fade, whose progress counts (R109). -/
def TapState.isFade : TapState → Bool
  | .starting => true
  | .fading => true
  | .stopping => true
  | .idle => false
  | .running => false
  | .gliding => false

/-- The tap is in RUNNING with no fade. -/
def Tap.toRunning (t : Tap) : Tap := { t with state := .running, fadeCount := 0, fadeOf := 0 }

/-- The tap is in IDLE, with its current set's run flag stop (R111, R114). -/
def Tap.toIdle (t : Tap) : Tap :=
  { t with state := .idle, fadeCount := 0, fadeOf := 0, current := { t.current with run := false } }

/-- Step 1: a fade moves its progress on, a glide its delay. -/
def Tap.advance (b : Nat) (t : Tap) : Tap :=
  if t.state.isFade then { t with fadeCount := t.fadeCount + 1 } else { t with delay := t.glided b }

/-- Step 2: a fade, crossfade or glide that has reached its end completes. -/
def Tap.completeMove (t : Tap) : Tap :=
  match t.state with
  | .starting => if t.fadeOf ≤ t.fadeCount then t.toRunning else t
  | .stopping => if t.fadeOf ≤ t.fadeCount then t.toIdle else t
  | .fading => if t.fadeOf ≤ t.fadeCount then { t.toRunning with oldSide := none } else t
  | .gliding => if t.delay = t.target then t.toRunning else t
  | .idle => t
  | .running => t

/-! ### Step 3: the staged edit (R112 to R120) -/

/-- The set becomes the current set, with run flag run, and both delays its base delay. -/
def Tap.take (ib : Nat) (p : ParamSet) (t : Tap) : Tap :=
  { t with current := { p with run := true }, delay := baseDelay ib p, target := baseDelay ib p }

/-- The old side filled from the reading the tap makes now (R119). -/
def Tap.reading (t : Tap) : OldSide :=
  { line := t.current.line, delay := t.delay, gain := t.current.gain, inverted := t.current.inverted,
    interp := t.current.interp, osc := t.current.osc, depth := t.current.depth, quadrant := t.current.quadrant }

/-- A crossfade of n periods to a set begins (R119). -/
def Tap.crossfade (ib n : Nat) (p : ParamSet) (t : Tap) : Tap :=
  { t.take ib p with oldSide := some t.reading, state := .fading, fadeCount := 0, fadeOf := n }

/-- The tap moves to a target delay on its line by a glide, or is there already (R118). -/
def Tap.glideTo (target : Nat) (t : Tap) : Tap :=
  { t with
    target := target
    state := if t.delay = target then .running else .gliding
    fadeCount := 0
    fadeOf := 0 }

/-- A retarget of a sounding tap, by the method its new set carries (R117 to R119). -/
def Tap.retarget (ib : Nat) (p : ParamSet) (t : Tap) : Tap :=
  match p.method with
  | .jump => (t.take ib p).toRunning
  | .glide =>
    if p.line = t.current.line then
      { t with current := { p with run := true } }.glideTo (baseDelay ib p)
    else t.crossfade ib p.fadeLen p
  | .xfade => t.crossfade ib p.fadeLen p

/-- A start applied to an IDLE tap (R113). -/
def Tap.start (ib : Nat) (p : ParamSet) (t : Tap) : Tap :=
  if p.edgeFade = 0 then (t.take ib p).toRunning
  else { t.take ib p with state := .starting, fadeCount := 0, fadeOf := p.edgeFade }

/-- A stop applied to a tap in RUNNING or GLIDING; a glide is given up where it stands (R114). -/
def Tap.stop (t : Tap) : Tap :=
  let t' := { t with
    target := if t.state = TapState.gliding then t.delay else t.target
    current := { t.current with run := false } }
  if t.current.edgeFade = 0 then t'.toIdle
  else { t' with state := .stopping, fadeCount := 0, fadeOf := t.current.edgeFade }

/-- A fade overtaken by its opposite: its progress is mirrored and its length kept (R115). -/
def Tap.mirror (state : TapState) (t : Tap) : Tap := { t with state := state, fadeCount := t.fadeOf - t.fadeCount }

/-- A start in each state (R113, R115, R116, R117 to R119, R120). -/
def Tap.applyStart (ib : Nat) (p : ParamSet) (t : Tap) : Tap :=
  match t.state with
  | .idle => t.start ib p
  | .starting => t.take ib p
  | .running => t.retarget ib p
  | .gliding => t.retarget ib p
  | .fading => { t with pendingTarget := some p }
  | .stopping => (t.take ib p).mirror .starting

/-- The stop form: a copy of the current set with its run flag stop (R120). -/
def Tap.stopForm (t : Tap) : ParamSet := { t.current with run := false }

/-- A stop in each state (R112, R114, R115, R120). -/
def Tap.applyStop (t : Tap) : Tap :=
  match t.state with
  | .idle => t
  | .stopping => t
  | .starting => { t with current := { t.current with run := false } }.mirror .stopping
  | .running => t.stop
  | .gliding => t.stop
  | .fading => { t with pendingTarget := some t.stopForm }

/-- A preset applied to an IDLE tap replaces the kept set; to any other it is applied as a stop (R112). -/
def Tap.applyPreset (ib : Nat) (p : ParamSet) (t : Tap) : Tap :=
  match t.state with
  | .idle => { t with current := p, delay := baseDelay ib p, target := baseDelay ib p }
  | _ => t.applyStop

/-- Step 3: the staged edit is applied and becomes none. While a pending target is held, an edit replaces it, even at the
boundary at which the crossfade completes (R121). -/
def Tap.applyEdit (ib : Nat) (t : Tap) : Tap :=
  let t' := { t with staged := none }
  match t.staged with
  | none => t
  | some (.start p) => if t.pendingTarget.isSome then { t' with pendingTarget := some p } else t'.applyStart ib p
  | some (.preset p) =>
    if t.pendingTarget.isSome then { t' with pendingTarget := some t.stopForm } else t'.applyPreset ib p
  | some .stop => if t.pendingTarget.isSome then { t' with pendingTarget := some t.stopForm } else t'.applyStop

/-! ### Steps 4 and 5: the pending target (R121) and the tempo (R122, R123) -/

/-- Step 4: a pending target held by a tap that is no longer FADING is applied. -/
def Tap.applyPending (ib : Nat) (t : Tap) : Tap :=
  match t.state, t.pendingTarget with
  | .fading, _ => t
  | _, none => t
  | _, some p =>
    let t' := { t with pendingTarget := none }
    if p.run then t'.retarget ib p else t'.stop

/-- The tap sounds with no fade, so that the tempo may move it (R122). -/
def TapState.isSteady : TapState → Bool
  | .running => true
  | .gliding => true
  | .idle => false
  | .starting => false
  | .fading => false
  | .stopping => false

/-- Step 5: a tap that the tempo concerns takes a tempo retarget by its current set's method. -/
def Tap.followTempo (ib : Nat) (concerned : Bool) (t : Tap) : Tap :=
  if t.current.mode = .tempo ∧ t.state.isSteady ∧ concerned ∧ baseDelay ib t.current ≠ t.target then
    match t.current.method with
    | .glide => t.glideTo (baseDelay ib t.current)
    | .xfade => t.crossfade ib t.current.fadeLen t.current
    | .jump => t.crossfade ib t.current.edgeFade t.current
  else t

/-- The tap became RUNNING at step 2 from STARTING or FADING (R122). -/
def becameRunning (before after : TapState) : Bool :=
  (before == .starting || before == .fading) && after == .running

/-- The boundary work of one tap (R108). found: the tap-side part of the tempo-changed indicator was set. -/
def Tap.boundary (b ib : Nat) (found : Bool) (t : Tap) : Tap :=
  let t1 := t.advance b
  let t2 := t1.completeMove
  ((t2.applyEdit ib).applyPending ib).followTempo ib (found || becameRunning t1.state t2.state)

/-- The tap table's boundary work (R108, R128): the tap-side indicator is read and cleared. -/
def tapBoundary (s : State) : State :=
  { s with
    taps := s.taps.map (Tap.boundary s.size s.tempo.interval s.tempo.tapSide)
    tempo := { s.tempo with tapSide := false } }

/-! ### Transition gains (R124, R125) -/

/-- The bound of R125: g(x) lies within a relative 2^-12 of √x, and from 0 to 1. -/
def legalGain (x v : Rat) : Bool :=
  let d : Rat := 1 / 2 ^ 12
  decide (0 ≤ v) && decide (v ≤ 1) && decide ((1 - d) * (1 - d) * x ≤ v * v) && decide (v * v ≤ (1 + d) * (1 + d) * x)

/-- A value of √x to 32 binary places, rounded down. -/
def rootApprox (x : Rat) : Rat := (Nat.sqrt (x.num.toNat * 2 ^ 64 / x.den) : Rat) / 2 ^ 32

/-- The free value of g at a fraction where it keeps the bound, and else a value that does (log 18). -/
def gainAt (x : Rat) : Rat := if legalGain x (Config.equalPower x) then Config.equalPower x else rootApprox x

/-- Every fraction j/N with N from 1 to 64 and j from 0 to N (R124). -/
def fadeFractions : List Rat :=
  (List.range 64).flatMap fun i => (List.range (i + 2)).map fun j => (j : Rat) / ((i + 1 : Nat) : Rat)

/-- The equal-power gain function g (R125): exact at its ends, and between them made never to decrease over the fractions
a fade uses. -/
def equalPowerGain (x : Rat) : Rat :=
  if x ≤ 0 then 0
  else if 1 ≤ x then 1
  else (fadeFractions.filter fun y => decide (0 < y) && decide (y < x)).foldl (fun m y => max m (gainAt y)) (gainAt x)

/-- The rising gains of a fade at the period's two edges (R124). -/
def risingGains (k n : Nat) : Rat × Rat := (equalPowerGain ((k : Rat) / n), equalPowerGain (((k + 1 : Nat) : Rat) / n))

/-- The falling gains of a fade at the period's two edges (R124). -/
def fallingGains (k n : Nat) : Rat × Rat :=
  (equalPowerGain (1 - (k : Rat) / n), equalPowerGain (1 - ((k + 1 : Nat) : Rat) / n))

/-- The gains of the reading with the current set (R124). -/
def Tap.newGains (t : Tap) : Rat × Rat :=
  match t.state with
  | .starting => risingGains t.fadeCount t.fadeOf
  | .fading => risingGains t.fadeCount t.fadeOf
  | .stopping => fallingGains t.fadeCount t.fadeOf
  | .idle => (1, 1)
  | .running => (1, 1)
  | .gliding => (1, 1)

end Sys2Proof.Machine
end

