-- ==== Sys2Proof/Machine/Pass.lean ====
section
/-! DEFINITION. The tap processor (05): the readings of a tap (R88 to R94), what a tap sounds (R95, R100), the pass queue
(R96), PASS_START (R97, R98), PASS_READ_COMPLETE (R99, R101, R105, R106), and the cut at a boundary (R102, R103). -/

namespace Sys2Proof.Machine

/-! ### Readings -/

/-- A number rounded to the nearest whole number, a value exactly halfway being rounded away from zero (00 section 4.4,
R95). -/
def roundAway (x : Rat) : Int := if 0 ≤ x then (x + 1 / 2).floor else -((-x + 1 / 2).floor)

/-- A modulation offset in 256ths: the oscillator's value times the depth, rounded to the nearest 256th (R90). -/
def modOffset (value : Rat) (depth : Nat) : Int := roundAway (value * depth)

/-- The two oscillator values a reading gets (R90, R149); none gives offset 0. -/
def oscValues (s : State) (osc : Option OscNo) (quadrant : Nat) : Rat × Rat :=
  match osc with
  | none => (0, 0)
  | some m => ((s.osc m).startValue quadrant, (s.osc m).endValue quadrant)

/-- The delay floor, in 256ths (R91). -/
def delayFloor (b : Nat) : Nat := (b + 1) * 256

/-- The delay ceiling of a line of length L, in 256ths (R91). -/
def delayCeiling (b l : Nat) : Nat := (l - b - 2) * 256

/-- An edge delay clamped to the floor and ceiling (R91). -/
def clampEdge (b l : Nat) (d : Int) : Nat := min (delayCeiling b l) (max (delayFloor b) d.toNat)

/-- The edge delay lies outside the floor and ceiling (R91). -/
def edgeClamps (b l : Nat) (d : Int) : Bool := decide (d < delayFloor b) || decide ((delayCeiling b l : Int) < d)

/-- What a side of a tap asks of its reading: where it stands at the two edges before modulation (R89, R94). -/
def sideReading (s : State) (o : OldSide) (endDelay : Nat) (gains : Rat × Rat) : Reading :=
  let l := (s.line o.line).length
  let values := oscValues s o.osc o.quadrant
  let first : Int := o.delay + modOffset values.1 o.depth
  let last : Int := endDelay + modOffset values.2 o.depth
  { line := o.line, startDelay := clampEdge s.size l first, endDelay := clampEdge s.size l last,
    clamped := edgeClamps s.size l first || edgeClamps s.size l last, interp := o.interp, gain := o.gain,
    inverted := o.inverted, startGain := gains.1, endGain := gains.2 }

/-- The readings of a tap for the period, the old side of a crossfade before the new (R80, R94). -/
def tapReadings (s : State) (t : Tap) : List Reading :=
  let now := sideReading s t.reading (t.glided s.size) t.newGains
  match t.state, t.oldSide with
  | .fading, some o => [sideReading s o o.delay (fallingGains t.fadeCount t.fadeOf), now]
  | _, _ => [now]

/-- The delay at sample i of the period: the ramp between the edges, rounded to the nearest 256th (R92). -/
def Reading.delayAt (b i : Nat) (r : Reading) : Nat := roundUpHalf (r.startDelay * (b - i) + r.endDelay * i) b

/-- The head a line held during a period, the current one or the one that has just ended (R92). -/
def headIn (period : PeriodCount) (l : LineNo) (s : State) : Nat :=
  let line := s.line l
  if period = s.timer.period then line.head else (line.head + line.length - s.size) % line.length

/-- The position of a reading at sample i, in 256ths of a sample, modulo L (R92). -/
def Reading.positionAt (b head l i : Nat) (r : Reading) : Nat :=
  ((head + i) * 256 + l * 256 - r.delayAt b i) % (l * 256)

/-- The ring positions a sample of a reading needs, q and with a fraction under LINEAR also q + 1 (R93). R93 orders the
samples and not the two positions of one sample: that q is read before q + 1 is the model's choice (DESIGN CHOICE, log 31). -/
def sampleNeeds (interp : Interpolation) (l position : Nat) : List Nat :=
  let q := position / 256
  match interp with
  | .none => [q]
  | .linear => if position % 256 = 0 then [q] else [q, (q + 1) % l]

/-- Every item the first time it comes. -/
def firstOnly (xs : List Nat) : List Nat :=
  (xs.foldl (fun seen x => if seen.contains x then seen else x :: seen) []).reverse

/-- The ring positions a reading reads, in order, each once (R93). -/
def Reading.needs (s : State) (period : PeriodCount) (r : Reading) : List Nat :=
  let l := (s.line r.line).length
  let head := headIn period r.line s
  firstOnly ((List.range s.size).flatMap fun i => sampleNeeds r.interp l (r.positionAt s.size head l i))

/-- The store reads of one side. -/
def sideReads (s : State) (period : PeriodCount) (side : Nat) (r : Reading) : List ReadReq :=
  (r.needs s period).map fun p => { side := side, line := r.line, position := p }

/-- The store reads of a tap, the old side's before the new side's (R93, R94, R99). -/
def tapReads (s : State) (period : PeriodCount) (t : Tap) : List ReadReq :=
  ((tapReadings s t).zipIdx.flatMap fun x => sideReads s period x.2 x.1)

/-! ### What a tap sounds -/

/-- The sample a pass has read at a position for a side. -/
def gotAt (got : List GotSample) (side position : Nat) : Rat :=
  match got.find? fun g => g.side == side && g.position == position with
  | some g => (g.v.toInt : Rat)
  | none => 0

/-- The value of a reading at a position (R93). -/
def readingValue (got : List GotSample) (side : Nat) (interp : Interpolation) (l position : Nat) : Rat :=
  let q := position / 256
  let f : Rat := ((position % 256 : Nat) : Rat) / 256
  match interp with
  | .none => gotAt got side q
  | .linear => if position % 256 = 0 then gotAt got side q else gotAt got side q * (1 - f) + gotAt got side ((q + 1) % l) * f

/-- The transition gain of a reading at sample i (R95). -/
def Reading.gainAt (b i : Nat) (r : Reading) : Rat := r.startGain + (r.endGain - r.startGain) * i / b

/-- What a reading adds to sample i: its value times its gain and its transition gain, negated if inverted (R95). -/
def Reading.contribution (s : State) (p : Pass) (side i : Nat) (r : Reading) : Rat :=
  let l := (s.line r.line).length
  let position := r.positionAt s.size (headIn p.period r.line s) l i
  let v := readingValue p.got side r.interp l position * ((r.gain : Rat) / 65536) * r.gainAt s.size i
  if r.inverted then -v else v

/-- A whole number saturated to 24 bits (00 section 4.2). -/
def saturate24 (v : Int) : Sample := BitVec.ofInt 24 (max (-8388608) (min 8388607 v))

/-- Sample i of a tap's block (R95). -/
def tapSample (s : State) (p : Pass) (rs : List Reading) (i : Nat) : Sample :=
  saturate24 (roundAway (rs.zipIdx.foldl (fun sum x => sum + x.1.contribution s p x.2 i) 0))

/-- A line marks its readers' blocks GAP (R100): its gap run is not 0, or its writer's link is not UP. -/
def lineGaps (s : State) (l : LineNo) : Bool :=
  let line := s.line l
  line.gapRun != 0 || line.writer.all fun e => (s.link e).state != .up

/-- The tap's state is one whose blocks carry FADING (R100). -/
def TapState.marksFading : TapState → Bool
  | .starting => true
  | .gliding => true
  | .fading => true
  | .stopping => true
  | .idle => false
  | .running => false

/-- The block of the tap being computed (R95, R100). -/
def passBlock (s : State) (p : Pass) (t : TapNo) : OutBlock :=
  let rs := tapReadings s (s.tap t)
  { tap := t
    flags :=
      { clamped := rs.any (·.clamped), fading := (s.tap t).state.marksFading, gap := rs.any fun r => lineGaps s r.line,
        fault := p.faulted, muted := false }
    samples := (List.range s.size).map (tapSample s p rs) }

/-! ### The pass -/

/-- The non-IDLE taps whose current set names an engine as reader, in ascending number (R98). -/
def passTaps (e : Engine) (s : State) : List TapNo :=
  allTaps.filter fun t => (s.tap t).state != .idle && (s.tap t).current.reader == e

/-- The pass goes on with the taps left: the first of them is computed, or, with none left, the pass ends COMPLETE (R99,
R101). -/
def passOn (p : Pass) (s : State) : State :=
  match p.taps with
  | [] =>
    let s' := handFrame p.engine p.period (OutFrame.finish .complete) s
    { s' with proc := { s'.proc with pass := none } }
  | t :: _ =>
    let p' := { p with todo := tapReads s p.period (s.tap t), got := [], faulted := false }
    { s with proc := { s.proc with pass := some p' } }

/-- The pass of an engine begins (R98): the planned count is handed; in SAFE every tap is handed MUTED (R106). That a pass
begun in SAFE hands them all and ends at the event that begins it, so that no boundary cuts it, is the model's choice
(DESIGN CHOICE, log 35). -/
def beginPass (e : Engine) (s : State) : State :=
  let taps := passTaps e s
  let period := s.timer.period
  let s1 := handFrame e period (OutFrame.plan taps.length) { s with proc := { s.proc with queue := s.proc.queue.tail } }
  if s.inSafe then muteTaps e period taps s1
  else
    passOn { engine := e, period := period, planned := taps.length, handed := 0, taps := taps, todo := [], got := [],
             faulted := false } s1

/-- The link of an engine has opened its OUTPUT frame of the current period, and it waits for its pass (R74, R97). -/
def frameReady (e : Engine) (s : State) : Bool :=
  (s.link e).tx.any fun f => f.period == s.timer.period && f.state == .opened

/-- The engine whose pass may begin (R97): the queue's head, while no pass runs, the previous period is closed and its
frame is open. -/
def passReady (s : State) : Option Engine :=
  match s.proc.pass, s.proc.queue with
  | none, e :: _ => if s.oldestOpen = s.timer.period ∧ frameReady e s then some e else none
  | _, _ => none

/-- PASS_START (R97, R98). With no pass ready to begin nothing changes (log 2). -/
def execPassStart (s : State) : Host.Outcome State Fault Refusal :=
  .next
    (match passReady s with
    | some e => settle (beginPass e s)
    | none => s)

/-- The block of the tap being computed is handed, and its CLAMPED indicator set or cleared (R91, R99). -/
def handBlock (p : Pass) (t : TapNo) (s : State) : State :=
  let block := passBlock s p t
  (handFrame p.engine p.period (OutFrame.addBlock block) s).setTap t { s.tap t with clamped := block.flags.clamped }

/-- A pass takes a sample it has read (R99, R105). -/
def Pass.take (v : Sample) (bad : Bool) (r : ReadReq) (p : Pass) : Pass :=
  { p with
    todo := p.todo.tail
    got := p.got ++ [{ side := r.side, position := r.position, v := v }]
    faulted := p.faulted || bad }

/-- The pass takes the read it was waiting for, and, when it was the tap's last, hands the block (R99). -/
def passTakes (o : ReadOutcome) (s : State) : State :=
  match s.proc.pass with
  | none => s
  | some p =>
    match p.todo, p.taps with
    | r :: rest, t :: ts =>
      let p' := p.take o.sample (o == .uncorrectable) r
      if rest.isEmpty then passOn { p' with handed := p.handed + 1, taps := ts } (handBlock p' t s)
      else { s with proc := { s.proc with pass := some p' } }
    | _, _ => s

/-- An uncorrectable pass read is a store fault of kind READ (R33). In SAFE, where a read can complete that was in service
at the entry, it is none, since only REFRESH faults arise there (R41, R186, log 11). -/
def readFault (l : LineNo) (e : Engine) (w : Nat) (o : ReadOutcome) (s : State) : State :=
  match o with
  | .uncorrectable =>
    if s.inSafe then s
    else
      storeFault { kind := .read, page := pageOfWord w, offset := w % 4096, line := some l, engine := some e } false s
  | .clean _ => s
  | .corrected _ => s

/-- PASS_READ_COMPLETE (R99, R31, R33, R105): the read in service completes with its effect on the store; the pass takes
it up if it has not lost it (log 10). With no pass read in service nothing changes (log 2). -/
def execPassReadComplete (u : Upset) (s : State) : Host.Outcome State Fault Refusal :=
  .next
    (match s.arbiter.inService with
    | some (.passRead l e w live) =>
      let o := readOutcome w u s
      let s1 := readFault l e w o (endAccess false (storeRead w u s))
      settle (if live then passTakes o s1 else s1)
    | _ => s)

/-! ### The boundary -/

/-- The pass still running is cut (R102): its frame ends SHORT, and the tap being computed is abandoned. -/
def cutPass (s : State) : State :=
  match s.proc.pass with
  | none => s
  | some p =>
    let s' := handFrame p.engine p.period (OutFrame.finish .short) (orphanPassRead s)
    { s' with proc := { s'.proc with pass := none } }

/-- An engine still in the pass queue is given its frame: a planned count, SHORT and no blocks (R103). -/
def shortFrame (period : PeriodCount) (s : State) (e : Engine) : State :=
  handFrame e period (fun f => (f.plan (passTaps e s).length).finish .short) s

/-- A SHORT pass is counted, and OVERRUN raised (R103). -/
def countShort (s : State) (e : Engine) : State := raise (.overrun e) (advanceCounter e .short 1 s)

/-- The engines whose frames of the ending period end SHORT: the one whose pass is cut, then those queued (R103). -/
def shortEngines (s : State) : List Engine := (s.proc.pass.map (·.engine)).toList ++ s.proc.queue

/-- The cut at a boundary (R102, R103). period is the period that ends. -/
def cutAtBoundary (period : PeriodCount) (s : State) : State :=
  let s1 := s.proc.queue.foldl (shortFrame period) (cutPass s)
  let s2 := (shortEngines s).foldl countShort s1
  { s2 with proc := { s2.proc with queue := [] } }

/-- The engines in number order from the one after an engine, going round (R96). -/
def roundFrom (e : Engine) : List Engine := [e + 1, e + 2, e + 3, e]

/-- The pass queue formed at a boundary, with the new lead engine (R96). -/
def formQueue (s : State) : State :=
  let queue := (roundFrom s.proc.lead).filter fun e => (s.link e).state != .off
  { s with proc := { s.proc with queue := queue, lead := queue.headD s.proc.lead } }

end Sys2Proof.Machine
end

