-- ==== Sys2Proof/Machine/Links.lean ====
section
/-! DEFINITION. The engine links (04): the receiver (R58 to R61), the judging of frames and blocks (R62 to R67), the
boundary (R56, R72, R74), SET_LINK (R57, R70, R75, R104), READ_LINK (R77), READ_COUNTERS (R176) and the close mark that
leaves the lane (R74). -/

namespace Sys2Proof.Machine

/-! ### Receiving -/

/-- The tally's last status is recorded (R72). -/
def Link.record (status : InputStatus) (k : Link) : Link := { k with tally := { k.tally with status := status } }

/-- A staging buffer begins to receive: emptied, with the window set to B (R58, R59). -/
def Link.beginFrame (b : Nat) (buffer : Fin 2) (k : Link) : Link :=
  { k with
    buffers := k.buffers.set buffer.val (.receiving [] false)
    receiver := .receiving buffer b }

/-- The lower-numbered free staging buffer (R58). -/
def Link.freeSlot (k : Link) : Option (Fin 2) :=
  if k.buffers[0] = .free then some 0 else if k.buffers[1] = .free then some 1 else none

/-- An open mark at a link that is not OFF (R58, R59). -/
def Link.open (b : Nat) (k : Link) : Link :=
  match k.receiver with
  | .receiving buffer _ => (k.record .badFrame).beginFrame b buffer
  | .hunt =>
    match k.freeSlot with
    | some buffer => k.beginFrame b buffer
    | none => k.record .noBuffer

/-- OPEN_MARK (R58, R59). The receiver of an OFF link ignores it. -/
def execOpenMark (e : Engine) (s : State) : Host.Outcome State Fault Refusal :=
  .next (if (s.link e).state = .off then s else s.setLink e ((s.link e).open s.size))

/-- A data byte joins a buffer, or, past the largest legal size at the B standing, marks the frame overlong (R59, R190). -/
def Buffer.append (b : Nat) (x : Byte) : Buffer → Buffer
  | .receiving bytes overlong =>
    if bytes.length < maxInputLength b then .receiving (bytes ++ [x]) overlong else .receiving bytes true
  | .free => .free
  | .queued => .queued

/-- DATA_BYTE (R59). In HUNT the byte is ignored (R58). -/
def execDataByte (e : Engine) (x : Byte) (s : State) : Host.Outcome State Fault Refusal :=
  let k := s.link e
  .next
    (match k.receiver with
    | .hunt => s
    | .receiving buffer _ =>
      s.setLink e { k with buffers := k.buffers.set buffer.val (k.buffers[buffer.val].append s.size x) })

/-- The frame in reception times out (R60): it is abandoned and its buffer becomes free. -/
def Link.timeOut (k : Link) : Link :=
  match k.receiver with
  | .hunt => k
  | .receiving buffer _ =>
    { k.record .timeout with receiver := .hunt, buffers := k.buffers.set buffer.val .free }

/-- A sample edge at a receiver: the window counts down, and at 0 the frame times out (R60). -/
def Link.edge (k : Link) : Link :=
  match k.receiver with
  | .hunt => k
  | .receiving buffer window =>
    if window ≤ 1 then k.timeOut else { k with receiver := .receiving buffer (window - 1) }

/-- The receivers take a sample edge (R3, R60). -/
def receiverEdge (s : State) : State := { s with links := s.links.map Link.edge }

/-- The window has one count left or none. -/
def Link.windowOver (k : Link) : Bool :=
  match k.receiver with
  | .hunt => false
  | .receiving _ window => decide (window ≤ 1)

/-- RECEIVE_TIMEOUT (R60): a window that counts down to 0. It does so at the sample edge that takes its last count (log
14); with more left, or in HUNT, nothing times out (log 2). -/
def execReceiveTimeout (e : Engine) (s : State) : Host.Outcome State Fault Refusal :=
  .next (if (s.link e).windowOver then s.setLink e (s.link e).timeOut else s)

/-! ### Judging a frame -/

/-- The status of the first test of R62 that an INPUT frame fails, if any (R62, R63, R190). -/
def frameRefusal (e : Engine) (bytes : List Byte) (overlong : Bool) (s : State) : Option InputStatus :=
  if bytes.length < 6 ∨ overlong then some .badFrame
  else if !crcMatches bytes then some .check
  else if argByte bytes 0 ≠ 1 ∨ argByte bytes 1 ≠ e.val ∨ 64 < argByte bytes 3
      ∨ bytes.length ≠ inputLength s.size (argByte bytes 3) then some .badFrame
  else if !s.timer.running then some .noClock
  else if bytes.getD 2 0 ≠ periodTag s.timer.period then some .late
  else if (s.link e).accepted then some .repeated
  else none

/-- The counter a refusal advances (R62, R73). -/
def countRefusal (e : Engine) (status : InputStatus) (s : State) : State :=
  match status with
  | .check => advanceCounter e .check 1 s
  | .late => advanceCounter e .late 1 s
  | _ => s

/-- A frame is refused (R62): the status is recorded, the counter advances and the buffer becomes free. -/
def refuseFrame (e : Engine) (buffer : Fin 2) (status : InputStatus) (s : State) : State :=
  freeBuffer e buffer (countRefusal e status (s.setLink e ((s.link e).record status)))

/-- The block of an accepted frame passes the four tests (R65); earlier holds the line numbers of the blocks before it. -/
def blockKept (e : Engine) (earlier : List Nat) (line : Nat) (s : State) : Bool :=
  let l := s.line (Fin.ofNat 128 line)
  decide (line ≤ 127) && l.state == .active && l.writer == some e && !earlier.contains line && !l.taken

/-- The kept block, and the line's block-taken flag set (R16, R66). -/
def keepBlock (line : Nat) (samples : List Sample) (s : State) : KeptBlock × State :=
  let no : LineNo := Fin.ofNat 128 line
  let l := s.line no
  ({ line := no, generation := l.generation, head := l.head, samples := samples, written := 0 },
   s.setLine no { l with taken := true })

/-- The blocks of an accepted frame judged in their order (R65, R66): the blocks kept, the number refused, and the state
with the flags set. -/
def judgeBlocks (e : Engine) (earlier : List Nat) (blocks : List (Nat × List Sample)) (s : State) :
    List KeptBlock × Nat × State :=
  match blocks with
  | [] => ([], 0, s)
  | (line, samples) :: rest =>
    if blockKept e earlier line s then
      let (kept, s1) := keepBlock line samples s
      let (more, refused, s2) := judgeBlocks e (line :: earlier) rest s1
      (kept :: more, refused, s2)
    else
      let (more, refused, s2) := judgeBlocks e (line :: earlier) rest s
      (more, refused + 1, s2)

/-- A link becomes or stays UP, with its accepted flag set and its missed count 0 (R55, R64). -/
def Link.hear (k : Link) : Link := { k with state := .up, missed := 0, accepted := true }

/-- The tally takes an accepted frame (R64). -/
def Link.tallyFrame (kept refused : Nat) (k : Link) : Link :=
  { k with tally :=
    { accepted := k.tally.accepted + kept, refused := k.tally.refused + refused, status := .ok } }

/-- An accepted frame goes on (R67): it joins the commit queue's tail, or its buffer becomes free at once. -/
def sendOn (e : Engine) (buffer : Fin 2) (kept : List KeptBlock) (s : State) : State :=
  if kept.isEmpty || s.inSafe then freeBuffer e buffer s
  else
    let k := s.link e
    let s' := s.setLink e { k with buffers := k.buffers.set buffer.val .queued }
    { s' with commits :=
      s'.commits ++ [{ engine := e, period := s.timer.period, buffer := buffer, blocks := kept }] }

/-- A frame is accepted (R64 to R67). -/
def acceptFrame (e : Engine) (buffer : Fin 2) (bytes : List Byte) (s : State) : State :=
  let s1 := s.setLink e (s.link e).hear
  let (kept, refused, s2) := judgeBlocks e [] (inputBlocks bytes s.size) s1
  let s3 := s2.setLink e ((s2.link e).tallyFrame kept.length refused)
  sendOn e buffer kept (advanceCounter e .refused refused s3)

/-- A frame in a staging buffer is judged (R62). -/
def judgeFrame (e : Engine) (buffer : Fin 2) (bytes : List Byte) (overlong : Bool) (s : State) : State :=
  match frameRefusal e bytes overlong s with
  | some status => refuseFrame e buffer status s
  | none => settle (acceptFrame e buffer bytes s)

/-- INPUT_FRAME (R59, R62): a close mark in RECEIVING returns the receiver to HUNT and judges the frame; in HUNT it is
ignored (R58). -/
def execInputFrame (e : Engine) (s : State) : Host.Outcome State Fault Refusal :=
  let k := s.link e
  .next
    (match k.receiver with
    | .hunt => s
    | .receiving buffer _ =>
      match k.buffers[buffer.val] with
      | .receiving bytes overlong =>
        judgeFrame e buffer bytes overlong (s.setLink e { k with receiver := .hunt })
      | .free => s
      | .queued => s)

/-! ### The boundary -/

/-- A link's missed period (R56). -/
def Link.countMissed (k : Link) : Link :=
  match k.state with
  | .up =>
    if k.accepted then { k with missed := 0, accepted := false }
    else { k with missed := k.missed + 1, accepted := false, state := if k.missed + 1 = 8 then .lost else .up }
  | .down => { k with accepted := false }
  | .lost => { k with accepted := false }
  | .off => { k with accepted := false }

/-- The input report is fixed and the OUTPUT frame of the new period opened behind the frames held (R72, R74). -/
def Link.openFrame (period : PeriodCount) (k : Link) : Link :=
  match k.state with
  | .off => k
  | _ =>
    { k with
      report := k.tally
      tally := Tally.empty
      tx := k.tx ++ [{ period := period, report := k.tally, state := .opened, planned := 0, blocks := [],
                       endStatus := none }] }

/-- A link becomes LOST at this boundary (R56). -/
def Link.becomesLost (k : Link) : Bool := k.state == .up && !k.accepted && k.missed + 1 == 8

/-- One link's boundary work (R56, R72, R74). -/
def linkBoundary (s : State) (e : Engine) : State :=
  let k := s.link e
  let s' := s.setLink e (k.countMissed.openFrame s.timer.period)
  if k.becomesLost then raise (.linkLost e) s' else s'

/-- The links' boundary work (R56, R72, R74). -/
def linksBoundary (s : State) : State := allEngines.foldl linkBoundary s

/-! ### SET_LINK -/

/-- The fill the line table owes for a discarded block (R23, R70); in SAFE none is owed (R29). -/
def owedForBlock (s : State) (period : PeriodCount) (k : KeptBlock) : Option Fill :=
  if blockOver s k || s.inSafe then none else some { period := period, line := k.line, position := k.head, written := 0 }

/-- The fills owed for a link's queued frames, in queue order and frame by frame (R70). -/
def owedForFrames (e : Engine) (s : State) : List Fill :=
  (s.commits.filter (·.engine == e)).flatMap fun f => f.blocks.filterMap (owedForBlock s f.period)

/-- Every queued frame of a link leaves the commit queue, and fills are owed for its discarded blocks (R70). A write of
its in service completes (log 10). -/
def withdrawFrames (e : Engine) (s : State) : State :=
  let s' := orphanCommit (fun f _ => f == e) s
  orphanFills { s' with
    commits := s.commits.filter (·.engine != e)
    fills := (owedForFrames e s).foldl (fun fs f => oweFill s.timer.period f fs) s.fills }

/-- SET_LINK off reaches the tap processor (R104): the engine's pass ends, or the engine leaves the pass queue. -/
def withdrawPass (e : Engine) (s : State) : State :=
  let s' := { s with proc := { s.proc with queue := s.proc.queue.filter (· != e) } }
  match s.proc.pass with
  | none => s'
  | some p =>
    if p.engine = e then
      let s'' := orphanPassRead s'
      { s'' with proc := { s''.proc with pass := none } }
    else s'

/-- The link record of a link switched off (R57). -/
def Link.switchOff (k : Link) : Link :=
  { k with
    state := .off, missed := 0, accepted := false, receiver := .hunt, buffers := Vector.replicate 2 .free,
    tally := Tally.empty }

/-- A link that is not OFF is switched off (R57, R70, R75, R104). -/
def linkOff (e : Engine) (s : State) : State :=
  let s1 := withdrawFrames e s
  let s2 := s1.setLink e (s1.link e).switchOff
  settle (withdrawPass e (abortTransmitter e s2))

/-- The link record of an OFF link switched on (R57). -/
def Link.switchOn (k : Link) : Link :=
  { k with
    state := .down, missed := 0, receiver := .hunt, buffers := Vector.replicate 2 .free, tally := Tally.empty }

/-- SET_LINK's work (R57): off 0, on 1. -/
def ownSetLink (args : List Byte) (s : State) : Reply × State :=
  if 3 < argByte args 0 ∨ 1 < argByte args 1 then refuse .badArg s
  else
    let e : Engine := Fin.ofNat 4 (argByte args 0)
    if argByte args 1 = 0 then okBytes [] (if (s.link e).state = .off then s else linkOff e s)
    else okBytes [] (if (s.link e).state = .off then s.setLink e (s.link e).switchOn else s)

/-- SET_LINK (R57). -/
def execSetLink (record : CommandRecord) (s : State) : Host.Outcome State Fault Refusal :=
  .next (writeCommand 0x20 ownSetLink record s)

/-! ### READ_LINK, READ_COUNTERS and the lane -/

/-- The receive window: in HUNT, where no rule reads it, 0 as the reset table has it (R60, R78). -/
def Receiver.window : Receiver → Nat
  | .hunt => 0
  | .receiving _ window => window

/-- The receiver state, and while RECEIVING the window (R77). -/
def Receiver.bytes (r : Receiver) : List Byte :=
  match r with
  | .hunt => bytesOf 1 0
  | .receiving _ _ => bytesOf 1 1 ++ bytesOf 1 r.window

/-- The period count of the frame queued in a staging buffer. -/
def queuedPeriod (e : Engine) (b : Fin 2) (s : State) : Nat :=
  match s.commits.find? fun f => f.engine == e && f.buffer == b with
  | some f => f.period.toNat
  | none => 0

/-- A staging buffer: free 0, receiving 1, or queued 2 with its frame's period count (R77). -/
def bufferBytes (e : Engine) (b : Fin 2) (s : State) : List Byte :=
  match (s.link e).buffers[b.val] with
  | .free => bytesOf 1 0
  | .receiving _ _ => bytesOf 1 1
  | .queued => bytesOf 1 2 ++ bytesOf 4 (queuedPeriod e b s)

/-- The bytes READ_LINK returns (R77, R194, log 20). No rule bounds the transmitter's frames: that their count travels in
one byte, its low eight bits above 255, is the model's choice (DESIGN CHOICE, log 33); so is that each frame travels as its
state and then its tag (log 20). -/
def linkBytes (e : Engine) (s : State) : List Byte :=
  let k := s.link e
  bytesOf 1 k.state.code ++ bytesOf 1 k.missed ++ flagByte k.accepted ++ k.receiver.bytes ++ bufferBytes e 0 s
    ++ bufferBytes e 1 s ++ bytesOf 1 (s.commits.filter (·.engine == e)).length ++ bytesOf 1 s.commits.length
    ++ k.tally.bytes ++ k.report.bytes ++ bytesOf 1 k.tx.length
    ++ k.tx.flatMap fun f => bytesOf 1 f.state.code ++ [periodTag f.period]

/-- READ_LINK's work (R77). -/
def ownReadLink (args : List Byte) (s : State) : Reply × State :=
  if 3 < argByte args 0 then refuse .badArg s else okBytes (linkBytes (Fin.ofNat 4 (argByte args 0)) s) s

/-- READ_LINK (R77). -/
def execReadLink (record : CommandRecord) (s : State) : Host.Outcome State Fault Refusal :=
  .next (writeCommand 0x21 ownReadLink record s)

/-- The four counts and the four overflow flags (R176). -/
def Counters.bytes (c : Counters) : List Byte :=
  bytesOf 2 c.late.count.toNat ++ bytesOf 2 c.refused.count.toNat ++ bytesOf 2 c.check.count.toNat
    ++ bytesOf 2 c.short.count.toNat ++ flagByte c.late.overflow ++ flagByte c.refused.overflow
    ++ flagByte c.check.overflow ++ flagByte c.short.overflow

/-- The counters after a READ_COUNTERS in a mode: LEAVE 0, CLEAR 1, CLEAR_KEEP_FLAGS 2 (R176). -/
def Counters.after (mode : Nat) (c : Counters) : Counters :=
  if mode = 0 then c else if mode = 1 then Counters.zero else c.clearCounts

/-- READ_COUNTERS's work (R176). -/
def ownReadCounters (args : List Byte) (s : State) : Reply × State :=
  if 3 < argByte args 0 ∨ 2 < argByte args 1 then refuse .badArg s
  else
    let e : Engine := Fin.ofNat 4 (argByte args 0)
    let c := (s.link e).counters
    okBytes c.bytes (s.setLink e { s.link e with counters := c.after (argByte args 1) })

/-- READ_COUNTERS (R176). -/
def execReadCounters (record : CommandRecord) (s : State) : Host.Outcome State Fault Refusal :=
  .next (writeCommand 0x22 ownReadCounters record s)

/-- CLOSE_MARK_LEAVES_LANE (R74): the first frame held, once ENDED, is no longer held, and its bytes have gone (log 24). A
frame that has not ended has no close mark to leave (log 2). -/
def execCloseMarkLeavesLane (e : Engine) (s : State) : Host.Outcome State Fault Refusal :=
  let k := s.link e
  .next
    (match k.tx with
    | [] => s
    | f :: rest => if f.state = .ended then s.setLink e { k with tx := rest, laneOut := f.bytes e } else s)

end Sys2Proof.Machine
end

