-- ==== Sys2Proof/Machine/Taps.lean ====
section
/-! DEFINITION. The tap table's commands (05): what a tap names (R81), the screen and the eight checks of SET_TAP (R83,
R84), the run count (R85), CLEAR_TAP (R86), READ_TAP and SAVE_TAP (R87), and a tap's next set (R156). -/

namespace Sys2Proof.Machine

/-! ### What a tap names -/

/-- The set a staged edit carries (R81, R82). -/
def Edit.set? : Option Edit → Option ParamSet
  | some (.start p) => some p
  | some (.preset p) => some p
  | some .stop => none
  | none => none

/-- The tap names a line (R81): through its current set while it is not IDLE, through its old side, through its pending
target, or through a staged start or preset. -/
def Tap.names (l : LineNo) (t : Tap) : Bool :=
  (t.state != .idle && t.current.line == l) || t.oldSide.any (·.line == l) || t.pendingTarget.any (·.line == l)
    || (Edit.set? t.staged).any (·.line == l)

/-- The lowest-numbered tap that names a line (R26). -/
def firstNaming (l : LineNo) (s : State) : Option TapNo := allTaps.find? fun t => (s.tap t).names l

/-! ### The run count (R85) -/

/-- The staged edit is a start. -/
def Edit.isStart : Option Edit → Bool
  | some (.start _) => true
  | some (.preset _) => false
  | some .stop => false
  | none => false

/-- The tap counts toward an engine's run count (R85). -/
def Tap.countsFor (e : Engine) (t : Tap) : Bool :=
  match t.state with
  | .idle => Edit.isStart t.staged && (Edit.set? t.staged).any (·.reader == e)
  | .stopping => Edit.isStart t.staged && t.current.reader == e
  | .starting => t.current.reader == e
  | .running => t.current.reader == e
  | .gliding => t.current.reader == e
  | .fading => t.current.reader == e

/-- An engine's run count (R85). -/
def runCount (e : Engine) (s : State) : Nat := s.taps.toList.countP (Tap.countsFor e)

/-! ### SET_TAP -/

/-- A set staged as a start or a preset by its run flag (R84). -/
def stagedAs (p : ParamSet) : Edit := if p.run then .start p else .preset p

/-- An edit staged for a tap, replacing any held (R82). -/
def stageEdit (t : TapNo) (edit : Edit) (s : State) : State := s.setTap t { s.tap t with staged := some edit }

/-- Check 4: a FIXED delay outside the line's floor and ceiling, or modifier code 3 (R84). -/
def checkDelayFails (b l : Nat) (r : RawSet) : Bool :=
  (r.mode == 0 && (decide (r.fixedDelay < (b + 1) * 256) || decide ((l - b - 2) * 256 < r.fixedDelay))) || r.modifier == 3

/-- Check 5: the depth and the oscillator (R84). -/
def checkDepthFails (r : RawSet) : Bool :=
  (r.osc != 0 && r.depth == 0) || decide (4095 * 256 + 255 < r.depth) || (r.osc == 0 && decide (0 < r.depth))

/-- Check 6: the method's lengths, and a depth without interpolation (R84). -/
def checkMethodFails (r : RawSet) : Bool :=
  (r.method == 1 && r.glideRate == 0) || ((r.method == 1 || r.method == 2) && r.fadeLen == 0)
    || (r.interp == 0 && decide (0 < r.depth)) || (r.mode == 1 && r.method == 0 && r.edgeFade == 0)

/-- Check n of R84 fails for a set offered for a tap. -/
def checkFails (s : State) (t : TapNo) (r : RawSet) (n : Nat) : Bool :=
  let reader : Engine := Fin.ofNat 4 r.reader
  let line := s.line (Fin.ofNat 128 r.line)
  match n with
  | 1 => r.reserved
  | 2 => decide (3 < r.reader) || (s.link reader).state == .off
  | 3 => decide (127 < r.line) || line.state != .active
  | 4 => checkDelayFails s.size line.length r
  | 5 => checkDepthFails r
  | 6 => checkMethodFails r
  | 7 => decide (128 < runCount reader (stageEdit t (stagedAs r.toSet) s))
  | 8 => (s.tap t).state != .idle && (s.tap t).current.reader != reader
  | _ => false

/-- The first check that fails, if any (R84). -/
def firstFailing (s : State) (t : TapNo) (r : RawSet) : Option Nat := [1, 2, 3, 4, 5, 6, 7, 8].find? (checkFails s t r)

/-- A set judged by the checks for a tap, and staged if it passes all eight (R84). -/
def judgeSet (t : TapNo) (r : RawSet) (s : State) : Reply × State :=
  match firstFailing s t r with
  | some n => (.done .check n [], s)
  | none => okBytes [] (stageEdit t (stagedAs r.toSet) s)

/-- The tap a command names. -/
def argTap (args : List Byte) : TapNo := Fin.ofNat 512 (argField args 0 2)

/-- SET_TAP's work (R83, R84). -/
def ownSetTap (args : List Byte) (s : State) : Reply × State :=
  let r := RawSet.parse args 2
  if 511 < argField args 0 2 ∨ r.screened then refuse .badArg s else judgeSet (argTap args) r s

/-- SET_TAP (R83, R84). -/
def execSetTap (record : CommandRecord) (s : State) : Host.Outcome State Fault Refusal :=
  .next (writeCommand 0x30 ownSetTap record s)

/-! ### CLEAR_TAP, READ_TAP and SAVE_TAP -/

/-- CLEAR_TAP's work (R86). -/
def ownClearTap (args : List Byte) (s : State) : Reply × State :=
  if 511 < argField args 0 2 then refuse .badArg s else okBytes [] (stageEdit (argTap args) .stop s)

/-- CLEAR_TAP (R86). -/
def execClearTap (record : CommandRecord) (s : State) : Host.Outcome State Fault Refusal :=
  .next (writeCommand 0x31 ownClearTap record s)

/-- The bytes of a tap's record (R87, R194). -/
def Tap.bytes (t : Tap) : List Byte :=
  bytesOf 1 t.state.code ++ t.current.bytes ++ bytesOf 1 (Edit.code t.staged) ++ stagedSetBytes t.staged
    ++ bytesOf 4 t.delay ++ bytesOf 4 t.target ++ bytesOf 1 t.fadeCount ++ bytesOf 1 t.fadeOf
    ++ optionalOldSideBytes t.oldSide ++ optionalSetBytes t.pendingTarget ++ flagByte t.clamped

/-- The work of READ_TAP and SAVE_TAP (R87). -/
def ownReadTap (args : List Byte) (s : State) : Reply × State :=
  if 511 < argField args 0 2 then refuse .badArg s else okBytes (s.tap (argTap args)).bytes s

/-- READ_TAP (R87). -/
def execReadTap (record : CommandRecord) (s : State) : Host.Outcome State Fault Refusal :=
  .next (writeCommand 0x32 ownReadTap record s)

/-- SAVE_TAP (R87): the same record; the control port refuses it in SAFE (R172). -/
def execSaveTap (record : CommandRecord) (s : State) : Host.Outcome State Fault Refusal :=
  .next (writeCommand 0x33 ownReadTap record s)

/-! ### The next set -/

/-- A set with its run flag stop. -/
def ParamSet.stopped (p : ParamSet) : ParamSet := { p with run := false }

/-- A tap's next set (R156). -/
def Tap.nextSet (t : Tap) : ParamSet :=
  match t.staged with
  | some (.start p) => { p with run := true }
  | some (.preset p) => if t.state = .idle then p.stopped else t.current.stopped
  | some .stop => t.current.stopped
  | none => t.current

/-- Two next sets are alike (R156): both stop, or both run and equal in every field. -/
def ParamSet.alike (p q : ParamSet) : Bool := (!p.run && !q.run) || (p.run && q.run && p == q)

end Sys2Proof.Machine
end

