-- ==== Sys2Proof/Machine/Scenes.lean ====
section
/-! DEFINITION. The scene stack (09): PUSH_SCENE (R157), POP_SCENE (R158 to R161), DROP_SCENE (R163) and READ_SCENES
(R164). -/

namespace Sys2Proof.Machine

/-- The tempo an entry takes: Ib in INTERNAL, none in EXTERNAL (R157). -/
def sceneTempo (t : Tempo) : Option Nat :=
  match t.source with
  | .internal => some t.interval
  | .external => none

/-- The entry a push makes (R157). -/
def sceneOf (s : State) : Scene := { sets := s.taps.map Tap.nextSet, tempo := sceneTempo s.tempo }

/-- PUSH_SCENE's work (R157). -/
def ownPushScene (_args : List Byte) (s : State) : Reply × State :=
  let scenes := (sceneOf s :: s.scenes).take 4
  let code : ResultCode := if 4 ≤ s.scenes.length then .discarded else .ok
  (.done code 0 (bytesOf 1 scenes.length ++ flagByte (sceneOf s).tempo.isSome), { s with scenes := scenes })

/-- PUSH_SCENE (R157). -/
def execPushScene (record : CommandRecord) (s : State) : Host.Outcome State Fault Refusal :=
  .next (writeCommand 0x60 ownPushScene record s)

/-- A tap restored by an edit (R159). -/
def PopProgress.restore (t : TapNo) (edit : Edit) (p : PopProgress) : PopProgress :=
  { p with state := stageEdit t edit p.state, restored := p.restored + 1 }

/-- A tap skipped at a check (R159). -/
def PopProgress.skip (t : TapNo) (n : Nat) (p : PopProgress) : PopProgress :=
  { p with skipped := p.skipped + 1, firstSkipped := some (p.firstSkipped.getD (t, n)) }

/-- One tap of a pop (R158, R159), judged against the state as the pop has left it so far. -/
def PopProgress.judge (entry : Scene) (p : PopProgress) (t : TapNo) : PopProgress :=
  let want := entry.sets[t.val]
  if want.alike (p.state.tap t).nextSet then p
  else if !want.run then p.restore t .stop
  else
    match firstFailing p.state t want.toRaw with
    | some n => p.skip t n
    | none => p.restore t (.start want)

/-- The pop's walk over the taps in ascending number (R158). -/
def popTaps (entry : Scene) (s : State) : PopProgress :=
  allTaps.foldl (PopProgress.judge entry) { state := s, restored := 0, skipped := 0, firstSkipped := none }

/-- The tempo a pop restores: the entry's, in INTERNAL (R160). -/
def restoredTempo (entry : Scene) (s : State) : Option Nat :=
  match s.tempo.source with
  | .internal => entry.tempo
  | .external => none

/-- The pop's tempo is adopted as SET_TEMPO adopts one (R160). -/
def popTempo (entry : Scene) (s : State) : State :=
  match restoredTempo entry s with
  | some v => adopt v s
  | none => s

/-- The result of a pop (R161). -/
def popResult (p : PopProgress) (tempo : Option Nat) (s : State) : List Byte :=
  bytesOf 2 p.restored ++ bytesOf 2 p.skipped ++ bytesOfOption 2 (p.firstSkipped.map (·.1.val))
    ++ (match p.firstSkipped with
      | some (_, n) => bytesOf 1 n
      | none => [])
    ++ flagByte tempo.isSome
    ++ (match tempo with
      | some _ => bytesOf 4 s.tempo.interval
      | none => [])
    ++ bytesOf 1 s.scenes.length

/-- POP_SCENE's work (R158). -/
def ownPopScene (_args : List Byte) (s : State) : Reply × State :=
  match s.scenes with
  | [] => refuse .empty s
  | entry :: rest =>
    let p := popTaps entry { s with scenes := rest }
    let s' := popTempo entry p.state
    (.done .ok 0 (popResult p (restoredTempo entry p.state) s'), s')

/-- POP_SCENE (R158). -/
def execPopScene (record : CommandRecord) (s : State) : Host.Outcome State Fault Refusal :=
  .next (writeCommand 0x61 ownPopScene record s)

/-- DROP_SCENE's work (R163). -/
def ownDropScene (_args : List Byte) (s : State) : Reply × State :=
  match s.scenes with
  | [] => refuse .empty s
  | _ :: rest => okBytes (bytesOf 1 rest.length) { s with scenes := rest }

/-- DROP_SCENE (R163). -/
def execDropScene (record : CommandRecord) (s : State) : Host.Outcome State Fault Refusal :=
  .next (writeCommand 0x62 ownDropScene record s)

/-- What READ_SCENES returns of one entry: whether it holds a tempo, and its value (R164). -/
def Scene.bytes (e : Scene) : List Byte :=
  match e.tempo with
  | some v => flagByte true ++ bytesOf 4 v
  | none => flagByte false

/-- READ_SCENES's work (R164). -/
def ownReadScenes (_args : List Byte) (s : State) : Reply × State :=
  okBytes (bytesOf 1 s.scenes.length ++ s.scenes.flatMap Scene.bytes) s

/-- READ_SCENES (R164). -/
def execReadScenes (record : CommandRecord) (s : State) : Host.Outcome State Fault Refusal :=
  .next (writeCommand 0x63 ownReadScenes record s)

end Sys2Proof.Machine
end

