-- ==== Sys2Proof/Machine/Lines.lean ====
section
/-! DEFINITION. The line table (02): the close of a period (R17 to R19, R21), ALLOC_LINE (R14, R15, R48), FREE_LINE (R26),
SET_WRITER (R20) and READ_LINE (R27). -/

namespace Sys2Proof.Machine

/-! ### The boundary -/

/-- The record of an ACTIVE line after its close at a boundary (R18); boundary 0 closes no line. -/
def Line.close (first : Bool) (b : Nat) (l : Line) : Line :=
  if first then l
  else
    { l with
      lastClose := if l.taken then .written else .filled
      gapRun := if l.taken then 0 else min 65535 (l.gapRun + 1)
      head := (l.head + b) % l.length }

/-- A staged writer is taken (R19). -/
def Line.takeWriter (l : Line) : Line := { l with writer := l.stagedWriter.or l.writer, stagedWriter := none }

/-- A line's record after a boundary: closed and its staged writer taken while ACTIVE, and its block-taken flag cleared in
either state (R17 to R19). -/
def Line.boundary (first : Bool) (b : Nat) (l : Line) : Line :=
  match l.state with
  | .active => { (l.close first b).takeWriter with taken := false }
  | .free => { l with taken := false }

/-- The fill a line owes at the boundary that ends a period (R18), if it owes one; in SAFE none is owed (R29). -/
def owedAtClose (ended : PeriodCount) (s : State) (l : LineNo) : Option Fill :=
  let line := s.line l
  if line.state = .active ∧ line.taken = false ∧ s.inSafe = false then
    some { period := ended, line := l, position := line.head, written := 0 }
  else none

/-- The line table's boundary work (R17 to R19, R21). -/
def closeLines (first : Bool) (s : State) : State :=
  let owed := if first then [] else allLines.filterMap (owedAtClose (s.timer.period - 1) s)
  orphanFills { s with
    fills := owed.foldl (fun fs f => oweFill s.timer.period f fs) s.fills
    lines := s.lines.map (Line.boundary first s.size) }

/-! ### ALLOC_LINE -/

/-- The page pool's answer to an allocation (R48). -/
def allocate (l : LineNo) (writer : Engine) (n : Nat) (s : State) : Reply × State :=
  if n ≤ s.pool.free.length then
    let s' := takePages l writer n s
    (.done .ok 0 (allocResult l n s'), s')
  else if s.pool.reachable < n then
    refuse .noSpace (if s.pool.dirty.isEmpty && s.pool.walker.isNone then s else raise .poolExhausted s)
  else (.waits, { s with pool := { s.pool with waiting := some { line := l, writer := writer, count := n } } })

/-- ALLOC_LINE's work (R14, R48). -/
def ownAllocLine (args : List Byte) (s : State) : Reply × State :=
  let n := argField args 2 2
  if 127 < argByte args 0 ∨ 3 < argByte args 1 ∨ n < 1 ∨ 256 < n then refuse .badArg s
  else
    let l : LineNo := Fin.ofNat 128 (argByte args 0)
    if (s.line l).state = .active then refuse .state s else allocate l (Fin.ofNat 4 (argByte args 1)) n s

/-- ALLOC_LINE (R14, R15, R48). -/
def execAllocLine (record : CommandRecord) (s : State) : Host.Outcome State Fault Refusal :=
  .next (writeCommand 0x10 ownAllocLine record s)

/-! ### FREE_LINE -/

/-- A line's record after FREE_LINE (R26). -/
def Line.freed (l : Line) : Line :=
  { l with
    state := .free, writer := none, stagedWriter := none, pages := [], head := 0, gapRun := 0, lastClose := .written }

/-- A line is freed (R26, R51): its pages join the dirty queue's tail and its owed fills are withdrawn. A commit write of
its block in service completes, and the block is dropped (R25); so does a fill write (R34). -/
def freeLine (l : LineNo) (s : State) : State :=
  let s1 := orphanCommit (fun _ m => m == l) (s.setLine l (s.line l).freed)
  let s2 := { s1 with
    fills := s1.fills.filter (·.line != l)
    pool := { s1.pool with dirty := s1.pool.dirty ++ (s.line l).pages } }
  settle (walkerTakes (orphanFills s2))

/-- FREE_LINE's work (R26). -/
def ownFreeLine (args : List Byte) (s : State) : Reply × State :=
  if 127 < argByte args 0 then refuse .badArg s
  else
    let l : LineNo := Fin.ofNat 128 (argByte args 0)
    if (s.line l).state = .free then refuse .state s
    else
      match firstNaming l s with
      | some t => (.done .inUse 0 (bytesOf 2 t.val), s)
      | none => okBytes [] (freeLine l s)

/-- FREE_LINE (R26). -/
def execFreeLine (record : CommandRecord) (s : State) : Host.Outcome State Fault Refusal :=
  .next (writeCommand 0x11 ownFreeLine record s)

/-! ### SET_WRITER and READ_LINE -/

/-- SET_WRITER's work (R20). -/
def ownSetWriter (args : List Byte) (s : State) : Reply × State :=
  if 127 < argByte args 0 ∨ 3 < argByte args 1 then refuse .badArg s
  else
    let l : LineNo := Fin.ofNat 128 (argByte args 0)
    if (s.line l).state = .free then refuse .state s
    else okBytes [] (s.setLine l { s.line l with stagedWriter := some (Fin.ofNat 4 (argByte args 1)) })

/-- SET_WRITER (R20). -/
def execSetWriter (record : CommandRecord) (s : State) : Host.Outcome State Fault Refusal :=
  .next (writeCommand 0x12 ownSetWriter record s)

/-- A list of page numbers preceded by its count: up to 16 from a start index (R27, R52, R194). -/
def pageListBytes (start : Nat) (pages : List Page) : List Byte :=
  let part := (pages.drop start).take 16
  bytesOf 1 part.length ++ part.flatMap fun p => bytesOf 2 p.val

/-- The bytes READ_LINE returns (R27, R194). R194 lists no kind for L and for the head: that each travels in 4 bytes, in
whole samples, is the model's choice (DESIGN CHOICE, log 20). -/
def lineBytes (l : LineNo) (start : Nat) (s : State) : List Byte :=
  let line := s.line l
  let owed := owedFills s.fills l
  bytesOf 1 line.state.code ++ bytesOf 1 line.generation.toNat ++ bytesOfOption 1 (line.writer.map (·.val))
    ++ bytesOfOption 1 (line.stagedWriter.map (·.val)) ++ bytesOf 2 line.pages.length ++ bytesOf 4 line.length
    ++ bytesOf 4 line.head ++ flagByte line.taken ++ flagByte (!owed.isEmpty) ++ bytesOf 2 line.gapRun
    ++ bytesOf 1 line.lastClose.code ++ bytesOf 1 owed.length ++ owed.flatMap (fun f => bytesOf 4 f.period.toNat)
    ++ pageListBytes start line.pages

/-- READ_LINE's work (R27); a one-byte start index is never above 255. -/
def ownReadLine (args : List Byte) (s : State) : Reply × State :=
  if 127 < argByte args 0 then refuse .badArg s
  else okBytes (lineBytes (Fin.ofNat 128 (argByte args 0)) (argByte args 1) s) s

/-- READ_LINE (R27). -/
def execReadLine (record : CommandRecord) (s : State) : Host.Outcome State Fault Refusal :=
  .next (writeCommand 0x13 ownReadLine record s)

end Sys2Proof.Machine
end

