-- ==== Sys2Proof/Machine/Store.lean ====
section
/-! DEFINITION. The accesses of the store that complete (03): commit writes (R69), fill writes (R22), refresh (R39 to
R41), scrub (R44 to R46), the two ends of a waiting allocation (R49, R50), and READ_POOL (R52). The pass's reads stand in
Pass.lean. -/

namespace Sys2Proof.Machine

/-! ### Commits and fills -/

/-- The written count of the head frame's head block advances (R69). -/
def advanceCommit (s : State) : State :=
  match s.commits with
  | [] => s
  | f :: fs =>
    match f.blocks with
    | [] => s
    | k :: ks => { s with commits := { f with blocks := { k with written := k.written + 1 } :: ks } :: fs }

/-- COMMIT_WRITE_COMPLETE (R69): the write in service completes, and its commit moves on if it still stands (R34, log 10).
With no commit write in service nothing changes (log 2). -/
def execCommitWriteComplete (s : State) : Host.Outcome State Fault Refusal :=
  .next
    (match s.arbiter.inService with
    | some (.commitWrite _ _ w v live) =>
      let s' := endAccess false (storeWrite w v s)
      settle (if live then advanceCommit s' else s')
    | _ => s)

/-- The count of an owed fill advances, and the fill leaves the list when it reaches B (R22). -/
def advanceFill (b : Nat) (l : LineNo) (p : PeriodCount) (f : Fill) : Option Fill :=
  if f.line = l ∧ f.period = p then
    if f.written + 1 < b then some { f with written := f.written + 1 } else none
  else some f

/-- FILL_WRITE_COMPLETE (R22): the write in service completes, and its fill advances if it is still owed (R34, log 10).
With no fill write in service nothing changes (log 2). -/
def execFillWriteComplete (s : State) : Host.Outcome State Fault Refusal :=
  .next
    (match s.arbiter.inService with
    | some (.fillWrite l p w live) =>
      let s' := endAccess false (storeWrite w 0 s)
      settle (if live then { s' with fills := s'.fills.filterMap (advanceFill s.size l p) } else s')
    | _ => s)

/-! ### Refresh -/

/-- The backlog after an expiry that finds it below 8; on reaching 4 it becomes urgent (R36, R39). -/
def Refresh.expire (r : Refresh) : Refresh :=
  { r with backlog := r.backlog + 1, urgent := r.urgent || decide (4 ≤ r.backlog + 1) }

/-- The fault entry of a REFRESH fault: the row at the row pointer, as a page and an offset (R41). -/
def refreshFaultEntry (s : State) : FaultEntry :=
  let page : Page := Fin.ofNat 4096 (s.refresh.row / 2)
  { kind := .refresh, page := page, offset := if s.refresh.row % 2 = 0 then 0 else 2048, line := lineHolding s page,
    engine := none }

/-- REFRESH_TIMER_EXPIRY (R39, R41): the timer is re-armed at once. Not armed, nothing expires (log 2). -/
def execRefreshTimerExpiry (s : State) : Host.Outcome State Fault Refusal :=
  .next
    (if !s.refresh.timerArmed then s
    else if s.refresh.backlog < 8 then
      let becomes := !s.refresh.urgent && s.refresh.expire.urgent
      settle { s with
        refresh := s.refresh.expire
        arbiter := { s.arbiter with urgentFirst := s.arbiter.urgentFirst || becomes } }
    else settle (storeFault (refreshFaultEntry s) false s))

/-- The refresh walker after an access (R40). -/
def Refresh.complete (r : Refresh) : Refresh :=
  { r with row := (r.row + 1) % 8192, backlog := r.backlog - 1, urgent := r.urgent && decide (r.backlog - 1 ≠ 0) }

/-- REFRESH_ACCESS_COMPLETE (R40). With no refresh access in service nothing changes (log 2). -/
def execRefreshAccessComplete (s : State) : Host.Outcome State Fault Refusal :=
  .next
    (match s.arbiter.inService with
    | some .refresh => settle (endAccess true { s with refresh := s.refresh.complete })
    | _ => s)

/-! ### Scrub -/

/-- The walker's record with another value. -/
def setWalker (w : Option Walk) (s : State) : State := { s with pool := { s.pool with walker := w } }

/-- The walk of the scrub access in service in a phase, if one is. -/
def scrubInService (phase : ScrubPhase) (s : State) : Option Walk :=
  match s.arbiter.inService, s.pool.walker with
  | some .scrub, some k => if k.phase = phase then some k else none
  | _, _ => none

/-- The walk after a CLEAR write: after 4096 of them the page enters VERIFY (R44). -/
def Walk.cleared (k : Walk) : Walk :=
  if k.pointer + 1 < 4096 then { k with pointer := k.pointer + 1 } else { k with phase := .verify, pointer := 0 }

/-- SCRUB_CLEAR_WRITE_COMPLETE (R44). With no such write in service nothing changes (log 2). -/
def execScrubClearWriteComplete (s : State) : Host.Outcome State Fault Refusal :=
  .next
    (match scrubInService .clear s with
    | some k => settle (setWalker (some k.cleared) (endAccess false (storeWrite (wordOf k.page k.pointer) 0 s)))
    | none => s)

/-- A VERIFY read has passed: clean or corrected, with a sample of zero (R45). -/
def ReadOutcome.passes : ReadOutcome → Bool
  | .clean v => v == 0
  | .corrected v => v == 0
  | .uncorrectable => false

/-- A word has passed VERIFY; with the last, the page joins the free list's tail and the pool looks at a waiting allocation
(R45, R49). -/
def verifyPasses (k : Walk) (s : State) : State :=
  if k.pointer + 1 < 4096 then setWalker (some { k with pointer := k.pointer + 1 }) s
  else
    let s' := { s with pool := { s.pool with free := s.pool.free ++ [k.page], walker := none } }
    walkerTakes (lookAtWaiting s')

/-- A page in its place by page number (R46). -/
def insertPage (p : Page) : List Page → List Page
  | [] => [p]
  | q :: qs => if q.val < p.val then q :: insertPage p qs else p :: q :: qs

/-- The fault entry of a VERIFY fault (R46). -/
def verifyFaultEntry (k : Walk) : FaultEntry :=
  { kind := .verify, page := k.page, offset := k.pointer, line := none, engine := none }

/-- A VERIFY read has failed its page (R46): a page that finds room is retired, and else goes back to the dirty queue with
the RETIRE_FULL note. The pool then looks at a waiting allocation (R50). In SAFE, where a read can complete that was in
service at the entry, no fault arises (R41, R186): the walker keeps its page at its pointer (R47), and reads the word again
when it resumes (log 11). -/
def verifyFails (k : Walk) (s : State) : State :=
  if s.inSafe then s
  else if s.pool.retired.length < 64 then
    let s' := { s with pool := { s.pool with retired := insertPage k.page s.pool.retired, walker := none } }
    walkerTakes (lookAtShortage (storeFault (verifyFaultEntry k) false s'))
  else
    let s' := { s with pool := { s.pool with dirty := s.pool.dirty ++ [k.page], walker := none } }
    walkerTakes (storeFault (verifyFaultEntry k) true s')

/-- The VERIFY read in service completes (R45, R46). -/
def completeVerify (k : Walk) (u : Upset) (s : State) : State :=
  let w := wordOf k.page k.pointer
  let s' := endAccess false (storeRead w u s)
  settle (if (readOutcome w u s).passes then verifyPasses k s' else verifyFails k s')

/-- SCRUB_VERIFY_READ_COMPLETE (R45, R46). With no such read in service nothing changes (log 2). -/
def execScrubVerifyReadComplete (u : Upset) (s : State) : Host.Outcome State Fault Refusal :=
  .next
    (match scrubInService .verify s with
    | some k => completeVerify k u s
    | none => s)

/-! ### The ends of a waiting allocation -/

/-- The VERIFY read in service, ending with this upset, passes its page's last word and brings the free list to the
waiting allocation's count (R49). -/
def verifyGrants (k : Walk) (u : Upset) (s : State) : Bool :=
  (readOutcome (wordOf k.page k.pointer) u s).passes && k.pointer == 4095
    && s.pool.waiting.any fun w => decide (w.count ≤ s.pool.free.length + 1)

/-- ALLOC_COMPLETE (R49): the VERIFY that brings the free list to n (log 14). With no waiting allocation that it completes
nothing changes (log 2). -/
def execAllocComplete (u : Upset) (s : State) : Host.Outcome State Fault Refusal :=
  .next
    (match scrubInService .verify s with
    | some k => if verifyGrants k u s then completeVerify k u s else s
    | none => s)

/-- The VERIFY read in service, ending with this upset, retires its page, enters no SAFE, and leaves the reachable count
below the waiting allocation's (R50). -/
def verifyStrands (k : Walk) (u : Upset) (s : State) : Bool :=
  !(readOutcome (wordOf k.page k.pointer) u s).passes && decide (s.pool.retired.length < 64)
    && !s.inSafe && decide (s.faults.level < 3)
    && s.pool.waiting.any fun w => decide (s.pool.free.length + s.pool.dirty.length < w.count)

/-- ALLOC_NO_SPACE (R50): the failing VERIFY that retires a page the waiting allocation needed (log 14). With no waiting
allocation that it ends nothing changes (log 2). -/
def execAllocNoSpace (u : Upset) (s : State) : Host.Outcome State Fault Refusal :=
  .next
    (match scrubInService .verify s with
    | some k => if verifyStrands k u s then completeVerify k u s else s
    | none => s)

/-! ### READ_POOL -/

/-- The scrub walker's page, or none, and with a page its phase and remaining count (R52). -/
def walkerBytes : Option Walk → List Byte
  | none => bytesOfOption 2 none
  | some k => bytesOf 2 k.page.val ++ bytesOf 1 k.phase.code ++ bytesOf 2 (4096 - k.pointer)

/-- Whether an allocation is waiting, with its line and n (R52). -/
def waitingBytes : Option Waiting → List Byte
  | none => flagByte false
  | some w => flagByte true ++ bytesOf 1 w.line.val ++ bytesOf 2 w.count

/-- The bytes READ_POOL returns (R52, R194, log 20). -/
def poolBytes (start : Nat) (s : State) : List Byte :=
  bytesOf 2 s.pool.free.length ++ bytesOf 2 s.pool.dirty.length ++ bytesOf 1 s.pool.retired.length
    ++ walkerBytes s.pool.walker ++ bytesOf 1 s.refresh.backlog ++ flagByte s.refresh.urgent ++ bytesOf 2 s.refresh.row
    ++ bytesOf 2 s.store.corrected ++ waitingBytes s.pool.waiting ++ pageListBytes start s.pool.retired

/-- READ_POOL's work (R52). -/
def ownReadPool (args : List Byte) (s : State) : Reply × State :=
  if 63 < argByte args 0 then refuse .badArg s else okBytes (poolBytes (argByte args 0) s) s

/-- READ_POOL (R52). -/
def execReadPool (record : CommandRecord) (s : State) : Host.Outcome State Fault Refusal :=
  .next (writeCommand 0x14 ownReadPool record s)

end Sys2Proof.Machine
end

