-- ==== Sys2Proof/Machine/Clock.lean ====
section
/-! DEFINITION. The period timer (01): measuring edges (R1), the word-clock states (R2, R4 to R6), counted edges (R3), the
boundary event (R7, R9), SET_PERIOD (R8) and READ_CLOCK (R10). -/

namespace Sys2Proof.Machine

/-! ### Measuring -/

/-- The mean of a spacing list, rounded down (R1). -/
def meanSpacing (xs : List Nat) : Nat := xs.foldl (· + ·) 0 / xs.length

/-- A spacing is consistent with a mean m: 64 × |s − m| ≤ m (R1). -/
def consistent (m s : Nat) : Bool := decide (64 * ((s - m) + (m - s)) ≤ m)

/-- The spacing of a real edge at a reading, if a last real edge time is held (R1). -/
def Timer.spacing (reading : Nat) (t : Timer) : Option Nat := t.lastEdge.map (reading - ·)

/-- A spacing joins the relock run without emptying it (R1). -/
def Timer.joins (spacing : Nat) (t : Timer) : Bool := t.relockRun.isEmpty || consistent (meanSpacing t.relockRun) spacing

/-- The relock run after a spacing is offered (R1). -/
def Timer.offered (spacing : Nat) (t : Timer) : List Nat :=
  if t.joins spacing then joinTail 64 t.relockRun spacing else [spacing]

/-- A real edge measured where its spacing is offered to the relock run; a spacing of 0 is not offered (R1). -/
def Timer.measureOffer (reading : Nat) (t : Timer) : Timer :=
  let t' := { t with lastEdge := some reading }
  match t.spacing reading with
  | none => t'
  | some 0 => t'
  | some sp => { t' with relockRun := t.offered sp }

/-- The spacing joined the relock run and the run then holds 64 (R2, R5). -/
def Timer.runFull (reading : Nat) (t : Timer) : Bool :=
  match t.spacing reading with
  | none => false
  | some 0 => false
  | some sp => t.joins sp && (t.offered sp).length == 64

/-- The spacing emptied the relock run (R5). -/
def Timer.runEmptied (reading : Nat) (t : Timer) : Bool :=
  match t.spacing reading with
  | none => false
  | some 0 => false
  | some sp => !t.joins sp

/-- A real edge measured in LOCKED: its spacing joins the window unless it is 0, M is recomputed, and the loss timer is
armed from the edge (R4). -/
def Timer.measureLocked (reading : Nat) (t : Timer) : Timer :=
  let window :=
    match t.spacing reading with
    | none => t.window
    | some 0 => t.window
    | some sp => joinTail 64 t.window sp
  { t with
    lastEdge := some reading, window := window, mean := some (meanSpacing window)
    lossTimer := some (reading + 2 * meanSpacing window) }

/-- The timer takes the relock run as its window at a reading: LOCKED, with M its mean and the loss timer armed (R2, R6). -/
def Timer.lock (reading : Nat) (t : Timer) : Timer :=
  let m := meanSpacing t.relockRun
  { t with
    wclk := .locked, window := t.relockRun, mean := some m, relockRun := [], relockReady := false
    lossTimer := some (reading + 2 * m), flyTimer := none }

/-! ### The boundary -/

/-- No line is ACTIVE and every tap is IDLE (R8, R9). -/
def tablesQuiet (s : State) : Bool :=
  s.lines.toList.all (fun l => l.state == .free) && s.taps.toList.all fun t => t.state == .idle

/-- The period size that governs the period beginning (R9). -/
def sizeAfter (s : State) : PeriodSize :=
  match s.timer.stagedSize with
  | some b => if tablesQuiet s then b else s.timer.size
  | none => s.timer.size

/-- The timer at a boundary: the new period count, the edge count 0, and a staged B dealt with (R2, R3, R9). zero: this is
boundary 0. -/
def Timer.boundary (zero quiet : Bool) (size : PeriodSize) (t : Timer) : Timer :=
  { t with
    period := if zero then 0 else t.period + 1
    edge := 0
    running := t.running || zero
    size := size
    stagedSize := if quiet then none else t.stagedSize }

/-- A boundary event up to the two readers of the tempo (R7), in one order of the blocks (log 4): the timer (R2, R3, R9),
the tap processor's cut (R102, R103), the links (R56, R72, R74) and the line table (R18, R19). -/
def boundaryStart (zero : Bool) (s : State) : State :=
  let s1 := { s with timer := s.timer.boundary zero (tablesQuiet s) (sizeAfter s) }
  closeLines zero (linksBoundary (cutAtBoundary s.timer.period s1))

/-- A staged B takes effect at the boundary about to be made (R9, R145). -/
def resizes (s : State) : Bool := sizeAfter s != s.timer.size

/-- The boundary event and every block's boundary work (R7), with nothing between the tap table's (R108) and the
oscillator bank's (R145); the pass queue is formed last (R96, log 4). -/
def boundary (zero : Bool) (s : State) : State :=
  settle (formQueue (oscBoundary (resizes s) (tapBoundary (boundaryStart zero s))))

/-- An event that adopts a tempo, as its own row takes it (R132, R133, R137, R138, R160). -/
def takeAdoption (s : State) : Adoption → State
  | .setTempo record => writeCommand 0x40 ownSetTempo record s
  | .tapTempo record => writeCommand 0x41 ownTapTempo record s
  | .popScene record => writeCommand 0x61 ownPopScene record s
  | .tempoPulse => takePulse s

/-- The events taken between the tap table's and the oscillator bank's boundary work, in their order (R128, R162). -/
def adoptBetween (events : List Adoption) (s : State) : State := events.foldl takeAdoption s

/-- The tap table and the oscillator bank take a boundary at events of their own, in either order, and adoptions may be
taken between the two (R128, R145, R162). -/
def readersBoundary (order : EdgeOrder) (resized : Bool) (s : State) : State :=
  if order.bankFirst then tapBoundary (adoptBetween order.between (oscBoundary resized s))
  else oscBoundary resized (adoptBetween order.between (tapBoundary s))

/-- The boundary event and every block's boundary work (R7), with the readers of the tempo in the order of the row's
operand (logs 4 and 5). -/
def boundaryAround (order : EdgeOrder) (zero : Bool) (s : State) : State :=
  settle (formQueue (readersBoundary order (resizes s) (boundaryStart zero s)))

/-! ### Counted edges -/

/-- The sample counter advances (R2, R3). -/
def countSample (s : State) : State := { s with timer := { s.timer with samples := s.timer.samples + 1 } }

/-- What the tempo unit and the receivers take of a sample edge before the boundary that it makes (log 5). -/
def edgeBefore (order : EdgeOrder) (s : State) : State :=
  let s' := if order.tempoAfter then s else tempoEdge s
  if order.receiversAfter then s' else receiverEdge s'

/-- What they take of it after that boundary. -/
def edgeAfter (order : EdgeOrder) (s : State) : State :=
  let s' := if order.tempoAfter then tempoEdge s else s
  if order.receiversAfter then receiverEdge s' else s'

/-- The edge count before the edge is B − 1 (R3). -/
def edgeEnds (s : State) : Bool := decide (s.size - 1 ≤ s.timer.edge)

/-- The counting of an edge (R3). zero: it makes boundary 0 (R2). Before boundary 0 no other boundary is made, and the
edge count goes round (R24, R78; log 6). -/
def countEdge (zero : Bool) (order : EdgeOrder) (s : State) : State :=
  if zero || (edgeEnds s && s.timer.running) then boundaryAround order zero s
  else { s with timer := { s.timer with edge := if edgeEnds s then 0 else s.timer.edge + 1 } }

/-- A counted edge (R3): the sample counter, the tempo unit and the receivers take it, and it is counted. -/
def countedEdge (zero : Bool) (order : EdgeOrder) (s : State) : State :=
  edgeAfter order (countEdge zero order (edgeBefore order (countSample s)))

/-! ### The rows -/

/-- A real edge in UNLOCKED (R2). -/
def edgeUnlocked (reading : Nat) (s : State) : State :=
  let t := s.timer.measureOffer reading
  let t' := if s.timer.runFull reading then t.lock reading else t
  tempoEdge (countSample { s with timer := t' })

/-- A real edge in LOCKED (R2, R4): a counted edge; the first after the first lock makes boundary 0. -/
def edgeLocked (reading : Nat) (order : EdgeOrder) (s : State) : State :=
  countedEdge (!s.timer.running) order { s with timer := s.timer.measureLocked reading }

/-- A real edge in FLYWHEEL (R5): only measured. -/
def edgeFlywheel (reading : Nat) (s : State) : State :=
  let ready := (s.timer.relockReady || s.timer.runFull reading) && !s.timer.runEmptied reading
  { s with timer := { s.timer.measureOffer reading with relockReady := ready } }

/-- REAL_EDGE (R1). -/
def execRealEdge (reading : Nat) (order : EdgeOrder) (s : State) : Host.Outcome State Fault Refusal :=
  .next
    (match s.timer.wclk with
    | .unlocked => edgeUnlocked reading s
    | .locked => edgeLocked reading order s
    | .flywheel => edgeFlywheel reading s)

/-- M as it stands. -/
def Timer.m (t : Timer) : Nat := t.mean.getD 0

/-- The loss timer expires at the reading it was armed for (R4). -/
def loseClock (reading : Nat) (order : EdgeOrder) (s : State) : State :=
  raise .wclkLost (countedEdge false order
    { s with timer :=
      { s.timer with
        wclk := .flywheel, relockRun := [], relockReady := false, lossTimer := none
        flyTimer := some (reading + s.timer.m) } })

/-- LOSS_TIMER_EXPIRY (R4). With the loss timer not armed nothing expires (log 2). -/
def execLossTimerExpiry (order : EdgeOrder) (s : State) : Host.Outcome State Fault Refusal :=
  .next
    (match s.timer.wclk, s.timer.lossTimer with
    | .locked, some reading => loseClock reading order s
    | _, _ => s)

/-- The timer returns to LOCKED at the flywheel boundary (R6). -/
def relock (reading : Nat) (s : State) : State := raise .wclkRestored { s with timer := s.timer.lock reading }

/-- The flywheel timer expires at the reading it was armed for (R5, R6). -/
def turnFlywheel (reading : Nat) (order : EdgeOrder) (s : State) : State :=
  let s' := countedEdge false order { s with timer := { s.timer with flyTimer := some (reading + s.timer.m) } }
  if s.timer.relockReady && edgeEnds s then relock reading s' else s'

/-- FLYWHEEL_EDGE (R5, R6). With the flywheel timer not armed nothing expires (log 2). -/
def execFlywheelEdge (order : EdgeOrder) (s : State) : Host.Outcome State Fault Refusal :=
  .next
    (match s.timer.wclk, s.timer.flyTimer with
    | .flywheel, some reading => turnFlywheel reading order s
    | _, _ => s)

/-! ### SET_PERIOD and READ_CLOCK -/

/-- SET_PERIOD's work (R8). -/
def ownSetPeriod (args : List Byte) (s : State) : Reply × State :=
  match PeriodSize.ofNat? (argByte args 0) with
  | none => refuse .badArg s
  | some b =>
    if !tablesQuiet s then refuse .state s
    else okBytes [] { s with timer := { s.timer with stagedSize := some b } }

/-- SET_PERIOD (R8). -/
def execSetPeriod (record : CommandRecord) (s : State) : Host.Outcome State Fault Refusal :=
  .next (writeCommand 0x01 ownSetPeriod record s)

/-- The bytes READ_CLOCK returns (R10, R194, log 20). That a mean spacing above 2^32 − 1 sends its low 32 bits is the model's
choice (DESIGN CHOICE, log 33). -/
def Timer.bytes (t : Timer) : List Byte :=
  bytesOf 1 t.wclk.code ++ bytesOfOption 4 t.mean ++ bytesOf 1 t.relockRun.length ++ flagByte t.relockReady
    ++ flagByte t.running ++ bytesOf 1 t.size.toNat ++ bytesOfOption 1 (t.stagedSize.map PeriodSize.toNat)
    ++ bytesOf 1 t.edge ++ bytesOf 4 t.period.toNat ++ bytesOf 5 t.samples.toNat

/-- READ_CLOCK's work (R10). -/
def ownReadClock (_args : List Byte) (s : State) : Reply × State := okBytes s.timer.bytes s

/-- READ_CLOCK (R10). -/
def execReadClock (record : CommandRecord) (s : State) : Host.Outcome State Fault Refusal :=
  .next (writeCommand 0x02 ownReadClock record s)

end Sys2Proof.Machine
end

