-- ==== Sys2Proof/Machine/Notices.lean ====
section
/-! DEFINITION. The commands of the notice and fault unit (11): ACK_NOTICE (R180), SET_MASK (R181), READ_FAULT (R183) and
CLEAR_FAULT (R184). -/

namespace Sys2Proof.Machine

/-- ACK_NOTICE's work (R180): the choice and the clear are made before the command's own completion. -/
def ownAckNotice (_args : List Byte) (s : State) : Reply × State :=
  let code := s.notices.first
  let notices := s.notices.acknowledge code
  (.done .ok 0 (bytesOf 1 code ++ bytesOf 2 notices.pending.toNat), { s with notices := notices })

/-- ACK_NOTICE (R180). -/
def execAckNotice (record : CommandRecord) (s : State) : Host.Outcome State Fault Refusal :=
  .next (writeCommand 0x70 ownAckNotice record s)

/-- SET_MASK's work (R181). -/
def ownSetMask (args : List Byte) (s : State) : Reply × State :=
  okBytes [] { s with notices := { s.notices with mask := BitVec.ofNat 16 (argField args 0 2) } }

/-- SET_MASK (R181). -/
def execSetMask (record : CommandRecord) (s : State) : Host.Outcome State Fault Refusal :=
  .next (writeCommand 0x71 ownSetMask record s)

/-- The bytes of a first fault or none (11 section 11.2). That the offset, for which R194 lists no kind, travels in 2 bytes,
and none as its first byte all ones, is the model's choice (DESIGN CHOICE, log 20). -/
def faultEntryBytes : Option FaultEntry → List Byte
  | none => [0xFF]
  | some f => bytesOf 1 f.kind.code ++ bytesOf 2 f.page.val ++ bytesOf 2 f.offset
      ++ bytesOfOption 1 (f.line.map (·.val)) ++ bytesOfOption 1 (f.engine.map (·.val))

/-- The bytes READ_FAULT returns (R183). -/
def FaultUnit.bytes (u : FaultUnit) : List Byte :=
  faultEntryBytes u.first ++ bytesOf 1 u.later ++ flagByte u.retireFull ++ bytesOf 1 u.level ++ bytesOf 1 u.mode.code

/-- READ_FAULT's work (R183). -/
def ownReadFault (_args : List Byte) (s : State) : Reply × State := okBytes s.faults.bytes s

/-- READ_FAULT (R183). -/
def execReadFault (record : CommandRecord) (s : State) : Host.Outcome State Fault Refusal :=
  .next (writeCommand 0x72 ownReadFault record s)

/-- The fault record emptied, the mode kept (R184). -/
def FaultUnit.clear (u : FaultUnit) : FaultUnit := { u with first := none, later := 0, retireFull := false, level := 0 }

/-- CLEAR_FAULT's work (R184). -/
def ownClearFault (_args : List Byte) (s : State) : Reply × State := okBytes [] { s with faults := s.faults.clear }

/-- CLEAR_FAULT (R184). -/
def execClearFault (record : CommandRecord) (s : State) : Host.Outcome State Fault Refusal :=
  .next (writeCommand 0x73 ownClearFault record s)

end Sys2Proof.Machine
end

