-- ==== Sys2Proof/Machine/Reset.lean ====
section
/-! DEFINITION. The two resets: RESET_LINE (R11 and every block's own reset rule) and PART_RESET (R173, R174). -/

namespace Sys2Proof.Machine

/-- The machine after the reset line: every block in its reset state. The reset line does not write the store array (R53);
the queue of waiting commands and the count of free values used are the model's own and go on (log 22). -/
def resetLine (s : State) : State :=
  { State.reset with
    store := { cells := s.store.cells, corrected := 0 }, freeIx := s.freeIx, pending := s.pending }

/-- RESET_LINE (R11, R30, R53, R78, R107, R141, R153, R165, R178, R187). -/
def execResetLine (s : State) : Host.Outcome State Fault Refusal := .next (resetLine s)

/-! ### PART_RESET, block by block (R174) -/

/-- The pages of every ACTIVE line, lines in ascending number and each line's pages in page-list order (R51). -/
def linePages (s : State) : List Page := allLines.flatMap fun l => (s.line l).pages

/-- A line's record after PART_RESET: FREE, its generation kept (R30). -/
def Line.partReset (l : Line) : Line := { l.freed with taken := false }

/-- The line table, with no fill owed, and the page pool after PART_RESET (R30, R51, R54). -/
def resetLines (s : State) : State :=
  { withdrawFills s with
    lines := s.lines.map Line.partReset
    pool := { s.pool with dirty := s.pool.dirty ++ linePages s, waiting := none } }

/-- A link's record after PART_RESET, but for its transmitter (R79). -/
def Link.partReset (k : Link) : Link :=
  { k with
    state := if k.state = .off then .off else .down
    missed := 0, accepted := false, receiver := .hunt, buffers := Vector.replicate 2 .free, tally := Tally.empty
    counters := Counters.zero }

/-- The engine links after PART_RESET (R79): the commit queue is emptied and every transmitter ends its frames with
ABORT. -/
def resetLinks (s : State) : State :=
  let s1 := emptyCommits s
  let s2 := { s1 with links := s1.links.map Link.partReset }
  allEngines.foldl (fun s e => abortTransmitter e s) s2

/-- The tap table and the tap processor after PART_RESET (R107). -/
def resetTaps (s : State) : State :=
  { orphanPassRead s with taps := Vector.replicate 512 Tap.reset, proc := TapProc.reset }

/-- The tempo unit after PART_RESET (R142). -/
def Tempo.partReset (t : Tempo) : Tempo :=
  let t' := { t with tapList := [], lastTap := none, tapSide := false, oscSide := false }
  match t.source with
  | .external => t'.clearFollower .acquiring
  | .internal => t'

/-- The blocks after PART_RESET, in NORMAL and with no notice pending (R174, R187). -/
def resetBlocks (s : State) : State :=
  let s1 := resetTaps (resetLinks (resetLines s))
  settle (walkerTakes { s1 with
    tempo := s1.tempo.partReset
    oscs := Vector.ofFn Osc.reset
    scenes := []
    faults := FaultUnit.reset
    notices := { s1.notices with pending := 0 } })

/-- PART_RESET is taken (R173): a command in progress is abandoned, every block resets, and the command completes. -/
def partReset (s : State) : State :=
  complete 0x7F .ok 0 (bytesOf 4 s.timer.period.toNat ++ flagByte s.inSafe) (resetBlocks s)

/-- PART_RESET (R168, R173). In HELD it is taken with its own length and no argument bytes, and else collides; in EMPTY and
DONE it is judged by tests 1 and 2. -/
def execPartReset (record : CommandRecord) (s : State) : Host.Outcome State Fault Refusal :=
  let s' := zerosOut (recordBytes record) s
  .next
    (match record with
    | .cut => s'
    | .sent length args =>
      if lengthFits 0x7F length args then partReset s'
      else
        match s.port.mailbox with
        | .held _ => collide s'
        | _ => complete 0x7F .badLength 0 [] (hold 0x7F s'))

end Sys2Proof.Machine
end

