-- ==== Sys2Proof/Machine/Dispatch.lean ====
section
/-! DEFINITION. The meaning of every command: one arm for each row of spec/opcode_table.json. -/

namespace Sys2Proof.Machine

/-- What a command does to the part, its queue of waiting commands apart. -/
def exec (i : Instr) (s : State) : Host.Outcome State Fault Refusal :=
  match i with
  | .resetLine => Sys2Proof.Machine.execResetLine s
  | .realEdge reading order => Sys2Proof.Machine.execRealEdge reading order s
  | .lossTimerExpiry order => Sys2Proof.Machine.execLossTimerExpiry order s
  | .flywheelEdge order => Sys2Proof.Machine.execFlywheelEdge order s
  | .openMark engine => Sys2Proof.Machine.execOpenMark engine s
  | .inputFrame engine => Sys2Proof.Machine.execInputFrame engine s
  | .receiveTimeout engine => Sys2Proof.Machine.execReceiveTimeout engine s
  | .closeMarkLeavesLane engine => Sys2Proof.Machine.execCloseMarkLeavesLane engine s
  | .commitWriteComplete => Sys2Proof.Machine.execCommitWriteComplete s
  | .fillWriteComplete => Sys2Proof.Machine.execFillWriteComplete s
  | .passStart => Sys2Proof.Machine.execPassStart s
  | .passReadComplete upset => Sys2Proof.Machine.execPassReadComplete upset s
  | .refreshTimerExpiry => Sys2Proof.Machine.execRefreshTimerExpiry s
  | .refreshAccessComplete => Sys2Proof.Machine.execRefreshAccessComplete s
  | .scrubClearWriteComplete => Sys2Proof.Machine.execScrubClearWriteComplete s
  | .scrubVerifyReadComplete upset => Sys2Proof.Machine.execScrubVerifyReadComplete upset s
  | .allocComplete upset => Sys2Proof.Machine.execAllocComplete upset s
  | .allocNoSpace upset => Sys2Proof.Machine.execAllocNoSpace upset s
  | .tempoPulse => Sys2Proof.Machine.execTempoPulse s
  | .pulseLossTimerExpiry => Sys2Proof.Machine.execPulseLossTimerExpiry s
  | .readResult clocked => Sys2Proof.Machine.execReadResult clocked s
  | .readStatus clocked => Sys2Proof.Machine.execReadStatus clocked s
  | .commandCollision code record => Sys2Proof.Machine.execCommandCollision code record s
  | .badCommand code transaction => Sys2Proof.Machine.execBadCommand code transaction s
  | .setPeriod record => Sys2Proof.Machine.execSetPeriod record s
  | .readClock record => Sys2Proof.Machine.execReadClock record s
  | .allocLine record => Sys2Proof.Machine.execAllocLine record s
  | .freeLine record => Sys2Proof.Machine.execFreeLine record s
  | .setWriter record => Sys2Proof.Machine.execSetWriter record s
  | .readLine record => Sys2Proof.Machine.execReadLine record s
  | .readPool record => Sys2Proof.Machine.execReadPool record s
  | .setLink record => Sys2Proof.Machine.execSetLink record s
  | .readLink record => Sys2Proof.Machine.execReadLink record s
  | .readCounters record => Sys2Proof.Machine.execReadCounters record s
  | .setTap record => Sys2Proof.Machine.execSetTap record s
  | .clearTap record => Sys2Proof.Machine.execClearTap record s
  | .readTap record => Sys2Proof.Machine.execReadTap record s
  | .saveTap record => Sys2Proof.Machine.execSaveTap record s
  | .setTempo record => Sys2Proof.Machine.execSetTempo record s
  | .tapTempo record => Sys2Proof.Machine.execTapTempo record s
  | .setTempoSource record => Sys2Proof.Machine.execSetTempoSource record s
  | .setMeter record => Sys2Proof.Machine.execSetMeter record s
  | .resync record => Sys2Proof.Machine.execResync record s
  | .readTempo record => Sys2Proof.Machine.execReadTempo record s
  | .setOsc record => Sys2Proof.Machine.execSetOsc record s
  | .readOsc record => Sys2Proof.Machine.execReadOsc record s
  | .pushScene record => Sys2Proof.Machine.execPushScene record s
  | .popScene record => Sys2Proof.Machine.execPopScene record s
  | .dropScene record => Sys2Proof.Machine.execDropScene record s
  | .readScenes record => Sys2Proof.Machine.execReadScenes record s
  | .ackNotice record => Sys2Proof.Machine.execAckNotice record s
  | .setMask record => Sys2Proof.Machine.execSetMask record s
  | .readFault record => Sys2Proof.Machine.execReadFault record s
  | .clearFault record => Sys2Proof.Machine.execClearFault record s
  | .partReset record => Sys2Proof.Machine.execPartReset record s
  | .dataByte engine byte => Sys2Proof.Machine.execDataByte engine byte s

end Sys2Proof.Machine
end

