-- ==== Sys2Proof/Safety.lean ====
section
/-! DEFINITION. The properties that the statements are about: when the mailbox takes a command, and the laws of the part
that every step keeps. -/

namespace Sys2Proof.Machine

/-! ### When a command is taken -/

/-- No command is in progress: the mailbox is EMPTY or DONE (R167). -/
def mailboxFree (s : State) : Bool :=
  match s.port.mailbox with
  | .held _ => false
  | .empty => true
  | .done _ => true

/-- The mailbox takes a command and the part is in NORMAL (R167, R169). -/
def takesCommands (s : State) : Bool := mailboxFree s && s.faults.mode == .normal

/-- A whole record: the argument length is the number of argument bytes carried (R194). -/
def whole (args : List Byte) : CommandRecord := .sent (BitVec.ofNat 8 args.length) args

/-- The zeros of a record with n argument bytes have been shifted out: one for the transaction code, one for the command
code, one for the argument length and one for each argument byte (R193). -/
def wrote (n : Nat) (s : State) : State := zerosOut (3 + n) s

/-! ### The access in service -/

/-- The access in service after an event that withdraws claims (R34): it stays in service, and stays its claimant's where
the claimant still stands: a commit's by its engine and line, a fill's by its line and period, a pass's. -/
def Access.heldBy (commit : Engine → LineNo → Bool) (fill : LineNo → PeriodCount → Bool) (pass : Bool) : Access → Access
  | .commitWrite e l w v live => .commitWrite e l w v (live && commit e l)
  | .fillWrite l p w live => .fillWrite l p w (live && fill l p)
  | .passRead l e w live => .passRead l e w (live && pass)
  | .refresh => .refresh
  | .scrub => .scrub

/-! ### The places of a page (R42) -/

/-- The pages of every place, one place after another. -/
def placedPages (s : State) : List Page :=
  s.pool.free ++ s.pool.dirty ++ s.pool.retired ++ (s.pool.walker.map (·.page)).toList
    ++ s.lines.toList.flatMap (·.pages)

/-- The law of R42, with what carries it from step to step: each page is in exactly one place once, the retired set
stands in the order of page number (03 section 3.4, R46) and holds at most 64, a FREE line has no pages, and an allocation
waits only for a FREE line and with the mailbox HELD (R14, R48). -/
structure PagesLawful (s : State) : Prop where
  once : (placedPages s).Perm allPages
  retiredOrdered : s.pool.retired.Pairwise (· < ·)
  freeEmpty : ∀ l, (s.line l).state = .free → (s.line l).pages = []
  retiredFits : s.pool.retired.length ≤ 64
  waitingFree : ∀ w, s.pool.waiting = some w → (s.line w.line).state = .free
  waitingHeld : s.pool.waiting.isSome → s.port.mailbox = .held allocCode

/-! ### The store array -/

/-- The store array is in its canonical form: word numbers strictly rising, no word listed that reads as an unlisted
one. -/
def StoreLawful (s : State) : Prop := s.store.cells.wf = true

/-! ### Ranges -/

/-- These ranges of the tables of 01 to 11: the edge count below B, the spacing window and the relock run of at most 64
(01 section 1.1); an ACTIVE line's 1 to 256 pages, its head below L, every head a multiple of B, and 0 while FREE, and the
gap run (02 section 2.1); the row pointer, and the backlog from 0 to 8 (R39), the corrected count (R32), and the 1 to 256
pages an allocation waits for (R14); the missed count: below 8 in UP, 8 in LOST, and else 0 (R56); the beat number below
beats per bar, which is 1 to 16, Ib from 4096 to 524,288 samples, the beat position below Ib, the tap list, the pulse window
and the pulse phase (07 section 7.1); the depth of the scene stack (R155); the fault level and the later count (11 section
11.2). -/
structure RangesLawful (s : State) : Prop where
  edge : s.timer.edge < s.size
  spacings : s.timer.window.length ≤ 64
  relockRun : s.timer.relockRun.length ≤ 64
  pages : ∀ l, (s.line l).state = .active → 1 ≤ (s.line l).pages.length ∧ (s.line l).pages.length ≤ 256
  headOnRing : ∀ l, (s.line l).state = .active → (s.line l).head < (s.line l).length
  headOfFree : ∀ l, (s.line l).state = .free → (s.line l).head = 0
  headByBlocks : ∀ l, (s.line l).head % s.size = 0
  gapRun : ∀ l, (s.line l).gapRun ≤ 65535
  waiting : ∀ w, s.pool.waiting = some w → 1 ≤ w.count ∧ w.count ≤ 256
  missedUp : ∀ e, (s.link e).state = .up → (s.link e).missed < 8
  missedLost : ∀ e, (s.link e).state = .lost → (s.link e).missed = 8
  missedNone : ∀ e, (s.link e).state = .off ∨ (s.link e).state = .down → (s.link e).missed = 0
  row : s.refresh.row < 8192
  backlog : s.refresh.backlog ≤ 8
  corrected : s.store.corrected ≤ 65535
  level : s.faults.level ≤ 3
  later : s.faults.later ≤ 255
  scenes : s.scenes.length ≤ 4
  beat : s.tempo.beatNumber < s.tempo.beatsPerBar
  meter : s.tempo.beatsPerBar ≤ 16
  interval : 4096 * 256 ≤ s.tempo.interval ∧ s.tempo.interval ≤ 524288 * 256
  beatPosition : s.tempo.beatPosition < s.tempo.interval
  tapList : s.tempo.tapList.length ≤ 4
  window : s.tempo.window.length ≤ 24
  phase : s.tempo.phase < 24

/-! ### Tap records -/

/-- A set that a tap may move to has the fade lengths its moves need (check 6 of R84), within their largest values. -/
def ParamSet.fadesWell (p : ParamSet) : Bool :=
  decide (p.fadeLen ≤ 64) && decide (p.edgeFade ≤ 64) && (p.method == .jump || decide (0 < p.fadeLen))
    && !(p.mode == .tempo && p.method == .jump && p.edgeFade == 0)

/-- The law of a tap record between boundaries: in a fade the count lies below the fade length, which is 1 to 64, and else
the progress is 0 of 0 (R109); the old side is held in FADING alone (R119, R111), and so is a pending target (R120, R121);
the current set's run flag reads run in STARTING, RUNNING, GLIDING and FADING (05 section 5.2); every set held fades
well. -/
structure Tap.Lawful (t : Tap) : Prop where
  fade : t.state.isFade = true → t.fadeCount < t.fadeOf ∧ t.fadeOf ≤ 64
  noFade : t.state.isFade = false → t.fadeCount = 0 ∧ t.fadeOf = 0
  oldSide : t.oldSide.isSome = (t.state == .fading)
  pendingTarget : t.pendingTarget.isSome = true → t.state = .fading
  runFlag : t.current.run = (t.state != .idle && t.state != .stopping)
  current : t.current.fadesWell = true
  staged : (Edit.set? t.staged).all ParamSet.fadesWell = true
  preset : ∀ p, t.staged = some (.preset p) → p.run = false
  waiting : t.pendingTarget.all ParamSet.fadesWell = true

/-- Every tap's record keeps the law, every set of every scene fades well, and the law of R81 holds: a line that a tap names
is ACTIVE, be it named through its current set while the tap is not IDLE, its old side, its pending target or a staged
set. -/
structure TapsLawful (s : State) : Prop where
  taps : ∀ t, (s.tap t).Lawful
  scenes : ∀ e ∈ s.scenes, ∀ t : TapNo, (e.sets[t.val]).fadesWell = true
  currentLine : ∀ t, (s.tap t).state ≠ .idle → (s.line (s.tap t).current.line).state = .active
  oldSideLine : ∀ t o, (s.tap t).oldSide = some o → (s.line o.line).state = .active
  pendingLine : ∀ t p, (s.tap t).pendingTarget = some p → (s.line p.line).state = .active
  stagedLine : ∀ t p, Edit.set? (s.tap t).staged = some p → (s.line p.line).state = .active

/-! ### Run counts (R85) -/

/-- The law of R85 with what carries it: no engine's run count passes 128, and an edit staged for a tap that is
not IDLE, or a pending target, which only a FADING tap holds, names the reader of its current set (check 8 of R84). -/
structure RunsLawful (s : State) : Prop where
  count : ∀ e, runCount e s ≤ 128
  staged : ∀ t p, (s.tap t).state ≠ .idle → Edit.set? (s.tap t).staged = some p → p.reader = (s.tap t).current.reader
  pending : ∀ t p, (s.tap t).pendingTarget = some p →
    (s.tap t).state = .fading ∧ p.reader = (s.tap t).current.reader

/-! ### The commit queue (R68) -/

/-- The staging buffer a queued frame holds. -/
def QueuedFrame.slot (f : QueuedFrame) : Engine × Fin 2 := (f.engine, f.buffer)

/-- The law of R68 with what carries it: each queued frame holds a staging buffer of its own, which is marked so; a
receiver gathers into a buffer that is marked as receiving; and a link that is OFF has no frame queued and its receiver in
HUNT (R57, R58, R70). -/
structure CommitsLawful (s : State) : Prop where
  own : (s.commits.map QueuedFrame.slot).Nodup
  marked : ∀ f ∈ s.commits, (s.link f.engine).buffers[f.buffer.val] = .queued
  gathering : ∀ e b w, (s.link e).receiver = .receiving b w →
    ∃ bytes overlong, (s.link e).buffers[b.val] = .receiving bytes overlong
  offQuiet : ∀ e, (s.link e).state = .off → (∀ f ∈ s.commits, f.engine ≠ e) ∧ (s.link e).receiver = .hunt

/-- The third part of R68: in queue order the period counts never decrease, so that no frame is younger than one behind it,
judged by how many boundaries ago each one's period began (log 12); and before periods run none is queued (R62). -/
structure CommitsOrdered (s : State) : Prop where
  ordered : s.commits.Pairwise fun f g => age s.timer.period g.period ≤ age s.timer.period f.period
  started : s.timer.running = false → s.commits = []

/-! ### Before boundary 0 -/

/-- The law of the time before boundary 0 (R2, R24, R78): while periods are not running no period has begun, no frame is
queued or open, no fill is owed, no pass is due, and no line has been closed. -/
structure StartLawful (s : State) : Prop where
  period : s.timer.running = false → s.timer.period = 0 ∧ s.oldestOpen = 0
  queues : s.timer.running = false → s.commits = [] ∧ s.fills = [] ∧ s.proc.queue = [] ∧ s.proc.pass = none
  frames : s.timer.running = false → ∀ e, (s.link e).tx = []
  heads : s.timer.running = false → ∀ l, (s.line l).head = 0

end Sys2Proof.Machine
end

