-- ==== Sys2Proof/Certificates/Slice0/Obligations.lean ====
section
/-! DEFINITION. The statements for the provers, file by file of the spec. A statement says in its docstring which rules it
formalises and which log entries it rests on. -/

open Sys2Proof Sys2Proof.Machine

/-! ### The part as a whole -/

/-- The command at the front of the queue runs on the state with the queue's rest; on an empty queue the part idles
(the model's choice, log 3). -/
def Obligations.StepRunsTheFrontCommand : Prop :=
  (∀ (c : Instr) (s : State) (rest : List Instr),
    step { s with pending := c :: rest } = exec c { s with pending := rest }) ∧
  (∀ s : State, s.pending = [] → step s = .next s)

/-- Every command answers a next state and leaves the queue of waiting commands as it was. -/
def Obligations.EveryCommandAnswersAndKeepsTheQueue : Prop :=
  ∀ (c : Instr) (s : State), ∃ t, exec c s = .next t ∧ t.pending = s.pending

/-- The reset line puts every block in its reset state and does not write the store array (R11, R30, R53, R78, R107,
R141, R153, R165, R178, R187). That the scrub walker holds P0 and its claim is served is read by inference (log 22);
the bytes on the lane and on data-out are the model's own fields (log 24). -/
def Obligations.ResetLineLeavesTheStatedState : Prop :=
  ∀ s : State, ∃ t, exec .resetLine s = .next t ∧
    t.timer = { wclk := .unlocked, lastEdge := none, window := [], mean := none, relockRun := [], relockReady := false,
                running := false, size := .b32, stagedSize := none, edge := 0, period := 0, samples := 0,
                lossTimer := none, flyTimer := none } ∧
    (∀ l, t.line l = { state := .free, generation := 0, writer := none, stagedWriter := none, pages := [], head := 0,
                       taken := false, gapRun := 0, lastClose := .written }) ∧
    t.fills = [] ∧ t.oldestOpen = 0 ∧ t.commits = [] ∧
    t.store = { cells := s.store.cells, corrected := 0 } ∧
    t.refresh = { row := 0, backlog := 0, urgent := false, timerArmed := true } ∧
    t.pool.free = [] ∧ t.pool.retired = [] ∧ t.pool.waiting = none ∧
    t.pool.walker = some { page := 0, phase := .clear, pointer := 0 } ∧
    t.pool.dirty.map (·.val) = List.range' 1 4095 ∧ t.arbiter.inService = some .scrub ∧
    (∀ e, t.link e =
      { state := .down, missed := 0, accepted := false, receiver := .hunt, buffers := Vector.replicate 2 .free,
        tally := { accepted := 0, refused := 0, status := .none }, report := { accepted := 0, refused := 0, status := .none },
        counters := { late := ⟨0, false⟩, refused := ⟨0, false⟩, check := ⟨0, false⟩, short := ⟨0, false⟩ },
        tx := [], laneOut := [] }) ∧
    (∀ n, t.tap n =
      { state := .idle, current := ParamSet.allZero, staged := none, delay := 0, target := 0, fadeCount := 0, fadeOf := 0,
        oldSide := none, pendingTarget := none, clamped := false }) ∧
    t.proc = { queue := [], lead := 3, pass := none } ∧
    t.tempo = { source := .internal, interval := 24000 * 256, tapSide := false, oscSide := false, beatsPerBar := 4,
                beatPosition := 0, beatNumber := 0, tapList := [], lastTap := none, ext := .idle, lastPulse := none,
                window := [], phase := 0, lossTimer := none } ∧
    (∀ m : OscNo, t.osc m =
      { setting := { shape := .sine, mode := .free, cycle := 0, noteExp := 0, modifier := .straight, restartOnBar := false },
        effective := 0, increment := 0, phase := 0, endPhase := 0, endWrap := false, held := 0,
        lfsr := BitVec.ofNat 32 (m.val + 1), restartPending := false, staged := none }) ∧
    t.scenes = [] ∧ t.port = { mailbox := .empty, collide := false, dataOut := [] } ∧
    t.notices = { pending := 0, mask := 0xFFFF } ∧
    t.faults = { first := none, later := 0, retireFull := false, level := 0, mode := .normal }

/-- Reading the bytes of a transaction gives back the command that wrote them, with every operand at every value. The
command codes, the command each names, and the number of argument bytes of each are those of the table of R194; a
WRITE_COMMAND is sent as its transaction code, the command code, the argument length and the arguments (R193). -/
def Obligations.TransactionsDecodeAsEncoded : Prop :=
  (∀ (c : Instr) (bytes : List Byte),
    c.wellFormed = true → encodeTransaction c = some bytes → decodeTransaction bytes = some c) ∧
  (∀ record : CommandRecord,
    let rows : List (Byte × Nat × Instr) :=
      [(0x01, 1, .setPeriod record), (0x02, 0, .readClock record), (0x10, 4, .allocLine record),
       (0x11, 1, .freeLine record), (0x12, 2, .setWriter record), (0x13, 2, .readLine record),
       (0x14, 1, .readPool record), (0x20, 2, .setLink record)]
      ++ [(0x21, 1, .readLink record), (0x22, 2, .readCounters record), (0x30, 26, .setTap record),
          (0x31, 2, .clearTap record), (0x32, 2, .readTap record), (0x33, 2, .saveTap record),
          (0x40, 4, .setTempo record), (0x41, 0, .tapTempo record)]
      ++ [(0x42, 1, .setTempoSource record), (0x43, 1, .setMeter record), (0x44, 0, .resync record),
          (0x45, 0, .readTempo record), (0x50, 11, .setOsc record), (0x51, 1, .readOsc record),
          (0x60, 0, .pushScene record), (0x61, 0, .popScene record)]
      ++ [(0x62, 0, .dropScene record), (0x63, 0, .readScenes record), (0x70, 0, .ackNotice record),
          (0x71, 2, .setMask record), (0x72, 0, .readFault record), (0x73, 0, .clearFault record),
          (0x7F, 0, .partReset record)]
    commandTable = rows.map (fun row => (row.1, row.2.1)) ∧
    ∀ row ∈ rows, decodeCommand row.1 record = row.2.2 ∧ encodeTransaction row.2.2 = some (match record with
      | .cut => [0xC1, row.1]
      | .sent length args => 0xC1 :: row.1 :: length :: args))

/-- The 24 bytes of a parameter set, wherever they stand among the arguments, read as the fields they were written
from, at every value each field's bytes admit; and each field lies at the offset, with the codes, that the layout of
12, "The parameter set", gives it, as written and, reserved bits among them, as read (R188, R194). -/
def Obligations.ParameterSetsReadAsWritten : Prop :=
  (∀ (before : List Byte) (p : ParamSet),
    p.fixedDelay < 2 ^ 28 → p.noteExp < 16 → p.gain < 2 ^ 24 → p.depth < 2 ^ 24 → p.quadrant < 4 →
    p.glideRate < 2 ^ 16 → p.fadeLen < 256 → p.edgeFade < 256 →
    let sent := fun i => (p.bytes.getD i 0).toNat
    RawSet.parse (before ++ p.bytes) before.length = p.toRaw ∧ p.toRaw.toSet = p ∧ p.bytes.length = 24 ∧
    sent 0 = p.reader.val ∧ sent 1 = p.line.val ∧
    sent 2 = (match p.mode with | .fixed => 0 | .tempo => 1) ∧
    sent 3 * 65536 + sent 4 * 256 + sent 5 = p.fixedDelay / 256 ∧ sent 6 = p.fixedDelay % 256 ∧
    sent 7 = p.noteExp + 16 * (match p.modifier with | .straight => 0 | .dotted => 1 | .triplet => 2) ∧
    sent 8 * 65536 + sent 9 * 256 + sent 10 = p.gain ∧ sent 11 = (if p.inverted then 1 else 0) ∧
    sent 12 = (match p.interp with | .none => 0 | .linear => 1) ∧
    sent 13 = (match p.osc with | none => 0 | some m => m.val + 1) ∧
    sent 14 * 65536 + sent 15 * 256 + sent 16 = p.depth ∧ sent 17 = p.quadrant ∧
    sent 18 = (match p.method with | .jump => 0 | .glide => 1 | .xfade => 2) ∧
    sent 19 * 256 + sent 20 = p.glideRate ∧ sent 21 = p.fadeLen ∧ sent 22 = p.edgeFade ∧
    sent 23 = (if p.run then 1 else 0)) ∧
  (∀ set : List Byte, set.length = 24 →
    let r := RawSet.parse set 0
    let sent := fun i => (set.getD i 0).toNat
    r.reader = sent 0 ∧ r.line = sent 1 ∧ r.mode = sent 2 ∧
    r.fixedDelay = (sent 3 % 16 * 65536 + sent 4 * 256 + sent 5) * 256 + sent 6 ∧
    r.noteExp = sent 7 % 16 ∧ r.modifier = sent 7 / 16 % 4 ∧ r.gain = sent 8 * 65536 + sent 9 * 256 + sent 10 ∧
    r.polarity = sent 11 ∧ r.interp = sent 12 ∧ r.osc = sent 13 ∧
    r.depth = sent 14 * 65536 + sent 15 * 256 + sent 16 ∧ r.quadrant = sent 17 % 4 ∧ r.method = sent 18 ∧
    r.glideRate = sent 19 * 256 + sent 20 ∧ r.fadeLen = sent 21 ∧ r.edgeFade = sent 22 ∧ r.run = sent 23 ∧
    (r.reserved = true ↔ 16 ≤ sent 3 ∨ 64 ≤ sent 7 ∨ 4 ≤ sent 17))

/-! ### Commands and the control port (10) -/

/-- READ_RESULT shifts out a zero during its code, then the mailbox state and, in DONE, the result record, then zeros;
only a reply shifted out whole removes the result (R166, R171, R193); that a result too long for its 2-byte length
sends the length's low 16 bits is the model's choice (log 33). READ_STATUS shifts out the status word, and
clears COLLIDE when all three of its bytes were shifted out; the word holds what the status table says (R166, R175,
R193). Bytes clocked after a reply are zero (R194). -/
def Obligations.TransactionsThatReadShowTheMailboxAndTheStatus : Prop :=
  (∀ (reply : List Byte) (n : Nat),
    (shiftOut reply n).length = n ∧ ∀ i, i < n → (shiftOut reply n)[i]? = some (reply.getD i 0)) ∧
  (∀ (s : State) (n : Nat),
    (∀ r, s.port.mailbox = .done r →
      exec (.readResult n) s = .next { s with port := { s.port with
        mailbox := if 6 + r.bytes.length ≤ n then .empty else .done r
        dataOut := 0 :: shiftOut ([2, r.command] ++ bytesOf 1 r.code.code ++ bytesOf 1 r.check
          ++ bytesOf 2 r.bytes.length ++ r.bytes) n } }) ∧
    (s.port.mailbox = .empty →
      exec (.readResult n) s = .next { s with port := { s.port with dataOut := 0 :: shiftOut [0] n } }) ∧
    (∀ c, s.port.mailbox = .held c →
      exec (.readResult n) s = .next { s with port := { s.port with dataOut := 0 :: shiftOut [1] n } })) ∧
  (∀ (s : State) (n : Nat),
    exec (.readStatus n) s = .next { s with port := { s.port with
      collide := s.port.collide && decide (n < 3), dataOut := 0 :: shiftOut (statusWord s) n } } ∧
    ∃ b0 b1 b2, statusWord s = [b0, b1, b2] ∧ b0.toNat % 4 = (match s.port.mailbox with
        | .empty => 0
        | .held _ => 1
        | .done _ => 2) ∧
      b0.getLsbD 2 = s.port.collide ∧
      b0.getLsbD 3 = s.notices.line ∧ b0.getLsbD 4 = (s.faults.mode == .safe) ∧ b0.toNat / 32 = s.timer.wclk.code ∧
      b1.toNat = s.tempo.ext.code ∧ b2.toNat = s.timer.period.toNat % 256)

/-- A WRITE_COMMAND shifts out zeros, one for each byte in (R193). In HELD it is ignored and sets COLLIDE,
PART_RESET's own record apart; one released before its argument length changes nothing else in any mailbox state
(R166, R168). A transaction whose code is none of the three, and a WRITE_COMMAND released before its command code was
in, only shifts out zeros (R166; that the row BAD_COMMAND stands for them is log 34). A completion places the result
record, makes the mailbox DONE and raises COMMAND_DONE, and touches nothing else (R170). A command taken in EMPTY or
DONE is refused BAD_COMMAND for a code outside the table, BAD_LENGTH for a length or a number of bytes that is not the
table's, and SAFE in SAFE unless SAFE takes it; a refusal changes nothing but what its completion changes (R169, R170,
R172, R194). -/
def Obligations.CommandsAreJudgedInOrderAndCompleted : Prop :=
  (∀ (n : Nat) (s : State), wrote n s = { s with port := { s.port with dataOut := List.replicate (3 + n) 0 } }) ∧
  (∀ (s : State) (held : Byte), s.port.mailbox = .held held →
    let collided := fun n : Nat => { s with port := { s.port with collide := true, dataOut := List.replicate (3 + n) 0 } }
    (∀ code length args, collides code (.sent length args) = true →
      exec (.commandCollision code (.sent length args)) s = .next (collided args.length)) ∧
    (∀ code length args, code ≠ 0x7F →
      exec (decodeCommand code (.sent length args)) s = .next (collided args.length)) ∧
    (∀ length args, ¬(length = 0 ∧ args = []) →
      exec (.partReset (.sent length args)) s = .next (collided args.length))) ∧
  (∀ (s : State) (code : Byte),
    exec (decodeCommand code .cut) s = .next { s with port := { s.port with dataOut := [0, 0] } }) ∧
  (∀ (s : State) (code : Byte) (after : List Byte),
    (code ≠ 0xC1 ∧ code ≠ 0xC2 ∧ code ≠ 0xC3) ∨ (code = 0xC1 ∧ after = []) →
    ∃ c, decodeTransaction (code :: after) = some c ∧
      exec c s = .next { s with port := { s.port with dataOut := List.replicate (1 + after.length) 0 } }) ∧
  (∀ (command : Byte) (code : ResultCode) (check : Nat) (bytes : List Byte) (s : State),
    complete command code check bytes s =
      { s with
        port := { s.port with mailbox := .done { command := command, code := code, check := check, bytes := bytes } }
        notices := { s.notices with pending := s.notices.pending ||| 0x8000#16 } }) ∧
  (∀ s : State, mailboxFree s = true →
    (∀ code length args, (∀ row ∈ commandTable, row.1 ≠ code) →
      exec (.badCommand code (.command (.sent length args))) s =
        .next (complete code .badCommand 0 [] (wrote args.length s))) ∧
    (∀ code n length args, (code, n) ∈ commandTable → ¬(length.toNat = n ∧ args.length = n) →
      exec (decodeCommand code (.sent length args)) s = .next (complete code .badLength 0 [] (wrote args.length s))) ∧
    (s.faults.mode = .safe → ∀ code n args, (code, n) ∈ commandTable → args.length = n →
      code ∉ [0x02#8, 0x13#8, 0x14#8, 0x21#8, 0x22#8, 0x32#8, 0x45#8, 0x51#8, 0x63#8, 0x70#8, 0x71#8, 0x72#8, 0x73#8,
              0x7F#8] →
      exec (decodeCommand code (whole args)) s = .next (complete code .safe 0 [] (wrote args.length s))))

/-- The commands that read complete with OK in NORMAL and, but for SAVE_TAP, in SAFE, return the items their rules
list, in that order, and change nothing (R10, R27, R52, R77, R87, R140, R152, R164, R172, R183); an argument out of
range is refused BAD_ARG. READ_COUNTERS returns the four counts and flags as they stand and then leaves, clears, or
clears the counts alone, on a link in any state; an engine above 3 or a mode above 2 is refused (R176). A number
travels most significant byte first, a flag as 0 or 1, none as all ones, and a name as its place in its table (R188,
R193, R194). What R194 leaves open of the layout, as that L and the head travel in 4 bytes in whole samples, and what
a number too wide for its field sends, are the model's choice (logs 20 and 33). -/
def Obligations.ReadCommandsReturnRecords : Prop :=
  (∀ n v : Nat, (bytesOf n v).length = n ∧
    ∀ i, i < n → (bytesOf n v)[i]? = some (BitVec.ofNat 8 (v / 256 ^ (n - 1 - i)))) ∧
  (∀ n v : Nat, bytesOfOption n none = List.replicate n 0xFF ∧ bytesOfOption n (some v) = bytesOf n v) ∧
  flagByte false = [0] ∧ flagByte true = [1] ∧
  (let numbered := fun codes : List Nat => codes = List.range codes.length;
    numbered ([.unlocked, .locked, .flywheel].map WclkState.code) ∧ numbered ([.free, .active].map LineState.code) ∧
    numbered ([.written, .filled].map CloseResult.code) ∧ numbered ([.clear, .verify].map ScrubPhase.code) ∧
    numbered ([.off, .down, .up, .lost].map LinkState.code) ∧ numbered ([.opened, .sending, .ended].map FrameState.code) ∧
    numbered ([.none, .ok, .check, .badFrame, .noClock, .late, .repeated, .noBuffer, .timeout].map InputStatus.code) ∧
    numbered ([.complete, .short, .abort, .muted].map EndStatus.code) ∧
    numbered ([.idle, .starting, .running, .gliding, .fading, .stopping].map TapState.code) ∧
    numbered ([.none, .linear].map Interpolation.code) ∧ numbered ([.straight, .dotted, .triplet].map Modifier.code) ∧
    numbered ([.internal, .external].map TempoSource.code) ∧
    numbered ([.idle, .acquiring, .following, .lost].map ExtState.code) ∧
    numbered ([.sine, .triangle, .random].map Shape.code) ∧ numbered ([.free, .sync].map RateMode.code) ∧
    numbered ([.read, .verify, .refresh].map FaultKind.code) ∧ numbered ([.normal, .safe].map Mode.code) ∧
    numbered ([.ok, .discarded, .badCommand, .badLength, .badArg, .state, .inUse, .noSpace, .check, .empty, .source,
      .safe].map ResultCode.code) ∧
    [.b16, .b32, .b64].map PeriodSize.toNat = [16, 32, 64]) ∧
  ∀ s : State, mailboxFree s = true →
    let returns := fun (c : Instr) (code : Byte) (n : Nat) (items : List Byte) =>
      exec c s = .next (complete code .ok 0 items (wrote n s))
    let refuses := fun (c : Instr) (code : Byte) (n : Nat) => exec c s = .next (complete code .badArg 0 [] (wrote n s))
    let tally := fun t : Tally => bytesOf 1 t.accepted ++ bytesOf 1 t.refused ++ bytesOf 1 t.status.code
    let part := fun (i : Byte) (pages : List Page) =>
      let some16 := (pages.drop i.toNat).take 16
      bytesOf 1 some16.length ++ some16.flatMap fun p => bytesOf 2 p.val
    let tapItems := fun t : Tap =>
      bytesOf 1 t.state.code ++ t.current.bytes
        ++ (match t.staged with
          | some (.start p) => [0] ++ p.bytes
          | some (.preset p) => [1] ++ p.bytes
          | some .stop => [2]
          | none => [3])
        ++ bytesOf 4 t.delay ++ bytesOf 4 t.target ++ bytesOf 1 t.fadeCount ++ bytesOf 1 t.fadeOf
        ++ (match t.oldSide with
          | some o => bytesOf 1 o.line.val ++ bytesOf 4 o.delay ++ bytesOf 3 o.gain ++ flagByte o.inverted
              ++ bytesOf 1 o.interp.code ++ bytesOf 1 ((o.osc.map fun m => m.val + 1).getD 0) ++ bytesOf 3 o.depth
              ++ bytesOf 1 o.quadrant
          | none => [0xFF])
        ++ ((t.pendingTarget.map ParamSet.bytes).getD [0xFF]) ++ flagByte t.clamped
    let settingItems := fun o : OscSetting =>
      bytesOf 1 o.shape.code ++ bytesOf 1 o.mode.code ++ bytesOf 4 o.cycle ++ bytesOf 1 o.noteExp
        ++ bytesOf 1 o.modifier.code ++ flagByte o.restartOnBar
    returns (.readClock (whole [])) 0x02 0
      (bytesOf 1 s.timer.wclk.code ++ bytesOfOption 4 s.timer.mean ++ bytesOf 1 s.timer.relockRun.length
        ++ flagByte s.timer.relockReady ++ flagByte s.timer.running ++ bytesOf 1 s.timer.size.toNat
        ++ bytesOfOption 1 (s.timer.stagedSize.map PeriodSize.toNat) ++ bytesOf 1 s.timer.edge
        ++ bytesOf 4 s.timer.period.toNat ++ bytesOf 5 s.timer.samples.toNat) ∧
    (∀ (l : LineNo) (i : Byte),
      let line := s.line l
      let owed := s.fills.filter fun f => f.line == l
      returns (.readLine (whole [BitVec.ofNat 8 l.val, i])) 0x13 2
        (bytesOf 1 line.state.code ++ bytesOf 1 line.generation.toNat ++ bytesOfOption 1 (line.writer.map (·.val))
          ++ bytesOfOption 1 (line.stagedWriter.map (·.val)) ++ bytesOf 2 line.pages.length
          ++ bytesOf 4 (line.pages.length * 4096) ++ bytesOf 4 line.head ++ flagByte line.taken
          ++ flagByte (decide (owed ≠ [])) ++ bytesOf 2 line.gapRun ++ bytesOf 1 line.lastClose.code
          ++ bytesOf 1 owed.length ++ owed.flatMap (fun f => bytesOf 4 f.period.toNat) ++ part i line.pages)) ∧
    (∀ l i : Byte, 127 < l.toNat → refuses (.readLine (whole [l, i])) 0x13 2) ∧
    (∀ i : Byte, i.toNat ≤ 63 → returns (.readPool (whole [i])) 0x14 1
      (bytesOf 2 s.pool.free.length ++ bytesOf 2 s.pool.dirty.length ++ bytesOf 1 s.pool.retired.length
        ++ (match s.pool.walker with
          | none => [0xFF, 0xFF]
          | some k => bytesOf 2 k.page.val ++ bytesOf 1 k.phase.code ++ bytesOf 2 (4096 - k.pointer))
        ++ bytesOf 1 s.refresh.backlog ++ flagByte s.refresh.urgent ++ bytesOf 2 s.refresh.row
        ++ bytesOf 2 s.store.corrected
        ++ (match s.pool.waiting with
          | none => [0]
          | some w => [1] ++ bytesOf 1 w.line.val ++ bytesOf 2 w.count)
        ++ part i s.pool.retired)) ∧
    (∀ i : Byte, 63 < i.toNat → refuses (.readPool (whole [i])) 0x14 1) ∧
    (∀ e : Engine,
      let k := s.link e
      let staged := fun b : Fin 2 => match k.buffers[b.val] with
        | .free => [0]
        | .receiving _ _ => [1]
        | .queued => [2] ++ bytesOf 4
            (((s.commits.find? fun f => f.engine == e && f.buffer == b).map (·.period.toNat)).getD 0)
      returns (.readLink (whole [BitVec.ofNat 8 e.val])) 0x21 1
        (bytesOf 1 k.state.code ++ bytesOf 1 k.missed ++ flagByte k.accepted
          ++ (match k.receiver with
            | .hunt => [0]
            | .receiving _ window => [1] ++ bytesOf 1 window)
          ++ staged 0 ++ staged 1 ++ bytesOf 1 (s.commits.filter fun f => f.engine == e).length
          ++ bytesOf 1 s.commits.length ++ tally k.tally ++ tally k.report ++ bytesOf 1 k.tx.length
          ++ k.tx.flatMap fun f => bytesOf 1 f.state.code ++ [f.period.setWidth 8])) ∧
    (∀ e : Byte, 3 < e.toNat → refuses (.readLink (whole [e])) 0x21 1) ∧
    (∀ t : TapNo, returns (.readTap (whole (bytesOf 2 t.val))) 0x32 2 (tapItems (s.tap t))) ∧
    (∀ hi lo : Byte, 2 ≤ hi.toNat → refuses (.readTap (whole [hi, lo])) 0x32 2) ∧
    (s.faults.mode = .normal →
      (∀ t : TapNo, returns (.saveTap (whole (bytesOf 2 t.val))) 0x33 2 (tapItems (s.tap t))) ∧
      ∀ hi lo : Byte, 2 ≤ hi.toNat → refuses (.saveTap (whole [hi, lo])) 0x33 2) ∧
    returns (.readTempo (whole [])) 0x45 0
      (bytesOf 1 s.tempo.source.code ++ bytesOf 4 s.tempo.interval ++ flagByte s.tempo.tapSide
        ++ flagByte s.tempo.oscSide ++ bytesOf 1 s.tempo.beatsPerBar ++ bytesOf 1 s.tempo.beatNumber
        ++ bytesOf 4 s.tempo.beatPosition ++ bytesOf 1 s.tempo.tapList.length
        ++ s.tempo.tapList.flatMap (fun v => bytesOf 4 (v * 256))
        ++ bytesOfOption 5 (s.tempo.lastTap.map (·.toNat)) ++ bytesOf 1 s.tempo.ext.code
        ++ bytesOf 1 s.tempo.window.length ++ bytesOf 4 s.tempo.window.sum ++ bytesOf 1 s.tempo.phase
        ++ flagByte s.tempo.lossTimer.isSome) ∧
    (∀ m : OscNo,
      let o := s.osc m
      returns (.readOsc (whole [BitVec.ofNat 8 m.val])) 0x51 1
        (settingItems o.setting ++ bytesOf 4 o.effective ++ bytesOf 4 o.increment ++ bytesOf 4 o.phase.toNat
          ++ bytesOf 4 o.endPhase.toNat ++ flagByte o.endWrap ++ bytesOf 4 (BitVec.ofInt 32 o.held).toNat
          ++ bytesOf 4 (BitVec.ofInt 32 o.nextValue).toNat ++ flagByte o.restartPending
          ++ ((o.staged.map fun x => settingItems x.setting ++ flagByte x.restart).getD [0xFF]))) ∧
    (∀ m : Byte, 15 < m.toNat → refuses (.readOsc (whole [m])) 0x51 1) ∧
    returns (.readScenes (whole [])) 0x63 0
      (bytesOf 1 s.scenes.length ++ s.scenes.flatMap fun entry => match entry.tempo with
        | some v => [1] ++ bytesOf 4 v
        | none => [0]) ∧
    returns (.readFault (whole [])) 0x72 0
      ((match s.faults.first with
        | none => [0xFF]
        | some f => bytesOf 1 f.kind.code ++ bytesOf 2 f.page.val ++ bytesOf 2 f.offset
            ++ bytesOfOption 1 (f.line.map (·.val)) ++ bytesOfOption 1 (f.engine.map (·.val)))
        ++ bytesOf 1 s.faults.later ++ flagByte s.faults.retireFull ++ bytesOf 1 s.faults.level
        ++ bytesOf 1 s.faults.mode.code) ∧
    (∀ e : Engine,
      let k := s.link e
      let c := k.counters
      let shown := bytesOf 2 c.late.count.toNat ++ bytesOf 2 c.refused.count.toNat ++ bytesOf 2 c.check.count.toNat
        ++ bytesOf 2 c.short.count.toNat ++ flagByte c.late.overflow ++ flagByte c.refused.overflow
        ++ flagByte c.check.overflow ++ flagByte c.short.overflow
      let taken := fun mode : Byte => exec (.readCounters (whole [BitVec.ofNat 8 e.val, mode])) s
      let cleared := fun c : Counters => complete 0x22 .ok 0 shown ((wrote 2 s).setLink e { k with counters := c })
      taken 0 = .next (cleared c) ∧
      taken 1 = .next (cleared ⟨⟨0, false⟩, ⟨0, false⟩, ⟨0, false⟩, ⟨0, false⟩⟩) ∧
      taken 2 = .next (cleared ⟨⟨0, c.late.overflow⟩, ⟨0, c.refused.overflow⟩, ⟨0, c.check.overflow⟩,
        ⟨0, c.short.overflow⟩⟩)) ∧
    ∀ engine mode : Byte, 3 < engine.toNat ∨ 2 < mode.toNat → refuses (.readCounters (whole [engine, mode])) 0x22 2

/-! ### Notices, faults and SAFE (11) -/

/-- ACK_NOTICE clears the lowest-numbered source that is pending and unmasked, and no other, and returns its code and
the flags after the clear; with none it returns 0 and clears nothing (R180). -/
def Obligations.AckNoticeClearsTheFirstSource : Prop :=
  ∀ s : State, mailboxFree s = true →
    (∀ c, 1 ≤ c → c ≤ 16 → s.notices.pending.getLsbD (c - 1) = true → s.notices.mask.getLsbD (c - 1) = false →
      (∀ d, 1 ≤ d → d < c → s.notices.pending.getLsbD (d - 1) = false ∨ s.notices.mask.getLsbD (d - 1) = true) →
      let cleared := s.notices.pending &&& ~~~(1#16 <<< (c - 1))
      exec (.ackNotice (whole [])) s = .next (complete 0x70 .ok 0 (bytesOf 1 c ++ bytesOf 2 cleared.toNat)
        { wrote 0 s with notices := { s.notices with pending := cleared } })) ∧
    (s.notices.pending &&& ~~~s.notices.mask = 0 →
      exec (.ackNotice (whole [])) s =
        .next (complete 0x70 .ok 0 (bytesOf 1 0 ++ bytesOf 2 s.notices.pending.toNat) (wrote 0 s)))

/-- SET_MASK replaces all sixteen mask flags at once, changes no pending flag but COMMAND_DONE's, is taken in SAFE,
and the notice line then stands asserted while some source is pending behind no mask (R181). -/
def Obligations.SetMaskReplacesTheMask : Prop :=
  ∀ (s : State) (m : BitVec 16), mailboxFree s = true →
    exec (.setMask (whole (bytesOf 2 m.toNat))) s =
      .next (complete 0x71 .ok 0 [] { wrote 2 s with notices := { s.notices with mask := m } }) ∧
    (∀ n : NoticeUnit, n.line = true ↔ ∃ i, n.pending.getLsbD i = true ∧ n.mask.getLsbD i = false)

/-- CLEAR_FAULT empties the fault record and sets the level to 0, in NORMAL and SAFE, and touches neither the mode nor
a pending notice but COMMAND_DONE's; a fault taken after it is a first fault at level 1 (R184). -/
def Obligations.ClearFaultEmptiesTheRecord : Prop :=
  ∀ s : State, mailboxFree s = true →
    let cleared := { wrote 0 s with faults := { first := none, later := 0, retireFull := false, level := 0, mode := s.faults.mode } }
    exec (.clearFault (whole [])) s = .next (complete 0x73 .ok 0 [] cleared) ∧
    ∀ entry full, storeFault entry full (complete 0x73 .ok 0 [] cleared) =
      raise .storeFault { complete 0x73 .ok 0 [] cleared with faults :=
        { first := some entry, later := 0, retireFull := full, level := 1, mode := s.faults.mode } }

/-- A store fault is recorded and counted, STORE_FAULT is raised, and the fourth with no clear between them enters
SAFE (R182, R185); no notice is raised or cleared but those named here. At the entry SAFE_ENTERED is raised; every
queued frame leaves the commit queue and its staging buffer is free (R71); the fill list is emptied (R28); a waiting
allocation ends with SAFE, with COMMAND_DONE raised (R170, R185); and a pass in progress ends: the tap being computed
and every later tap of the pass is handed MUTED with B zeros and no other flag, its CLAMPED indicator is cleared, and
the frame ends MUTED (R106); that this is all at the entry itself, where R106 lets a boundary come between, is log 35.
The access in service stays in service, and is its commit's, fill's or pass's no longer (R34). In SAFE, and below the
fourth, a fault only counts (R186). -/
def Obligations.StoreFaultsCountTowardSafe : Prop :=
  ∀ (s : State) (entry : FaultEntry) (full : Bool),
    let t := storeFault entry full s
    let muted := fun n : TapNo =>
      { tap := n, flags := { clamped := false, fading := false, gap := false, fault := false, muted := true }
        samples := List.replicate s.size 0 : OutBlock }
    t.faults.first = some (s.faults.first.getD entry) ∧
    t.faults.later = (if s.faults.first.isSome then min 255 (s.faults.later + 1) else s.faults.later) ∧
    t.faults.retireFull = (s.faults.retireFull || full) ∧
    t.faults.level = min 3 (s.faults.level + 1) ∧
    (s.faults.mode = .normal → 3 ≤ s.faults.level →
      t = { s with faults := t.faults, notices := t.notices, arbiter := t.arbiter, links := t.links, commits := []
                   fills := [], taps := t.taps, proc := { s.proc with pass := none }
                   pool := { s.pool with waiting := none }, port := t.port } ∧
      t.faults.mode = .safe ∧
      t.notices = { s.notices with
        pending := s.notices.pending ||| 0x0003#16 ||| (if s.pool.waiting.isSome then 0x8000#16 else 0) } ∧
      t.arbiter = { s.arbiter with
        inService := s.arbiter.inService.map (Access.heldBy (fun _ _ => false) (fun _ _ => false) s.proc.pass.isNone) } ∧
      (s.pool.waiting.isSome → t.port = { s.port with
        mailbox := .done { command := 0x10, code := .safe, check := 0, bytes := [] } }) ∧
      (s.pool.waiting = none → t.port = s.port) ∧
      (∀ e, t.link e = { s.link e with buffers := (t.link e).buffers, tx := (t.link e).tx }) ∧
      (∀ f ∈ s.commits, (t.link f.engine).buffers[f.buffer.val] = .free) ∧
      (∀ (e : Engine) (b : Fin 2), (∀ f ∈ s.commits, ¬(f.engine = e ∧ f.buffer = b)) →
        (t.link e).buffers[b.val] = (s.link e).buffers[b.val]) ∧
      (s.proc.pass = none → t.taps = s.taps ∧ ∀ e, (t.link e).tx = (s.link e).tx) ∧
      (∀ p, s.proc.pass = some p →
        (∀ e, e ≠ p.engine → (t.link e).tx = (s.link e).tx) ∧
        (t.link p.engine).tx = (s.link p.engine).tx.map (fun f =>
          if f.period = p.period ∧ f.state ≠ .ended then
            { f with blocks := f.blocks ++ p.taps.map muted, state := .ended, endStatus := some .muted }
          else f) ∧
        ∀ n, t.tap n = { s.tap n with clamped := (s.tap n).clamped && !p.taps.contains n })) ∧
    (s.faults.mode = .safe ∨ s.faults.level < 3 →
      t = { s with faults := t.faults, notices := t.notices } ∧ t.faults.mode = s.faults.mode ∧
      t.notices = { s.notices with pending := s.notices.pending ||| 0x0002#16 })

/-! ### Tempo (07) -/

/-- At a sample edge, whether or not the pulse loss timer runs, the beat position advances by one sample; at Ib it
wraps and the beat number advances, and when the beat number reaches beats per bar it becomes 0 with a bar start,
which marks the oscillators whose present setting restarts on the bar (R130, R147). The pulse loss timer counts down
by one at each sample edge; as it reaches 0 in ACQUIRING or FOLLOWING the external state becomes LOST, the timer is
disarmed and TEMPO_CLOCK_LOST is raised (R139). The row of its own takes the same change when one count or none is
left (log 14). -/
def Obligations.SampleEdgesCountBeatsAndJudgePulseLoss : Prop :=
  (∀ s : State,
    let t := tempoEdge s
    let wraps := s.tempo.interval ≤ s.tempo.beatPosition + 256
    t = { s with tempo := t.tempo, oscs := t.oscs, notices := t.notices } ∧
    t.tempo = { s.tempo with beatPosition := t.tempo.beatPosition, beatNumber := t.tempo.beatNumber
                             ext := t.tempo.ext, lossTimer := t.tempo.lossTimer } ∧
    (¬wraps → t.tempo.beatPosition = s.tempo.beatPosition + 256 ∧ t.tempo.beatNumber = s.tempo.beatNumber ∧
      t.oscs = s.oscs) ∧
    (wraps → t.tempo.beatPosition = s.tempo.beatPosition + 256 - s.tempo.interval) ∧
    (wraps → s.tempo.beatNumber + 1 ≠ s.tempo.beatsPerBar →
      t.tempo.beatNumber = s.tempo.beatNumber + 1 ∧ t.oscs = s.oscs) ∧
    (wraps → s.tempo.beatNumber + 1 = s.tempo.beatsPerBar →
      t.tempo.beatNumber = 0 ∧ ∀ m, t.osc m =
        { s.osc m with restartPending := (s.osc m).restartPending || (s.osc m).setting.restartOnBar }) ∧
    (s.tempo.lossTimer = none → t.tempo.ext = s.tempo.ext ∧ t.tempo.lossTimer = none ∧ t.notices = s.notices)) ∧
  (∀ (s : State) (n : Nat), s.tempo.lossTimer = some n →
    (s.tempo.ext = .acquiring ∨ s.tempo.ext = .following → n ≤ 1 →
      exec .pulseLossTimerExpiry s = .next { s with
        tempo := { s.tempo with ext := .lost, lossTimer := none }
        notices := { s.notices with pending := s.notices.pending ||| 0x0010#16 } } ∧
      (tempoEdge s).tempo.ext = .lost ∧ (tempoEdge s).tempo.lossTimer = none ∧
      (tempoEdge s).notices.pending = s.notices.pending ||| 0x0010#16 ∧ (tempoEdge s).tempo.window = s.tempo.window ∧
      (tempoEdge s).tempo.lastPulse = s.tempo.lastPulse ∧ (tempoEdge s).tempo.phase = s.tempo.phase ∧
      (tempoEdge s).tempo.interval = s.tempo.interval) ∧
    (2 ≤ n → (tempoEdge s).tempo.lossTimer = some (n - 1) ∧ (tempoEdge s).tempo.ext = s.tempo.ext ∧
      (tempoEdge s).notices = s.notices))

/-- An interval is brought into 4096 to 524,288 samples before it is adopted; adoption makes it Ib and sets both
indicators, and wraps a beat position at or above it, adding at most one beat: where the beat number so reaches beats
per bar it becomes 0 with a bar start, which marks the oscillators whose present setting restarts on the bar (R130,
R147). Nothing else changes. A tapped or pulsed offer is adopted only if it differs from Ib by more than Ib/256
(R127). -/
def Obligations.AdoptionClampsAndHolds : Prop :=
  ∀ (v : Nat) (s : State),
    let ib := min (524288 * 256) (max (4096 * 256) v)
    (s.tempo.beatPosition < ib →
      adopt v s = { s with tempo := { s.tempo with interval := ib, tapSide := true, oscSide := true } }) ∧
    (ib ≤ s.tempo.beatPosition →
      let wrapped := fun beat : Nat => { s.tempo with
        interval := ib, tapSide := true, oscSide := true, beatPosition := s.tempo.beatPosition % ib, beatNumber := beat }
      (s.tempo.beatNumber + 1 ≠ s.tempo.beatsPerBar →
        adopt v s = { s with tempo := wrapped (s.tempo.beatNumber + 1) }) ∧
      (s.tempo.beatNumber + 1 = s.tempo.beatsPerBar → ∃ oscs : Vector Osc 16,
        adopt v s = { s with tempo := wrapped 0, oscs := oscs } ∧ ∀ m : OscNo, oscs[m.val] =
          { s.osc m with restartPending := (s.osc m).restartPending || (s.osc m).setting.restartOnBar })) ∧
    (256 * ((ib : Int) - s.tempo.interval).natAbs > s.tempo.interval → offer v s = adopt v s) ∧
    (256 * ((ib : Int) - s.tempo.interval).natAbs ≤ s.tempo.interval → offer v s = s)

/-- SET_TEMPO adopts its interval whatever its difference and returns Ib as adopted;
both it and TAP_TEMPO are refused SOURCE in EXTERNAL (R132, R133). A tap with no last tap time held, or over 524,288
samples after it, restarts; one under 4096 samples after it changes nothing (R133). A tap counted: its interval joins
the tail of the list, the oldest of four leaving first; the beat is aligned, with a bar start where an early tap takes
the beat number round to 0 (R147); and then the mean of the list, rounded to
the nearest 256th, is offered with hysteresis (R131, R133). The result of a tap is its outcome, the number of
intervals in the list, the mean offered and whether it was adopted (R133); a tap not counted sends all ones for its
mean, which is the model's choice (log 32). A change of source clears what the follower and the taps
had gathered, the present source changes nothing, another value is refused BAD_ARG (R134). RESYNC restarts the beat
and the pulse phase with a bar start (R136). -/
def Obligations.TempoCommandsSetTapSourceAndResync : Prop :=
  (∀ s : State, takesCommands s = true →
    (s.tempo.source = .internal → ∀ v, v < 2 ^ 32 →
      exec (.setTempo (whole (bytesOf 4 v))) s =
        .next (complete 0x40 .ok 0 (bytesOf 4 (adopt v s).tempo.interval) (adopt v (wrote 4 s)))) ∧
    (s.tempo.source = .external →
      (∀ v, exec (.setTempo (whole (bytesOf 4 v))) s = .next (complete 0x40 .source 0 [] (wrote 4 s))) ∧
      exec (.tapTempo (whole [])) s = .next (complete 0x41 .source 0 [] (wrote 0 s))) ∧
    (s.tempo.source = .internal →
      ((∀ t, s.tempo.lastTap = some t → 524288 < (s.timer.samples - t).toNat) →
        ∃ t, exec (.tapTempo (whole [])) s = .next (complete 0x41 .ok 0 [1, 0, 0xFF, 0xFF, 0xFF, 0xFF, 0] t) ∧
          t = { wrote 0 s with tempo := { s.tempo with
            tapList := [], lastTap := some s.timer.samples, beatPosition := 0, beatNumber := 0 }, oscs := t.oscs } ∧
          ∀ m, t.osc m =
            { s.osc m with restartPending := (s.osc m).restartPending || (s.osc m).setting.restartOnBar }) ∧
      (∀ t, s.tempo.lastTap = some t → (s.timer.samples - t).toNat < 4096 →
        exec (.tapTempo (whole [])) s = .next (complete 0x41 .ok 0
          ([0, BitVec.ofNat 8 s.tempo.tapList.length, 0xFF, 0xFF, 0xFF, 0xFF, 0]) (wrote 0 s))))) ∧
  (∀ (s : State) (t : SampleCount), takesCommands s = true → s.tempo.source = .internal → s.tempo.lastTap = some t →
    4096 ≤ (s.timer.samples - t).toNat → (s.timer.samples - t).toNat ≤ 524288 →
    let taps := (if 4 ≤ s.tempo.tapList.length then s.tempo.tapList.tail else s.tempo.tapList)
      ++ [(s.timer.samples - t).toNat]
    let mean := ⌊(taps.sum * 256 : Rat) / taps.length + 1 / 2⌋₊
    let ib := min (524288 * 256) (max (4096 * 256) mean)
    let adopted := decide (256 * ((ib : Int) - s.tempo.interval).natAbs > s.tempo.interval)
    ∃ a : State,
      exec (.tapTempo (whole [])) s = .next (complete 0x41 .ok 0
        ([2, BitVec.ofNat 8 taps.length] ++ bytesOf 4 mean ++ flagByte adopted) (offer mean a)) ∧
      (s.tempo.interval ≤ 2 * s.tempo.beatPosition → a.tempo =
        { s.tempo with
          tapList := taps, lastTap := some s.timer.samples, beatPosition := 0
          beatNumber := if s.tempo.beatNumber + 1 = s.tempo.beatsPerBar then 0 else s.tempo.beatNumber + 1 } ∧
        (s.tempo.beatNumber + 1 ≠ s.tempo.beatsPerBar → a.oscs = s.oscs) ∧
        (s.tempo.beatNumber + 1 = s.tempo.beatsPerBar → ∀ m, a.osc m =
          { s.osc m with restartPending := (s.osc m).restartPending || (s.osc m).setting.restartOnBar })) ∧
      (2 * s.tempo.beatPosition < s.tempo.interval → a = { wrote 0 s with tempo :=
        { s.tempo with tapList := taps, lastTap := some s.timer.samples, beatPosition := 0 } }) ∧
      a = { wrote 0 s with tempo := a.tempo, oscs := a.oscs }) ∧
  (∀ s : State, takesCommands s = true →
    let sourced := fun x : Byte => exec (.setTempoSource (whole [x])) s
    let cleared := fun (source : TempoSource) (ext : ExtState) => { wrote 1 s with tempo :=
      { s.tempo with source := source, ext := ext, window := [], phase := 0, lastPulse := none, lossTimer := none
                     tapList := [], lastTap := none } }
    (s.tempo.source = .external → sourced 0 = .next (complete 0x42 .ok 0 [] (cleared .internal .idle))) ∧
    (s.tempo.source = .internal → sourced 1 = .next (complete 0x42 .ok 0 [] (cleared .external .acquiring))) ∧
    (s.tempo.source = .internal → sourced 0 = .next (complete 0x42 .ok 0 [] (wrote 1 s))) ∧
    (s.tempo.source = .external → sourced 1 = .next (complete 0x42 .ok 0 [] (wrote 1 s))) ∧
    (∀ x : Byte, 1 < x.toNat → sourced x = .next (complete 0x42 .badArg 0 [] (wrote 1 s))) ∧
    (∃ t, exec (.resync (whole [])) s = .next (complete 0x44 .ok 0 [] t) ∧
      t = { wrote 0 s with tempo := { s.tempo with beatPosition := 0, beatNumber := 0, phase := 0 }, oscs := t.oscs } ∧
      ∀ m, t.osc m =
        { s.osc m with restartPending := (s.osc m).restartPending || (s.osc m).setting.restartOnBar }))

/-- SET_METER, in both sources: a value outside 1 to 16 is refused BAD_ARG; otherwise it becomes beats per bar, the
beat number becomes its value modulo it, the beat position is kept and no bar start is made (R135). -/
def Obligations.SetMeterSetsBeatsPerBar : Prop :=
  ∀ (s : State) (n : Byte), takesCommands s = true →
    (n.toNat < 1 ∨ 16 < n.toNat → exec (.setMeter (whole [n])) s = .next (complete 0x43 .badArg 0 [] (wrote 1 s))) ∧
    (1 ≤ n.toNat → n.toNat ≤ 16 → exec (.setMeter (whole [n])) s = .next (complete 0x43 .ok 0 [] { wrote 1 s with tempo :=
      { s.tempo with beatsPerBar := n.toNat, beatNumber := s.tempo.beatNumber % n.toNat } }))

/-- A pulse in each external state (R137, R138, R139): in IDLE it changes nothing, in LOST it begins ACQUIRING, and
else it is measured: its spacing joins the window, arms the loss timer and becomes the last pulse time. With the 24th
spacing ACQUIRING becomes FOLLOWING; the window's sum is offered; the beat is aligned at that pulse and at every 24th.
An alignment makes the beat position 0, and from half of the Ib given on the beat number advances, at beats per bar to
0 with a bar start (R130, R131, R147). That the alignment follows the adoption is the model's reading (log 19). -/
def Obligations.TempoPulsesAreMeasured : Prop :=
  (∀ (ib : Nat) (s : State),
    let aligned := fun beat : Nat => { s.tempo with beatPosition := 0, beatNumber := beat }
    (2 * s.tempo.beatPosition < ib → alignBeat ib s = { s with tempo := aligned s.tempo.beatNumber }) ∧
    (ib ≤ 2 * s.tempo.beatPosition → s.tempo.beatNumber + 1 ≠ s.tempo.beatsPerBar →
      alignBeat ib s = { s with tempo := aligned (s.tempo.beatNumber + 1) }) ∧
    (ib ≤ 2 * s.tempo.beatPosition → s.tempo.beatNumber + 1 = s.tempo.beatsPerBar → ∃ oscs : Vector Osc 16,
      alignBeat ib s = { s with tempo := aligned 0, oscs := oscs } ∧ ∀ m : OscNo, oscs[m.val] =
        { s.osc m with restartPending := (s.osc m).restartPending || (s.osc m).setting.restartOnBar })) ∧
  ∀ s : State,
    (s.tempo.ext = .idle → exec .tempoPulse s = .next s) ∧
    (s.tempo.ext = .lost → exec .tempoPulse s = .next { s with tempo :=
      { s.tempo with ext := .acquiring, window := [], phase := 0, lastPulse := some s.timer.samples } }) ∧
    (s.tempo.ext = .acquiring ∨ s.tempo.ext = .following →
      (s.tempo.lastPulse = none →
        exec .tempoPulse s = .next { s with tempo := { s.tempo with lastPulse := some s.timer.samples } }) ∧
      ∀ t, s.tempo.lastPulse = some t →
        let spacing := (s.timer.samples - t).toNat
        let window := (if 24 ≤ s.tempo.window.length then s.tempo.window.tail else s.tempo.window) ++ [spacing]
        let taken := { s.tempo with window := window, lastPulse := some s.timer.samples, lossTimer := some (3 * spacing) }
        (spacing = 0 → exec .tempoPulse s = .next s) ∧
        (0 < spacing → s.tempo.ext = .acquiring → window.length ≠ 24 →
          exec .tempoPulse s = .next { s with tempo := taken }) ∧
        (0 < spacing → s.tempo.ext = .acquiring → window.length = 24 → ∃ a,
          a = offer (window.sum * 256) { s with tempo := { taken with ext := .following } } ∧
          exec .tempoPulse s = .next (alignBeat s.tempo.interval { a with tempo := { a.tempo with phase := 0 } })) ∧
        (0 < spacing → s.tempo.ext = .following → ∃ a, a = offer (window.sum * 256) { s with tempo := taken } ∧
          (s.tempo.phase ≠ 23 →
            exec .tempoPulse s = .next { a with tempo := { a.tempo with phase := s.tempo.phase + 1 } }) ∧
          (s.tempo.phase = 23 →
            exec .tempoPulse s = .next (alignBeat s.tempo.interval { a with tempo := { a.tempo with phase := 0 } }))))

/-! ### Modulation oscillators (08) -/

/-- The boundary work of an oscillator with no staged setting and no restart pending: the phase becomes the end phase
held, a RANDOM oscillator takes a new value where the end-wrap flag was set, and the end phase is worked out from the
increment standing (R145, R146). A staged setting is taken first, and a restart begins the cycle at phase 0 with a new
value. An effective cycle length is 0 for a FREE setting with an Lc of 0, and else the Lc, or for SYNC the note length
rounded to the nearest whole sample, brought into the range 2B to 2^24 (R129, R143), for every B the part has. A new
value is the register after 32 steps, each of which shifts it one place up and enters the exclusive-or of bits 31, 21,
1 and 0; from a register other than zero it is never zero, and the next value a record shows is worked out so with no
step (R146). The increment is 0 for 0, exact for a power of two, and within a relative 2^-14 of 2^32/Lc wherever a
whole number is (R144); where none is, it is one of the two whole numbers about 2^32/Lc, which is the model's choice
(log 16). -/
def Obligations.OscillatorsTurnWithinLegalCycles : Prop :=
  (∀ (b ib : Nat) (found resized : Bool) (o : Osc),
    let t := o.boundary b ib found resized
    let restart := o.restartPending || o.staged.any (·.restart)
    let setting := (o.staged.map (·.setting)).getD o.setting
    let recompute := o.staged.isSome || (setting.mode == .sync && found) || resized
    t.setting = setting ∧ t.staged = none ∧ t.restartPending = false ∧
    t.effective = (if recompute then effectiveLength b ib setting else o.effective) ∧
    t.increment = (if recompute then approxReciprocal (effectiveLength b ib setting) else o.increment) ∧
    t.phase = (if restart then 0 else o.endPhase) ∧
    t.lfsr = (if restart || o.endWrap then lfsrRenew o.lfsr else o.lfsr) ∧
    t.held = (if (restart || o.endWrap) && setting.shape == .random then ((lfsrRenew o.lfsr).toNat : Int) - 2 ^ 31
      else o.held) ∧
    t.endPhase.toNat = (t.phase.toNat + b * t.increment) % 2 ^ 32 ∧
    (t.endWrap = true ↔ 2 ^ 32 ≤ t.phase.toNat + b * t.increment)) ∧
  (∀ r : BitVec 32,
    let step := fun r : BitVec 32 =>
      r <<< 1 ||| (if r.getLsbD 31 ^^ r.getLsbD 21 ^^ r.getLsbD 1 ^^ r.getLsbD 0 then 1#32 else 0#32)
    lfsrRenew r = step^[32] r ∧ (r ≠ 0 → lfsrRenew r ≠ 0)) ∧
  (∀ o : Osc, o.nextValue = ((lfsrRenew o.lfsr).toNat : Int) - 2 ^ 31) ∧
  (∀ (size : PeriodSize) (ib : Nat) (o : OscSetting),
    let b := size.toNat
    (o.mode = .free → o.cycle = 0 → effectiveLength b ib o = 0) ∧
    (o.mode = .free → o.cycle ≠ 0 → effectiveLength b ib o = min (2 ^ 24) (max (2 * b) o.cycle)) ∧
    (o.mode = .sync →
      let factor : Rat := match o.modifier with
        | .straight => 1
        | .dotted => 3 / 2
        | .triplet => 2 / 3
      let samples : Rat := ((ib : Rat) / 256) * 4 / 2 ^ (o.noteExp % 8) * factor
      effectiveLength b ib o = min (2 ^ 24) (max (2 * b) ⌊samples + 1 / 2⌋₊))) ∧
  approxReciprocal 0 = 0 ∧ (∀ j, j ≤ 24 → approxReciprocal (2 ^ j) = 2 ^ (32 - j)) ∧
  (∀ lc : Nat, 0 < lc → lc ≤ 2 ^ 24 →
    let ideal : Rat := 2 ^ 32 / (lc : Rat)
    let near := fun n : Nat => |(n : Rat) - ideal| ≤ ideal / 2 ^ 14
    ((∃ n, near n) → near (approxReciprocal lc)) ∧
    ((¬∃ n, near n) → approxReciprocal lc = 2 ^ 32 / lc ∨ approxReciprocal lc = 2 ^ 32 / lc + 1))

/-- The TRIANGLE value is exact; the SINE value lies within 2^-16 of the true sine, whatever the free value it is made
of (log 17), exact at the four quarters and with the sine's symmetry (R148). The start and end values of a tap with
quadrant q are those at the phase and at the end phase plus q × 2^30; the RANDOM ones are the held value and, at a
wrap, the next (R149). -/
def Obligations.OscillatorValuesFollowTheirCurves : Prop :=
  (∀ p : BitVec 32,
    (p.toNat ≤ 2 ^ 30 → triangleValue p = 4 * (p.toNat : Rat) / 2 ^ 32) ∧
    (2 ^ 30 ≤ p.toNat → p.toNat ≤ 3 * 2 ^ 30 → triangleValue p = 2 - 4 * (p.toNat : Rat) / 2 ^ 32) ∧
    (3 * 2 ^ 30 ≤ p.toNat → triangleValue p = 4 * (p.toNat : Rat) / 2 ^ 32 - 4) ∧
    |((sineValue p : Rat) : ℝ) - Real.sin (2 * Real.pi * (p.toNat / 2 ^ 32))| ≤ 1 / 2 ^ 16 ∧
    sineValue (p + 0x80000000#32) = -sineValue p ∧ (p.toNat ≤ 2 ^ 31 → sineValue (0x80000000#32 - p) = sineValue p)) ∧
  sineValue 0 = 0 ∧ sineValue 0x40000000#32 = 1 ∧ sineValue 0x80000000#32 = 0 ∧ sineValue 0xC0000000#32 = -1 ∧
  (∀ (o : Osc) (q : Nat),
    let first : BitVec 32 := BitVec.ofNat 32 (o.phase.toNat + q * 2 ^ 30)
    let last : BitVec 32 := BitVec.ofNat 32 (o.endPhase.toNat + q * 2 ^ 30)
    (o.setting.shape = .sine → o.startValue q = sineValue first ∧ o.endValue q = sineValue last) ∧
    (o.setting.shape = .triangle → o.startValue q = triangleValue first ∧ o.endValue q = triangleValue last) ∧
    (o.setting.shape = .random →
      o.startValue q = (o.held : Rat) / 2 ^ 31 ∧
      (o.endWrap = false → o.endValue q = (o.held : Rat) / 2 ^ 31) ∧
      (o.endWrap = true → o.endValue q = (o.nextValue : Rat) / 2 ^ 31)))

/-- SET_OSC stages the setting it carries, replacing any staged, and is refused BAD_ARG for an oscillator above 15, k
above 15, modifier code 3, or a code its layout does not define (R151, R194). -/
def Obligations.SetOscStagesItsSetting : Prop :=
  ∀ s : State, takesCommands s = true →
    (∀ (m : OscNo) (x : StagedOsc), x.setting.cycle < 2 ^ 32 → x.setting.noteExp < 16 →
      exec (.setOsc (whole (bytesOf 1 m.val ++ bytesOf 1 x.setting.shape.code ++ bytesOf 1 x.setting.mode.code
        ++ bytesOf 4 x.setting.cycle ++ bytesOf 1 x.setting.noteExp ++ bytesOf 1 x.setting.modifier.code
        ++ flagByte x.setting.restartOnBar ++ flagByte x.restart))) s =
        .next (complete 0x50 .ok 0 [] ((wrote 11 s).setOsc m { s.osc m with staged := some x }))) ∧
    (∀ m shape mode c3 c2 c1 c0 k modifier bar restart : Byte,
      15 < m.toNat ∨ 2 < shape.toNat ∨ 1 < mode.toNat ∨ 15 < k.toNat ∨ 2 < modifier.toNat ∨ 1 < bar.toNat ∨
        1 < restart.toNat →
      exec (.setOsc (whole [m, shape, mode, c3, c2, c1, c0, k, modifier, bar, restart])) s =
        .next (complete 0x50 .badArg 0 [] (wrote 11 s)))

/-! ### Transitions (06) -/

/-- At steps 1 and 2 a fade's count advances and at its length the tap takes its new state; a glide moves the delay by
glide rate × B / 256 samples toward the target, without passing it, and ends at it; other taps stand (R109 to R111).
-/
def Obligations.FadesAndGlidesMoveOn : Prop :=
  ∀ (b : Nat) (t : Tap),
    let u := (t.advance b).completeMove
    (t.state = .idle ∨ t.state = .running → u = t) ∧
    (t.state.isFade = true → t.fadeCount + 1 < t.fadeOf → u = { t with fadeCount := t.fadeCount + 1 }) ∧
    (t.state = .starting → t.fadeCount + 1 = t.fadeOf → u = { t with state := .running, fadeCount := 0, fadeOf := 0 }) ∧
    (t.state = .stopping → t.fadeCount + 1 = t.fadeOf →
      u = { t with state := .idle, fadeCount := 0, fadeOf := 0, current := { t.current with run := false } }) ∧
    (t.state = .fading → t.fadeCount + 1 = t.fadeOf →
      u = { t with state := .running, fadeCount := 0, fadeOf := 0, oldSide := none }) ∧
    (t.state = .gliding →
      let step := t.current.glideRate * b
      (t.delay + step < t.target → u = { t with delay := t.delay + step }) ∧
      (t.target + step < t.delay → u = { t with delay := t.delay - step }) ∧
      (t.delay ≤ t.target + step → t.target ≤ t.delay + step →
        u = { t with delay := t.target, state := .running, fadeCount := 0, fadeOf := 0 }))

/-- Step 3 applies the staged edit of a tap that is not FADING and holds no pending target, and the staged edit
becomes none; with none staged the tap stands (R108, R112). What a staged start does in IDLE, STARTING and STOPPING,
and a staged stop in every state but FADING; a preset replaces the set of an IDLE tap and is applied to any other as a
stop (R112 to R116). A retarget of a RUNNING or GLIDING tap by each method, on the same line and on another (R117 to
R119). -/
def Obligations.StagedEditsAreApplied : Prop :=
  (∀ (ib : Nat) (p : ParamSet) (t : Tap),
    (t.staged = none → t.applyEdit ib = t) ∧
    (t.state ≠ .fading → t.pendingTarget = none →
      let taken := { t with staged := none }
      (t.staged = some (.start p) → t.applyEdit ib = taken.applyStart ib p) ∧
      (t.staged = some (.preset p) → t.applyEdit ib = taken.applyPreset ib p) ∧
      (t.staged = some .stop → t.applyEdit ib = taken.applyStop) ∧
      (t.applyEdit ib).staged = none)) ∧
  (∀ (ib : Nat) (p : ParamSet) (t : Tap),
    let base := baseDelay ib p
    let taken := { t with current := { p with run := true }, delay := base, target := base }
    (t.state = .idle → p.edgeFade = 0 →
      t.applyStart ib p = { taken with state := .running, fadeCount := 0, fadeOf := 0 }) ∧
    (t.state = .idle → p.edgeFade ≠ 0 →
      t.applyStart ib p = { taken with state := .starting, fadeCount := 0, fadeOf := p.edgeFade }) ∧
    (t.state = .starting → t.applyStart ib p = taken) ∧
    (t.state = .stopping →
      t.applyStart ib p = { taken with state := .starting, fadeCount := t.fadeOf - t.fadeCount }) ∧
    (t.state = .idle ∨ t.state = .stopping → t.applyStop = t) ∧
    (t.state = .starting → t.applyStop =
      { t with state := .stopping, fadeCount := t.fadeOf - t.fadeCount, current := { t.current with run := false } }) ∧
    (t.state = .running ∨ t.state = .gliding →
      let held := if t.state = .gliding then t.delay else t.target
      (t.current.edgeFade = 0 → t.applyStop =
        { t with state := .idle, fadeCount := 0, fadeOf := 0, target := held, current := { t.current with run := false } }) ∧
      (t.current.edgeFade ≠ 0 → t.applyStop =
        { t with state := .stopping, fadeCount := 0, fadeOf := t.current.edgeFade, target := held,
                 current := { t.current with run := false } })) ∧
    (t.state = .idle → t.applyPreset ib p = { t with current := p, delay := base, target := base }) ∧
    (t.state ≠ .idle → t.applyPreset ib p = t.applyStop)) ∧
  (∀ (ib : Nat) (p : ParamSet) (t : Tap), t.state = .running ∨ t.state = .gliding →
    let base := baseDelay ib p
    let crossed := { t with
      current := { p with run := true }, delay := base, target := base, state := .fading, fadeCount := 0
      fadeOf := p.fadeLen
      oldSide := some { line := t.current.line, delay := t.delay, gain := t.current.gain, inverted := t.current.inverted,
                        interp := t.current.interp, osc := t.current.osc, depth := t.current.depth,
                        quadrant := t.current.quadrant } }
    (p.method = .jump → t.applyStart ib p =
      { t with current := { p with run := true }, delay := base, target := base, state := .running, fadeCount := 0,
               fadeOf := 0 }) ∧
    (p.method = .glide → p.line = t.current.line → t.applyStart ib p =
      { t with current := { p with run := true }, target := base, fadeCount := 0, fadeOf := 0
               state := if t.delay = base then .running else .gliding }) ∧
    (p.method = .glide → p.line ≠ t.current.line → t.applyStart ib p = crossed) ∧
    (p.method = .xfade → t.applyStart ib p = crossed))

/-- Behind a crossfade an edit waits as the pending target, a stop or a preset as the stop form, and a later edit
replaces it, even at the boundary at which the crossfade completes; the pending target is then applied as a retarget
or a stop of a RUNNING tap (R120, R121). A TEMPO-mode tap in RUNNING or GLIDING that the tempo concerns, and whose
base delay is no longer its target, glides under GLIDE, crossfades over K under XFADE and over E under JUMP; every
other tap stands (R122, R123). A base delay is the fixed delay, or in TEMPO the note length Ib × 4 × 2^-(k mod 8) × f,
exact, with f 1, 3/2 or 2/3, rounded to the nearest 256th and at most 1,048,575 + 255/256 samples (R88, R129). -/
def Obligations.PendingEditsWaitAndTapsFollowTheTempo : Prop :=
  (∀ (ib : Nat) (p : ParamSet) (t : Tap),
    let behind := fun (q : ParamSet) => { t with staged := none, pendingTarget := some q }
    (t.state = .fading ∨ t.pendingTarget.isSome = true →
      ({ t with staged := some (.start p) } : Tap).applyEdit ib = behind p ∧
      ({ t with staged := some (.preset p) } : Tap).applyEdit ib = behind { t.current with run := false } ∧
      ({ t with staged := some .stop } : Tap).applyEdit ib = behind { t.current with run := false }) ∧
    (t.state = .fading → t.applyPending ib = t) ∧
    (t.state = .running → t.pendingTarget = some p → p.run = true →
      t.applyPending ib = ({ t with pendingTarget := none } : Tap).applyStart ib p) ∧
    (t.state = .running → t.pendingTarget = some p → p.run = false →
      t.applyPending ib = ({ t with pendingTarget := none } : Tap).applyStop)) ∧
  (∀ (ib : Nat) (concerned : Bool) (t : Tap),
    let base := baseDelay ib t.current
    let follows := t.current.mode = .tempo ∧ (t.state = .running ∨ t.state = .gliding) ∧ concerned = true ∧ base ≠ t.target
    let crossed := fun n : Nat => { t with
      current := { t.current with run := true }, delay := base, target := base, state := .fading, fadeCount := 0
      fadeOf := n
      oldSide := some { line := t.current.line, delay := t.delay, gain := t.current.gain, inverted := t.current.inverted,
                        interp := t.current.interp, osc := t.current.osc, depth := t.current.depth,
                        quadrant := t.current.quadrant } }
    (¬follows → t.followTempo ib concerned = t) ∧
    (follows → t.current.method = .glide → t.followTempo ib concerned =
      { t with target := base, fadeCount := 0, fadeOf := 0, state := if t.delay = base then .running else .gliding }) ∧
    (follows → t.current.method = .xfade → t.followTempo ib concerned = crossed t.current.fadeLen) ∧
    (follows → t.current.method = .jump → t.followTempo ib concerned = crossed t.current.edgeFade)) ∧
  (∀ (ib : Nat) (p : ParamSet),
    let factor : Rat := match p.modifier with
      | .straight => 1
      | .dotted => 3 / 2
      | .triplet => 2 / 3
    let note : Rat := (ib : Rat) * 4 / 2 ^ (p.noteExp % 8) * factor
    ((noteLength ib p.noteExp p.modifier).1 : Rat) / (noteLength ib p.noteExp p.modifier).2 = note ∧
    (p.mode = .fixed → baseDelay ib p = p.fixedDelay) ∧
    (p.mode = .tempo → baseDelay ib p = min (1048575 * 256 + 255) ⌊note + 1 / 2⌋₊))

/-- The equal-power gain function, whatever the free value it is made of: exact at 0 and 1, from 0 to 1 and within a
relative 2^-12 of the root at every fraction a fade uses, never falling from one such fraction to a larger; and so the
squares of a crossfade's two gains sum to within 2^-10 of one at every period edge (R124, R125). -/
def Obligations.CrossfadesKeepTheirPower : Prop :=
  equalPowerGain 0 = 0 ∧ equalPowerGain 1 = 1 ∧
  (∀ j n : Nat, 0 < j → j < n → n ≤ 64 →
    let x : Rat := (j : Rat) / n
    0 ≤ equalPowerGain x ∧ equalPowerGain x ≤ 1 ∧
    (1 - 1 / 2 ^ 12) ^ 2 * x ≤ equalPowerGain x ^ 2 ∧ equalPowerGain x ^ 2 ≤ (1 + 1 / 2 ^ 12) ^ 2 * x) ∧
  (∀ j n k m : Nat, j ≤ n → 0 < n → n ≤ 64 → k ≤ m → 0 < m → m ≤ 64 → (j : Rat) / n ≤ (k : Rat) / m →
    equalPowerGain ((j : Rat) / n) ≤ equalPowerGain ((k : Rat) / m)) ∧
  (∀ j n : Nat, j ≤ n → 0 < n → n ≤ 64 →
    |equalPowerGain (1 - (j : Rat) / n) ^ 2 + equalPowerGain ((j : Rat) / n) ^ 2 - 1| ≤ 1 / 2 ^ 10)

/-! ### Taps and scenes (05, 09) -/

/-- SET_TAP stages a set that passes the screen and all eight checks as a start or a preset by its run flag, and else
is refused with the number of the first check that fails, or BAD_ARG where the screen fails: a gain above 65536, a
glide rate above 256, a K or an E above 64, an oscillator code above 16, or a code of delay mode, polarity,
interpolation, method or run flag that its layout does not define (R83). CLEAR_TAP stages a stop with no check; both
refuse a tap above 511 with BAD_ARG (R82, R83, R84, R86). The eight checks of SET_TAP, each as its table says it, on
the fields as the arguments carry them (R84, R85): codes as numbers, delays and depths in 256ths. -/
def Obligations.SetTapIsJudgedByTheEightChecks : Prop :=
  (∀ (s : State) (t : TapNo), takesCommands s = true →
    (∀ set : List Byte, set.length = 24 →
      let r := RawSet.parse set 0
      let taken := exec (.setTap (whole (bytesOf 2 t.val ++ set))) s
      let outside := 65536 < r.gain ∨ 256 < r.glideRate ∨ 64 < r.fadeLen ∨ 64 < r.edgeFade ∨ 16 < r.osc ∨ 1 < r.mode ∨
        1 < r.polarity ∨ 1 < r.interp ∨ 2 < r.method ∨ 1 < r.run
      (outside → taken = .next (complete 0x30 .badArg 0 [] (wrote 26 s))) ∧
      (¬outside → ∀ n, 1 ≤ n → n ≤ 8 → checkFails s t r n = true →
        (∀ m, 1 ≤ m → m < n → checkFails s t r m = false) → taken = .next (complete 0x30 .check n [] (wrote 26 s))) ∧
      (¬outside → (∀ n, 1 ≤ n → n ≤ 8 → checkFails s t r n = false) →
        taken = .next (complete 0x30 .ok 0 [] ((wrote 26 s).setTap t { s.tap t with
          staged := some (if r.toSet.run then .start r.toSet else .preset r.toSet) })))) ∧
    (∀ (hi lo : Byte) (set : List Byte), 2 ≤ hi.toNat → set.length = 24 →
      exec (.setTap (whole (hi :: lo :: set))) s = .next (complete 0x30 .badArg 0 [] (wrote 26 s))) ∧
    exec (.clearTap (whole (bytesOf 2 t.val))) s =
      .next (complete 0x31 .ok 0 [] ((wrote 2 s).setTap t { s.tap t with staged := some .stop })) ∧
    (∀ hi lo : Byte, 2 ≤ hi.toNat → exec (.clearTap (whole [hi, lo])) s = .next (complete 0x31 .badArg 0 [] (wrote 2 s)))) ∧
  (∀ (s : State) (t : TapNo) (r : RawSet),
    let reader : Engine := Fin.ofNat 4 r.reader
    let line := s.line (Fin.ofNat 128 r.line)
    let fails := fun n => checkFails s t r n = true
    (fails 1 ↔ r.reserved = true) ∧
    (fails 2 ↔ 3 < r.reader ∨ (s.link reader).state = .off) ∧
    (fails 3 ↔ 127 < r.line ∨ line.state ≠ .active) ∧
    (fails 4 ↔ (r.mode = 0 ∧
      (r.fixedDelay < (s.size + 1) * 256 ∨ (line.length - s.size - 2) * 256 < r.fixedDelay)) ∨ r.modifier = 3) ∧
    (fails 5 ↔ (r.osc ≠ 0 ∧ r.depth = 0) ∨ 4095 * 256 + 255 < r.depth ∨ (r.osc = 0 ∧ 0 < r.depth)) ∧
    (fails 6 ↔ (r.method = 1 ∧ r.glideRate = 0) ∨ ((r.method = 1 ∨ r.method = 2) ∧ r.fadeLen = 0) ∨
      (r.interp = 0 ∧ 0 < r.depth) ∨ (r.mode = 1 ∧ r.method = 0 ∧ r.edgeFade = 0)) ∧
    (fails 7 ↔ 128 < (s.setTap t { s.tap t with
      staged := some (if r.run ≠ 0 then .start r.toSet else .preset r.toSet) }).taps.toList.countP fun x =>
        (x.state == .idle && (match x.staged with | some (.start p) => p.reader == reader | _ => false)) ||
        (x.state == .stopping && x.current.reader == reader && (match x.staged with | some (.start _) => true | _ => false)) ||
        (x.state != .idle && x.state != .stopping && x.current.reader == reader)) ∧
    (fails 8 ↔ (s.tap t).state ≠ .idle ∧ (s.tap t).current.reader ≠ reader))

/-- PUSH_SCENE puts every tap's next set and, in INTERNAL, Ib on top, and loses the bottom of four entries with
DISCARDED (R157). A tap's next set: a staged start's set with run flag run; a staged preset's with run flag stop while
the tap is IDLE; for any other staged preset, and for a staged stop, the current set with run flag stop; and with no
staged edit the current set. Two next sets are alike when both stop, or when both run and are equal in every field
(R156). -/
def Obligations.PushScenePutsTheNextSetsOnTop : Prop :=
  (∀ t : Tap,
    (∀ p, t.staged = some (.start p) → t.nextSet = { p with run := true }) ∧
    (∀ p, t.staged = some (.preset p) → t.state = .idle → t.nextSet = { p with run := false }) ∧
    (∀ p, t.staged = some (.preset p) → t.state ≠ .idle → t.nextSet = { t.current with run := false }) ∧
    (t.staged = some .stop → t.nextSet = { t.current with run := false }) ∧
    (t.staged = none → t.nextSet = t.current)) ∧
  (∀ p q : ParamSet, p.alike q = true ↔ (p.run = false ∧ q.run = false) ∨ (p.run = true ∧ q.run = true ∧ p = q)) ∧
  ∀ s : State, takesCommands s = true →
    (∃ entry : Scene, (∀ t : TapNo, entry.sets[t.val] = (s.tap t).nextSet) ∧
      entry.tempo = (if s.tempo.source = .internal then some s.tempo.interval else none) ∧
      (s.scenes.length < 4 → exec (.pushScene (whole [])) s = .next (complete 0x60 .ok 0
        (bytesOf 1 (s.scenes.length + 1) ++ flagByte entry.tempo.isSome) { wrote 0 s with scenes := entry :: s.scenes })) ∧
      (s.scenes.length = 4 → exec (.pushScene (whole [])) s = .next (complete 0x60 .discarded 0
        (bytesOf 1 4 ++ flagByte entry.tempo.isSome) { wrote 0 s with scenes := entry :: s.scenes.take 3 })))

/-- DROP_SCENE discards the top entry, and completes with the depth after the drop; an empty stack is refused EMPTY;
no tap, staged edit or tempo is touched (R163). -/
def Obligations.DropSceneDiscardsTheTop : Prop :=
  ∀ s : State, takesCommands s = true →
    (∀ e rest, s.scenes = e :: rest →
      exec (.dropScene (whole [])) s = .next (complete 0x62 .ok 0 (bytesOf 1 rest.length) { wrote 0 s with scenes := rest })) ∧
    (s.scenes = [] → exec (.dropScene (whole [])) s = .next (complete 0x62 .empty 0 [] (wrote 0 s)))

/-- POP_SCENE takes the top entry off, walks the taps in ascending number, leaves one whose next set is alike (both
stop, or both run and are equal) untouched, stages a stop on one to be stopped and, on one to run, a start that passes
the checks as the pop has left the part so far, or nothing, and adopts the entry's tempo in INTERNAL (R156, R158,
R159, R160). Its result counts the taps restored and those skipped, names the first skipped with the check it failed,
says whether a tempo was restored and which, and gives the depth after the pop (R161); the layout, with a none of all
ones for the first skipped, is the model's reading (log 20). An empty stack is refused EMPTY (R158). -/
def Obligations.PopScenesRestoreTaps : Prop :=
  (∀ (s : State) (entry : Scene) (rest : List Scene), takesCommands s = true → s.scenes = entry :: rest →
    ∃ (bytes : List Byte) (u : State),
      exec (.popScene (whole [])) s = .next (complete 0x61 .ok 0 bytes
        (match s.tempo.source, entry.tempo with
          | .internal, some v => adopt v u
          | _, _ => u)) ∧
      u = { wrote 0 s with scenes := rest, taps := u.taps } ∧
      let want := fun t : TapNo => entry.sets[t.val]
      let before := fun t : TapNo => { u with taps := Vector.ofFn fun i : TapNo => if i < t then u.tap i else s.tap i }
      let next := fun t : TapNo => (s.tap t).nextSet
      let alike := fun t : TapNo => (!(want t).run && !(next t).run) || ((want t).run && (next t).run && want t == next t)
      let fails := fun (t : TapNo) (n : Nat) => checkFails (before t) t (want t).toRaw n
      let passes := fun t : TapNo => ∀ n, 1 ≤ n → n ≤ 8 → fails t n = false
      let skips := fun t : TapNo => !alike t && (want t).run && [1, 2, 3, 4, 5, 6, 7, 8].any (fails t)
      (∀ t : TapNo,
        (alike t = true → u.tap t = s.tap t) ∧
        (alike t = false → (want t).run = false → u.tap t = { s.tap t with staged := some .stop }) ∧
        (alike t = false → (want t).run = true → passes t → u.tap t = { s.tap t with staged := some (.start (want t)) }) ∧
        (alike t = false → (want t).run = true → ¬passes t → u.tap t = s.tap t)) ∧
      bytes = bytesOf 2 (allTaps.filter fun t => !alike t && !skips t).length ++ bytesOf 2 (allTaps.filter skips).length
        ++ (match allTaps.filter skips with
          | [] => [0xFF, 0xFF]
          | t :: _ => bytesOf 2 t.val ++ bytesOf 1 (([1, 2, 3, 4, 5, 6, 7, 8].find? (fails t)).getD 0))
        ++ (match s.tempo.source, entry.tempo with
          | .internal, some v => [1] ++ bytesOf 4 (min (524288 * 256) (max (4096 * 256) v))
          | _, _ => [0])
        ++ bytesOf 1 rest.length) ∧
  (∀ s : State, takesCommands s = true → s.scenes = [] →
    exec (.popScene (whole [])) s = .next (complete 0x61 .empty 0 [] (wrote 0 s)))

/-! ### The period and the word clock (01) -/

/-- A spacing offered to the relock run joins an empty run, joins a run with whose mean m it is consistent, 64 × |s −
m| ≤ m, the oldest of 64 leaving, and else begins a new run; a first edge and a spacing of 0 offer nothing (R1). A
real edge in UNLOCKED advances the sample counter, is measured, is handed to the tempo unit alone, and makes no
boundary; when a spacing joins the relock run and the run then holds 64, the timer is LOCKED with the run as its
window, M its mean and the loss timer armed 2 × M from the edge (R1, R2). -/
def Obligations.UnlockedEdgesAreMeasured : Prop :=
  (∀ (t : Timer) (reading : Nat),
    let u := t.measureOffer reading
    u.lastEdge = some reading ∧ u = { t with lastEdge := some reading, relockRun := u.relockRun } ∧
    (t.lastEdge = none ∨ t.lastEdge = some reading → u.relockRun = t.relockRun) ∧
    (∀ last, t.lastEdge = some last → last < reading →
      let s := reading - last
      let m := t.relockRun.sum / t.relockRun.length
      (t.relockRun = [] → u.relockRun = [s]) ∧
      (t.relockRun ≠ [] → 64 * ((s : Int) - m).natAbs ≤ m →
        u.relockRun = (if 64 ≤ t.relockRun.length then t.relockRun.tail else t.relockRun) ++ [s]) ∧
      (t.relockRun ≠ [] → m < 64 * ((s : Int) - m).natAbs → u.relockRun = [s]))) ∧
  (∀ (s : State) (reading : Nat) (order : EdgeOrder), s.timer.wclk = .unlocked →
    let timer := s.timer.measureOffer reading
    let m := timer.relockRun.sum / timer.relockRun.length
    let before := s.timer.relockRun.sum / s.timer.relockRun.length
    let joins := ∃ last, s.timer.lastEdge = some last ∧ last < reading ∧
      (s.timer.relockRun = [] ∨ 64 * (((reading - last : Nat) : Int) - before).natAbs ≤ before)
    let full := joins ∧ timer.relockRun.length = 64
    ∃ t, exec (.realEdge reading order) s = .next t ∧
      t = { s with timer := t.timer, tempo := (tempoEdge s).tempo, oscs := (tempoEdge s).oscs,
                   notices := (tempoEdge s).notices } ∧
      (¬full → t.timer = { timer with samples := s.timer.samples + 1 }) ∧
      (full → t.timer = { timer with
        samples := s.timer.samples + 1, wclk := .locked, window := timer.relockRun, mean := some m, relockRun := []
        relockReady := false, lossTimer := some (reading + 2 * m), flyTimer := none }))

/-- A real edge in LOCKED within a period is a counted edge: its spacing joins the window unless it is 0, M is
recomputed, the loss timer is armed 2 × M from it, the sample counter and the edge count advance, and the tempo unit
and every receiver take the sample edge (R1, R3, R4). A real edge in LOCKED before boundary 0, or whose edge count
before it is B − 1, makes the boundary; the tempo unit and the receivers take the sample edge before or after it, and
the two readers of the tempo take the boundary, as the row's operand says (R2, R3; logs 4 and 5). -/
def Obligations.LockedEdgesAreCountedAndMakeBoundaries : Prop :=
  (∀ (s : State) (reading : Nat) (order : EdgeOrder),
    s.timer.wclk = .locked → s.timer.running = true → s.timer.edge + 1 < s.size →
    ∃ t, exec (.realEdge reading order) s = .next t ∧
      t = { s with timer := t.timer, tempo := (tempoEdge s).tempo, oscs := (tempoEdge s).oscs,
                   notices := (tempoEdge s).notices, links := s.links.map Link.edge } ∧
      t.timer = { s.timer with
        lastEdge := some reading, window := t.timer.window, mean := some (t.timer.window.sum / t.timer.window.length)
        lossTimer := some (reading + 2 * (t.timer.window.sum / t.timer.window.length))
        samples := s.timer.samples + 1, edge := s.timer.edge + 1 } ∧
      (s.timer.lastEdge = none ∨ s.timer.lastEdge = some reading → t.timer.window = s.timer.window) ∧
      (∀ last, s.timer.lastEdge = some last → last < reading → t.timer.window =
        (if 64 ≤ s.timer.window.length then s.timer.window.tail else s.timer.window) ++ [reading - last])) ∧
  (∀ (s : State) (reading : Nat) (order : EdgeOrder),
    s.timer.wclk = .locked → s.timer.running = false ∨ s.timer.edge + 1 = s.size →
    exec (.realEdge reading order) s = .next (edgeAfter order (boundaryAround order (!s.timer.running)
      (edgeBefore order { s with timer := { s.timer.measureLocked reading with samples := s.timer.samples + 1 } }))))

/-- The loss timer's expiry in LOCKED enters FLYWHEEL and makes a flywheel edge at once, raises WCLK_LOST, empties the
relock run, keeps M, the window and the last edge time, and arms the flywheel timer M later (R3, R4). The flywheel
timer's expiry makes a counted edge and arms the timer M later; at a boundary it makes with relock ready the timer
returns to LOCKED with the relock run as its window, arms the loss timer and raises WCLK_RESTORED (R3, R5, R6). A
flywheel edge within a period advances the sample counter and the edge count, and the tempo unit and every receiver
take it (R3); at B − 1 it makes a boundary in every respect, in the orders of the row's operand (R5, R7; logs 4 and
5). A real edge in FLYWHEEL is measured alone: a spacing that joins the relock run, which then holds 64, makes relock
ready yes, and one that empties the run makes it no (R5). Before boundary 0, with periods running no, the edge count
goes round at B − 1 and no boundary is made there: the model's reading (log 6). -/
def Obligations.TheFlywheelTakesOverTurnsAndRelocks : Prop :=
  (∀ (s : State) (expiry : Nat) (order : EdgeOrder), s.timer.wclk = .locked → s.timer.lossTimer = some expiry →
    let lost := { s.timer with
      wclk := .flywheel, relockRun := [], relockReady := false, lossTimer := none
      flyTimer := some (expiry + s.timer.mean.getD 0), samples := s.timer.samples + 1 }
    let counted := fun edge : Nat => raise .wclkLost { s with
      timer := { lost with edge := edge }, tempo := (tempoEdge s).tempo, oscs := (tempoEdge s).oscs
      notices := (tempoEdge s).notices, links := s.links.map Link.edge }
    (s.timer.edge + 1 < s.size → exec (.lossTimerExpiry order) s = .next (counted (s.timer.edge + 1))) ∧
    (s.timer.edge + 1 = s.size → s.timer.running = false → exec (.lossTimerExpiry order) s = .next (counted 0)) ∧
    (s.timer.edge + 1 = s.size → s.timer.running = true → exec (.lossTimerExpiry order) s =
      .next (raise .wclkLost (edgeAfter order (boundaryAround order false (edgeBefore order { s with timer := lost })))))) ∧
  (∀ (s : State) (order : EdgeOrder), s.timer.wclk = .flywheel →
    (∀ expiry, s.timer.flyTimer = some expiry →
      let turned := { s.timer with
        flyTimer := some (expiry + s.timer.mean.getD 0), samples := s.timer.samples + 1 }
      let counted := fun edge : Nat => { s with
        timer := { turned with edge := edge }, tempo := (tempoEdge s).tempo, oscs := (tempoEdge s).oscs
        notices := (tempoEdge s).notices, links := s.links.map Link.edge }
      let m := s.timer.relockRun.sum / s.timer.relockRun.length
      let relocked := fun t : State => raise .wclkRestored { t with timer := { t.timer with
        wclk := .locked, window := s.timer.relockRun, mean := some m, relockRun := [], relockReady := false
        lossTimer := some (expiry + 2 * m), flyTimer := none } }
      let ended := if s.timer.running then
          edgeAfter order (boundaryAround order false (edgeBefore order { s with timer := turned }))
        else counted 0
      (s.timer.edge + 1 < s.size → exec (.flywheelEdge order) s = .next (counted (s.timer.edge + 1))) ∧
      (s.timer.edge + 1 = s.size → s.timer.relockReady = false → exec (.flywheelEdge order) s = .next ended) ∧
      (s.timer.edge + 1 = s.size → s.timer.relockReady = true → exec (.flywheelEdge order) s = .next (relocked ended))) ∧
    (∀ reading,
      let measured := s.timer.measureOffer reading
      let m := s.timer.relockRun.sum / s.timer.relockRun.length
      ∃ ready, exec (.realEdge reading order) s = .next { s with timer := { measured with relockReady := ready } } ∧
        (s.timer.lastEdge = none ∨ s.timer.lastEdge = some reading → ready = s.timer.relockReady) ∧
        ∀ last, s.timer.lastEdge = some last → last < reading →
          let empties := s.timer.relockRun ≠ [] ∧ m < 64 * (((reading - last : Nat) : Int) - m).natAbs
          (empties → ready = false) ∧
          (¬empties → measured.relockRun.length = 64 → ready = true) ∧
          (¬empties → measured.relockRun.length ≠ 64 → ready = s.timer.relockReady))) ∧
  (∀ (s : State) (order : EdgeOrder) (zero : Bool),
    let t := edgeAfter order (boundaryAround order zero (edgeBefore order s))
    t.timer.period = (if zero then 0 else s.timer.period + 1) ∧ t.timer.edge = 0 ∧ t.timer.wclk = s.timer.wclk ∧
    t.timer.running = (s.timer.running || zero) ∧
    t.timer.samples = s.timer.samples ∧ t.timer.lastEdge = s.timer.lastEdge ∧ t.timer.window = s.timer.window ∧
    t.timer.mean = s.timer.mean ∧ t.timer.relockRun = s.timer.relockRun ∧ t.timer.relockReady = s.timer.relockReady ∧
    t.timer.lossTimer = s.timer.lossTimer ∧ t.timer.flyTimer = s.timer.flyTimer)

/-- SET_PERIOD stages 16, 32 or 64 while no line is ACTIVE and every tap is IDLE, is refused STATE otherwise, and
BAD_ARG for another value (R8). The timer at a boundary: the period count advances, or is 0 at boundary 0; the edge
count is 0; a staged B becomes B where no line is ACTIVE and every tap is IDLE, and else stays staged (R2, R3, R9). -/
def Obligations.PeriodSizesAreStagedAndTaken : Prop :=
  (∀ s : State, takesCommands s = true →
    ((∀ l, (s.line l).state = .free) → (∀ t, (s.tap t).state = .idle) → ∀ b : PeriodSize,
      exec (.setPeriod (whole (bytesOf 1 b.toNat))) s =
        .next (complete 0x01 .ok 0 [] { wrote 1 s with timer := { s.timer with stagedSize := some b } })) ∧
    ((∃ l, (s.line l).state = .active) ∨ (∃ t, (s.tap t).state ≠ .idle) → ∀ b : PeriodSize,
      exec (.setPeriod (whole (bytesOf 1 b.toNat))) s = .next (complete 0x01 .state 0 [] (wrote 1 s))) ∧
    (∀ x : Byte, x ≠ 16 → x ≠ 32 → x ≠ 64 →
      exec (.setPeriod (whole [x])) s = .next (complete 0x01 .badArg 0 [] (wrote 1 s)))) ∧
  (∀ (s : State) (zero : Bool),
    let t := (boundary zero s).timer
    t = { s.timer with
      period := if zero then 0 else s.timer.period + 1
      edge := 0, running := s.timer.running || zero, size := t.size, stagedSize := t.stagedSize } ∧
    (boundary zero s).store = s.store ∧ (boundary zero s).refresh = s.refresh ∧ (boundary zero s).pool = s.pool ∧
    (boundary zero s).scenes = s.scenes ∧ (boundary zero s).port = s.port ∧ (boundary zero s).faults = s.faults ∧
    (boundary zero s).notices.mask = s.notices.mask ∧
    (∀ b, s.timer.stagedSize = some b → (∀ l, (s.line l).state = .free) → (∀ n, (s.tap n).state = .idle) →
      t.size = b ∧ t.stagedSize = none) ∧
    (s.timer.stagedSize = none ∨ (∃ l, (s.line l).state = .active) ∨ (∃ n, (s.tap n).state ≠ .idle) →
      t.size = s.timer.size ∧ t.stagedSize = s.timer.stagedSize))

/-! ### The boundary event (R7) -/

/-- Each ACTIVE line is closed at a boundary other than boundary 0, WRITTEN or FILLED by its block-taken flag, its
head moves by B, its staged writer is taken and its flag is cleared; a FREE line has only its flag cleared (R13, R17
to R19). At boundary 0 and in SAFE no fill is owed; otherwise each ACTIVE line whose flag is clear owes one for the
period that ended, at the head it had, with nothing written, and the fill list is the one that stood with these put in
in ascending line order, and nothing else of it changes (R18, R21, R29). An owed fill stands on the fill list after
those of older periods and those of its own period on lower-numbered lines, and before the rest; a line that then
holds three loses the first of them, and other lines' fills stand (R21). That the older of two periods is the one
whose count lies further from the present one, modulo 2^32, is the model's reading (log 12). -/
def Obligations.BoundariesCloseLinesAndOweFills : Prop :=
  (∀ (s : State) (zero : Bool) (l : LineNo),
    let line := s.line l
    let t := (boundary zero s).line l
    (line.state = .free → t = { line with taken := false }) ∧
    (line.state = .active → zero = true → t =
      { line with taken := false, writer := line.stagedWriter.or line.writer, stagedWriter := none }) ∧
    (line.state = .active → zero = false → line.taken = true → t =
      { line with taken := false, writer := line.stagedWriter.or line.writer, stagedWriter := none, lastClose := .written,
                  gapRun := 0, head := (line.head + s.size) % line.length }) ∧
    (line.state = .active → zero = false → line.taken = false → t =
      { line with taken := false, writer := line.stagedWriter.or line.writer, stagedWriter := none, lastClose := .filled,
                  gapRun := min 65535 (line.gapRun + 1), head := (line.head + s.size) % line.length })) ∧
  (∀ (s : State) (zero : Bool),
    let owes := fun l : LineNo => (s.line l).state == .active && !(s.line l).taken
    let owed := fun l : LineNo => { period := s.timer.period, line := l, position := (s.line l).head, written := 0 : Fill }
    (zero = true ∨ s.faults.mode = .safe → (boundary zero s).fills = s.fills) ∧
    (zero = false → s.faults.mode = .normal → (boundary zero s).fills =
      ((allLines.filter owes).map owed).foldl (fun fs f => oweFill (s.timer.period + 1) f fs) s.fills)) ∧
  (∀ (now : PeriodCount) (f : Fill) (fs : List Fill),
    let before := fun g : Fill => (now - f.period).toNat < (now - g.period).toNat ∨ (g.period = f.period ∧ g.line < f.line)
    ∃ front back, fs = front ++ back ∧ (∀ g ∈ front, before g) ∧ (∀ g, back.head? = some g → ¬before g) ∧
      (∀ l, l ≠ f.line → (oweFill now f fs).filter (fun g => g.line == l) = fs.filter (fun g => g.line == l)) ∧
      ((fs.filter fun g => g.line == f.line).length ≤ 1 → oweFill now f fs = front ++ f :: back) ∧
      (2 ≤ (fs.filter fun g => g.line == f.line).length →
        (oweFill now f fs).filter (fun g => g.line == f.line) =
          ((front ++ f :: back).filter fun g => g.line == f.line).tail))

/-- A boundary, as the whole state it leaves before the claims are settled. Each link that is not OFF has its tally
fixed as the input report and emptied, and opens one OUTPUT frame of the new period behind the frames it holds; an UP
link with a clear accepted flag counts a missed period and is LOST at the eighth, with LINK_LOST raised; every
accepted flag is cleared (R56, R72, R74, R76). A pass still running and every engine still queued have their frames
end SHORT, the queued ones with their planned count and no more blocks; each is counted by its short-passes counter,
which wraps at 65536, sets its overflow flag and raises COUNTER_OVERFLOW as the flag is first set, and is raised as
OVERRUN (R73, R102, R103); then the queue is formed from the links not OFF, round from the engine after the lead, and
its first engine leads (R96). No other notice is raised and none is cleared; staging buffers, receivers and the commit
queue stand. The access in service stays in service; a cut pass's read, and the write of a fill that is owed no
longer, have lost their claimants (R34; log 10). -/
def Obligations.BoundariesReportCutAndQueue : Prop :=
  ∀ (s : State) (zero : Bool),
    let short := (s.proc.pass.map (·.engine)).toList ++ s.proc.queue
    let cut := fun (e : Engine) (f : OutFrame) =>
      if s.proc.pass.any (fun p => p.engine == e && p.period == f.period) ∧ f.state ≠ .ended then
        { f with state := .ended, endStatus := some .short }
      else f
    let given := fun (e : Engine) (f : OutFrame) =>
      if e ∈ s.proc.queue ∧ f.period = s.timer.period ∧ f.state ≠ .ended then
        { f with state := .ended, planned := (passTaps e s).length, endStatus := some .short }
      else f
    let opened := fun e : Engine =>
      if (s.link e).state = .off then []
      else [{ period := if zero then 0 else s.timer.period + 1, report := (s.link e).tally, state := .opened, planned := 0,
              blocks := [], endStatus := none : OutFrame }]
    let loses := fun e : Engine => (s.link e).state = .up ∧ (s.link e).accepted = false ∧ (s.link e).missed + 1 = 8
    let wraps := fun e : Engine => 65536 ≤ (s.link e).counters.short.count.toNat + short.count e
    let round := [s.proc.lead + 1, s.proc.lead + 2, s.proc.lead + 3, s.proc.lead]
    let queue := round.filter fun e => (s.link e).state != .off
    ∃ u, boundary zero s = settle u ∧
      u = { s with
        timer := u.timer, lines := u.lines, fills := u.fills, links := u.links, taps := u.taps, tempo := u.tempo
        oscs := u.oscs, notices := u.notices
        proc := { queue := queue, lead := queue.head?.getD s.proc.lead, pass := none }
        arbiter := { s.arbiter with
          inService :=
            s.arbiter.inService.map (Access.heldBy (fun _ _ => true) (owesFill u.fills) s.proc.pass.isNone) } } ∧
      (∀ e,
        let k := s.link e
        let off := k.state = .off
        u.link e = { k with
          state := if loses e then .lost else k.state
          missed := if k.state = .up then (if k.accepted then 0 else k.missed + 1) else k.missed
          accepted := false
          tally := if off then k.tally else { accepted := 0, refused := 0, status := .none }
          report := if off then k.report else k.tally
          counters := { k.counters with short := {
            count := k.counters.short.count + BitVec.ofNat 16 (short.count e)
            overflow := k.counters.short.overflow || decide (wraps e) } }
          tx := (k.tx.map fun f => given e (cut e f)) ++ opened e }) ∧
      u.notices.mask = s.notices.mask ∧
      ∀ i, i < 16 → (u.notices.pending.getLsbD i = true ↔
        s.notices.pending.getLsbD i = true ∨ (∃ e, loses e ∧ i = 5 + e.val) ∨ (∃ e ∈ short, i = 9 + e.val) ∨
          (i = 13 ∧ ∃ e, (s.link e).counters.short.overflow = false ∧ wraps e))

/-- The tap table and the oscillator bank take the boundary: every tap and every oscillator does its boundary work
with the Ib standing and its own part of the tempo-changed indicator, which is cleared, in either order (R108, R128,
R145). Whatever is taken between the two, the boundary's other work is the same. A SET_TEMPO or a POP_SCENE with a
tempo taken between them: the first of the two uses the old Ib and finds its part of the indicator as it stood; the
second uses the new Ib and finds its part set; and the edits a pop stages land at this boundary only if the tap table
comes second (R128, R162). That the two orders and what is taken between are the row's operand is log 4. -/
def Obligations.BoundariesMoveTapsAndOscillators : Prop :=
  (∀ (s : State) (order : EdgeOrder) (zero : Bool),
    let plain := boundary zero s
    let t := boundaryAround order zero s
    (order.between = [] → t = plain) ∧
    t = { plain with taps := t.taps, oscs := t.oscs, tempo := t.tempo, scenes := t.scenes, port := t.port
                     notices := t.notices } ∧
    (∀ n, plain.tap n = (s.tap n).boundary plain.size s.tempo.interval s.tempo.tapSide) ∧
    (∀ m, plain.osc m = (s.osc m).boundary plain.size s.tempo.interval s.tempo.oscSide
      (plain.timer.size != s.timer.size)) ∧
    plain.tempo = { s.tempo with tapSide := false, oscSide := false }) ∧
  (∀ (b ib : Nat) (found : Bool) (x : Tap),
    let moved := (x.advance b).completeMove
    x.boundary b ib found = ((moved.applyEdit ib).applyPending ib).followTempo ib
      (found || ((x.state == .starting || x.state == .fading) && moved.state == .running))) ∧
  (∀ (s : State) (order : EdgeOrder) (zero : Bool) (a : Adoption) (v : Nat),
    takesCommands s = true → s.tempo.source = .internal → order.between = [a] →
    (a = .setTempo (whole (bytesOf 4 v)) ∧ v < 2 ^ 32) ∨
      (a = .popScene (whole []) ∧ ∃ entry rest, s.scenes = entry :: rest ∧ entry.tempo = some v) →
    let ib := min (524288 * 256) (max (4096 * 256) v)
    s.tempo.beatPosition < ib →
    let t := boundaryAround order zero s
    let resized := t.timer.size != s.timer.size
    (order.bankFirst = false →
      (∀ n, { t.tap n with staged := none } = (s.tap n).boundary t.size s.tempo.interval s.tempo.tapSide) ∧
      (∀ m, t.osc m = (s.osc m).boundary t.size ib true resized) ∧
      t.tempo = { s.tempo with interval := ib, tapSide := true, oscSide := false }) ∧
    (order.bankFirst = true →
      (∀ m, t.osc m = (s.osc m).boundary t.size s.tempo.interval s.tempo.oscSide resized) ∧
      (∀ n, ∃ staged, t.tap n = ({ s.tap n with staged := staged } : Tap).boundary t.size ib true ∧
        (a = .setTempo (whole (bytesOf 4 v)) → staged = (s.tap n).staged) ∧
        ∀ entry rest, a = .popScene (whole []) → s.scenes = entry :: rest →
          let want := entry.sets[n.val]
          (want.alike (s.tap n).nextSet = true → staged = (s.tap n).staged) ∧
          (want.alike (s.tap n).nextSet = false → want.run = false → staged = some .stop)) ∧
      t.tempo = { s.tempo with interval := ib, tapSide := false, oscSide := true }))

/-! ### Delay lines and the page pool (02, 03) -/

/-- ALLOC_LINE: refused BAD_ARG for an argument out of range and STATE for an ACTIVE line; taken at once from the head
of the free list where it holds enough; refused NO_SPACE where the reachable count is too small, with POOL_EXHAUSTED
while pages are dirty; and else made to wait with the mailbox HELD (R14, R15, R48). -/
def Obligations.AllocLineTakesPagesOrWaits : Prop :=
  ∀ s : State, takesCommands s = true →
    (∀ l w n1 n0 : Byte, 127 < l.toNat ∨ 3 < w.toNat ∨ n1.toNat * 256 + n0.toNat < 1 ∨ 256 < n1.toNat * 256 + n0.toNat →
      exec (.allocLine (whole [l, w, n1, n0])) s = .next (complete 0x10 .badArg 0 [] (wrote 4 s))) ∧
    ∀ (l : LineNo) (e : Engine) (n : Nat), 1 ≤ n → n ≤ 256 →
      let line := s.line l
      let taken := exec (.allocLine (whole (bytesOf 1 l.val ++ bytesOf 1 e.val ++ bytesOf 2 n))) s
      let reachable := s.pool.free.length + s.pool.dirty.length + (if s.pool.walker.isSome then 1 else 0)
      (line.state = .active → taken = .next (complete 0x10 .state 0 [] (wrote 4 s))) ∧
      (line.state = .free → n ≤ s.pool.free.length →
        let granted := (wrote 4 s).setLine l
          { state := .active, generation := line.generation + 1, writer := some e, stagedWriter := none,
            pages := s.pool.free.take n, head := 0, taken := line.taken, gapRun := 0, lastClose := .written }
        taken = .next (complete 0x10 .ok 0 ((line.generation + 1) :: bytesOf 2 n)
          { granted with pool := { s.pool with free := s.pool.free.drop n } })) ∧
      (line.state = .free → s.pool.free.length < n → reachable < n →
        taken = .next (complete 0x10 .noSpace 0 []
          (if s.pool.dirty = [] ∧ s.pool.walker = none then wrote 4 s else raise .poolExhausted (wrote 4 s)))) ∧
      (line.state = .free → s.pool.free.length < n → n ≤ reachable →
        taken = .next { wrote 4 s with
          port := { (wrote 4 s).port with mailbox := .held 0x10 }
          pool := { s.pool with waiting := some { line := l, writer := e, count := n } } })

/-- FREE_LINE is refused IN_USE with the lowest-numbered tap that names the line, and STATE for a FREE line; otherwise
the line is FREE, with its generation and its flag kept, its pages are at the dirty queue's tail in page-list order,
its fills are withdrawn, and every other line stands (R26, R51); a write of the line in service completes, its
commit's or its fill's no longer (R25, R34; log 10), and the claims are settled. A tap names a line through its
current set while it is not IDLE, its old side, its pending target, or a staged start or preset (R26). SET_WRITER
stages a writer for an ACTIVE line, replacing any staged; a FREE line is refused STATE (R20). -/
def Obligations.LinesAreFreedAndChangeWriter : Prop :=
  (∀ (l : LineNo) (t : Tap), t.names l = true ↔
    (t.state ≠ .idle ∧ t.current.line = l) ∨ (∃ o, t.oldSide = some o ∧ o.line = l) ∨
    (∃ p, t.pendingTarget = some p ∧ p.line = l) ∨
    (∃ p, (t.staged = some (.start p) ∨ t.staged = some (.preset p)) ∧ p.line = l)) ∧
  (∀ (s : State) (l : LineNo), takesCommands s = true →
    let line := s.line l
    let taken := exec (.freeLine (whole [BitVec.ofNat 8 l.val])) s
    (line.state = .free → taken = .next (complete 0x11 .state 0 [] (wrote 1 s))) ∧
    (line.state = .active → ∀ t : TapNo, (s.tap t).names l = true → (∀ u : TapNo, u < t → (s.tap u).names l = false) →
      taken = .next (complete 0x11 .inUse 0 (bytesOf 2 t.val) (wrote 1 s))) ∧
    (line.state = .active → (∀ t : TapNo, (s.tap t).names l = false) →
      ∃ t, taken = .next (complete 0x11 .ok 0 [] (settle t)) ∧
        t = { wrote 1 s with
          lines := t.lines, fills := t.fills, pool := t.pool, port := t.port
          arbiter := { s.arbiter with
            inService := s.arbiter.inService.map (Access.heldBy (fun _ m => m != l) (owesFill t.fills) true) } } ∧
        t.port.collide = s.port.collide ∧ t.port.dataOut = (wrote 1 s).port.dataOut ∧
        t.line l = { state := .free, generation := line.generation, writer := none, stagedWriter := none, pages := [],
                     head := 0, taken := line.taken, gapRun := 0, lastClose := .written } ∧
        (∀ m, m ≠ l → t.line m = s.line m) ∧ t.fills = s.fills.filter (fun f => f.line != l) ∧
        (∃ walked, walked ++ t.pool.dirty = s.pool.dirty ++ line.pages ∧
          (s.pool.walker.isSome → walked = [] ∧ t.pool.walker = s.pool.walker) ∧
          (s.pool.walker = none → walked = (s.pool.dirty ++ line.pages).take 1 ∧
            t.pool.walker = walked.head?.map fun p => { page := p, phase := .clear, pointer := 0 })) ∧
        t.pool.free = s.pool.free ∧ t.pool.retired = s.pool.retired) ∧
    (∀ x : Byte, 127 < x.toNat → exec (.freeLine (whole [x])) s = .next (complete 0x11 .badArg 0 [] (wrote 1 s)))) ∧
  (∀ (s : State) (l : LineNo) (e : Engine), takesCommands s = true →
    let taken := exec (.setWriter (whole [BitVec.ofNat 8 l.val, BitVec.ofNat 8 e.val])) s
    ((s.line l).state = .active →
      taken = .next (complete 0x12 .ok 0 [] ((wrote 2 s).setLine l { s.line l with stagedWriter := some e }))) ∧
    ((s.line l).state = .free → taken = .next (complete 0x12 .state 0 [] (wrote 2 s))) ∧
    (∀ x y : Byte, 127 < x.toNat ∨ 3 < y.toNat →
      exec (.setWriter (whole [x, y])) s = .next (complete 0x12 .badArg 0 [] (wrote 2 s))))

/-- A claim of a commit or of a fill names the word of its next sample: the recorded head, or the owed position, plus
the number written, modulo L, mapped through the line's page list (R12, R22, R69); a pass's names that of its next
read (R99). A tap's reads are those of each of its readings, the old side's before the new side's, each ring position
once, in the order of the samples that need them (R93, R94). The arbiter's choice: in SAFE refresh alone; else, not
urgent, class 2 before the pass before refresh before scrub; urgent, refresh at the first choice and after an access
that was not one, and otherwise classes 2, 3 and 5 before it; within class 2 the older period first, and the commit
where both are of one period (R35, R36, R37, R38); that the older is judged modulo 2^32 is the model's reading (log
12). -/
def Obligations.TheArbiterServesTheLowestClass : Prop :=
  (∀ s : State,
    (∀ (f : QueuedFrame) (fs : List QueuedFrame) (k : KeptBlock) (ks : List KeptBlock) (page : Page),
      s.commits = f :: fs → f.blocks = k :: ks → (s.line k.line).state = .active →
      (s.line k.line).pages[(k.head + k.written) % (s.line k.line).length / 4096]? = some page →
      commitClaim s = some (f.period, .commitWrite f.engine k.line
        (page.val * 4096 + (k.head + k.written) % (s.line k.line).length % 4096) (k.samples.getD k.written 0) true)) ∧
    (∀ (f : Fill) (fs : List Fill) (page : Page), s.fills = f :: fs → (s.line f.line).state = .active →
      (s.line f.line).pages[(f.position + f.written) % (s.line f.line).length / 4096]? = some page →
      fillClaim s = some (f.period, .fillWrite f.line f.period
        (page.val * 4096 + (f.position + f.written) % (s.line f.line).length % 4096) true)) ∧
    (∀ (p : Pass) (r : ReadReq) (rs : List ReadReq) (page : Page), s.proc.pass = some p → p.todo = r :: rs →
      (s.line r.line).state = .active →
      (s.line r.line).pages[r.position % (s.line r.line).length / 4096]? = some page →
      passClaim s = some (.passRead r.line p.engine (page.val * 4096 + r.position % (s.line r.line).length % 4096) true)) ∧
    (s.proc.pass = none → passClaim s = none)) ∧
  (∀ (s : State) (t : Tap),
    let reads := fun (side : Nat) (r : Reading) =>
      (r.needs s s.timer.period).map fun q => { side := side, line := r.line, position := q : ReadReq }
    (∀ r, tapReadings s t = [r] → tapReads s s.timer.period t = reads 0 r) ∧
    (∀ r u, tapReadings s t = [r, u] → tapReads s s.timer.period t = reads 0 r ++ reads 1 u)) ∧
  (∀ (s : State) (r : Reading),
    let line := s.line r.line
    let sampleReads := fun i : Nat => sampleNeeds r.interp line.length (r.positionAt s.size line.head line.length i)
    let needs := r.needs s s.timer.period
    needs.Nodup ∧ (∀ q, q ∈ needs ↔ ∃ i, i < s.size ∧ q ∈ sampleReads i) ∧
    ∀ i, i ≤ s.size → ∃ n, ∀ q, q ∈ needs.take n ↔ ∃ j, j < i ∧ q ∈ sampleReads j) ∧
  (∀ s : State,
    let refresh := if s.refresh.backlog = 0 then none else some Access.refresh
    let scrub := if s.pool.walker.isSome then some Access.scrub else none
    (s.faults.mode = .safe → chooseClaim s = refresh) ∧
    (s.faults.mode = .normal → s.refresh.urgent = false →
      chooseClaim s = (class2Claim s).or ((passClaim s).or (refresh.or scrub))) ∧
    (s.faults.mode = .normal → s.refresh.urgent = true → s.arbiter.urgentFirst = true ∨ s.arbiter.lastRefresh = false →
      chooseClaim s = refresh.or ((class2Claim s).or ((passClaim s).or scrub))) ∧
    (s.faults.mode = .normal → s.refresh.urgent = true → s.arbiter.urgentFirst = false → s.arbiter.lastRefresh = true →
      chooseClaim s = (class2Claim s).or ((passClaim s).or (scrub.or refresh))) ∧
    (∀ p q a b, commitClaim s = some (p, a) → fillClaim s = some (q, b) →
      class2Claim s = some (if (s.timer.period - p).toNat < (s.timer.period - q).toNat then b else a)) ∧
    (∀ p a, commitClaim s = some (p, a) → fillClaim s = none → class2Claim s = some a) ∧
    (∀ q b, commitClaim s = none → fillClaim s = some (q, b) → class2Claim s = some b))

/-- What follows every event that may change the claims. Frames leave the head of the commit queue while every block
of theirs is written or its line has gone, and their staging buffers are free; the head frame that stays begins with a
block that is not over (R25, R68, R69); that a dead block and its buffer go at the event itself, before the commit's
turn, is the model's reading (log 13). The oldest period not yet closed is the oldest of the current one and of those
that a queued frame or an owed fill belongs to (R24), a period's age being taken modulo 2^32 (log 12). An idle arbiter
serves its choice at once, and one with an access in service goes on with it (R34); a choice served ends the first
choice of R36. Nothing else changes. -/
def Obligations.SettlingDrainsClosesAndServes : Prop :=
  ∀ s : State,
    let t := settle s
    let finished := fun k : KeptBlock => ¬((s.line k.line).state = .active ∧ (s.line k.line).generation = k.generation) ∨
      s.size ≤ k.written
    let waiting := t.commits.map (·.period) ++ s.fills.map (·.period)
    t = { s with arbiter := t.arbiter, links := t.links, commits := t.commits, oldestOpen := t.oldestOpen } ∧
    (∃ gone kept : List QueuedFrame, s.commits = gone ++ kept ∧ (∀ f ∈ gone, ∀ k ∈ f.blocks, finished k) ∧
      ((kept = [] ∧ t.commits = []) ∨
        ∃ f rest dropped k more, kept = f :: rest ∧ f.blocks = dropped ++ k :: more ∧
          (∀ d ∈ dropped, finished d) ∧ ¬finished k ∧ t.commits = { f with blocks := k :: more } :: rest) ∧
      ∀ e, t.link e = { s.link e with buffers := (t.link e).buffers } ∧
        ∀ b : Fin 2, ((∃ f ∈ gone, f.engine = e ∧ f.buffer = b) → (t.link e).buffers[b.val] = .free) ∧
          ((∀ f ∈ gone, ¬(f.engine = e ∧ f.buffer = b)) → (t.link e).buffers[b.val] = (s.link e).buffers[b.val])) ∧
    (t.oldestOpen = s.timer.period ∨ t.oldestOpen ∈ waiting) ∧
    (∀ p ∈ waiting, (s.timer.period - p).toNat ≤ (s.timer.period - t.oldestOpen).toNat) ∧
    (s.arbiter.inService.isSome → t.arbiter = s.arbiter) ∧
    (s.arbiter.inService = none → t.arbiter =
      match chooseClaim { t with arbiter := s.arbiter } with
      | none => s.arbiter
      | some a => { s.arbiter with inService := some a, urgentFirst := false })

/-- The refresh timer's expiry advances a backlog below 8, which is urgent from 4 on; at 8 it raises a REFRESH fault
that names the row at the row pointer (R36, R39, R41). A refresh access advances the row pointer, wrapping after 8191,
takes one from the backlog, is no longer urgent at 0, and changes no word (R31, R40). -/
def Obligations.RefreshKeepsItsBacklog : Prop :=
  ∀ s : State,
    (s.refresh.timerArmed = true → s.refresh.backlog < 8 →
      ∃ t, exec .refreshTimerExpiry s = .next (settle t) ∧
        t = { s with
          refresh := { s.refresh with
            backlog := s.refresh.backlog + 1, urgent := s.refresh.urgent || decide (4 ≤ s.refresh.backlog + 1) }
          arbiter := { s.arbiter with urgentFirst :=
            s.arbiter.urgentFirst || (!s.refresh.urgent && decide (4 ≤ s.refresh.backlog + 1)) } }) ∧
    (s.refresh.timerArmed = true → 8 ≤ s.refresh.backlog →
      ∃ entry, exec .refreshTimerExpiry s = .next (settle (storeFault entry false s)) ∧ entry.kind = .refresh ∧
        entry.page.val = s.refresh.row / 2 % 4096 ∧ entry.offset = s.refresh.row % 2 * 2048 ∧ entry.engine = none ∧
        entry.line = lineHolding s entry.page) ∧
    (s.arbiter.inService = some .refresh →
      exec .refreshAccessComplete s = .next (settle { s with
        refresh := { s.refresh with
          row := (s.refresh.row + 1) % 8192, backlog := s.refresh.backlog - 1
          urgent := s.refresh.urgent && decide (s.refresh.backlog - 1 ≠ 0) }
        arbiter := { s.arbiter with inService := none, lastRefresh := true } }))

/-- A CLEAR write stores zero at the walker's pointer, and no other word changes; after the 4096th the page is in
VERIFY with the pointer at 0 (R31, R44). A VERIFY read passes on a zero, clean or corrected, and moves on; the last of
a page sends the page to the free list's tail, and in NORMAL the walker takes the next dirty page (R43, R45). A
non-zero or uncorrectable word fails its page at once: a VERIFY fault is taken with the page and the offset, and the
page joins the retired set in its place by page number, or with 64 retired the dirty queue's tail with the RETIRE_FULL
note (R31, R45, R46). An allocation goes on waiting through a VERIFY that neither brings the free list to its count
nor leaves the reachable count below it (R49, R50); a fourth fault enters SAFE. In SAFE, where a VERIFY read can
complete that was in service at the entry, one that passes moves on and the walker takes no page, and a failing one
takes no fault and the walker keeps its page at its pointer: the model's reading of R47 and R186 (log 11). -/
def Obligations.ScrubClearsAndVerifiesWordByWord : Prop :=
  (∀ (s : State) (k : Walk), s.store.cells.wf = true → s.arbiter.inService = some .scrub → s.pool.walker = some k →
    k.phase = .clear →
    let next : Walk :=
      if k.pointer + 1 < 4096 then { k with pointer := k.pointer + 1 }
      else { page := k.page, phase := .verify, pointer := 0 }
    ∃ t, exec .scrubClearWriteComplete s = .next (settle t) ∧
      t = { s with
        store := t.store, arbiter := { s.arbiter with inService := none, lastRefresh := false }
        pool := { s.pool with walker := some next } } ∧
      t.store.cells.read (k.page.val * 4096 + k.pointer) = { sample := 0, integrity := .sound } ∧
      (∀ a, a ≠ k.page.val * 4096 + k.pointer → t.store.cells.read a = s.store.cells.read a) ∧
      t.store.corrected = s.store.corrected) ∧
  (∀ (s : State) (k : Walk) (upset : Upset), s.arbiter.inService = some .scrub → s.pool.walker = some k →
    k.phase = .verify →
    let w := k.page.val * 4096 + k.pointer
    let passes := (∃ v, readOutcome w upset s = .clean v ∧ v = 0) ∨ (∃ v, readOutcome w upset s = .corrected v ∧ v = 0)
    let read := { s with
      store := (storeRead w upset s).store, arbiter := { s.arbiter with inService := none, lastRefresh := false } }
    let completed := exec (.scrubVerifyReadComplete upset) s
    let entry : FaultEntry := { kind := .verify, page := k.page, offset := k.pointer, line := none, engine := none }
    let retiring := { s.pool with
      retired := s.pool.retired.takeWhile (· < k.page) ++ k.page :: s.pool.retired.dropWhile (· < k.page)
      walker := none }
    let returning := { s.pool with dirty := s.pool.dirty ++ [k.page], walker := none }
    let onward := fun pool : Pool => { pool with
      walker := pool.dirty.head?.map fun p => { page := p, phase := .clear, pointer := 0 }, dirty := pool.dirty.tail }
    let faulted := fun (pool : Pool) (full : Bool) =>
      raise .storeFault { read with pool := pool, faults := s.faults.record entry full }
    (passes → k.pointer + 1 < 4096 → completed = .next (settle { read with
      pool := { s.pool with walker := some { k with pointer := k.pointer + 1 } } })) ∧
    (passes → 4096 ≤ k.pointer + 1 → (∀ x, s.pool.waiting = some x → s.pool.free.length + 1 < x.count) →
      let passed := { s.pool with free := s.pool.free ++ [k.page], walker := none }
      (s.faults.mode = .normal → completed = .next (settle { read with pool := onward passed })) ∧
      (s.faults.mode = .safe → completed = .next (settle { read with pool := passed }))) ∧
    (¬passes → s.faults.mode = .safe → completed = .next (settle read)) ∧
    (¬passes → s.faults.mode = .normal → s.faults.level < 3 → s.pool.retired.length < 64 →
      (∀ x, s.pool.waiting = some x → x.count ≤ s.pool.free.length + s.pool.dirty.length) →
      completed = .next (settle (faulted (onward retiring) false))) ∧
    (¬passes → s.faults.mode = .normal → s.faults.level < 3 → 64 ≤ s.pool.retired.length →
      completed = .next (settle (faulted (onward returning) true))) ∧
    (¬passes → s.faults.mode = .normal → 3 ≤ s.faults.level → s.pool.retired.length < 64 →
      completed = .next (settle (storeFault entry false { read with pool := retiring }))) ∧
    (¬passes → s.faults.mode = .normal → 3 ≤ s.faults.level → 64 ≤ s.pool.retired.length →
      completed = .next (settle (storeFault entry true { read with pool := returning }))))

/-- A waiting allocation completes at the VERIFY that brings the free list to its count: the line is ACTIVE with the
pages at the list's head, and the mailbox DONE with the result (R15, R49). It ends NO_SPACE at the failing VERIFY that
retires a page and leaves the reachable count below its count, with POOL_EXHAUSTED while the dirty queue is not empty
(R50); that VERIFY is a store fault as any other: it is recorded with its page and offset, and STORE_FAULT is raised
(R46). After either, the walker takes the head of the dirty queue, in CLEAR (R43), and nothing else has changed. That
the rows ALLOC_COMPLETE and ALLOC_NO_SPACE take the same change as SCRUB_VERIFY_READ_COMPLETE is log 14. -/
def Obligations.WaitingAllocationsEnd : Prop :=
  ∀ (s : State) (k : Walk) (upset : Upset) (x : Waiting), s.arbiter.inService = some .scrub → s.pool.walker = some k →
    k.phase = .verify → s.pool.waiting = some x → s.faults.mode = .normal →
    let w := k.page.val * 4096 + k.pointer
    let passes := (∃ v, readOutcome w upset s = .clean v ∧ v = 0) ∨ (∃ v, readOutcome w upset s = .corrected v ∧ v = 0)
    let old := s.line x.line
    let free := s.pool.free ++ [k.page]
    let read := { s with
      store := (storeRead w upset s).store, arbiter := { s.arbiter with inService := none, lastRefresh := false } }
    let ended : Pool := { s.pool with
      walker := s.pool.dirty.head?.map fun p => { page := p, phase := .clear, pointer := 0 }
      dirty := s.pool.dirty.tail, waiting := none }
    let entry : FaultEntry := { kind := .verify, page := k.page, offset := k.pointer, line := none, engine := none }
    (passes → k.pointer = 4095 → x.count ≤ s.pool.free.length + 1 →
      let granted : Line :=
        { state := .active, generation := old.generation + 1, writer := some x.writer, stagedWriter := none,
          pages := free.take x.count, head := 0, taken := old.taken, gapRun := 0, lastClose := .written }
      let t := complete 0x10 .ok 0 ((old.generation + 1) :: bytesOf 2 x.count)
        { read.setLine x.line granted with pool := { ended with free := free.drop x.count } }
      exec (.allocComplete upset) s = .next (settle t) ∧ exec (.scrubVerifyReadComplete upset) s = .next (settle t)) ∧
    (¬passes → s.pool.retired.length < 64 → s.faults.level < 3 → s.pool.free.length + s.pool.dirty.length < x.count →
      let retired := s.pool.retired.takeWhile (· < k.page) ++ k.page :: s.pool.retired.dropWhile (· < k.page)
      let faulted := raise .storeFault
        { read with pool := { ended with retired := retired }, faults := s.faults.record entry false }
      let t := complete 0x10 .noSpace 0 [] (if s.pool.dirty = [] then faulted else raise .poolExhausted faulted)
      exec (.allocNoSpace upset) s = .next (settle t) ∧ exec (.scrubVerifyReadComplete upset) s = .next (settle t))

/-- The outcome of a store read: a sound word reads clean, one wrong bit is corrected and counted up to 65535, two
wrong bits read as zero (R31, R32), and so do three or more where the operand says so, as which else they may read
being the model's choice (log 8); the word keeps its wrong bits and no other word changes. A commit's or a fill's
write stores one sample with fresh check bits in the word in service and no other word, raises no fault and changes no
count. While its claimant stands, its commit or its owed fill advances by one, and the fill that reaches B leaves the
list; nothing else on the fill list changes, and where the claimant has withdrawn nothing there changes at all (R22,
R34, R69; log 10). -/
def Obligations.StoreAccessesReadAndWriteOneWord : Prop :=
  (∀ (s : State) (w : Nat) (upset : Upset), s.store.cells.wf = true →
    let cell := (s.store.cells.read w).upset upset
    let t := storeRead w upset s
    (cell.integrity = .sound → readOutcome w upset s = .clean cell.sample ∧ t.store.corrected = s.store.corrected) ∧
    (cell.integrity = .oneWrong → readOutcome w upset s = .corrected cell.sample ∧
      t.store.corrected = min 65535 (s.store.corrected + 1)) ∧
    (cell.integrity = .manyWrong → readOutcome w upset s = .uncorrectable ∧
      (readOutcome w upset s).sample = 0 ∧ t.store.corrected = s.store.corrected) ∧
    t.store.cells.read w = cell ∧ (∀ a, a ≠ w → t.store.cells.read a = s.store.cells.read a) ∧
    t = { s with store := t.store } ∧ (upset = .untouched → cell = s.store.cells.read w)) ∧
  (∀ s : State, s.store.cells.wf = true →
    (∀ e l w v live, s.arbiter.inService = some (.commitWrite e l w v live) →
      ∃ t u, exec .commitWriteComplete s = .next (settle t) ∧
        t = { s with store := t.store, arbiter := { s.arbiter with inService := none, lastRefresh := false }, commits := u } ∧
        (live = false → u = s.commits) ∧
        (live = true → ∀ f fs k ks, s.commits = f :: fs → f.blocks = k :: ks →
          u = { f with blocks := { k with written := k.written + 1 } :: ks } :: fs) ∧
        t.store.corrected = s.store.corrected ∧ t.store.cells.read w = { sample := v, integrity := .sound } ∧
        (∀ a, a ≠ w → t.store.cells.read a = s.store.cells.read a) ∧ (settle t).store = t.store) ∧
    (∀ l p w live, s.arbiter.inService = some (.fillWrite l p w live) →
      ∃ t, exec .fillWriteComplete s = .next (settle t) ∧
        t = { s with store := t.store, arbiter := { s.arbiter with inService := none, lastRefresh := false },
                     fills := t.fills } ∧
        (live = false → t.fills = s.fills) ∧
        (live = true → t.fills = s.fills.filterMap fun f =>
          if f.line = l ∧ f.period = p then
            if f.written + 1 < s.size then some { f with written := f.written + 1 } else none
          else some f) ∧
        t.store.corrected = s.store.corrected ∧ t.store.cells.read w = { sample := 0, integrity := .sound } ∧
        (∀ a, a ≠ w → t.store.cells.read a = s.store.cells.read a) ∧ (settle t).store = t.store))

/-! ### Engine links (04) -/

/-- SET_LINK: refused BAD_ARG for an engine above 3 or a setting above 1; off for a link that is OFF and on for one
that is not change nothing; on makes an OFF link DOWN with an idle receiver (R57). SET_LINK off for a link that is not
OFF (R57, R70, R75, R104): the link record is cleared but for its counters and its report, its frames leave the commit
queue, each of their blocks not fully written and still standing is owed a fill, and its pass and its place in the
pass queue go. The access in service stays in service, and is no longer the link's commit's or pass's, nor that of a
fill owed no longer (R34; log 10). Every OUTPUT frame held ends ABORT; how many blocks of the first are on the lane is
a free value (log 15). -/
def Obligations.SetLinkSwitchesALink : Prop :=
  (∀ s : State, takesCommands s = true →
    (∀ x y : Byte, 3 < x.toNat ∨ 1 < y.toNat → exec (.setLink (whole [x, y])) s = .next (complete 0x20 .badArg 0 [] (wrote 2 s))) ∧
    ∀ e : Engine,
      let k := s.link e
      let taken := fun y : Byte => exec (.setLink (whole [BitVec.ofNat 8 e.val, y])) s
      (k.state = .off → taken 0 = .next (complete 0x20 .ok 0 [] (wrote 2 s))) ∧
      (k.state ≠ .off → taken 1 = .next (complete 0x20 .ok 0 [] (wrote 2 s))) ∧
      (k.state = .off → taken 1 = .next (complete 0x20 .ok 0 [] ((wrote 2 s).setLink e { k with
        state := .down, missed := 0, receiver := .hunt, buffers := Vector.replicate 2 .free
        tally := { accepted := 0, refused := 0, status := .none } })))) ∧
  (∀ (s : State) (e : Engine), takesCommands s = true → (s.link e).state ≠ .off →
    ∃ (u : State) (onLane : Nat),
      exec (.setLink (whole [BitVec.ofNat 8 e.val, 0])) s = .next (complete 0x20 .ok 0 [] (settle u)) ∧
      u.arbiter = { s.arbiter with
        inService := s.arbiter.inService.map
          (Access.heldBy (fun d _ => d != e) (owesFill u.fills) ((s.proc.pass.map (·.engine)) != some e)) } ∧
      u = { wrote 2 s with arbiter := u.arbiter, fills := u.fills, commits := s.commits.filter (fun f => f.engine != e),
                           links := u.links, proc := u.proc, freeIx := u.freeIx, port := u.port } ∧
      u.port.collide = s.port.collide ∧ u.port.dataOut = (wrote 2 s).port.dataOut ∧
      (∀ d, d ≠ e → u.link d = s.link d) ∧
      u.link e = { s.link e with
        state := .off, missed := 0, accepted := false, receiver := .hunt, buffers := Vector.replicate 2 .free
        tally := { accepted := 0, refused := 0, status := .none }, tx := (u.link e).tx } ∧
      (u.link e).tx.length = (s.link e).tx.length ∧
      (∀ (i : Nat) (f : OutFrame), (s.link e).tx[i]? = some f →
        (f.state = .ended → (u.link e).tx[i]? = some f) ∧
        (f.state = .opened → (u.link e).tx[i]? =
          some { f with state := .ended, planned := 0, blocks := [], endStatus := some .abort }) ∧
        (f.state = .sending → (u.link e).tx[i]? =
          some { f with state := .ended, blocks := f.blocks.take (if i = 0 then onLane else 0), endStatus := some .abort })) ∧
      u.proc.queue = s.proc.queue.filter (· != e) ∧ u.proc.lead = s.proc.lead ∧
      u.proc.pass = (if (s.proc.pass.map (·.engine)) = some e then none else s.proc.pass) ∧
      u.fills = (owedForFrames e s).foldl (fun fs f => oweFill s.timer.period f fs) s.fills ∧
      ∀ x : Fill, x ∈ owedForFrames e s ↔ s.faults.mode = .normal ∧ ∃ f ∈ s.commits, f.engine = e ∧ ∃ k ∈ f.blocks,
        (s.line k.line).state = .active ∧ (s.line k.line).generation = k.generation ∧ k.written < s.size ∧
        x = { period := f.period, line := k.line, position := k.head, written := 0 })

/-- The receiver (R58, R59): an open mark in HUNT takes the lower-numbered free buffer with the window at B, or
records NO_BUFFER; in RECEIVING it abandons the frame BAD_FRAME and begins another in the same buffer; an OFF link
ignores it. A data byte joins the buffer, up to the largest legal size, and past it marks the frame overlong; in HUNT
it is ignored. The receive window counts down by one at each sample edge, and with its last count the frame times out:
the buffer is free, TIMEOUT is recorded and the receiver hunts (R60). The row of its own takes the same change when
one count or none is left (log 14). -/
def Obligations.ReceiversGatherFramesAndTimeOut : Prop :=
  (∀ (s : State) (e : Engine),
    let k := s.link e
    let opened := exec (.openMark e) s
    let began := fun (i : Fin 2) => { k with
      buffers := k.buffers.set i.val (.receiving [] false), receiver := .receiving i s.size }
    (k.state = .off → opened = .next s) ∧
    (k.state ≠ .off → k.receiver = .hunt → k.buffers[0] = .free → opened = .next (s.setLink e (began 0))) ∧
    (k.state ≠ .off → k.receiver = .hunt → k.buffers[0] ≠ .free → k.buffers[1] = .free →
      opened = .next (s.setLink e (began 1))) ∧
    (k.state ≠ .off → k.receiver = .hunt → k.buffers[0] ≠ .free → k.buffers[1] ≠ .free →
      opened = .next (s.setLink e { k with tally := { k.tally with status := .noBuffer } })) ∧
    (∀ i w, k.state ≠ .off → k.receiver = .receiving i w →
      opened = .next (s.setLink e { began i with tally := { k.tally with status := .badFrame } })) ∧
    (∀ x : Byte, k.receiver = .hunt → exec (.dataByte e x) s = .next s) ∧
    (∀ i w bytes overlong, ∀ x : Byte, k.receiver = .receiving i w → k.buffers[i.val] = .receiving bytes overlong →
      (bytes.length < 6 + 64 * (2 + 3 * s.size) → exec (.dataByte e x) s =
        .next (s.setLink e { k with buffers := k.buffers.set i.val (.receiving (bytes ++ [x]) overlong) })) ∧
      (6 + 64 * (2 + 3 * s.size) ≤ bytes.length → exec (.dataByte e x) s =
        .next (s.setLink e { k with buffers := k.buffers.set i.val (.receiving bytes true) })))) ∧
  (∀ (s : State) (e : Engine),
    let k := s.link e
    (k.receiver = .hunt → k.edge = k ∧ exec (.receiveTimeout e) s = .next s) ∧
    (∀ i w, k.receiver = .receiving i w →
      let gone := { k with
        receiver := .hunt, buffers := k.buffers.set i.val .free, tally := { k.tally with status := .timeout } }
      (2 ≤ w → k.edge = { k with receiver := .receiving i (w - 1) }) ∧
      (w ≤ 1 → k.edge = gone ∧ exec (.receiveTimeout e) s = .next (s.setLink e gone))))

/-- At a close mark a frame is refused by the first of the six tests it fails, which records its status, advances the
late or the check counter, raising COUNTER_OVERFLOW as the flag is first set, and frees the buffer; nothing else
changes. In HUNT a close mark is ignored (R58, R59, R62, R63, R73, R190). -/
def Obligations.FramesAreRefusedByTheFirstFailingTest : Prop :=
  ∀ (s : State) (e : Engine),
    let k := s.link e
    let c := k.counters
    let closed := exec (.inputFrame e) s
    (k.receiver = .hunt → closed = .next s) ∧
    ∀ i w bytes overlong, k.receiver = .receiving i w → k.buffers[i.val] = .receiving bytes overlong →
      let byte := fun n => (bytes.getD n 0).toNat
      let test1 := 6 ≤ bytes.length ∧ overlong = false
      let test2 := natOfBytes (bytes.drop (bytes.length - 2)) = (crc16 (bytes.take (bytes.length - 2))).toNat
      let test3 := byte 0 = 1 ∧ byte 1 = e.val ∧ byte 3 ≤ 64 ∧ bytes.length = 6 + byte 3 * (2 + 3 * s.size)
      let test4 := s.timer.running = true
      let test5 := byte 2 = s.timer.period.toNat % 256
      let gone := fun (status : InputStatus) (counters : Counters) => s.setLink e { k with
        receiver := .hunt, buffers := k.buffers.set i.val .free, tally := { k.tally with status := status }
        counters := counters }
      let plusOne := fun x : Counter =>
        { x with count := x.count + 1, overflow := x.overflow || decide (x.count = 0xFFFF) : Counter }
      let first := fun x : Counter => x.overflow = false ∧ x.count = 0xFFFF
      (¬test1 → closed = .next (gone .badFrame c)) ∧
      (test1 → ¬test2 → closed = .next
        (if first c.check then raise .counterOverflow (gone .check { c with check := plusOne c.check })
          else gone .check { c with check := plusOne c.check })) ∧
      (test1 → test2 → ¬test3 → closed = .next (gone .badFrame c)) ∧
      (test1 → test2 → test3 → ¬test4 → closed = .next (gone .noClock c)) ∧
      (test1 → test2 → test3 → test4 → ¬test5 → closed = .next
        (if first c.late then raise .counterOverflow (gone .late { c with late := plusOne c.late })
          else gone .late { c with late := plusOne c.late })) ∧
      (test1 → test2 → test3 → test4 → test5 → k.accepted = true → closed = .next (gone .repeated c))

/-- A frame that passes the six tests is accepted (R55, R64 to R67): the link is UP and its accepted flag set; a block
is kept when its line is an ACTIVE one of this writer that no earlier block of the frame names and that has taken no
block; a kept block records the line's generation and head, and its line's flag is set; the tally and the refused
counter take the counts; and the frame joins the commit queue's tail, or, with no block kept or in SAFE, its buffer is
free. -/
def Obligations.AcceptedFramesKeepTheirBlocks : Prop :=
  ∀ (s : State) (e : Engine) (i : Fin 2) (w : Nat) (bytes : List Byte),
    let k := s.link e
    let n := (bytes.getD 3 0).toNat
    k.receiver = .receiving i w → k.buffers[i.val] = .receiving bytes false →
    bytes.length = 6 + n * (2 + 3 * s.size) → n ≤ 64 → (bytes.getD 0 0).toNat = 1 → (bytes.getD 1 0).toNat = e.val →
    natOfBytes (bytes.drop (bytes.length - 2)) = (crc16 (bytes.take (bytes.length - 2))).toNat →
    s.timer.running = true → (bytes.getD 2 0).toNat = s.timer.period.toNat % 256 → k.accepted = false →
    let lineByte := fun j => (bytes.getD (4 + j * (2 + 3 * s.size)) 0).toNat
    let line := fun j => s.line (Fin.ofNat 128 (lineByte j))
    let keeps := fun j => decide (lineByte j ≤ 127 ∧ (line j).state = .active ∧ (line j).writer = some e ∧
      (∀ m, m < j → lineByte m ≠ lineByte j) ∧ (line j).taken = false)
    let sample := fun j m : Nat =>
      let at' := fun x => (bytes.getD (4 + j * (2 + 3 * s.size) + 2 + 3 * m + x) 0).toNat
      BitVec.ofNat 24 (at' 0 * 65536 + at' 1 * 256 + at' 2)
    let kept := (List.range n).filter keeps
    let refused := n - kept.length
    let queued := kept ≠ [] ∧ s.faults.mode = .normal
    ∃ t, exec (.inputFrame e) s = .next (settle t) ∧
      t = { s with lines := t.lines, links := t.links, commits := t.commits, notices := t.notices } ∧
      (∀ d, d ≠ e → t.link d = s.link d) ∧
      t.link e = { k with
        state := .up, missed := 0, accepted := true, receiver := .hunt
        buffers := k.buffers.set i.val (if queued then .queued else .free)
        tally := { accepted := k.tally.accepted + kept.length, refused := k.tally.refused + refused, status := .ok }
        counters := { k.counters with refused :=
          { count := k.counters.refused.count + BitVec.ofNat 16 refused
            overflow := k.counters.refused.overflow || decide (65536 ≤ k.counters.refused.count.toNat + refused) } } } ∧
      (∀ l, t.line l = { s.line l with
        taken := (s.line l).taken || kept.any fun j => Fin.ofNat 128 (lineByte j) == l }) ∧
      t.commits = s.commits ++ (if queued then
        [{ engine := e, period := s.timer.period, buffer := i, blocks := kept.map fun j =>
            { line := Fin.ofNat 128 (lineByte j), generation := (line j).generation, head := (line j).head
              samples := (List.range s.size).map (sample j), written := 0 } }] else []) ∧
      t.notices = (if k.counters.refused.overflow = false ∧ 65536 ≤ k.counters.refused.count.toNat + refused then
        s.notices.raise .counterOverflow else s.notices)

/-- The first frame a transmitter holds, once ENDED, is held no longer as its close mark leaves the lane (R74). That
with none held, or a first one that has not ended, nothing changes is the model's choice (log 2). Its bytes are those
of R190 and R191, 13 + s × (3 + 3B) of them; the model shows them in a field of its own (log 24). A block's
flags byte holds CLAMPED, FADING, GAP, FAULT and MUTED in bits 0 to 4, and zeros above (R190). The CRC-16
register starts at 0xFFFF and takes the covered bytes in order and each byte's bits from 7 to 0: at each bit it shifts
one place toward bit 15 and, where bit 15 and the data bit differed, is combined by exclusive-or with 0x8005 (R192).
-/
def Obligations.EndedFramesLeaveTheLane : Prop :=
  (let shift := fun (reg : BitVec 16) (bit : Bool) =>
      if reg.getLsbD 15 ^^ bit then (reg <<< 1) ^^^ 0x8005#16 else reg <<< 1;
    crc16 [] = 0xFFFF#16 ∧ ∀ (covered : List Byte) (b : Byte), crc16 (covered ++ [b]) =
      ([7, 6, 5, 4, 3, 2, 1, 0].map b.getLsbD).foldl shift (crc16 covered)) ∧
  (∀ g : BlockFlags, g.byte.getLsbD 0 = g.clamped ∧ g.byte.getLsbD 1 = g.fading ∧ g.byte.getLsbD 2 = g.gap ∧
    g.byte.getLsbD 3 = g.fault ∧ g.byte.getLsbD 4 = g.muted ∧ g.byte.toNat < 32) ∧
  (∀ (s : State) (e : Engine),
    (∀ f rest, (s.link e).tx = f :: rest → f.state = .ended →
      exec (.closeMarkLeavesLane e) s = .next (s.setLink e { s.link e with tx := rest, laneOut := f.bytes e })) ∧
    (∀ f rest, (s.link e).tx = f :: rest → f.state ≠ .ended → exec (.closeMarkLeavesLane e) s = .next s) ∧
    ((s.link e).tx = [] → exec (.closeMarkLeavesLane e) s = .next s)) ∧
  (∀ (f : OutFrame) (e : Engine) (status : EndStatus) (b : Nat), f.endStatus = some status →
    (∀ x ∈ f.blocks, x.samples.length = b) →
    ∃ body, f.bytes e = body ++ bytesOf 2 (crc16 body).toNat ∧
      body = [0x81, BitVec.ofNat 8 e.val, f.period.setWidth 8, BitVec.ofNat 8 f.report.accepted,
          BitVec.ofNat 8 f.report.refused, BitVec.ofNat 8 f.report.status.code] ++ bytesOf 2 f.planned
        ++ f.blocks.flatMap (fun x => bytesOf 2 x.tap.val ++ [x.flags.byte] ++ x.samples.flatMap fun v => bytesOf 3 v.toNat)
        ++ [BitVec.ofNat 8 status.code] ++ bytesOf 2 f.blocks.length ∧
      (f.bytes e).length = 13 + f.blocks.length * (3 + 3 * b))

/-! ### The tap pass (05) -/

/-- PASS_START: the engine at the queue's head leaves it, with no pass running, the previous period closed and its
frame of this period open. Its frame is handed the number of its non-IDLE taps; the pass takes them in ascending
number, or, with none, ends COMPLETE; in SAFE each is handed MUTED with zeros and its indicator cleared, and the pass
ends MUTED (R97, R98, R101, R106). That the pass begins at this row, and not by itself, is log 30; that in SAFE it
ends at it too, log 35; that otherwise nothing changes is the model's choice (log 2). -/
def Obligations.PassesBeginWithTheirTaps : Prop :=
  ∀ (s : State) (e : Engine) (rest : List Engine),
    let ready := (s.link e).tx.any fun f => f.period == s.timer.period && f.state == .opened
    let taps := allTaps.filter fun t => (s.tap t).state != .idle && (s.tap t).current.reader == e
    let hand := fun (g : OutFrame → OutFrame) =>
      (s.link e).tx.map fun f => if f.period = s.timer.period ∧ f.state ≠ .ended then g f else f
    let muted := fun t : TapNo =>
      { tap := t, flags := { clamped := false, fading := false, gap := false, fault := false, muted := true }
        samples := List.replicate s.size 0 : OutBlock }
    (s.proc.pass = none → s.proc.queue = e :: rest → s.oldestOpen = s.timer.period → ready = true →
      ∃ t, exec .passStart s = .next (settle t) ∧ t = { s with links := t.links, taps := t.taps, proc := t.proc } ∧
        (∀ d, d ≠ e → t.link d = s.link d) ∧ t.proc.queue = rest ∧ t.proc.lead = s.proc.lead ∧
        (s.faults.mode = .normal → t.taps = s.taps) ∧
        (s.faults.mode = .normal → ∀ first more, taps = first :: more →
          t.link e = { s.link e with tx := hand fun f => { f with state := .sending, planned := taps.length } } ∧
          t.proc.pass = some { engine := e, period := s.timer.period, planned := taps.length, handed := 0, taps := taps
                               todo := tapReads s s.timer.period (s.tap first), got := [], faulted := false }) ∧
        (s.faults.mode = .normal → taps = [] →
          t.link e = { s.link e with tx := hand fun f =>
            { f with state := .ended, planned := 0, endStatus := some .complete } } ∧ t.proc.pass = none) ∧
        (s.faults.mode = .safe →
          t.link e = { s.link e with tx := hand fun f =>
            { f with state := .ended, planned := taps.length, blocks := f.blocks ++ taps.map muted
                     endStatus := some .muted } } ∧
          t.proc.pass = none ∧
          ∀ n, t.tap n = { s.tap n with clamped := (s.tap n).clamped && !taps.contains n })) ∧
    (s.proc.pass ≠ none ∨ s.proc.queue = [] ∨ (s.proc.queue = e :: rest ∧ (s.oldestOpen ≠ s.timer.period ∨ ready = false)) →
      exec .passStart s = .next s)

/-- A pass read completes with its effect on the store, and in NORMAL an uncorrectable one takes a READ fault with its
page, offset, line and engine (R31, R33); in SAFE, where only REFRESH faults arise (R186), a read still in service
takes none (log 11). The pass takes the sample and goes to its next read; with a tap's last read it hands the tap's
block, sets or clears its CLAMPED indicator, and goes to the next tap or, after the last, ends COMPLETE (R99, R101,
R105). A fault that enters SAFE ends the pass there (R106; log 35). A read that its pass has lost only completes (R34;
log 10). -/
def Obligations.PassReadsComposeBlocks : Prop :=
  ∀ (s : State) (u : Upset) (l : LineNo) (e : Engine) (w : Nat) (live : Bool),
    s.arbiter.inService = some (.passRead l e w live) →
    let o := readOutcome w u s
    let bad := o = .uncorrectable
    let entry : FaultEntry :=
      { kind := .read, page := Fin.ofNat 4096 (w / 4096), offset := w % 4096, line := some l, engine := some e }
    let read := { s with
      store := (storeRead w u s).store, arbiter := { s.arbiter with inService := none, lastRefresh := false } }
    let judged := if bad ∧ s.faults.mode = .normal then storeFault entry false read else read
    let entersSafe := bad ∧ s.faults.mode = .normal ∧ 3 ≤ s.faults.level
    (live = false → exec (.passReadComplete u) s = .next (settle judged)) ∧
    (entersSafe → exec (.passReadComplete u) s = .next (settle judged) ∧ judged.proc.pass = none) ∧
    (live = true → ¬entersSafe → ∀ p r reads t taps, s.proc.pass = some p → p.todo = r :: reads → p.taps = t :: taps →
      let p' : Pass := { p with
        todo := reads, got := p.got ++ [{ side := r.side, position := r.position, v := o.sample }]
        faulted := p.faulted || decide bad }
      (reads ≠ [] → exec (.passReadComplete u) s =
        .next (settle { judged with proc := { s.proc with pass := some p' } })) ∧
      (reads = [] →
        let block := passBlock s p' t
        let hand := fun (g : OutFrame → OutFrame) =>
          (s.link p.engine).tx.map fun f => if f.period = p.period ∧ f.state ≠ .ended then g f else f
        let sounded := judged.setTap t { s.tap t with clamped := block.flags.clamped }
        (∀ next more, taps = next :: more →
          let handed := sounded.setLink p.engine { s.link p.engine with
            tx := hand fun f => { f with blocks := f.blocks ++ [block] } }
          let onward : Pass := { p' with
            handed := p.handed + 1, taps := taps, todo := tapReads s p.period (s.tap next), got := [], faulted := false }
          exec (.passReadComplete u) s = .next (settle { handed with proc := { s.proc with pass := some onward } })) ∧
        (taps = [] →
          let handed := sounded.setLink p.engine { s.link p.engine with
            tx := hand fun f => { f with
              blocks := f.blocks ++ [block], state := .ended, endStatus := some .complete } }
          exec (.passReadComplete u) s = .next (settle { handed with proc := { s.proc with pass := none } }))))

/-- Every position a pass reads for the current period lies on its line's ring and outside the line's current block
(R91), as long as the line holds a page and its head lies on the ring, which the ranges that every step keeps say of
an ACTIVE line; and each reading's clamped edge delays lie from
B + 1 to L − B − 2 (R91 to R94). A tap RUNNING at a whole delay d that its line allows, with no oscillator, sounds at
sample i the sample read d samples behind position head + i, times its gain, negated if inverted, rounded and
saturated to 24 bits; its block carries no flag but GAP and FAULT (R92, R93, R95, R100). -/
def Obligations.ReadingsStayBehindTheHeadAndSound : Prop :=
  (∀ (s : State) (t : Tap),
    (∀ r ∈ tapReads s s.timer.period t, ∀ l, l = s.line r.line → l.pages ≠ [] → l.head < l.length →
      r.position < l.length ∧ ∀ i, i < s.size → r.position ≠ (l.head + i) % l.length) ∧
    (∀ r ∈ tapReadings s t, (s.line r.line).pages ≠ [] →
      (s.size + 1) * 256 ≤ r.startDelay ∧ r.startDelay ≤ ((s.line r.line).length - s.size - 2) * 256 ∧
      (s.size + 1) * 256 ≤ r.endDelay ∧ r.endDelay ≤ ((s.line r.line).length - s.size - 2) * 256)) ∧
  (∀ (s : State) (p : Pass) (t : TapNo) (d i : Nat) (g : GotSample),
    let tap := s.tap t
    let line := s.line tap.current.line
    tap.state = .running → tap.current.osc = none → tap.delay = d * 256 → s.size + 1 ≤ d → d + s.size + 2 ≤ line.length →
    line.head < line.length → p.period = s.timer.period → i < s.size →
    p.got.find? (fun x => x.side == 0 && x.position == (line.head + i + line.length - d) % line.length) = some g →
    let v : Rat := g.v.toInt * ((tap.current.gain : Rat) / 65536)
    (passBlock s p t).tap = t ∧
    (passBlock s p t).samples[i]? = some (saturate24 (roundAway (if tap.current.inverted then -v else v))) ∧
    (tap.current.gain = 65536 → tap.current.inverted = false → (passBlock s p t).samples[i]? = some g.v) ∧
    (passBlock s p t).samples.length = s.size ∧
    (∀ e, line.writer = some e → (passBlock s p t).flags =
      { clamped := false, fading := false, gap := line.gapRun != 0 || (s.link e).state != .up, fault := p.faulted
        muted := false }))

/-- What a tap sounds in every state. A side's reading ramps from its start to its end delay, its own delay and offset
clamped to its line's floor and ceiling (R90 to R92). NONE takes the sample at q; LINEAR with a fraction f takes s(q)
× (1 − f) + s(q + 1) × f, and reads s(q + 1) only then (R93). A tap in FADING has two readings, the old side with the
falling gains and the new with the rising; any other has one, with gain 1 in RUNNING and GLIDING, rising in STARTING
and falling in STOPPING (R94, R124). A sample is the sum of its readings' values, each times its gain and its
transition gain, ramped over the period, negated if inverted, then rounded and saturated to 24 bits (R95). CLAMPED,
FADING and GAP are set as R100 says. -/
def Obligations.TapsSoundTheirReadings : Prop :=
  (∀ (r : Reading) (b i head l : Nat), 0 < b → i ≤ b →
    2 * ((r.delayAt b i : Int) * b - ((r.startDelay : Int) * b + ((r.endDelay : Int) - r.startDelay) * i)).natAbs ≤ b ∧
    (r.delayAt b i ≤ l * 256 →
      (r.positionAt b head l i + r.delayAt b i) % (l * 256) = ((head + i) * 256) % (l * 256))) ∧
  (∀ (got : List GotSample) (side l q f : Nat) (x y : GotSample), f < 256 →
    got.find? (fun g => g.side == side && g.position == q) = some x →
    got.find? (fun g => g.side == side && g.position == (q + 1) % l) = some y →
    readingValue got side .none l (q * 256 + f) = x.v.toInt ∧
    readingValue got side .linear l (q * 256 + f) = x.v.toInt * (1 - (f : Rat) / 256) + y.v.toInt * ((f : Rat) / 256) ∧
    sampleNeeds .none l (q * 256 + f) = [q] ∧
    ∀ p, p ∈ sampleNeeds .linear l (q * 256 + f) ↔ p = q ∨ (f ≠ 0 ∧ p = (q + 1) % l)) ∧
  (∀ (s : State) (t : Tap) (old : OldSide), (s.line t.current.line).pages ≠ [] → (s.line old.line).pages ≠ [] →
    let made := fun (o : OldSide) (endDelay : Nat) (gains : Rat × Rat) (r : Reading) =>
      let low : Int := (s.size + 1) * 256
      let high : Int := ((s.line o.line).length - s.size - 2 : Nat) * 256
      let offset := fun value : Osc → Rat => match o.osc with
        | none => 0
        | some m => roundAway (value (s.osc m) * o.depth)
      let first : Int := o.delay + offset (Osc.startValue o.quadrant)
      let last : Int := endDelay + offset (Osc.endValue o.quadrant)
      r.line = o.line ∧ r.interp = o.interp ∧ r.gain = o.gain ∧ r.inverted = o.inverted ∧
      (r.startDelay : Int) = max low (min high first) ∧ (r.endDelay : Int) = max low (min high last) ∧
      (r.clamped = true ↔ first < low ∨ high < first ∨ last < low ∨ high < last) ∧
      r.startGain = gains.1 ∧ r.endGain = gains.2
    let rising := (equalPowerGain ((t.fadeCount : Rat) / t.fadeOf), equalPowerGain ((t.fadeCount + 1 : Rat) / t.fadeOf))
    let falling :=
      (equalPowerGain (1 - (t.fadeCount : Rat) / t.fadeOf), equalPowerGain (1 - (t.fadeCount + 1 : Rat) / t.fadeOf))
    let one := fun gains => ∃ r, tapReadings s t = [r] ∧ made t.reading (t.advance s.size).delay gains r
    (t.state = .running ∨ t.state = .gliding → one (1, 1)) ∧
    (t.state = .starting → one rising) ∧ (t.state = .stopping → one falling) ∧
    (t.state = .fading → t.oldSide = some old →
      ∃ r u, tapReadings s t = [r, u] ∧ made old old.delay falling r ∧ made t.reading t.delay rising u)) ∧
  (∀ (s : State) (p : Pass) (n : TapNo) (i : Nat), p.period = s.timer.period → i < s.size →
    let value := fun (side : Nat) (r : Reading) =>
      let line := s.line r.line
      let v := readingValue p.got side r.interp line.length (r.positionAt s.size line.head line.length i)
        * ((r.gain : Rat) / 65536) * (r.startGain + (r.endGain - r.startGain) * i / s.size)
      if r.inverted then -v else v
    let readings := tapReadings s (s.tap n)
    let block := passBlock s p n
    (∀ r, readings = [r] → block.samples[i]? = some (saturate24 (roundAway (value 0 r)))) ∧
    (∀ r u, readings = [r, u] → block.samples[i]? = some (saturate24 (roundAway (value 0 r + value 1 u)))) ∧
    (block.flags.clamped = true ↔ ∃ r ∈ readings, r.clamped = true) ∧
    (block.flags.fading = true ↔ (s.tap n).state = .starting ∨ (s.tap n).state = .gliding ∨ (s.tap n).state = .fading ∨
      (s.tap n).state = .stopping) ∧
    (block.flags.gap = true ↔ ∃ r ∈ readings, (s.line r.line).gapRun ≠ 0 ∨
      ∀ e, (s.line r.line).writer = some e → (s.link e).state ≠ .up) ∧
    block.flags.fault = p.faulted ∧ block.flags.muted = false) ∧
  (∀ x : Rat, |(roundAway x : Rat) - x| ≤ 1 / 2 ∧ (|(roundAway x : Rat) - x| = 1 / 2 → |x| < |(roundAway x : Rat)|)) ∧
  (∀ v : Int, (saturate24 v).toInt = max (-8388608) (min 8388607 v))

/-! ### PART_RESET (10) -/

/-- PART_RESET is taken in every mailbox state and in both modes: every block takes its own reset, and the command
completes with the period count and whether the part was in SAFE (R30, R51, R54, R79, R107, R142, R153, R165, R173,
R174, R187). Every OUTPUT frame held ends ABORT (R75); only the first has blocks on the lane, and how many is a free
value (log 15). The access in service stays in service, and is no commit's, fill's or pass's any longer (R34; log 10).
-/
def Obligations.PartResetResetsEveryBlock : Prop :=
  ∀ s : State, ∃ t,
    exec (.partReset (whole [])) s =
      .next (complete 0x7F .ok 0 (bytesOf 4 s.timer.period.toNat ++ flagByte (s.faults.mode == .safe)) t) ∧
    t.timer = s.timer ∧ t.store = s.store ∧ t.refresh = s.refresh ∧
    (∀ l, t.line l = { state := .free, generation := (s.line l).generation, writer := none, stagedWriter := none
                       pages := [], head := 0, taken := false, gapRun := 0, lastClose := .written }) ∧
    t.fills = [] ∧ t.commits = [] ∧ t.oldestOpen = s.timer.period ∧
    t.pool.free = s.pool.free ∧ t.pool.retired = s.pool.retired ∧ t.pool.waiting = none ∧
    (∃ walked, walked ++ t.pool.dirty = s.pool.dirty ++ allLines.flatMap (fun l => (s.line l).pages) ∧
      (s.pool.walker.isSome → walked = [] ∧ t.pool.walker = s.pool.walker) ∧
      (s.pool.walker = none →
        walked = (s.pool.dirty ++ allLines.flatMap fun l => (s.line l).pages).take 1 ∧
        t.pool.walker = walked.head?.map fun p => { page := p, phase := .clear, pointer := 0 })) ∧
    (∀ e, ∃ (onLane : Nat) (tx : List OutFrame), t.link e = { s.link e with
        state := if (s.link e).state = .off then .off else .down
        missed := 0, accepted := false, receiver := .hunt, buffers := Vector.replicate 2 .free
        tally := { accepted := 0, refused := 0, status := .none }
        counters := { late := ⟨0, false⟩, refused := ⟨0, false⟩, check := ⟨0, false⟩, short := ⟨0, false⟩ }
        tx := tx } ∧
      tx.length = (s.link e).tx.length ∧ (∀ f ∈ tx, f.state = .ended) ∧
      ∀ (i : Nat) (f : OutFrame), (s.link e).tx[i]? = some f →
        (f.state = .ended → tx[i]? = some f) ∧
        (f.state = .opened → tx[i]? =
          some { f with state := .ended, planned := 0, blocks := [], endStatus := some .abort }) ∧
        (f.state = .sending → tx[i]? = some { f with
          state := .ended, blocks := f.blocks.take (if i = 0 then onLane else 0), endStatus := some .abort })) ∧
    (∀ n, t.tap n =
      { state := .idle, current := ParamSet.allZero, staged := none, delay := 0, target := 0, fadeCount := 0, fadeOf := 0
        oldSide := none, pendingTarget := none, clamped := false }) ∧
    t.proc = { queue := [], lead := 3, pass := none } ∧
    (s.tempo.source = .internal → t.tempo =
      { s.tempo with tapList := [], lastTap := none, tapSide := false, oscSide := false }) ∧
    (s.tempo.source = .external → t.tempo =
      { s.tempo with tapList := [], lastTap := none, tapSide := false, oscSide := false, ext := .acquiring, window := []
                     phase := 0, lastPulse := none, lossTimer := none }) ∧
    (∀ m : OscNo, t.osc m = Osc.reset m) ∧ t.scenes = [] ∧
    t.notices = { s.notices with pending := 0 } ∧ t.port.collide = s.port.collide ∧ t.port.dataOut = [0, 0, 0] ∧
    t.faults = { first := none, later := 0, retireFull := false, level := 0, mode := .normal } ∧
    (∀ a, s.arbiter.inService = some a → t.arbiter = { s.arbiter with
      inService := some (a.heldBy (fun _ _ => false) (fun _ _ => false) false) })

/-! ### What every step keeps -/

/-- The machine right after the reset line keeps every law below. -/
def Obligations.ResetKeepsTheLaws : Prop :=
  PagesLawful State.reset ∧ StoreLawful State.reset ∧ RangesLawful State.reset ∧ TapsLawful State.reset ∧
  CommitsLawful State.reset ∧ CommitsOrdered State.reset ∧ RunsLawful State.reset ∧ StartLawful State.reset

/-- Every step keeps the law of R42: each page in exactly one place, once, with the retired set ordered by page number
(R46); and so the counts READ_POOL shows, with the walker's page and the pages of the lines, sum to 4096. -/
def Obligations.EveryStepKeepsEachPageInOnePlace : Prop :=
  (∀ s t : State, PagesLawful s → step s = .next t → PagesLawful t) ∧
  (∀ s : State, PagesLawful s →
    s.pool.free.length + s.pool.dirty.length + s.pool.retired.length + s.pool.walker.toList.length
      + (allLines.map fun l => (s.line l).pages.length).sum = 4096)

/-- Every step keeps the store array in its canonical form, so that equal arrays are equal data. Every step keeps
these ranges of the spec's tables: the edge count below B; the spacing window and the relock run of at most 64; an
ACTIVE line's 1 to 256 pages, its head below L, every head a multiple of B and 0 while FREE, the gap run of at most
65535; an allocation waiting for 1 to 256 pages; a missed count below 8 in UP, 8 in LOST and else 0 (R56); the row
pointer, the backlog and the corrected count; the beat number below beats per bar, Ib from 4096 to 524,288 samples
with the beat position below it, the tap list, the pulse window and the pulse phase; the depth of the scene stack; the
fault level and the later count. -/
def Obligations.EveryStepKeepsTheStoreAndTheRanges : Prop :=
  (∀ s t : State, StoreLawful s → step s = .next t → StoreLawful t) ∧
  (∀ s t : State, RangesLawful s → step s = .next t → RangesLawful t)

/-- Every step keeps the law of the tap records, and with it the law of R81: a line that a tap's current set names
while the tap is not IDLE, or its old side, its pending target or its staged set, is ACTIVE; and so no FREE line is
named by any tap. -/
def Obligations.EveryStepKeepsTapsLawful : Prop :=
  (∀ s t : State, TapsLawful s → step s = .next t → TapsLawful t) ∧
  (∀ s : State, TapsLawful s → ∀ l, (s.line l).state = .free → ∀ t, (s.tap t).names l = false)

/-- Every step keeps the law of the commit queue, and with it that a link switched OFF has no frame queued and its
receiver in HUNT (R57, R58, R70); and so the queue holds at most 8 frames and at most 2 of one link (R68). Every step
keeps the queue in the order of its periods, as long as no queued frame's period lies 2^32 - 1 boundaries back, where
the count of 32 bits comes round (log 12); and so, among the frames since it last wrapped, the period counts never
decrease in queue order (R68). -/
def Obligations.EveryStepKeepsTheCommitQueue : Prop :=
  (∀ s t : State, CommitsLawful s → step s = .next t → CommitsLawful t) ∧
  (∀ s : State, CommitsLawful s →
    s.commits.length ≤ 8 ∧ ∀ e, (s.commits.filter fun f => f.engine == e).length ≤ 2) ∧
  (∀ s t : State, CommitsOrdered s → (∀ f ∈ s.commits, (s.timer.period - f.period).toNat < 2 ^ 32 - 1) →
    step s = .next t → CommitsOrdered t) ∧
  (∀ s : State, CommitsOrdered s → s.commits.Pairwise fun f g =>
    f.period.toNat ≤ s.timer.period.toNat → f.period.toNat ≤ g.period.toNat)

/-- Every step keeps the run count of every engine at 128 or below (R85). -/
def Obligations.EveryStepKeepsTheRunCounts : Prop :=
  ∀ s t : State, RunsLawful s → step s = .next t → RunsLawful t

/-- Every step keeps the law of the time before boundary 0: no period has begun, none waits to be closed, no line's
head has moved, and no frame, pass or fill stands (R2, R24, R78). That a flywheel edge makes no boundary then is the
model's reading (log 6). -/
def Obligations.EveryStepKeepsTheStartLawful : Prop :=
  ∀ s t : State, StartLawful s → step s = .next t → StartLawful t
end

