-- ==== Sys2Proof/Laws/Frames.lean ====
section
/-! SUPPORT. What each operation leaves unchanged: one lemma an operation, with one equation for each field of State it
does not touch. simp takes each equation as a rule of its own. -/

namespace Sys2Proof.Machine

/-- What every step of a fold keeps, the fold keeps. -/
theorem foldl_keeps {α β : Type} (g : State → β) (f : State → α → State) (h : ∀ s x, g (f s x) = g s) (xs : List α)
    (s : State) : g (xs.foldl f s) = g s := by
  induction xs generalizing s with
  | nil => rfl
  | cons x xs ih => exact (ih _).trans (h s x)

@[simp] theorem raise_frame (src : Source) (s : State) :
    (raise src s).timer = s.timer ∧ (raise src s).store = s.store ∧ (raise src s).arbiter = s.arbiter ∧
    (raise src s).refresh = s.refresh ∧ (raise src s).pool = s.pool ∧ (raise src s).lines = s.lines ∧
    (raise src s).fills = s.fills ∧ (raise src s).oldestOpen = s.oldestOpen ∧ (raise src s).links = s.links ∧
    (raise src s).commits = s.commits ∧ (raise src s).taps = s.taps ∧ (raise src s).proc = s.proc ∧
    (raise src s).tempo = s.tempo ∧ (raise src s).oscs = s.oscs ∧ (raise src s).scenes = s.scenes ∧
    (raise src s).port = s.port ∧ (raise src s).faults = s.faults ∧ (raise src s).freeIx = s.freeIx ∧
    (raise src s).pending = s.pending := by
  exact ⟨rfl, rfl, rfl, rfl, rfl, rfl, rfl, rfl, rfl, rfl, rfl, rfl, rfl, rfl, rfl, rfl, rfl, rfl, rfl⟩

@[simp] theorem State.setLine_frame (l : LineNo) (x : Line) (s : State) :
    (s.setLine l x).timer = s.timer ∧ (s.setLine l x).store = s.store ∧ (s.setLine l x).arbiter = s.arbiter ∧
    (s.setLine l x).refresh = s.refresh ∧ (s.setLine l x).pool = s.pool ∧ (s.setLine l x).fills = s.fills ∧
    (s.setLine l x).oldestOpen = s.oldestOpen ∧ (s.setLine l x).links = s.links ∧
    (s.setLine l x).commits = s.commits ∧ (s.setLine l x).taps = s.taps ∧ (s.setLine l x).proc = s.proc ∧
    (s.setLine l x).tempo = s.tempo ∧ (s.setLine l x).oscs = s.oscs ∧ (s.setLine l x).scenes = s.scenes ∧
    (s.setLine l x).port = s.port ∧ (s.setLine l x).notices = s.notices ∧ (s.setLine l x).faults = s.faults ∧
    (s.setLine l x).freeIx = s.freeIx ∧ (s.setLine l x).pending = s.pending := by
  exact ⟨rfl, rfl, rfl, rfl, rfl, rfl, rfl, rfl, rfl, rfl, rfl, rfl, rfl, rfl, rfl, rfl, rfl, rfl, rfl⟩

@[simp] theorem State.setLink_frame (e : Engine) (x : Link) (s : State) :
    (s.setLink e x).timer = s.timer ∧ (s.setLink e x).store = s.store ∧ (s.setLink e x).arbiter = s.arbiter ∧
    (s.setLink e x).refresh = s.refresh ∧ (s.setLink e x).pool = s.pool ∧ (s.setLink e x).lines = s.lines ∧
    (s.setLink e x).fills = s.fills ∧ (s.setLink e x).oldestOpen = s.oldestOpen ∧
    (s.setLink e x).commits = s.commits ∧ (s.setLink e x).taps = s.taps ∧ (s.setLink e x).proc = s.proc ∧
    (s.setLink e x).tempo = s.tempo ∧ (s.setLink e x).oscs = s.oscs ∧ (s.setLink e x).scenes = s.scenes ∧
    (s.setLink e x).port = s.port ∧ (s.setLink e x).notices = s.notices ∧ (s.setLink e x).faults = s.faults ∧
    (s.setLink e x).freeIx = s.freeIx ∧ (s.setLink e x).pending = s.pending := by
  exact ⟨rfl, rfl, rfl, rfl, rfl, rfl, rfl, rfl, rfl, rfl, rfl, rfl, rfl, rfl, rfl, rfl, rfl, rfl, rfl⟩

@[simp] theorem State.setTap_frame (t : TapNo) (x : Tap) (s : State) :
    (s.setTap t x).timer = s.timer ∧ (s.setTap t x).store = s.store ∧ (s.setTap t x).arbiter = s.arbiter ∧
    (s.setTap t x).refresh = s.refresh ∧ (s.setTap t x).pool = s.pool ∧ (s.setTap t x).lines = s.lines ∧
    (s.setTap t x).fills = s.fills ∧ (s.setTap t x).oldestOpen = s.oldestOpen ∧ (s.setTap t x).links = s.links ∧
    (s.setTap t x).commits = s.commits ∧ (s.setTap t x).proc = s.proc ∧ (s.setTap t x).tempo = s.tempo ∧
    (s.setTap t x).oscs = s.oscs ∧ (s.setTap t x).scenes = s.scenes ∧ (s.setTap t x).port = s.port ∧
    (s.setTap t x).notices = s.notices ∧ (s.setTap t x).faults = s.faults ∧ (s.setTap t x).freeIx = s.freeIx ∧
    (s.setTap t x).pending = s.pending := by
  exact ⟨rfl, rfl, rfl, rfl, rfl, rfl, rfl, rfl, rfl, rfl, rfl, rfl, rfl, rfl, rfl, rfl, rfl, rfl, rfl⟩

@[simp] theorem State.setOsc_frame (m : OscNo) (x : Osc) (s : State) :
    (s.setOsc m x).timer = s.timer ∧ (s.setOsc m x).store = s.store ∧ (s.setOsc m x).arbiter = s.arbiter ∧
    (s.setOsc m x).refresh = s.refresh ∧ (s.setOsc m x).pool = s.pool ∧ (s.setOsc m x).lines = s.lines ∧
    (s.setOsc m x).fills = s.fills ∧ (s.setOsc m x).oldestOpen = s.oldestOpen ∧ (s.setOsc m x).links = s.links ∧
    (s.setOsc m x).commits = s.commits ∧ (s.setOsc m x).taps = s.taps ∧ (s.setOsc m x).proc = s.proc ∧
    (s.setOsc m x).tempo = s.tempo ∧ (s.setOsc m x).scenes = s.scenes ∧ (s.setOsc m x).port = s.port ∧
    (s.setOsc m x).notices = s.notices ∧ (s.setOsc m x).faults = s.faults ∧ (s.setOsc m x).freeIx = s.freeIx ∧
    (s.setOsc m x).pending = s.pending := by
  exact ⟨rfl, rfl, rfl, rfl, rfl, rfl, rfl, rfl, rfl, rfl, rfl, rfl, rfl, rfl, rfl, rfl, rfl, rfl, rfl⟩

@[simp] theorem storeWrite_frame (w : Nat) (v : Sample) (s : State) :
    (storeWrite w v s).timer = s.timer ∧ (storeWrite w v s).arbiter = s.arbiter ∧
    (storeWrite w v s).refresh = s.refresh ∧ (storeWrite w v s).pool = s.pool ∧
    (storeWrite w v s).lines = s.lines ∧ (storeWrite w v s).fills = s.fills ∧
    (storeWrite w v s).oldestOpen = s.oldestOpen ∧ (storeWrite w v s).links = s.links ∧
    (storeWrite w v s).commits = s.commits ∧ (storeWrite w v s).taps = s.taps ∧ (storeWrite w v s).proc = s.proc ∧
    (storeWrite w v s).tempo = s.tempo ∧ (storeWrite w v s).oscs = s.oscs ∧ (storeWrite w v s).scenes = s.scenes ∧
    (storeWrite w v s).port = s.port ∧ (storeWrite w v s).notices = s.notices ∧
    (storeWrite w v s).faults = s.faults ∧ (storeWrite w v s).freeIx = s.freeIx ∧
    (storeWrite w v s).pending = s.pending := by
  exact ⟨rfl, rfl, rfl, rfl, rfl, rfl, rfl, rfl, rfl, rfl, rfl, rfl, rfl, rfl, rfl, rfl, rfl, rfl, rfl⟩

@[simp] theorem storeRead_frame (w : Nat) (u : Upset) (s : State) :
    (storeRead w u s).timer = s.timer ∧ (storeRead w u s).arbiter = s.arbiter ∧
    (storeRead w u s).refresh = s.refresh ∧ (storeRead w u s).pool = s.pool ∧ (storeRead w u s).lines = s.lines ∧
    (storeRead w u s).fills = s.fills ∧ (storeRead w u s).oldestOpen = s.oldestOpen ∧
    (storeRead w u s).links = s.links ∧ (storeRead w u s).commits = s.commits ∧ (storeRead w u s).taps = s.taps ∧
    (storeRead w u s).proc = s.proc ∧ (storeRead w u s).tempo = s.tempo ∧ (storeRead w u s).oscs = s.oscs ∧
    (storeRead w u s).scenes = s.scenes ∧ (storeRead w u s).port = s.port ∧ (storeRead w u s).notices = s.notices ∧
    (storeRead w u s).faults = s.faults ∧ (storeRead w u s).freeIx = s.freeIx ∧
    (storeRead w u s).pending = s.pending := by
  exact ⟨rfl, rfl, rfl, rfl, rfl, rfl, rfl, rfl, rfl, rfl, rfl, rfl, rfl, rfl, rfl, rfl, rfl, rfl, rfl⟩

@[simp] theorem updateClosed_frame (s : State) :
    (updateClosed s).timer = s.timer ∧ (updateClosed s).store = s.store ∧ (updateClosed s).arbiter = s.arbiter ∧
    (updateClosed s).refresh = s.refresh ∧ (updateClosed s).pool = s.pool ∧ (updateClosed s).lines = s.lines ∧
    (updateClosed s).fills = s.fills ∧ (updateClosed s).links = s.links ∧ (updateClosed s).commits = s.commits ∧
    (updateClosed s).taps = s.taps ∧ (updateClosed s).proc = s.proc ∧ (updateClosed s).tempo = s.tempo ∧
    (updateClosed s).oscs = s.oscs ∧ (updateClosed s).scenes = s.scenes ∧ (updateClosed s).port = s.port ∧
    (updateClosed s).notices = s.notices ∧ (updateClosed s).faults = s.faults ∧
    (updateClosed s).freeIx = s.freeIx ∧ (updateClosed s).pending = s.pending := by
  exact ⟨rfl, rfl, rfl, rfl, rfl, rfl, rfl, rfl, rfl, rfl, rfl, rfl, rfl, rfl, rfl, rfl, rfl, rfl, rfl⟩

@[simp] theorem freeBuffer_frame (e : Engine) (b : Fin 2) (s : State) :
    (freeBuffer e b s).timer = s.timer ∧ (freeBuffer e b s).store = s.store ∧
    (freeBuffer e b s).arbiter = s.arbiter ∧ (freeBuffer e b s).refresh = s.refresh ∧
    (freeBuffer e b s).pool = s.pool ∧ (freeBuffer e b s).lines = s.lines ∧ (freeBuffer e b s).fills = s.fills ∧
    (freeBuffer e b s).oldestOpen = s.oldestOpen ∧ (freeBuffer e b s).commits = s.commits ∧
    (freeBuffer e b s).taps = s.taps ∧ (freeBuffer e b s).proc = s.proc ∧ (freeBuffer e b s).tempo = s.tempo ∧
    (freeBuffer e b s).oscs = s.oscs ∧ (freeBuffer e b s).scenes = s.scenes ∧ (freeBuffer e b s).port = s.port ∧
    (freeBuffer e b s).notices = s.notices ∧ (freeBuffer e b s).faults = s.faults ∧
    (freeBuffer e b s).freeIx = s.freeIx ∧ (freeBuffer e b s).pending = s.pending := by
  exact ⟨rfl, rfl, rfl, rfl, rfl, rfl, rfl, rfl, rfl, rfl, rfl, rfl, rfl, rfl, rfl, rfl, rfl, rfl, rfl⟩

@[simp] theorem drainFrames_frame (fs : List QueuedFrame) (s : State) :
    (drainFrames s fs).timer = s.timer ∧ (drainFrames s fs).store = s.store ∧
    (drainFrames s fs).arbiter = s.arbiter ∧ (drainFrames s fs).refresh = s.refresh ∧
    (drainFrames s fs).pool = s.pool ∧ (drainFrames s fs).lines = s.lines ∧ (drainFrames s fs).fills = s.fills ∧
    (drainFrames s fs).oldestOpen = s.oldestOpen ∧ (drainFrames s fs).taps = s.taps ∧
    (drainFrames s fs).proc = s.proc ∧ (drainFrames s fs).tempo = s.tempo ∧ (drainFrames s fs).oscs = s.oscs ∧
    (drainFrames s fs).scenes = s.scenes ∧ (drainFrames s fs).port = s.port ∧
    (drainFrames s fs).notices = s.notices ∧ (drainFrames s fs).faults = s.faults ∧
    (drainFrames s fs).freeIx = s.freeIx ∧ (drainFrames s fs).pending = s.pending := by
  induction fs generalizing s with
  | nil => simp [drainFrames]
  | cons f fs ih =>
    unfold drainFrames
    split
    · simp [ih]
    · simp

@[simp] theorem drainCommits_frame (s : State) :
    (drainCommits s).timer = s.timer ∧ (drainCommits s).store = s.store ∧ (drainCommits s).arbiter = s.arbiter ∧
    (drainCommits s).refresh = s.refresh ∧ (drainCommits s).pool = s.pool ∧ (drainCommits s).lines = s.lines ∧
    (drainCommits s).fills = s.fills ∧ (drainCommits s).oldestOpen = s.oldestOpen ∧
    (drainCommits s).taps = s.taps ∧ (drainCommits s).proc = s.proc ∧ (drainCommits s).tempo = s.tempo ∧
    (drainCommits s).oscs = s.oscs ∧ (drainCommits s).scenes = s.scenes ∧ (drainCommits s).port = s.port ∧
    (drainCommits s).notices = s.notices ∧ (drainCommits s).faults = s.faults ∧
    (drainCommits s).freeIx = s.freeIx ∧ (drainCommits s).pending = s.pending := by
  unfold drainCommits
  simp

@[simp] theorem serve_frame (s : State) :
    (serve s).timer = s.timer ∧ (serve s).store = s.store ∧ (serve s).refresh = s.refresh ∧
    (serve s).pool = s.pool ∧ (serve s).lines = s.lines ∧ (serve s).fills = s.fills ∧
    (serve s).oldestOpen = s.oldestOpen ∧ (serve s).links = s.links ∧ (serve s).commits = s.commits ∧
    (serve s).taps = s.taps ∧ (serve s).proc = s.proc ∧ (serve s).tempo = s.tempo ∧ (serve s).oscs = s.oscs ∧
    (serve s).scenes = s.scenes ∧ (serve s).port = s.port ∧ (serve s).notices = s.notices ∧
    (serve s).faults = s.faults ∧ (serve s).freeIx = s.freeIx ∧ (serve s).pending = s.pending := by
  unfold serve
  (repeat' split) <;> simp

@[simp] theorem endAccess_frame (b : Bool) (s : State) :
    (endAccess b s).timer = s.timer ∧ (endAccess b s).store = s.store ∧ (endAccess b s).refresh = s.refresh ∧
    (endAccess b s).pool = s.pool ∧ (endAccess b s).lines = s.lines ∧ (endAccess b s).fills = s.fills ∧
    (endAccess b s).oldestOpen = s.oldestOpen ∧ (endAccess b s).links = s.links ∧
    (endAccess b s).commits = s.commits ∧ (endAccess b s).taps = s.taps ∧ (endAccess b s).proc = s.proc ∧
    (endAccess b s).tempo = s.tempo ∧ (endAccess b s).oscs = s.oscs ∧ (endAccess b s).scenes = s.scenes ∧
    (endAccess b s).port = s.port ∧ (endAccess b s).notices = s.notices ∧ (endAccess b s).faults = s.faults ∧
    (endAccess b s).freeIx = s.freeIx ∧ (endAccess b s).pending = s.pending := by
  exact ⟨rfl, rfl, rfl, rfl, rfl, rfl, rfl, rfl, rfl, rfl, rfl, rfl, rfl, rfl, rfl, rfl, rfl, rfl, rfl⟩

@[simp] theorem settle_frame (s : State) :
    (settle s).timer = s.timer ∧ (settle s).store = s.store ∧ (settle s).refresh = s.refresh ∧
    (settle s).pool = s.pool ∧ (settle s).lines = s.lines ∧ (settle s).fills = s.fills ∧ (settle s).taps = s.taps ∧
    (settle s).proc = s.proc ∧ (settle s).tempo = s.tempo ∧ (settle s).oscs = s.oscs ∧
    (settle s).scenes = s.scenes ∧ (settle s).port = s.port ∧ (settle s).notices = s.notices ∧
    (settle s).faults = s.faults ∧ (settle s).freeIx = s.freeIx ∧ (settle s).pending = s.pending := by
  simp [settle]

@[simp] theorem orphanCommit_frame (which : Engine → LineNo → Bool) (s : State) :
    (orphanCommit which s).timer = s.timer ∧ (orphanCommit which s).store = s.store ∧
    (orphanCommit which s).refresh = s.refresh ∧ (orphanCommit which s).pool = s.pool ∧
    (orphanCommit which s).lines = s.lines ∧ (orphanCommit which s).fills = s.fills ∧
    (orphanCommit which s).oldestOpen = s.oldestOpen ∧ (orphanCommit which s).links = s.links ∧
    (orphanCommit which s).commits = s.commits ∧ (orphanCommit which s).taps = s.taps ∧
    (orphanCommit which s).proc = s.proc ∧ (orphanCommit which s).tempo = s.tempo ∧
    (orphanCommit which s).oscs = s.oscs ∧ (orphanCommit which s).scenes = s.scenes ∧
    (orphanCommit which s).port = s.port ∧ (orphanCommit which s).notices = s.notices ∧
    (orphanCommit which s).faults = s.faults ∧ (orphanCommit which s).freeIx = s.freeIx ∧
    (orphanCommit which s).pending = s.pending := by
  unfold orphanCommit
  (repeat' split) <;> simp

@[simp] theorem orphanFills_frame (s : State) :
    (orphanFills s).timer = s.timer ∧ (orphanFills s).store = s.store ∧ (orphanFills s).refresh = s.refresh ∧
    (orphanFills s).pool = s.pool ∧ (orphanFills s).lines = s.lines ∧ (orphanFills s).fills = s.fills ∧
    (orphanFills s).oldestOpen = s.oldestOpen ∧ (orphanFills s).links = s.links ∧
    (orphanFills s).commits = s.commits ∧ (orphanFills s).taps = s.taps ∧ (orphanFills s).proc = s.proc ∧
    (orphanFills s).tempo = s.tempo ∧ (orphanFills s).oscs = s.oscs ∧ (orphanFills s).scenes = s.scenes ∧
    (orphanFills s).port = s.port ∧ (orphanFills s).notices = s.notices ∧ (orphanFills s).faults = s.faults ∧
    (orphanFills s).freeIx = s.freeIx ∧ (orphanFills s).pending = s.pending := by
  unfold orphanFills
  (repeat' split) <;> simp

@[simp] theorem orphanPassRead_frame (s : State) :
    (orphanPassRead s).timer = s.timer ∧ (orphanPassRead s).store = s.store ∧
    (orphanPassRead s).refresh = s.refresh ∧ (orphanPassRead s).pool = s.pool ∧
    (orphanPassRead s).lines = s.lines ∧ (orphanPassRead s).fills = s.fills ∧
    (orphanPassRead s).oldestOpen = s.oldestOpen ∧ (orphanPassRead s).links = s.links ∧
    (orphanPassRead s).commits = s.commits ∧ (orphanPassRead s).taps = s.taps ∧ (orphanPassRead s).proc = s.proc ∧
    (orphanPassRead s).tempo = s.tempo ∧ (orphanPassRead s).oscs = s.oscs ∧ (orphanPassRead s).scenes = s.scenes ∧
    (orphanPassRead s).port = s.port ∧ (orphanPassRead s).notices = s.notices ∧
    (orphanPassRead s).faults = s.faults ∧ (orphanPassRead s).freeIx = s.freeIx ∧
    (orphanPassRead s).pending = s.pending := by
  unfold orphanPassRead
  (repeat' split) <;> simp

@[simp] theorem handFrame_frame (e : Engine) (p : PeriodCount) (h : OutFrame → OutFrame) (s : State) :
    (handFrame e p h s).timer = s.timer ∧ (handFrame e p h s).store = s.store ∧
    (handFrame e p h s).arbiter = s.arbiter ∧ (handFrame e p h s).refresh = s.refresh ∧
    (handFrame e p h s).pool = s.pool ∧ (handFrame e p h s).lines = s.lines ∧ (handFrame e p h s).fills = s.fills ∧
    (handFrame e p h s).oldestOpen = s.oldestOpen ∧ (handFrame e p h s).commits = s.commits ∧
    (handFrame e p h s).taps = s.taps ∧ (handFrame e p h s).proc = s.proc ∧ (handFrame e p h s).tempo = s.tempo ∧
    (handFrame e p h s).oscs = s.oscs ∧ (handFrame e p h s).scenes = s.scenes ∧ (handFrame e p h s).port = s.port ∧
    (handFrame e p h s).notices = s.notices ∧ (handFrame e p h s).faults = s.faults ∧
    (handFrame e p h s).freeIx = s.freeIx ∧ (handFrame e p h s).pending = s.pending := by
  exact ⟨rfl, rfl, rfl, rfl, rfl, rfl, rfl, rfl, rfl, rfl, rfl, rfl, rfl, rfl, rfl, rfl, rfl, rfl, rfl⟩

@[simp] theorem abortTransmitter_frame (e : Engine) (s : State) :
    (abortTransmitter e s).timer = s.timer ∧ (abortTransmitter e s).store = s.store ∧
    (abortTransmitter e s).arbiter = s.arbiter ∧ (abortTransmitter e s).refresh = s.refresh ∧
    (abortTransmitter e s).pool = s.pool ∧ (abortTransmitter e s).lines = s.lines ∧
    (abortTransmitter e s).fills = s.fills ∧ (abortTransmitter e s).oldestOpen = s.oldestOpen ∧
    (abortTransmitter e s).commits = s.commits ∧ (abortTransmitter e s).taps = s.taps ∧
    (abortTransmitter e s).proc = s.proc ∧ (abortTransmitter e s).tempo = s.tempo ∧
    (abortTransmitter e s).oscs = s.oscs ∧ (abortTransmitter e s).scenes = s.scenes ∧
    (abortTransmitter e s).port = s.port ∧ (abortTransmitter e s).notices = s.notices ∧
    (abortTransmitter e s).faults = s.faults ∧ (abortTransmitter e s).pending = s.pending := by
  exact ⟨rfl, rfl, rfl, rfl, rfl, rfl, rfl, rfl, rfl, rfl, rfl, rfl, rfl, rfl, rfl, rfl, rfl, rfl⟩

@[simp] theorem advanceCounter_frame (e : Engine) (n : CounterName) (k : Nat) (s : State) :
    (advanceCounter e n k s).timer = s.timer ∧ (advanceCounter e n k s).store = s.store ∧
    (advanceCounter e n k s).arbiter = s.arbiter ∧ (advanceCounter e n k s).refresh = s.refresh ∧
    (advanceCounter e n k s).pool = s.pool ∧ (advanceCounter e n k s).lines = s.lines ∧
    (advanceCounter e n k s).fills = s.fills ∧ (advanceCounter e n k s).oldestOpen = s.oldestOpen ∧
    (advanceCounter e n k s).commits = s.commits ∧ (advanceCounter e n k s).taps = s.taps ∧
    (advanceCounter e n k s).proc = s.proc ∧ (advanceCounter e n k s).tempo = s.tempo ∧
    (advanceCounter e n k s).oscs = s.oscs ∧ (advanceCounter e n k s).scenes = s.scenes ∧
    (advanceCounter e n k s).port = s.port ∧ (advanceCounter e n k s).faults = s.faults ∧
    (advanceCounter e n k s).freeIx = s.freeIx ∧ (advanceCounter e n k s).pending = s.pending := by
  unfold advanceCounter
  dsimp only
  (repeat' split) <;> simp

@[simp] theorem complete_frame (c : Byte) (r : ResultCode) (k : Nat) (bs : List Byte) (s : State) :
    (complete c r k bs s).timer = s.timer ∧ (complete c r k bs s).store = s.store ∧
    (complete c r k bs s).arbiter = s.arbiter ∧ (complete c r k bs s).refresh = s.refresh ∧
    (complete c r k bs s).pool = s.pool ∧ (complete c r k bs s).lines = s.lines ∧
    (complete c r k bs s).fills = s.fills ∧ (complete c r k bs s).oldestOpen = s.oldestOpen ∧
    (complete c r k bs s).links = s.links ∧ (complete c r k bs s).commits = s.commits ∧
    (complete c r k bs s).taps = s.taps ∧ (complete c r k bs s).proc = s.proc ∧
    (complete c r k bs s).tempo = s.tempo ∧ (complete c r k bs s).oscs = s.oscs ∧
    (complete c r k bs s).scenes = s.scenes ∧ (complete c r k bs s).faults = s.faults ∧
    (complete c r k bs s).freeIx = s.freeIx ∧ (complete c r k bs s).pending = s.pending := by
  exact ⟨rfl, rfl, rfl, rfl, rfl, rfl, rfl, rfl, rfl, rfl, rfl, rfl, rfl, rfl, rfl, rfl, rfl, rfl⟩

@[simp] theorem walkerTakes_frame (s : State) :
    (walkerTakes s).timer = s.timer ∧ (walkerTakes s).store = s.store ∧ (walkerTakes s).arbiter = s.arbiter ∧
    (walkerTakes s).refresh = s.refresh ∧ (walkerTakes s).lines = s.lines ∧ (walkerTakes s).fills = s.fills ∧
    (walkerTakes s).oldestOpen = s.oldestOpen ∧ (walkerTakes s).links = s.links ∧
    (walkerTakes s).commits = s.commits ∧ (walkerTakes s).taps = s.taps ∧ (walkerTakes s).proc = s.proc ∧
    (walkerTakes s).tempo = s.tempo ∧ (walkerTakes s).oscs = s.oscs ∧ (walkerTakes s).scenes = s.scenes ∧
    (walkerTakes s).port = s.port ∧ (walkerTakes s).notices = s.notices ∧ (walkerTakes s).faults = s.faults ∧
    (walkerTakes s).freeIx = s.freeIx ∧ (walkerTakes s).pending = s.pending := by
  unfold walkerTakes
  (repeat' split) <;> simp

@[simp] theorem takePages_frame (l : LineNo) (e : Engine) (n : Nat) (s : State) :
    (takePages l e n s).timer = s.timer ∧ (takePages l e n s).store = s.store ∧
    (takePages l e n s).arbiter = s.arbiter ∧ (takePages l e n s).refresh = s.refresh ∧
    (takePages l e n s).fills = s.fills ∧ (takePages l e n s).oldestOpen = s.oldestOpen ∧
    (takePages l e n s).links = s.links ∧ (takePages l e n s).commits = s.commits ∧
    (takePages l e n s).taps = s.taps ∧ (takePages l e n s).proc = s.proc ∧ (takePages l e n s).tempo = s.tempo ∧
    (takePages l e n s).oscs = s.oscs ∧ (takePages l e n s).scenes = s.scenes ∧ (takePages l e n s).port = s.port ∧
    (takePages l e n s).notices = s.notices ∧ (takePages l e n s).faults = s.faults ∧
    (takePages l e n s).freeIx = s.freeIx ∧ (takePages l e n s).pending = s.pending := by
  exact ⟨rfl, rfl, rfl, rfl, rfl, rfl, rfl, rfl, rfl, rfl, rfl, rfl, rfl, rfl, rfl, rfl, rfl, rfl⟩

@[simp] theorem endWaiting_frame (r : ResultCode) (s : State) :
    (endWaiting r s).timer = s.timer ∧ (endWaiting r s).store = s.store ∧ (endWaiting r s).arbiter = s.arbiter ∧
    (endWaiting r s).refresh = s.refresh ∧ (endWaiting r s).lines = s.lines ∧ (endWaiting r s).fills = s.fills ∧
    (endWaiting r s).oldestOpen = s.oldestOpen ∧ (endWaiting r s).links = s.links ∧
    (endWaiting r s).commits = s.commits ∧ (endWaiting r s).taps = s.taps ∧ (endWaiting r s).proc = s.proc ∧
    (endWaiting r s).tempo = s.tempo ∧ (endWaiting r s).oscs = s.oscs ∧ (endWaiting r s).scenes = s.scenes ∧
    (endWaiting r s).faults = s.faults ∧ (endWaiting r s).freeIx = s.freeIx ∧ (endWaiting r s).pending = s.pending := by
  unfold endWaiting
  (repeat' split) <;> simp

@[simp] theorem lookAtWaiting_frame (s : State) :
    (lookAtWaiting s).timer = s.timer ∧ (lookAtWaiting s).store = s.store ∧ (lookAtWaiting s).arbiter = s.arbiter ∧
    (lookAtWaiting s).refresh = s.refresh ∧ (lookAtWaiting s).fills = s.fills ∧
    (lookAtWaiting s).oldestOpen = s.oldestOpen ∧ (lookAtWaiting s).links = s.links ∧
    (lookAtWaiting s).commits = s.commits ∧ (lookAtWaiting s).taps = s.taps ∧ (lookAtWaiting s).proc = s.proc ∧
    (lookAtWaiting s).tempo = s.tempo ∧ (lookAtWaiting s).oscs = s.oscs ∧ (lookAtWaiting s).scenes = s.scenes ∧
    (lookAtWaiting s).faults = s.faults ∧ (lookAtWaiting s).freeIx = s.freeIx ∧
    (lookAtWaiting s).pending = s.pending := by
  unfold lookAtWaiting
  (repeat' split) <;> simp

@[simp] theorem lookAtShortage_frame (s : State) :
    (lookAtShortage s).timer = s.timer ∧ (lookAtShortage s).store = s.store ∧
    (lookAtShortage s).arbiter = s.arbiter ∧ (lookAtShortage s).refresh = s.refresh ∧
    (lookAtShortage s).lines = s.lines ∧ (lookAtShortage s).fills = s.fills ∧
    (lookAtShortage s).oldestOpen = s.oldestOpen ∧ (lookAtShortage s).links = s.links ∧
    (lookAtShortage s).commits = s.commits ∧ (lookAtShortage s).taps = s.taps ∧ (lookAtShortage s).proc = s.proc ∧
    (lookAtShortage s).tempo = s.tempo ∧ (lookAtShortage s).oscs = s.oscs ∧ (lookAtShortage s).scenes = s.scenes ∧
    (lookAtShortage s).faults = s.faults ∧ (lookAtShortage s).freeIx = s.freeIx ∧
    (lookAtShortage s).pending = s.pending := by
  unfold lookAtShortage
  (repeat' split) <;> simp

@[simp] theorem handMuted_frame (e : Engine) (p : PeriodCount) (t : TapNo) (s : State) :
    (handMuted e p t s).timer = s.timer ∧ (handMuted e p t s).store = s.store ∧
    (handMuted e p t s).arbiter = s.arbiter ∧ (handMuted e p t s).refresh = s.refresh ∧
    (handMuted e p t s).pool = s.pool ∧ (handMuted e p t s).lines = s.lines ∧ (handMuted e p t s).fills = s.fills ∧
    (handMuted e p t s).oldestOpen = s.oldestOpen ∧ (handMuted e p t s).commits = s.commits ∧
    (handMuted e p t s).proc = s.proc ∧ (handMuted e p t s).tempo = s.tempo ∧ (handMuted e p t s).oscs = s.oscs ∧
    (handMuted e p t s).scenes = s.scenes ∧ (handMuted e p t s).port = s.port ∧
    (handMuted e p t s).notices = s.notices ∧ (handMuted e p t s).faults = s.faults ∧
    (handMuted e p t s).freeIx = s.freeIx ∧ (handMuted e p t s).pending = s.pending := by
  exact ⟨rfl, rfl, rfl, rfl, rfl, rfl, rfl, rfl, rfl, rfl, rfl, rfl, rfl, rfl, rfl, rfl, rfl, rfl⟩

@[simp] theorem muteTaps_frame (e : Engine) (p : PeriodCount) (ts : List TapNo) (s : State) :
    (muteTaps e p ts s).timer = s.timer ∧ (muteTaps e p ts s).store = s.store ∧
    (muteTaps e p ts s).arbiter = s.arbiter ∧ (muteTaps e p ts s).refresh = s.refresh ∧
    (muteTaps e p ts s).pool = s.pool ∧ (muteTaps e p ts s).lines = s.lines ∧ (muteTaps e p ts s).fills = s.fills ∧
    (muteTaps e p ts s).oldestOpen = s.oldestOpen ∧ (muteTaps e p ts s).commits = s.commits ∧
    (muteTaps e p ts s).proc = s.proc ∧ (muteTaps e p ts s).tempo = s.tempo ∧ (muteTaps e p ts s).oscs = s.oscs ∧
    (muteTaps e p ts s).scenes = s.scenes ∧ (muteTaps e p ts s).port = s.port ∧
    (muteTaps e p ts s).notices = s.notices ∧ (muteTaps e p ts s).faults = s.faults ∧
    (muteTaps e p ts s).freeIx = s.freeIx ∧ (muteTaps e p ts s).pending = s.pending := by
  unfold muteTaps
  simp only [handFrame_frame]
  exact ⟨foldl_keeps State.timer _ (by simp) _ _, foldl_keeps State.store _ (by simp) _ _, foldl_keeps State.arbiter _ (by simp) _ _, foldl_keeps State.refresh _ (by simp) _ _, foldl_keeps State.pool _ (by simp) _ _, foldl_keeps State.lines _ (by simp) _ _, foldl_keeps State.fills _ (by simp) _ _, foldl_keeps State.oldestOpen _ (by simp) _ _, foldl_keeps State.commits _ (by simp) _ _, foldl_keeps State.proc _ (by simp) _ _, foldl_keeps State.tempo _ (by simp) _ _, foldl_keeps State.oscs _ (by simp) _ _, foldl_keeps State.scenes _ (by simp) _ _, foldl_keeps State.port _ (by simp) _ _, foldl_keeps State.notices _ (by simp) _ _, foldl_keeps State.faults _ (by simp) _ _, foldl_keeps State.freeIx _ (by simp) _ _, foldl_keeps State.pending _ (by simp) _ _⟩

@[simp] theorem mutePass_frame (s : State) :
    (mutePass s).timer = s.timer ∧ (mutePass s).store = s.store ∧ (mutePass s).refresh = s.refresh ∧
    (mutePass s).pool = s.pool ∧ (mutePass s).lines = s.lines ∧ (mutePass s).fills = s.fills ∧
    (mutePass s).oldestOpen = s.oldestOpen ∧ (mutePass s).commits = s.commits ∧ (mutePass s).tempo = s.tempo ∧
    (mutePass s).oscs = s.oscs ∧ (mutePass s).scenes = s.scenes ∧ (mutePass s).port = s.port ∧
    (mutePass s).notices = s.notices ∧ (mutePass s).faults = s.faults ∧ (mutePass s).freeIx = s.freeIx ∧
    (mutePass s).pending = s.pending := by
  unfold mutePass
  (repeat' split) <;> simp

@[simp] theorem emptyCommits_frame (s : State) :
    (emptyCommits s).timer = s.timer ∧ (emptyCommits s).store = s.store ∧ (emptyCommits s).refresh = s.refresh ∧
    (emptyCommits s).pool = s.pool ∧ (emptyCommits s).lines = s.lines ∧ (emptyCommits s).fills = s.fills ∧
    (emptyCommits s).oldestOpen = s.oldestOpen ∧ (emptyCommits s).taps = s.taps ∧ (emptyCommits s).proc = s.proc ∧
    (emptyCommits s).tempo = s.tempo ∧ (emptyCommits s).oscs = s.oscs ∧ (emptyCommits s).scenes = s.scenes ∧
    (emptyCommits s).port = s.port ∧ (emptyCommits s).notices = s.notices ∧ (emptyCommits s).faults = s.faults ∧
    (emptyCommits s).freeIx = s.freeIx ∧ (emptyCommits s).pending = s.pending := by
  have h : ∀ {β : Type} (g : State → β), (∀ e b s, g (freeBuffer e b s) = g s) → ∀ s' : State,
      g (s.commits.foldl (fun s f => freeBuffer f.engine f.buffer s) s') = g s' := fun g hg s' =>
    foldl_keeps g _ (fun a x => hg _ _ _) _ _
  exact ⟨(h State.timer (by simp) _).trans (by simp), (h State.store (by simp) _).trans (by simp), (h State.refresh (by simp) _).trans (by simp), (h State.pool (by simp) _).trans (by simp), (h State.lines (by simp) _).trans (by simp), (h State.fills (by simp) _).trans (by simp), (h State.oldestOpen (by simp) _).trans (by simp), (h State.taps (by simp) _).trans (by simp), (h State.proc (by simp) _).trans (by simp), (h State.tempo (by simp) _).trans (by simp), (h State.oscs (by simp) _).trans (by simp), (h State.scenes (by simp) _).trans (by simp), (h State.port (by simp) _).trans (by simp), (h State.notices (by simp) _).trans (by simp), (h State.faults (by simp) _).trans (by simp), (h State.freeIx (by simp) _).trans (by simp), (h State.pending (by simp) _).trans (by simp)⟩

@[simp] theorem withdrawFills_frame (s : State) :
    (withdrawFills s).timer = s.timer ∧ (withdrawFills s).store = s.store ∧ (withdrawFills s).refresh = s.refresh ∧
    (withdrawFills s).pool = s.pool ∧ (withdrawFills s).lines = s.lines ∧
    (withdrawFills s).oldestOpen = s.oldestOpen ∧ (withdrawFills s).links = s.links ∧
    (withdrawFills s).commits = s.commits ∧ (withdrawFills s).taps = s.taps ∧ (withdrawFills s).proc = s.proc ∧
    (withdrawFills s).tempo = s.tempo ∧ (withdrawFills s).oscs = s.oscs ∧ (withdrawFills s).scenes = s.scenes ∧
    (withdrawFills s).port = s.port ∧ (withdrawFills s).notices = s.notices ∧ (withdrawFills s).faults = s.faults ∧
    (withdrawFills s).freeIx = s.freeIx ∧ (withdrawFills s).pending = s.pending := by
  simp [withdrawFills]

@[simp] theorem enterSafe_frame (s : State) :
    (enterSafe s).timer = s.timer ∧ (enterSafe s).store = s.store ∧ (enterSafe s).refresh = s.refresh ∧
    (enterSafe s).lines = s.lines ∧ (enterSafe s).oldestOpen = s.oldestOpen ∧ (enterSafe s).tempo = s.tempo ∧
    (enterSafe s).oscs = s.oscs ∧ (enterSafe s).scenes = s.scenes ∧ (enterSafe s).freeIx = s.freeIx ∧
    (enterSafe s).pending = s.pending := by
  simp [enterSafe]

@[simp] theorem storeFault_frame (x : FaultEntry) (b : Bool) (s : State) :
    (storeFault x b s).timer = s.timer ∧ (storeFault x b s).store = s.store ∧
    (storeFault x b s).refresh = s.refresh ∧ (storeFault x b s).lines = s.lines ∧
    (storeFault x b s).oldestOpen = s.oldestOpen ∧ (storeFault x b s).tempo = s.tempo ∧
    (storeFault x b s).oscs = s.oscs ∧ (storeFault x b s).scenes = s.scenes ∧
    (storeFault x b s).freeIx = s.freeIx ∧ (storeFault x b s).pending = s.pending := by
  unfold storeFault
  (repeat' split) <;> simp

@[simp] theorem hold_frame (c : Byte) (s : State) :
    (hold c s).timer = s.timer ∧ (hold c s).store = s.store ∧ (hold c s).arbiter = s.arbiter ∧
    (hold c s).refresh = s.refresh ∧ (hold c s).pool = s.pool ∧ (hold c s).lines = s.lines ∧
    (hold c s).fills = s.fills ∧ (hold c s).oldestOpen = s.oldestOpen ∧ (hold c s).links = s.links ∧
    (hold c s).commits = s.commits ∧ (hold c s).taps = s.taps ∧ (hold c s).proc = s.proc ∧
    (hold c s).tempo = s.tempo ∧ (hold c s).oscs = s.oscs ∧ (hold c s).scenes = s.scenes ∧
    (hold c s).notices = s.notices ∧ (hold c s).faults = s.faults ∧ (hold c s).freeIx = s.freeIx ∧
    (hold c s).pending = s.pending := by
  exact ⟨rfl, rfl, rfl, rfl, rfl, rfl, rfl, rfl, rfl, rfl, rfl, rfl, rfl, rfl, rfl, rfl, rfl, rfl, rfl⟩

@[simp] theorem collide_frame (s : State) :
    (collide s).timer = s.timer ∧ (collide s).store = s.store ∧ (collide s).arbiter = s.arbiter ∧
    (collide s).refresh = s.refresh ∧ (collide s).pool = s.pool ∧ (collide s).lines = s.lines ∧
    (collide s).fills = s.fills ∧ (collide s).oldestOpen = s.oldestOpen ∧ (collide s).links = s.links ∧
    (collide s).commits = s.commits ∧ (collide s).taps = s.taps ∧ (collide s).proc = s.proc ∧
    (collide s).tempo = s.tempo ∧ (collide s).oscs = s.oscs ∧ (collide s).scenes = s.scenes ∧
    (collide s).notices = s.notices ∧ (collide s).faults = s.faults ∧ (collide s).freeIx = s.freeIx ∧
    (collide s).pending = s.pending := by
  exact ⟨rfl, rfl, rfl, rfl, rfl, rfl, rfl, rfl, rfl, rfl, rfl, rfl, rfl, rfl, rfl, rfl, rfl, rfl, rfl⟩

@[simp] theorem zerosOut_frame (n : Nat) (s : State) :
    (zerosOut n s).timer = s.timer ∧ (zerosOut n s).store = s.store ∧ (zerosOut n s).arbiter = s.arbiter ∧
    (zerosOut n s).refresh = s.refresh ∧ (zerosOut n s).pool = s.pool ∧ (zerosOut n s).lines = s.lines ∧
    (zerosOut n s).fills = s.fills ∧ (zerosOut n s).oldestOpen = s.oldestOpen ∧ (zerosOut n s).links = s.links ∧
    (zerosOut n s).commits = s.commits ∧ (zerosOut n s).taps = s.taps ∧ (zerosOut n s).proc = s.proc ∧
    (zerosOut n s).tempo = s.tempo ∧ (zerosOut n s).oscs = s.oscs ∧ (zerosOut n s).scenes = s.scenes ∧
    (zerosOut n s).notices = s.notices ∧ (zerosOut n s).faults = s.faults ∧ (zerosOut n s).freeIx = s.freeIx ∧
    (zerosOut n s).pending = s.pending := by
  exact ⟨rfl, rfl, rfl, rfl, rfl, rfl, rfl, rfl, rfl, rfl, rfl, rfl, rfl, rfl, rfl, rfl, rfl, rfl, rfl⟩

@[simp] theorem shifted_frame (r : List Byte) (n : Nat) (s : State) :
    (shifted r n s).timer = s.timer ∧ (shifted r n s).store = s.store ∧ (shifted r n s).arbiter = s.arbiter ∧
    (shifted r n s).refresh = s.refresh ∧ (shifted r n s).pool = s.pool ∧ (shifted r n s).lines = s.lines ∧
    (shifted r n s).fills = s.fills ∧ (shifted r n s).oldestOpen = s.oldestOpen ∧ (shifted r n s).links = s.links ∧
    (shifted r n s).commits = s.commits ∧ (shifted r n s).taps = s.taps ∧ (shifted r n s).proc = s.proc ∧
    (shifted r n s).tempo = s.tempo ∧ (shifted r n s).oscs = s.oscs ∧ (shifted r n s).scenes = s.scenes ∧
    (shifted r n s).notices = s.notices ∧ (shifted r n s).faults = s.faults ∧ (shifted r n s).freeIx = s.freeIx ∧
    (shifted r n s).pending = s.pending := by
  exact ⟨rfl, rfl, rfl, rfl, rfl, rfl, rfl, rfl, rfl, rfl, rfl, rfl, rfl, rfl, rfl, rfl, rfl, rfl, rfl⟩

@[simp] theorem collect_frame (s : State) :
    (collect s).timer = s.timer ∧ (collect s).store = s.store ∧ (collect s).arbiter = s.arbiter ∧
    (collect s).refresh = s.refresh ∧ (collect s).pool = s.pool ∧ (collect s).lines = s.lines ∧
    (collect s).fills = s.fills ∧ (collect s).oldestOpen = s.oldestOpen ∧ (collect s).links = s.links ∧
    (collect s).commits = s.commits ∧ (collect s).taps = s.taps ∧ (collect s).proc = s.proc ∧
    (collect s).tempo = s.tempo ∧ (collect s).oscs = s.oscs ∧ (collect s).scenes = s.scenes ∧
    (collect s).notices = s.notices ∧ (collect s).faults = s.faults ∧ (collect s).freeIx = s.freeIx ∧
    (collect s).pending = s.pending := by
  unfold collect
  (repeat' split) <;> simp

@[simp] theorem barStart_frame (s : State) :
    (barStart s).timer = s.timer ∧ (barStart s).store = s.store ∧ (barStart s).arbiter = s.arbiter ∧
    (barStart s).refresh = s.refresh ∧ (barStart s).pool = s.pool ∧ (barStart s).lines = s.lines ∧
    (barStart s).fills = s.fills ∧ (barStart s).oldestOpen = s.oldestOpen ∧ (barStart s).links = s.links ∧
    (barStart s).commits = s.commits ∧ (barStart s).taps = s.taps ∧ (barStart s).proc = s.proc ∧
    (barStart s).tempo = s.tempo ∧ (barStart s).scenes = s.scenes ∧ (barStart s).port = s.port ∧
    (barStart s).notices = s.notices ∧ (barStart s).faults = s.faults ∧ (barStart s).freeIx = s.freeIx ∧
    (barStart s).pending = s.pending := by
  exact ⟨rfl, rfl, rfl, rfl, rfl, rfl, rfl, rfl, rfl, rfl, rfl, rfl, rfl, rfl, rfl, rfl, rfl, rfl, rfl⟩

@[simp] theorem advanceBeat_frame (s : State) :
    (advanceBeat s).timer = s.timer ∧ (advanceBeat s).store = s.store ∧ (advanceBeat s).arbiter = s.arbiter ∧
    (advanceBeat s).refresh = s.refresh ∧ (advanceBeat s).pool = s.pool ∧ (advanceBeat s).lines = s.lines ∧
    (advanceBeat s).fills = s.fills ∧ (advanceBeat s).oldestOpen = s.oldestOpen ∧ (advanceBeat s).links = s.links ∧
    (advanceBeat s).commits = s.commits ∧ (advanceBeat s).taps = s.taps ∧ (advanceBeat s).proc = s.proc ∧
    (advanceBeat s).scenes = s.scenes ∧ (advanceBeat s).port = s.port ∧ (advanceBeat s).notices = s.notices ∧
    (advanceBeat s).faults = s.faults ∧ (advanceBeat s).freeIx = s.freeIx ∧ (advanceBeat s).pending = s.pending := by
  unfold advanceBeat
  (repeat' split) <;> simp

@[simp] theorem advancePosition_frame (s : State) :
    (advancePosition s).timer = s.timer ∧ (advancePosition s).store = s.store ∧
    (advancePosition s).arbiter = s.arbiter ∧ (advancePosition s).refresh = s.refresh ∧
    (advancePosition s).pool = s.pool ∧ (advancePosition s).lines = s.lines ∧ (advancePosition s).fills = s.fills ∧
    (advancePosition s).oldestOpen = s.oldestOpen ∧ (advancePosition s).links = s.links ∧
    (advancePosition s).commits = s.commits ∧ (advancePosition s).taps = s.taps ∧
    (advancePosition s).proc = s.proc ∧ (advancePosition s).scenes = s.scenes ∧ (advancePosition s).port = s.port ∧
    (advancePosition s).notices = s.notices ∧ (advancePosition s).faults = s.faults ∧
    (advancePosition s).freeIx = s.freeIx ∧ (advancePosition s).pending = s.pending := by
  unfold advancePosition
  dsimp only
  (repeat' split) <;> simp

@[simp] theorem loseTempoClock_frame (s : State) :
    (loseTempoClock s).timer = s.timer ∧ (loseTempoClock s).store = s.store ∧
    (loseTempoClock s).arbiter = s.arbiter ∧ (loseTempoClock s).refresh = s.refresh ∧
    (loseTempoClock s).pool = s.pool ∧ (loseTempoClock s).lines = s.lines ∧ (loseTempoClock s).fills = s.fills ∧
    (loseTempoClock s).oldestOpen = s.oldestOpen ∧ (loseTempoClock s).links = s.links ∧
    (loseTempoClock s).commits = s.commits ∧ (loseTempoClock s).taps = s.taps ∧ (loseTempoClock s).proc = s.proc ∧
    (loseTempoClock s).oscs = s.oscs ∧ (loseTempoClock s).scenes = s.scenes ∧ (loseTempoClock s).port = s.port ∧
    (loseTempoClock s).faults = s.faults ∧ (loseTempoClock s).freeIx = s.freeIx ∧
    (loseTempoClock s).pending = s.pending := by
  exact ⟨rfl, rfl, rfl, rfl, rfl, rfl, rfl, rfl, rfl, rfl, rfl, rfl, rfl, rfl, rfl, rfl, rfl, rfl⟩

@[simp] theorem countPulseLoss_frame (s : State) :
    (countPulseLoss s).timer = s.timer ∧ (countPulseLoss s).store = s.store ∧
    (countPulseLoss s).arbiter = s.arbiter ∧ (countPulseLoss s).refresh = s.refresh ∧
    (countPulseLoss s).pool = s.pool ∧ (countPulseLoss s).lines = s.lines ∧ (countPulseLoss s).fills = s.fills ∧
    (countPulseLoss s).oldestOpen = s.oldestOpen ∧ (countPulseLoss s).links = s.links ∧
    (countPulseLoss s).commits = s.commits ∧ (countPulseLoss s).taps = s.taps ∧ (countPulseLoss s).proc = s.proc ∧
    (countPulseLoss s).oscs = s.oscs ∧ (countPulseLoss s).scenes = s.scenes ∧ (countPulseLoss s).port = s.port ∧
    (countPulseLoss s).faults = s.faults ∧ (countPulseLoss s).freeIx = s.freeIx ∧
    (countPulseLoss s).pending = s.pending := by
  unfold countPulseLoss
  (repeat' split) <;> simp

@[simp] theorem tempoEdge_frame (s : State) :
    (tempoEdge s).timer = s.timer ∧ (tempoEdge s).store = s.store ∧ (tempoEdge s).arbiter = s.arbiter ∧
    (tempoEdge s).refresh = s.refresh ∧ (tempoEdge s).pool = s.pool ∧ (tempoEdge s).lines = s.lines ∧
    (tempoEdge s).fills = s.fills ∧ (tempoEdge s).oldestOpen = s.oldestOpen ∧ (tempoEdge s).links = s.links ∧
    (tempoEdge s).commits = s.commits ∧ (tempoEdge s).taps = s.taps ∧ (tempoEdge s).proc = s.proc ∧
    (tempoEdge s).scenes = s.scenes ∧ (tempoEdge s).port = s.port ∧ (tempoEdge s).faults = s.faults ∧
    (tempoEdge s).freeIx = s.freeIx ∧ (tempoEdge s).pending = s.pending := by
  simp [tempoEdge]

@[simp] theorem alignBeat_frame (ib : Nat) (s : State) :
    (alignBeat ib s).timer = s.timer ∧ (alignBeat ib s).store = s.store ∧ (alignBeat ib s).arbiter = s.arbiter ∧
    (alignBeat ib s).refresh = s.refresh ∧ (alignBeat ib s).pool = s.pool ∧ (alignBeat ib s).lines = s.lines ∧
    (alignBeat ib s).fills = s.fills ∧ (alignBeat ib s).oldestOpen = s.oldestOpen ∧
    (alignBeat ib s).links = s.links ∧ (alignBeat ib s).commits = s.commits ∧ (alignBeat ib s).taps = s.taps ∧
    (alignBeat ib s).proc = s.proc ∧ (alignBeat ib s).scenes = s.scenes ∧ (alignBeat ib s).port = s.port ∧
    (alignBeat ib s).notices = s.notices ∧ (alignBeat ib s).faults = s.faults ∧
    (alignBeat ib s).freeIx = s.freeIx ∧ (alignBeat ib s).pending = s.pending := by
  unfold alignBeat
  (repeat' split) <;> simp

@[simp] theorem restartBeat_frame (s : State) :
    (restartBeat s).timer = s.timer ∧ (restartBeat s).store = s.store ∧ (restartBeat s).arbiter = s.arbiter ∧
    (restartBeat s).refresh = s.refresh ∧ (restartBeat s).pool = s.pool ∧ (restartBeat s).lines = s.lines ∧
    (restartBeat s).fills = s.fills ∧ (restartBeat s).oldestOpen = s.oldestOpen ∧ (restartBeat s).links = s.links ∧
    (restartBeat s).commits = s.commits ∧ (restartBeat s).taps = s.taps ∧ (restartBeat s).proc = s.proc ∧
    (restartBeat s).scenes = s.scenes ∧ (restartBeat s).port = s.port ∧ (restartBeat s).notices = s.notices ∧
    (restartBeat s).faults = s.faults ∧ (restartBeat s).freeIx = s.freeIx ∧ (restartBeat s).pending = s.pending := by
  exact ⟨rfl, rfl, rfl, rfl, rfl, rfl, rfl, rfl, rfl, rfl, rfl, rfl, rfl, rfl, rfl, rfl, rfl, rfl⟩

@[simp] theorem adopt_frame (v : Nat) (s : State) :
    (adopt v s).timer = s.timer ∧ (adopt v s).store = s.store ∧ (adopt v s).arbiter = s.arbiter ∧
    (adopt v s).refresh = s.refresh ∧ (adopt v s).pool = s.pool ∧ (adopt v s).lines = s.lines ∧
    (adopt v s).fills = s.fills ∧ (adopt v s).oldestOpen = s.oldestOpen ∧ (adopt v s).links = s.links ∧
    (adopt v s).commits = s.commits ∧ (adopt v s).taps = s.taps ∧ (adopt v s).proc = s.proc ∧
    (adopt v s).scenes = s.scenes ∧ (adopt v s).port = s.port ∧ (adopt v s).notices = s.notices ∧
    (adopt v s).faults = s.faults ∧ (adopt v s).freeIx = s.freeIx ∧ (adopt v s).pending = s.pending := by
  unfold adopt
  dsimp only
  (repeat' split) <;> simp

@[simp] theorem offer_frame (v : Nat) (s : State) :
    (offer v s).timer = s.timer ∧ (offer v s).store = s.store ∧ (offer v s).arbiter = s.arbiter ∧
    (offer v s).refresh = s.refresh ∧ (offer v s).pool = s.pool ∧ (offer v s).lines = s.lines ∧
    (offer v s).fills = s.fills ∧ (offer v s).oldestOpen = s.oldestOpen ∧ (offer v s).links = s.links ∧
    (offer v s).commits = s.commits ∧ (offer v s).taps = s.taps ∧ (offer v s).proc = s.proc ∧
    (offer v s).scenes = s.scenes ∧ (offer v s).port = s.port ∧ (offer v s).notices = s.notices ∧
    (offer v s).faults = s.faults ∧ (offer v s).freeIx = s.freeIx ∧ (offer v s).pending = s.pending := by
  unfold offer
  (repeat' split) <;> simp

@[simp] theorem offerWindow_frame (s : State) :
    (offerWindow s).timer = s.timer ∧ (offerWindow s).store = s.store ∧ (offerWindow s).arbiter = s.arbiter ∧
    (offerWindow s).refresh = s.refresh ∧ (offerWindow s).pool = s.pool ∧ (offerWindow s).lines = s.lines ∧
    (offerWindow s).fills = s.fills ∧ (offerWindow s).oldestOpen = s.oldestOpen ∧ (offerWindow s).links = s.links ∧
    (offerWindow s).commits = s.commits ∧ (offerWindow s).taps = s.taps ∧ (offerWindow s).proc = s.proc ∧
    (offerWindow s).scenes = s.scenes ∧ (offerWindow s).port = s.port ∧ (offerWindow s).notices = s.notices ∧
    (offerWindow s).faults = s.faults ∧ (offerWindow s).freeIx = s.freeIx ∧ (offerWindow s).pending = s.pending := by
  simp [offerWindow]

@[simp] theorem acquirePulse_frame (n : Nat) (s : State) :
    (acquirePulse n s).timer = s.timer ∧ (acquirePulse n s).store = s.store ∧
    (acquirePulse n s).arbiter = s.arbiter ∧ (acquirePulse n s).refresh = s.refresh ∧
    (acquirePulse n s).pool = s.pool ∧ (acquirePulse n s).lines = s.lines ∧ (acquirePulse n s).fills = s.fills ∧
    (acquirePulse n s).oldestOpen = s.oldestOpen ∧ (acquirePulse n s).links = s.links ∧
    (acquirePulse n s).commits = s.commits ∧ (acquirePulse n s).taps = s.taps ∧ (acquirePulse n s).proc = s.proc ∧
    (acquirePulse n s).scenes = s.scenes ∧ (acquirePulse n s).port = s.port ∧
    (acquirePulse n s).notices = s.notices ∧ (acquirePulse n s).faults = s.faults ∧
    (acquirePulse n s).freeIx = s.freeIx ∧ (acquirePulse n s).pending = s.pending := by
  unfold acquirePulse
  dsimp only
  (repeat' split) <;> simp

@[simp] theorem followPulse_frame (n : Nat) (s : State) :
    (followPulse n s).timer = s.timer ∧ (followPulse n s).store = s.store ∧ (followPulse n s).arbiter = s.arbiter ∧
    (followPulse n s).refresh = s.refresh ∧ (followPulse n s).pool = s.pool ∧ (followPulse n s).lines = s.lines ∧
    (followPulse n s).fills = s.fills ∧ (followPulse n s).oldestOpen = s.oldestOpen ∧
    (followPulse n s).links = s.links ∧ (followPulse n s).commits = s.commits ∧ (followPulse n s).taps = s.taps ∧
    (followPulse n s).proc = s.proc ∧ (followPulse n s).scenes = s.scenes ∧ (followPulse n s).port = s.port ∧
    (followPulse n s).notices = s.notices ∧ (followPulse n s).faults = s.faults ∧
    (followPulse n s).freeIx = s.freeIx ∧ (followPulse n s).pending = s.pending := by
  unfold followPulse
  dsimp only
  (repeat' split) <;> simp

@[simp] theorem takePulse_frame (s : State) :
    (takePulse s).timer = s.timer ∧ (takePulse s).store = s.store ∧ (takePulse s).arbiter = s.arbiter ∧
    (takePulse s).refresh = s.refresh ∧ (takePulse s).pool = s.pool ∧ (takePulse s).lines = s.lines ∧
    (takePulse s).fills = s.fills ∧ (takePulse s).oldestOpen = s.oldestOpen ∧ (takePulse s).links = s.links ∧
    (takePulse s).commits = s.commits ∧ (takePulse s).taps = s.taps ∧ (takePulse s).proc = s.proc ∧
    (takePulse s).scenes = s.scenes ∧ (takePulse s).port = s.port ∧ (takePulse s).notices = s.notices ∧
    (takePulse s).faults = s.faults ∧ (takePulse s).freeIx = s.freeIx ∧ (takePulse s).pending = s.pending := by
  unfold takePulse measurePulse
  (repeat' split) <;> simp

@[simp] theorem oscBoundary_frame (b : Bool) (s : State) :
    (oscBoundary b s).timer = s.timer ∧ (oscBoundary b s).store = s.store ∧ (oscBoundary b s).arbiter = s.arbiter ∧
    (oscBoundary b s).refresh = s.refresh ∧ (oscBoundary b s).pool = s.pool ∧ (oscBoundary b s).lines = s.lines ∧
    (oscBoundary b s).fills = s.fills ∧ (oscBoundary b s).oldestOpen = s.oldestOpen ∧
    (oscBoundary b s).links = s.links ∧ (oscBoundary b s).commits = s.commits ∧ (oscBoundary b s).taps = s.taps ∧
    (oscBoundary b s).proc = s.proc ∧ (oscBoundary b s).scenes = s.scenes ∧ (oscBoundary b s).port = s.port ∧
    (oscBoundary b s).notices = s.notices ∧ (oscBoundary b s).faults = s.faults ∧
    (oscBoundary b s).freeIx = s.freeIx ∧ (oscBoundary b s).pending = s.pending := by
  exact ⟨rfl, rfl, rfl, rfl, rfl, rfl, rfl, rfl, rfl, rfl, rfl, rfl, rfl, rfl, rfl, rfl, rfl, rfl⟩

@[simp] theorem tapBoundary_frame (s : State) :
    (tapBoundary s).timer = s.timer ∧ (tapBoundary s).store = s.store ∧ (tapBoundary s).arbiter = s.arbiter ∧
    (tapBoundary s).refresh = s.refresh ∧ (tapBoundary s).pool = s.pool ∧ (tapBoundary s).lines = s.lines ∧
    (tapBoundary s).fills = s.fills ∧ (tapBoundary s).oldestOpen = s.oldestOpen ∧ (tapBoundary s).links = s.links ∧
    (tapBoundary s).commits = s.commits ∧ (tapBoundary s).proc = s.proc ∧ (tapBoundary s).oscs = s.oscs ∧
    (tapBoundary s).scenes = s.scenes ∧ (tapBoundary s).port = s.port ∧ (tapBoundary s).notices = s.notices ∧
    (tapBoundary s).faults = s.faults ∧ (tapBoundary s).freeIx = s.freeIx ∧ (tapBoundary s).pending = s.pending := by
  exact ⟨rfl, rfl, rfl, rfl, rfl, rfl, rfl, rfl, rfl, rfl, rfl, rfl, rfl, rfl, rfl, rfl, rfl, rfl⟩

@[simp] theorem stageEdit_frame (t : TapNo) (e : Edit) (s : State) :
    (stageEdit t e s).timer = s.timer ∧ (stageEdit t e s).store = s.store ∧ (stageEdit t e s).arbiter = s.arbiter ∧
    (stageEdit t e s).refresh = s.refresh ∧ (stageEdit t e s).pool = s.pool ∧ (stageEdit t e s).lines = s.lines ∧
    (stageEdit t e s).fills = s.fills ∧ (stageEdit t e s).oldestOpen = s.oldestOpen ∧
    (stageEdit t e s).links = s.links ∧ (stageEdit t e s).commits = s.commits ∧ (stageEdit t e s).proc = s.proc ∧
    (stageEdit t e s).tempo = s.tempo ∧ (stageEdit t e s).oscs = s.oscs ∧ (stageEdit t e s).scenes = s.scenes ∧
    (stageEdit t e s).port = s.port ∧ (stageEdit t e s).notices = s.notices ∧ (stageEdit t e s).faults = s.faults ∧
    (stageEdit t e s).freeIx = s.freeIx ∧ (stageEdit t e s).pending = s.pending := by
  exact ⟨rfl, rfl, rfl, rfl, rfl, rfl, rfl, rfl, rfl, rfl, rfl, rfl, rfl, rfl, rfl, rfl, rfl, rfl, rfl⟩

@[simp] theorem popTempo_frame (x : Scene) (s : State) :
    (popTempo x s).timer = s.timer ∧ (popTempo x s).store = s.store ∧ (popTempo x s).arbiter = s.arbiter ∧
    (popTempo x s).refresh = s.refresh ∧ (popTempo x s).pool = s.pool ∧ (popTempo x s).lines = s.lines ∧
    (popTempo x s).fills = s.fills ∧ (popTempo x s).oldestOpen = s.oldestOpen ∧ (popTempo x s).links = s.links ∧
    (popTempo x s).commits = s.commits ∧ (popTempo x s).taps = s.taps ∧ (popTempo x s).proc = s.proc ∧
    (popTempo x s).scenes = s.scenes ∧ (popTempo x s).port = s.port ∧ (popTempo x s).notices = s.notices ∧
    (popTempo x s).faults = s.faults ∧ (popTempo x s).freeIx = s.freeIx ∧ (popTempo x s).pending = s.pending := by
  unfold popTempo
  (repeat' split) <;> simp

@[simp] theorem passOn_frame (p : Pass) (s : State) :
    (passOn p s).timer = s.timer ∧ (passOn p s).store = s.store ∧ (passOn p s).arbiter = s.arbiter ∧
    (passOn p s).refresh = s.refresh ∧ (passOn p s).pool = s.pool ∧ (passOn p s).lines = s.lines ∧
    (passOn p s).fills = s.fills ∧ (passOn p s).oldestOpen = s.oldestOpen ∧ (passOn p s).commits = s.commits ∧
    (passOn p s).taps = s.taps ∧ (passOn p s).tempo = s.tempo ∧ (passOn p s).oscs = s.oscs ∧
    (passOn p s).scenes = s.scenes ∧ (passOn p s).port = s.port ∧ (passOn p s).notices = s.notices ∧
    (passOn p s).faults = s.faults ∧ (passOn p s).freeIx = s.freeIx ∧ (passOn p s).pending = s.pending := by
  unfold passOn
  (repeat' split) <;> simp

@[simp] theorem beginPass_frame (e : Engine) (s : State) :
    (beginPass e s).timer = s.timer ∧ (beginPass e s).store = s.store ∧ (beginPass e s).arbiter = s.arbiter ∧
    (beginPass e s).refresh = s.refresh ∧ (beginPass e s).pool = s.pool ∧ (beginPass e s).lines = s.lines ∧
    (beginPass e s).fills = s.fills ∧ (beginPass e s).oldestOpen = s.oldestOpen ∧
    (beginPass e s).commits = s.commits ∧ (beginPass e s).tempo = s.tempo ∧ (beginPass e s).oscs = s.oscs ∧
    (beginPass e s).scenes = s.scenes ∧ (beginPass e s).port = s.port ∧ (beginPass e s).notices = s.notices ∧
    (beginPass e s).faults = s.faults ∧ (beginPass e s).freeIx = s.freeIx ∧ (beginPass e s).pending = s.pending := by
  unfold beginPass
  (repeat' split) <;> simp

@[simp] theorem handBlock_frame (p : Pass) (t : TapNo) (s : State) :
    (handBlock p t s).timer = s.timer ∧ (handBlock p t s).store = s.store ∧ (handBlock p t s).arbiter = s.arbiter ∧
    (handBlock p t s).refresh = s.refresh ∧ (handBlock p t s).pool = s.pool ∧ (handBlock p t s).lines = s.lines ∧
    (handBlock p t s).fills = s.fills ∧ (handBlock p t s).oldestOpen = s.oldestOpen ∧
    (handBlock p t s).commits = s.commits ∧ (handBlock p t s).proc = s.proc ∧ (handBlock p t s).tempo = s.tempo ∧
    (handBlock p t s).oscs = s.oscs ∧ (handBlock p t s).scenes = s.scenes ∧ (handBlock p t s).port = s.port ∧
    (handBlock p t s).notices = s.notices ∧ (handBlock p t s).faults = s.faults ∧
    (handBlock p t s).freeIx = s.freeIx ∧ (handBlock p t s).pending = s.pending := by
  exact ⟨rfl, rfl, rfl, rfl, rfl, rfl, rfl, rfl, rfl, rfl, rfl, rfl, rfl, rfl, rfl, rfl, rfl, rfl⟩

@[simp] theorem passTakes_frame (o : ReadOutcome) (s : State) :
    (passTakes o s).timer = s.timer ∧ (passTakes o s).store = s.store ∧ (passTakes o s).arbiter = s.arbiter ∧
    (passTakes o s).refresh = s.refresh ∧ (passTakes o s).pool = s.pool ∧ (passTakes o s).lines = s.lines ∧
    (passTakes o s).fills = s.fills ∧ (passTakes o s).oldestOpen = s.oldestOpen ∧
    (passTakes o s).commits = s.commits ∧ (passTakes o s).tempo = s.tempo ∧ (passTakes o s).oscs = s.oscs ∧
    (passTakes o s).scenes = s.scenes ∧ (passTakes o s).port = s.port ∧ (passTakes o s).notices = s.notices ∧
    (passTakes o s).faults = s.faults ∧ (passTakes o s).freeIx = s.freeIx ∧ (passTakes o s).pending = s.pending := by
  unfold passTakes
  (repeat' split) <;> simp

@[simp] theorem readFault_frame (l : LineNo) (e : Engine) (w : Nat) (o : ReadOutcome) (s : State) :
    (readFault l e w o s).timer = s.timer ∧ (readFault l e w o s).store = s.store ∧
    (readFault l e w o s).refresh = s.refresh ∧ (readFault l e w o s).lines = s.lines ∧
    (readFault l e w o s).oldestOpen = s.oldestOpen ∧ (readFault l e w o s).tempo = s.tempo ∧
    (readFault l e w o s).oscs = s.oscs ∧ (readFault l e w o s).scenes = s.scenes ∧
    (readFault l e w o s).freeIx = s.freeIx ∧ (readFault l e w o s).pending = s.pending := by
  unfold readFault
  (repeat' split) <;> simp

@[simp] theorem cutPass_frame (s : State) :
    (cutPass s).timer = s.timer ∧ (cutPass s).store = s.store ∧ (cutPass s).refresh = s.refresh ∧
    (cutPass s).pool = s.pool ∧ (cutPass s).lines = s.lines ∧ (cutPass s).fills = s.fills ∧
    (cutPass s).oldestOpen = s.oldestOpen ∧ (cutPass s).commits = s.commits ∧ (cutPass s).taps = s.taps ∧
    (cutPass s).tempo = s.tempo ∧ (cutPass s).oscs = s.oscs ∧ (cutPass s).scenes = s.scenes ∧
    (cutPass s).port = s.port ∧ (cutPass s).notices = s.notices ∧ (cutPass s).faults = s.faults ∧
    (cutPass s).freeIx = s.freeIx ∧ (cutPass s).pending = s.pending := by
  unfold cutPass
  (repeat' split) <;> simp

@[simp] theorem shortFrame_frame (p : PeriodCount) (e : Engine) (s : State) :
    (shortFrame p s e).timer = s.timer ∧ (shortFrame p s e).store = s.store ∧
    (shortFrame p s e).arbiter = s.arbiter ∧ (shortFrame p s e).refresh = s.refresh ∧
    (shortFrame p s e).pool = s.pool ∧ (shortFrame p s e).lines = s.lines ∧ (shortFrame p s e).fills = s.fills ∧
    (shortFrame p s e).oldestOpen = s.oldestOpen ∧ (shortFrame p s e).commits = s.commits ∧
    (shortFrame p s e).taps = s.taps ∧ (shortFrame p s e).proc = s.proc ∧ (shortFrame p s e).tempo = s.tempo ∧
    (shortFrame p s e).oscs = s.oscs ∧ (shortFrame p s e).scenes = s.scenes ∧ (shortFrame p s e).port = s.port ∧
    (shortFrame p s e).notices = s.notices ∧ (shortFrame p s e).faults = s.faults ∧
    (shortFrame p s e).freeIx = s.freeIx ∧ (shortFrame p s e).pending = s.pending := by
  exact ⟨rfl, rfl, rfl, rfl, rfl, rfl, rfl, rfl, rfl, rfl, rfl, rfl, rfl, rfl, rfl, rfl, rfl, rfl, rfl⟩

@[simp] theorem countShort_frame (e : Engine) (s : State) :
    (countShort s e).timer = s.timer ∧ (countShort s e).store = s.store ∧ (countShort s e).arbiter = s.arbiter ∧
    (countShort s e).refresh = s.refresh ∧ (countShort s e).pool = s.pool ∧ (countShort s e).lines = s.lines ∧
    (countShort s e).fills = s.fills ∧ (countShort s e).oldestOpen = s.oldestOpen ∧
    (countShort s e).commits = s.commits ∧ (countShort s e).taps = s.taps ∧ (countShort s e).proc = s.proc ∧
    (countShort s e).tempo = s.tempo ∧ (countShort s e).oscs = s.oscs ∧ (countShort s e).scenes = s.scenes ∧
    (countShort s e).port = s.port ∧ (countShort s e).faults = s.faults ∧ (countShort s e).freeIx = s.freeIx ∧
    (countShort s e).pending = s.pending := by
  simp [countShort]

@[simp] theorem cutAtBoundary_frame (p : PeriodCount) (s : State) :
    (cutAtBoundary p s).timer = s.timer ∧ (cutAtBoundary p s).store = s.store ∧
    (cutAtBoundary p s).refresh = s.refresh ∧ (cutAtBoundary p s).pool = s.pool ∧
    (cutAtBoundary p s).lines = s.lines ∧ (cutAtBoundary p s).fills = s.fills ∧
    (cutAtBoundary p s).oldestOpen = s.oldestOpen ∧ (cutAtBoundary p s).commits = s.commits ∧
    (cutAtBoundary p s).taps = s.taps ∧ (cutAtBoundary p s).tempo = s.tempo ∧ (cutAtBoundary p s).oscs = s.oscs ∧
    (cutAtBoundary p s).scenes = s.scenes ∧ (cutAtBoundary p s).port = s.port ∧
    (cutAtBoundary p s).faults = s.faults ∧ (cutAtBoundary p s).freeIx = s.freeIx ∧
    (cutAtBoundary p s).pending = s.pending := by
  have h : ∀ {β : Type} (g : State → β), (∀ s e, g (countShort s e) = g s) → (∀ s e, g (shortFrame p s e) = g s) →
      ∀ xs ys s', g (List.foldl countShort (List.foldl (shortFrame p) s' ys) xs) = g s' := fun g h1 h2 xs ys s' =>
    (foldl_keeps g _ h1 _ _).trans (foldl_keeps g _ h2 _ _)
  exact ⟨(h State.timer (by simp) (by simp) _ _ _).trans (by simp), (h State.store (by simp) (by simp) _ _ _).trans (by simp), (h State.refresh (by simp) (by simp) _ _ _).trans (by simp), (h State.pool (by simp) (by simp) _ _ _).trans (by simp), (h State.lines (by simp) (by simp) _ _ _).trans (by simp), (h State.fills (by simp) (by simp) _ _ _).trans (by simp), (h State.oldestOpen (by simp) (by simp) _ _ _).trans (by simp), (h State.commits (by simp) (by simp) _ _ _).trans (by simp), (h State.taps (by simp) (by simp) _ _ _).trans (by simp), (h State.tempo (by simp) (by simp) _ _ _).trans (by simp), (h State.oscs (by simp) (by simp) _ _ _).trans (by simp), (h State.scenes (by simp) (by simp) _ _ _).trans (by simp), (h State.port (by simp) (by simp) _ _ _).trans (by simp), (h State.faults (by simp) (by simp) _ _ _).trans (by simp), (h State.freeIx (by simp) (by simp) _ _ _).trans (by simp), (h State.pending (by simp) (by simp) _ _ _).trans (by simp)⟩

@[simp] theorem formQueue_frame (s : State) :
    (formQueue s).timer = s.timer ∧ (formQueue s).store = s.store ∧ (formQueue s).arbiter = s.arbiter ∧
    (formQueue s).refresh = s.refresh ∧ (formQueue s).pool = s.pool ∧ (formQueue s).lines = s.lines ∧
    (formQueue s).fills = s.fills ∧ (formQueue s).oldestOpen = s.oldestOpen ∧ (formQueue s).links = s.links ∧
    (formQueue s).commits = s.commits ∧ (formQueue s).taps = s.taps ∧ (formQueue s).tempo = s.tempo ∧
    (formQueue s).oscs = s.oscs ∧ (formQueue s).scenes = s.scenes ∧ (formQueue s).port = s.port ∧
    (formQueue s).notices = s.notices ∧ (formQueue s).faults = s.faults ∧ (formQueue s).freeIx = s.freeIx ∧
    (formQueue s).pending = s.pending := by
  exact ⟨rfl, rfl, rfl, rfl, rfl, rfl, rfl, rfl, rfl, rfl, rfl, rfl, rfl, rfl, rfl, rfl, rfl, rfl, rfl⟩

@[simp] theorem closeLines_frame (b : Bool) (s : State) :
    (closeLines b s).timer = s.timer ∧ (closeLines b s).store = s.store ∧ (closeLines b s).refresh = s.refresh ∧
    (closeLines b s).pool = s.pool ∧ (closeLines b s).oldestOpen = s.oldestOpen ∧
    (closeLines b s).links = s.links ∧ (closeLines b s).commits = s.commits ∧ (closeLines b s).taps = s.taps ∧
    (closeLines b s).proc = s.proc ∧ (closeLines b s).tempo = s.tempo ∧ (closeLines b s).oscs = s.oscs ∧
    (closeLines b s).scenes = s.scenes ∧ (closeLines b s).port = s.port ∧ (closeLines b s).notices = s.notices ∧
    (closeLines b s).faults = s.faults ∧ (closeLines b s).freeIx = s.freeIx ∧ (closeLines b s).pending = s.pending := by
  simp [closeLines]

@[simp] theorem freeLine_frame (l : LineNo) (s : State) :
    (freeLine l s).timer = s.timer ∧ (freeLine l s).store = s.store ∧ (freeLine l s).refresh = s.refresh ∧
    (freeLine l s).taps = s.taps ∧ (freeLine l s).proc = s.proc ∧ (freeLine l s).tempo = s.tempo ∧
    (freeLine l s).oscs = s.oscs ∧ (freeLine l s).scenes = s.scenes ∧ (freeLine l s).port = s.port ∧
    (freeLine l s).notices = s.notices ∧ (freeLine l s).faults = s.faults ∧ (freeLine l s).freeIx = s.freeIx ∧
    (freeLine l s).pending = s.pending := by
  simp [freeLine]

@[simp] theorem receiverEdge_frame (s : State) :
    (receiverEdge s).timer = s.timer ∧ (receiverEdge s).store = s.store ∧ (receiverEdge s).arbiter = s.arbiter ∧
    (receiverEdge s).refresh = s.refresh ∧ (receiverEdge s).pool = s.pool ∧ (receiverEdge s).lines = s.lines ∧
    (receiverEdge s).fills = s.fills ∧ (receiverEdge s).oldestOpen = s.oldestOpen ∧
    (receiverEdge s).commits = s.commits ∧ (receiverEdge s).taps = s.taps ∧ (receiverEdge s).proc = s.proc ∧
    (receiverEdge s).tempo = s.tempo ∧ (receiverEdge s).oscs = s.oscs ∧ (receiverEdge s).scenes = s.scenes ∧
    (receiverEdge s).port = s.port ∧ (receiverEdge s).notices = s.notices ∧ (receiverEdge s).faults = s.faults ∧
    (receiverEdge s).freeIx = s.freeIx ∧ (receiverEdge s).pending = s.pending := by
  exact ⟨rfl, rfl, rfl, rfl, rfl, rfl, rfl, rfl, rfl, rfl, rfl, rfl, rfl, rfl, rfl, rfl, rfl, rfl, rfl⟩

@[simp] theorem countRefusal_frame (e : Engine) (x : InputStatus) (s : State) :
    (countRefusal e x s).timer = s.timer ∧ (countRefusal e x s).store = s.store ∧
    (countRefusal e x s).arbiter = s.arbiter ∧ (countRefusal e x s).refresh = s.refresh ∧
    (countRefusal e x s).pool = s.pool ∧ (countRefusal e x s).lines = s.lines ∧
    (countRefusal e x s).fills = s.fills ∧ (countRefusal e x s).oldestOpen = s.oldestOpen ∧
    (countRefusal e x s).commits = s.commits ∧ (countRefusal e x s).taps = s.taps ∧
    (countRefusal e x s).proc = s.proc ∧ (countRefusal e x s).tempo = s.tempo ∧
    (countRefusal e x s).oscs = s.oscs ∧ (countRefusal e x s).scenes = s.scenes ∧
    (countRefusal e x s).port = s.port ∧ (countRefusal e x s).faults = s.faults ∧
    (countRefusal e x s).freeIx = s.freeIx ∧ (countRefusal e x s).pending = s.pending := by
  unfold countRefusal
  (repeat' split) <;> simp

@[simp] theorem refuseFrame_frame (e : Engine) (b : Fin 2) (x : InputStatus) (s : State) :
    (refuseFrame e b x s).timer = s.timer ∧ (refuseFrame e b x s).store = s.store ∧
    (refuseFrame e b x s).arbiter = s.arbiter ∧ (refuseFrame e b x s).refresh = s.refresh ∧
    (refuseFrame e b x s).pool = s.pool ∧ (refuseFrame e b x s).lines = s.lines ∧
    (refuseFrame e b x s).fills = s.fills ∧ (refuseFrame e b x s).oldestOpen = s.oldestOpen ∧
    (refuseFrame e b x s).commits = s.commits ∧ (refuseFrame e b x s).taps = s.taps ∧
    (refuseFrame e b x s).proc = s.proc ∧ (refuseFrame e b x s).tempo = s.tempo ∧
    (refuseFrame e b x s).oscs = s.oscs ∧ (refuseFrame e b x s).scenes = s.scenes ∧
    (refuseFrame e b x s).port = s.port ∧ (refuseFrame e b x s).faults = s.faults ∧
    (refuseFrame e b x s).freeIx = s.freeIx ∧ (refuseFrame e b x s).pending = s.pending := by
  simp [refuseFrame]

@[simp] theorem judgeBlocks_frame (e : Engine) (earlier : List Nat) (blocks : List (Nat × List Sample)) (s : State) :
    (judgeBlocks e earlier blocks s).2.2.timer = s.timer ∧ (judgeBlocks e earlier blocks s).2.2.store = s.store ∧
    (judgeBlocks e earlier blocks s).2.2.arbiter = s.arbiter ∧
    (judgeBlocks e earlier blocks s).2.2.refresh = s.refresh ∧ (judgeBlocks e earlier blocks s).2.2.pool = s.pool ∧
    (judgeBlocks e earlier blocks s).2.2.fills = s.fills ∧
    (judgeBlocks e earlier blocks s).2.2.oldestOpen = s.oldestOpen ∧
    (judgeBlocks e earlier blocks s).2.2.links = s.links ∧
    (judgeBlocks e earlier blocks s).2.2.commits = s.commits ∧ (judgeBlocks e earlier blocks s).2.2.taps = s.taps ∧
    (judgeBlocks e earlier blocks s).2.2.proc = s.proc ∧ (judgeBlocks e earlier blocks s).2.2.tempo = s.tempo ∧
    (judgeBlocks e earlier blocks s).2.2.oscs = s.oscs ∧ (judgeBlocks e earlier blocks s).2.2.scenes = s.scenes ∧
    (judgeBlocks e earlier blocks s).2.2.port = s.port ∧ (judgeBlocks e earlier blocks s).2.2.notices = s.notices ∧
    (judgeBlocks e earlier blocks s).2.2.faults = s.faults ∧
    (judgeBlocks e earlier blocks s).2.2.freeIx = s.freeIx ∧
    (judgeBlocks e earlier blocks s).2.2.pending = s.pending := by
  induction blocks generalizing earlier s with
  | nil => simp [judgeBlocks]
  | cons x xs ih =>
    unfold judgeBlocks
    split
    · simp [ih, keepBlock]
    · simp [ih]

@[simp] theorem sendOn_frame (e : Engine) (b : Fin 2) (ks : List KeptBlock) (s : State) :
    (sendOn e b ks s).timer = s.timer ∧ (sendOn e b ks s).store = s.store ∧ (sendOn e b ks s).arbiter = s.arbiter ∧
    (sendOn e b ks s).refresh = s.refresh ∧ (sendOn e b ks s).pool = s.pool ∧ (sendOn e b ks s).lines = s.lines ∧
    (sendOn e b ks s).fills = s.fills ∧ (sendOn e b ks s).oldestOpen = s.oldestOpen ∧
    (sendOn e b ks s).taps = s.taps ∧ (sendOn e b ks s).proc = s.proc ∧ (sendOn e b ks s).tempo = s.tempo ∧
    (sendOn e b ks s).oscs = s.oscs ∧ (sendOn e b ks s).scenes = s.scenes ∧ (sendOn e b ks s).port = s.port ∧
    (sendOn e b ks s).notices = s.notices ∧ (sendOn e b ks s).faults = s.faults ∧
    (sendOn e b ks s).freeIx = s.freeIx ∧ (sendOn e b ks s).pending = s.pending := by
  unfold sendOn
  dsimp only
  (repeat' split) <;> simp

@[simp] theorem acceptFrame_frame (e : Engine) (b : Fin 2) (bs : List Byte) (s : State) :
    (acceptFrame e b bs s).timer = s.timer ∧ (acceptFrame e b bs s).store = s.store ∧
    (acceptFrame e b bs s).arbiter = s.arbiter ∧ (acceptFrame e b bs s).refresh = s.refresh ∧
    (acceptFrame e b bs s).pool = s.pool ∧ (acceptFrame e b bs s).fills = s.fills ∧
    (acceptFrame e b bs s).oldestOpen = s.oldestOpen ∧ (acceptFrame e b bs s).taps = s.taps ∧
    (acceptFrame e b bs s).proc = s.proc ∧ (acceptFrame e b bs s).tempo = s.tempo ∧
    (acceptFrame e b bs s).oscs = s.oscs ∧ (acceptFrame e b bs s).scenes = s.scenes ∧
    (acceptFrame e b bs s).port = s.port ∧ (acceptFrame e b bs s).faults = s.faults ∧
    (acceptFrame e b bs s).freeIx = s.freeIx ∧ (acceptFrame e b bs s).pending = s.pending := by
  simp [acceptFrame]

@[simp] theorem judgeFrame_frame (e : Engine) (b : Fin 2) (bs : List Byte) (o : Bool) (s : State) :
    (judgeFrame e b bs o s).timer = s.timer ∧ (judgeFrame e b bs o s).store = s.store ∧
    (judgeFrame e b bs o s).refresh = s.refresh ∧ (judgeFrame e b bs o s).pool = s.pool ∧
    (judgeFrame e b bs o s).fills = s.fills ∧ (judgeFrame e b bs o s).taps = s.taps ∧
    (judgeFrame e b bs o s).proc = s.proc ∧ (judgeFrame e b bs o s).tempo = s.tempo ∧
    (judgeFrame e b bs o s).oscs = s.oscs ∧ (judgeFrame e b bs o s).scenes = s.scenes ∧
    (judgeFrame e b bs o s).port = s.port ∧ (judgeFrame e b bs o s).faults = s.faults ∧
    (judgeFrame e b bs o s).freeIx = s.freeIx ∧ (judgeFrame e b bs o s).pending = s.pending := by
  unfold judgeFrame
  (repeat' split) <;> simp

@[simp] theorem linkBoundary_frame (e : Engine) (s : State) :
    (linkBoundary s e).timer = s.timer ∧ (linkBoundary s e).store = s.store ∧
    (linkBoundary s e).arbiter = s.arbiter ∧ (linkBoundary s e).refresh = s.refresh ∧
    (linkBoundary s e).pool = s.pool ∧ (linkBoundary s e).lines = s.lines ∧ (linkBoundary s e).fills = s.fills ∧
    (linkBoundary s e).oldestOpen = s.oldestOpen ∧ (linkBoundary s e).commits = s.commits ∧
    (linkBoundary s e).taps = s.taps ∧ (linkBoundary s e).proc = s.proc ∧ (linkBoundary s e).tempo = s.tempo ∧
    (linkBoundary s e).oscs = s.oscs ∧ (linkBoundary s e).scenes = s.scenes ∧ (linkBoundary s e).port = s.port ∧
    (linkBoundary s e).faults = s.faults ∧ (linkBoundary s e).freeIx = s.freeIx ∧
    (linkBoundary s e).pending = s.pending := by
  unfold linkBoundary
  dsimp only
  (repeat' split) <;> simp

@[simp] theorem linksBoundary_frame (s : State) :
    (linksBoundary s).timer = s.timer ∧ (linksBoundary s).store = s.store ∧ (linksBoundary s).arbiter = s.arbiter ∧
    (linksBoundary s).refresh = s.refresh ∧ (linksBoundary s).pool = s.pool ∧ (linksBoundary s).lines = s.lines ∧
    (linksBoundary s).fills = s.fills ∧ (linksBoundary s).oldestOpen = s.oldestOpen ∧
    (linksBoundary s).commits = s.commits ∧ (linksBoundary s).taps = s.taps ∧ (linksBoundary s).proc = s.proc ∧
    (linksBoundary s).tempo = s.tempo ∧ (linksBoundary s).oscs = s.oscs ∧ (linksBoundary s).scenes = s.scenes ∧
    (linksBoundary s).port = s.port ∧ (linksBoundary s).faults = s.faults ∧ (linksBoundary s).freeIx = s.freeIx ∧
    (linksBoundary s).pending = s.pending := by
  exact ⟨foldl_keeps State.timer _ (by simp) _ _, foldl_keeps State.store _ (by simp) _ _, foldl_keeps State.arbiter _ (by simp) _ _, foldl_keeps State.refresh _ (by simp) _ _, foldl_keeps State.pool _ (by simp) _ _, foldl_keeps State.lines _ (by simp) _ _, foldl_keeps State.fills _ (by simp) _ _, foldl_keeps State.oldestOpen _ (by simp) _ _, foldl_keeps State.commits _ (by simp) _ _, foldl_keeps State.taps _ (by simp) _ _, foldl_keeps State.proc _ (by simp) _ _, foldl_keeps State.tempo _ (by simp) _ _, foldl_keeps State.oscs _ (by simp) _ _, foldl_keeps State.scenes _ (by simp) _ _, foldl_keeps State.port _ (by simp) _ _, foldl_keeps State.faults _ (by simp) _ _, foldl_keeps State.freeIx _ (by simp) _ _, foldl_keeps State.pending _ (by simp) _ _⟩

@[simp] theorem withdrawFrames_frame (e : Engine) (s : State) :
    (withdrawFrames e s).timer = s.timer ∧ (withdrawFrames e s).store = s.store ∧
    (withdrawFrames e s).refresh = s.refresh ∧ (withdrawFrames e s).pool = s.pool ∧
    (withdrawFrames e s).lines = s.lines ∧ (withdrawFrames e s).oldestOpen = s.oldestOpen ∧
    (withdrawFrames e s).links = s.links ∧ (withdrawFrames e s).taps = s.taps ∧
    (withdrawFrames e s).proc = s.proc ∧ (withdrawFrames e s).tempo = s.tempo ∧
    (withdrawFrames e s).oscs = s.oscs ∧ (withdrawFrames e s).scenes = s.scenes ∧
    (withdrawFrames e s).port = s.port ∧ (withdrawFrames e s).notices = s.notices ∧
    (withdrawFrames e s).faults = s.faults ∧ (withdrawFrames e s).freeIx = s.freeIx ∧
    (withdrawFrames e s).pending = s.pending := by
  simp [withdrawFrames]

@[simp] theorem withdrawPass_frame (e : Engine) (s : State) :
    (withdrawPass e s).timer = s.timer ∧ (withdrawPass e s).store = s.store ∧
    (withdrawPass e s).refresh = s.refresh ∧ (withdrawPass e s).pool = s.pool ∧
    (withdrawPass e s).lines = s.lines ∧ (withdrawPass e s).fills = s.fills ∧
    (withdrawPass e s).oldestOpen = s.oldestOpen ∧ (withdrawPass e s).links = s.links ∧
    (withdrawPass e s).commits = s.commits ∧ (withdrawPass e s).taps = s.taps ∧
    (withdrawPass e s).tempo = s.tempo ∧ (withdrawPass e s).oscs = s.oscs ∧ (withdrawPass e s).scenes = s.scenes ∧
    (withdrawPass e s).port = s.port ∧ (withdrawPass e s).notices = s.notices ∧
    (withdrawPass e s).faults = s.faults ∧ (withdrawPass e s).freeIx = s.freeIx ∧
    (withdrawPass e s).pending = s.pending := by
  unfold withdrawPass
  dsimp only
  (repeat' split) <;> simp

@[simp] theorem linkOff_frame (e : Engine) (s : State) :
    (linkOff e s).timer = s.timer ∧ (linkOff e s).store = s.store ∧ (linkOff e s).refresh = s.refresh ∧
    (linkOff e s).pool = s.pool ∧ (linkOff e s).lines = s.lines ∧ (linkOff e s).taps = s.taps ∧
    (linkOff e s).tempo = s.tempo ∧ (linkOff e s).oscs = s.oscs ∧ (linkOff e s).scenes = s.scenes ∧
    (linkOff e s).port = s.port ∧ (linkOff e s).notices = s.notices ∧ (linkOff e s).faults = s.faults ∧
    (linkOff e s).pending = s.pending := by
  simp [linkOff]

@[simp] theorem advanceCommit_frame (s : State) :
    (advanceCommit s).timer = s.timer ∧ (advanceCommit s).store = s.store ∧ (advanceCommit s).arbiter = s.arbiter ∧
    (advanceCommit s).refresh = s.refresh ∧ (advanceCommit s).pool = s.pool ∧ (advanceCommit s).lines = s.lines ∧
    (advanceCommit s).fills = s.fills ∧ (advanceCommit s).oldestOpen = s.oldestOpen ∧
    (advanceCommit s).links = s.links ∧ (advanceCommit s).taps = s.taps ∧ (advanceCommit s).proc = s.proc ∧
    (advanceCommit s).tempo = s.tempo ∧ (advanceCommit s).oscs = s.oscs ∧ (advanceCommit s).scenes = s.scenes ∧
    (advanceCommit s).port = s.port ∧ (advanceCommit s).notices = s.notices ∧ (advanceCommit s).faults = s.faults ∧
    (advanceCommit s).freeIx = s.freeIx ∧ (advanceCommit s).pending = s.pending := by
  unfold advanceCommit
  (repeat' split) <;> simp

@[simp] theorem setWalker_frame (w : Option Walk) (s : State) :
    (setWalker w s).timer = s.timer ∧ (setWalker w s).store = s.store ∧ (setWalker w s).arbiter = s.arbiter ∧
    (setWalker w s).refresh = s.refresh ∧ (setWalker w s).lines = s.lines ∧ (setWalker w s).fills = s.fills ∧
    (setWalker w s).oldestOpen = s.oldestOpen ∧ (setWalker w s).links = s.links ∧
    (setWalker w s).commits = s.commits ∧ (setWalker w s).taps = s.taps ∧ (setWalker w s).proc = s.proc ∧
    (setWalker w s).tempo = s.tempo ∧ (setWalker w s).oscs = s.oscs ∧ (setWalker w s).scenes = s.scenes ∧
    (setWalker w s).port = s.port ∧ (setWalker w s).notices = s.notices ∧ (setWalker w s).faults = s.faults ∧
    (setWalker w s).freeIx = s.freeIx ∧ (setWalker w s).pending = s.pending := by
  exact ⟨rfl, rfl, rfl, rfl, rfl, rfl, rfl, rfl, rfl, rfl, rfl, rfl, rfl, rfl, rfl, rfl, rfl, rfl, rfl⟩

@[simp] theorem verifyPasses_frame (k : Walk) (s : State) :
    (verifyPasses k s).timer = s.timer ∧ (verifyPasses k s).store = s.store ∧
    (verifyPasses k s).arbiter = s.arbiter ∧ (verifyPasses k s).refresh = s.refresh ∧
    (verifyPasses k s).fills = s.fills ∧ (verifyPasses k s).oldestOpen = s.oldestOpen ∧
    (verifyPasses k s).links = s.links ∧ (verifyPasses k s).commits = s.commits ∧
    (verifyPasses k s).taps = s.taps ∧ (verifyPasses k s).proc = s.proc ∧ (verifyPasses k s).tempo = s.tempo ∧
    (verifyPasses k s).oscs = s.oscs ∧ (verifyPasses k s).scenes = s.scenes ∧
    (verifyPasses k s).faults = s.faults ∧ (verifyPasses k s).freeIx = s.freeIx ∧
    (verifyPasses k s).pending = s.pending := by
  unfold verifyPasses
  dsimp only
  (repeat' split) <;> simp

@[simp] theorem verifyFails_frame (k : Walk) (s : State) :
    (verifyFails k s).timer = s.timer ∧ (verifyFails k s).store = s.store ∧ (verifyFails k s).refresh = s.refresh ∧
    (verifyFails k s).lines = s.lines ∧ (verifyFails k s).oldestOpen = s.oldestOpen ∧
    (verifyFails k s).tempo = s.tempo ∧ (verifyFails k s).oscs = s.oscs ∧ (verifyFails k s).scenes = s.scenes ∧
    (verifyFails k s).freeIx = s.freeIx ∧ (verifyFails k s).pending = s.pending := by
  unfold verifyFails
  (repeat' split) <;> simp

@[simp] theorem completeVerify_frame (k : Walk) (u : Upset) (s : State) :
    (completeVerify k u s).timer = s.timer ∧ (completeVerify k u s).refresh = s.refresh ∧
    (completeVerify k u s).tempo = s.tempo ∧ (completeVerify k u s).oscs = s.oscs ∧
    (completeVerify k u s).scenes = s.scenes ∧ (completeVerify k u s).freeIx = s.freeIx ∧
    (completeVerify k u s).pending = s.pending := by
  unfold completeVerify
  dsimp only
  (repeat' split) <;> simp

@[simp] theorem boundaryStart_frame (z : Bool) (s : State) :
    (boundaryStart z s).store = s.store ∧ (boundaryStart z s).refresh = s.refresh ∧
    (boundaryStart z s).pool = s.pool ∧ (boundaryStart z s).oldestOpen = s.oldestOpen ∧
    (boundaryStart z s).commits = s.commits ∧ (boundaryStart z s).taps = s.taps ∧
    (boundaryStart z s).tempo = s.tempo ∧ (boundaryStart z s).oscs = s.oscs ∧
    (boundaryStart z s).scenes = s.scenes ∧ (boundaryStart z s).port = s.port ∧
    (boundaryStart z s).faults = s.faults ∧ (boundaryStart z s).freeIx = s.freeIx ∧
    (boundaryStart z s).pending = s.pending := by
  simp [boundaryStart]

@[simp] theorem boundary_frame (z : Bool) (s : State) :
    (boundary z s).store = s.store ∧ (boundary z s).refresh = s.refresh ∧ (boundary z s).pool = s.pool ∧
    (boundary z s).scenes = s.scenes ∧ (boundary z s).port = s.port ∧ (boundary z s).faults = s.faults ∧
    (boundary z s).freeIx = s.freeIx ∧ (boundary z s).pending = s.pending := by
  simp [boundary]

@[simp] theorem countSample_frame (s : State) :
    (countSample s).store = s.store ∧ (countSample s).arbiter = s.arbiter ∧ (countSample s).refresh = s.refresh ∧
    (countSample s).pool = s.pool ∧ (countSample s).lines = s.lines ∧ (countSample s).fills = s.fills ∧
    (countSample s).oldestOpen = s.oldestOpen ∧ (countSample s).links = s.links ∧
    (countSample s).commits = s.commits ∧ (countSample s).taps = s.taps ∧ (countSample s).proc = s.proc ∧
    (countSample s).tempo = s.tempo ∧ (countSample s).oscs = s.oscs ∧ (countSample s).scenes = s.scenes ∧
    (countSample s).port = s.port ∧ (countSample s).notices = s.notices ∧ (countSample s).faults = s.faults ∧
    (countSample s).freeIx = s.freeIx ∧ (countSample s).pending = s.pending := by
  exact ⟨rfl, rfl, rfl, rfl, rfl, rfl, rfl, rfl, rfl, rfl, rfl, rfl, rfl, rfl, rfl, rfl, rfl, rfl, rfl⟩

@[simp] theorem edgeBefore_frame (o : EdgeOrder) (s : State) :
    (edgeBefore o s).timer = s.timer ∧ (edgeBefore o s).store = s.store ∧ (edgeBefore o s).arbiter = s.arbiter ∧
    (edgeBefore o s).refresh = s.refresh ∧ (edgeBefore o s).pool = s.pool ∧ (edgeBefore o s).lines = s.lines ∧
    (edgeBefore o s).fills = s.fills ∧ (edgeBefore o s).oldestOpen = s.oldestOpen ∧
    (edgeBefore o s).commits = s.commits ∧ (edgeBefore o s).taps = s.taps ∧ (edgeBefore o s).proc = s.proc ∧
    (edgeBefore o s).scenes = s.scenes ∧ (edgeBefore o s).port = s.port ∧ (edgeBefore o s).faults = s.faults ∧
    (edgeBefore o s).freeIx = s.freeIx ∧ (edgeBefore o s).pending = s.pending := by
  unfold edgeBefore
  (repeat' split) <;> simp

@[simp] theorem edgeAfter_frame (o : EdgeOrder) (s : State) :
    (edgeAfter o s).timer = s.timer ∧ (edgeAfter o s).store = s.store ∧ (edgeAfter o s).arbiter = s.arbiter ∧
    (edgeAfter o s).refresh = s.refresh ∧ (edgeAfter o s).pool = s.pool ∧ (edgeAfter o s).lines = s.lines ∧
    (edgeAfter o s).fills = s.fills ∧ (edgeAfter o s).oldestOpen = s.oldestOpen ∧
    (edgeAfter o s).commits = s.commits ∧ (edgeAfter o s).taps = s.taps ∧ (edgeAfter o s).proc = s.proc ∧
    (edgeAfter o s).scenes = s.scenes ∧ (edgeAfter o s).port = s.port ∧ (edgeAfter o s).faults = s.faults ∧
    (edgeAfter o s).freeIx = s.freeIx ∧ (edgeAfter o s).pending = s.pending := by
  unfold edgeAfter
  (repeat' split) <;> simp

@[simp] theorem edgeUnlocked_frame (r : Nat) (s : State) :
    (edgeUnlocked r s).store = s.store ∧ (edgeUnlocked r s).arbiter = s.arbiter ∧
    (edgeUnlocked r s).refresh = s.refresh ∧ (edgeUnlocked r s).pool = s.pool ∧
    (edgeUnlocked r s).lines = s.lines ∧ (edgeUnlocked r s).fills = s.fills ∧
    (edgeUnlocked r s).oldestOpen = s.oldestOpen ∧ (edgeUnlocked r s).links = s.links ∧
    (edgeUnlocked r s).commits = s.commits ∧ (edgeUnlocked r s).taps = s.taps ∧ (edgeUnlocked r s).proc = s.proc ∧
    (edgeUnlocked r s).scenes = s.scenes ∧ (edgeUnlocked r s).port = s.port ∧
    (edgeUnlocked r s).faults = s.faults ∧ (edgeUnlocked r s).freeIx = s.freeIx ∧
    (edgeUnlocked r s).pending = s.pending := by
  simp [edgeUnlocked]

@[simp] theorem edgeFlywheel_frame (r : Nat) (s : State) :
    (edgeFlywheel r s).store = s.store ∧ (edgeFlywheel r s).arbiter = s.arbiter ∧
    (edgeFlywheel r s).refresh = s.refresh ∧ (edgeFlywheel r s).pool = s.pool ∧
    (edgeFlywheel r s).lines = s.lines ∧ (edgeFlywheel r s).fills = s.fills ∧
    (edgeFlywheel r s).oldestOpen = s.oldestOpen ∧ (edgeFlywheel r s).links = s.links ∧
    (edgeFlywheel r s).commits = s.commits ∧ (edgeFlywheel r s).taps = s.taps ∧ (edgeFlywheel r s).proc = s.proc ∧
    (edgeFlywheel r s).tempo = s.tempo ∧ (edgeFlywheel r s).oscs = s.oscs ∧ (edgeFlywheel r s).scenes = s.scenes ∧
    (edgeFlywheel r s).port = s.port ∧ (edgeFlywheel r s).notices = s.notices ∧
    (edgeFlywheel r s).faults = s.faults ∧ (edgeFlywheel r s).freeIx = s.freeIx ∧
    (edgeFlywheel r s).pending = s.pending := by
  exact ⟨rfl, rfl, rfl, rfl, rfl, rfl, rfl, rfl, rfl, rfl, rfl, rfl, rfl, rfl, rfl, rfl, rfl, rfl, rfl⟩

@[simp] theorem relock_frame (r : Nat) (s : State) :
    (relock r s).store = s.store ∧ (relock r s).arbiter = s.arbiter ∧ (relock r s).refresh = s.refresh ∧
    (relock r s).pool = s.pool ∧ (relock r s).lines = s.lines ∧ (relock r s).fills = s.fills ∧
    (relock r s).oldestOpen = s.oldestOpen ∧ (relock r s).links = s.links ∧ (relock r s).commits = s.commits ∧
    (relock r s).taps = s.taps ∧ (relock r s).proc = s.proc ∧ (relock r s).tempo = s.tempo ∧
    (relock r s).oscs = s.oscs ∧ (relock r s).scenes = s.scenes ∧ (relock r s).port = s.port ∧
    (relock r s).faults = s.faults ∧ (relock r s).freeIx = s.freeIx ∧ (relock r s).pending = s.pending := by
  exact ⟨rfl, rfl, rfl, rfl, rfl, rfl, rfl, rfl, rfl, rfl, rfl, rfl, rfl, rfl, rfl, rfl, rfl, rfl⟩

@[simp] theorem resetLines_frame (s : State) :
    (resetLines s).timer = s.timer ∧ (resetLines s).store = s.store ∧ (resetLines s).refresh = s.refresh ∧
    (resetLines s).oldestOpen = s.oldestOpen ∧ (resetLines s).links = s.links ∧
    (resetLines s).commits = s.commits ∧ (resetLines s).taps = s.taps ∧ (resetLines s).proc = s.proc ∧
    (resetLines s).tempo = s.tempo ∧ (resetLines s).oscs = s.oscs ∧ (resetLines s).scenes = s.scenes ∧
    (resetLines s).port = s.port ∧ (resetLines s).notices = s.notices ∧ (resetLines s).faults = s.faults ∧
    (resetLines s).freeIx = s.freeIx ∧ (resetLines s).pending = s.pending := by
  simp [resetLines]

@[simp] theorem resetLinks_frame (s : State) :
    (resetLinks s).timer = s.timer ∧ (resetLinks s).store = s.store ∧ (resetLinks s).refresh = s.refresh ∧
    (resetLinks s).pool = s.pool ∧ (resetLinks s).lines = s.lines ∧ (resetLinks s).fills = s.fills ∧
    (resetLinks s).oldestOpen = s.oldestOpen ∧ (resetLinks s).taps = s.taps ∧ (resetLinks s).proc = s.proc ∧
    (resetLinks s).tempo = s.tempo ∧ (resetLinks s).oscs = s.oscs ∧ (resetLinks s).scenes = s.scenes ∧
    (resetLinks s).port = s.port ∧ (resetLinks s).notices = s.notices ∧ (resetLinks s).faults = s.faults ∧
    (resetLinks s).pending = s.pending := by
  exact ⟨(foldl_keeps State.timer _ (by simp) _ _).trans (by simp), (foldl_keeps State.store _ (by simp) _ _).trans (by simp), (foldl_keeps State.refresh _ (by simp) _ _).trans (by simp), (foldl_keeps State.pool _ (by simp) _ _).trans (by simp), (foldl_keeps State.lines _ (by simp) _ _).trans (by simp), (foldl_keeps State.fills _ (by simp) _ _).trans (by simp), (foldl_keeps State.oldestOpen _ (by simp) _ _).trans (by simp), (foldl_keeps State.taps _ (by simp) _ _).trans (by simp), (foldl_keeps State.proc _ (by simp) _ _).trans (by simp), (foldl_keeps State.tempo _ (by simp) _ _).trans (by simp), (foldl_keeps State.oscs _ (by simp) _ _).trans (by simp), (foldl_keeps State.scenes _ (by simp) _ _).trans (by simp), (foldl_keeps State.port _ (by simp) _ _).trans (by simp), (foldl_keeps State.notices _ (by simp) _ _).trans (by simp), (foldl_keeps State.faults _ (by simp) _ _).trans (by simp), (foldl_keeps State.pending _ (by simp) _ _).trans (by simp)⟩

@[simp] theorem resetTaps_frame (s : State) :
    (resetTaps s).timer = s.timer ∧ (resetTaps s).store = s.store ∧ (resetTaps s).refresh = s.refresh ∧
    (resetTaps s).pool = s.pool ∧ (resetTaps s).lines = s.lines ∧ (resetTaps s).fills = s.fills ∧
    (resetTaps s).oldestOpen = s.oldestOpen ∧ (resetTaps s).links = s.links ∧ (resetTaps s).commits = s.commits ∧
    (resetTaps s).tempo = s.tempo ∧ (resetTaps s).oscs = s.oscs ∧ (resetTaps s).scenes = s.scenes ∧
    (resetTaps s).port = s.port ∧ (resetTaps s).notices = s.notices ∧ (resetTaps s).faults = s.faults ∧
    (resetTaps s).freeIx = s.freeIx ∧ (resetTaps s).pending = s.pending := by
  simp [resetTaps]

end Sys2Proof.Machine
end

