-- ==== Sys2Proof/Laws/State.lean ====
section
/-! SUPPORT. Reading a table after writing it, the tables entry by entry, and two states that agree field by field. -/

namespace Sys2Proof.Machine

/-! ### Reading after writing -/

theorem State.line_setLine (s : State) (l m : LineNo) (x : Line) :
    (s.setLine l x).line m = if m = l then x else s.line m := by
  simp [State.line, State.setLine, Vector.getElem_set, Fin.ext_iff, eq_comm]

theorem State.link_setLink (s : State) (e d : Engine) (x : Link) :
    (s.setLink e x).link d = if d = e then x else s.link d := by
  simp [State.link, State.setLink, Vector.getElem_set, Fin.ext_iff, eq_comm]

theorem State.tap_setTap (s : State) (t u : TapNo) (x : Tap) :
    (s.setTap t x).tap u = if u = t then x else s.tap u := by
  simp [State.tap, State.setTap, Vector.getElem_set, Fin.ext_iff, eq_comm]

theorem State.osc_setOsc (s : State) (m n : OscNo) (x : Osc) :
    (s.setOsc m x).osc n = if n = m then x else s.osc n := by
  simp [State.osc, State.setOsc, Vector.getElem_set, Fin.ext_iff, eq_comm]

@[simp] theorem State.line_setLine_same (s : State) (l : LineNo) (x : Line) : (s.setLine l x).line l = x := by
  simp [State.line_setLine]

@[simp] theorem State.link_setLink_same (s : State) (e : Engine) (x : Link) : (s.setLink e x).link e = x := by
  simp [State.link_setLink]

@[simp] theorem State.tap_setTap_same (s : State) (t : TapNo) (x : Tap) : (s.setTap t x).tap t = x := by
  simp [State.tap_setTap]

@[simp] theorem State.osc_setOsc_same (s : State) (m : OscNo) (x : Osc) : (s.setOsc m x).osc m = x := by
  simp [State.osc_setOsc]

theorem State.line_setLine_other (s : State) {l m : LineNo} (x : Line) (h : m ≠ l) :
    (s.setLine l x).line m = s.line m := by
  simp [State.line_setLine, h]

theorem State.link_setLink_other (s : State) {e d : Engine} (x : Link) (h : d ≠ e) :
    (s.setLink e x).link d = s.link d := by
  simp [State.link_setLink, h]

theorem State.tap_setTap_other (s : State) {t u : TapNo} (x : Tap) (h : u ≠ t) :
    (s.setTap t x).tap u = s.tap u := by
  simp [State.tap_setTap, h]

/-! ### A table is what its entries are -/

theorem Vector.ext_fin {α : Type} {n : Nat} {v w : Vector α n} (h : ∀ i : Fin n, v[i.val] = w[i.val]) : v = w := by
  apply Vector.ext
  intro i hi
  exact h ⟨i, hi⟩

/-- Tables with the same entries are the same table. -/
theorem State.lines_ext {s t : State} (h : ∀ l, s.line l = t.line l) : s.lines = t.lines := Vector.ext_fin h
theorem State.links_ext {s t : State} (h : ∀ e, s.link e = t.link e) : s.links = t.links := Vector.ext_fin h
theorem State.taps_ext {s t : State} (h : ∀ n, s.tap n = t.tap n) : s.taps = t.taps := Vector.ext_fin h
theorem State.oscs_ext {s t : State} (h : ∀ m, s.osc m = t.osc m) : s.oscs = t.oscs := Vector.ext_fin h

/-- A table read after another field has changed. -/
theorem State.line_of_lines {s t : State} (h : s.lines = t.lines) (l : LineNo) : s.line l = t.line l := by
  unfold State.line; rw [h]
theorem State.link_of_links {s t : State} (h : s.links = t.links) (e : Engine) : s.link e = t.link e := by
  unfold State.link; rw [h]
theorem State.tap_of_taps {s t : State} (h : s.taps = t.taps) (n : TapNo) : s.tap n = t.tap n := by
  unfold State.tap; rw [h]
theorem State.osc_of_oscs {s t : State} (h : s.oscs = t.oscs) (m : OscNo) : s.osc m = t.osc m := by
  unfold State.osc; rw [h]

/-- Writing back what was read changes nothing. -/
@[simp] theorem State.setTap_self (s : State) (t : TapNo) : s.setTap t (s.tap t) = s := by
  simp [State.setTap, State.tap]
@[simp] theorem State.setLine_self (s : State) (l : LineNo) : s.setLine l (s.line l) = s := by
  simp [State.setLine, State.line]
@[simp] theorem State.setLink_self (s : State) (e : Engine) : s.setLink e (s.link e) = s := by
  simp [State.setLink, State.link]

/-- Of two writes of one entry the later stands. -/
@[simp] theorem State.setLink_setLink (s : State) (e : Engine) (x y : Link) :
    (s.setLink e x).setLink e y = s.setLink e y := by
  simp [State.setLink]
@[simp] theorem State.setTap_setTap (s : State) (t : TapNo) (x y : Tap) :
    (s.setTap t x).setTap t y = s.setTap t y := by
  simp [State.setTap]

/-! ### The whole-table numbers -/

theorem mem_allLines (l : LineNo) : l ∈ allLines := by
  refine List.mem_map.mpr ⟨l.val, List.mem_range.mpr l.isLt, ?_⟩
  simp [Fin.ofNat, Nat.mod_eq_of_lt l.isLt]

theorem mem_allTaps (t : TapNo) : t ∈ allTaps := by
  refine List.mem_map.mpr ⟨t.val, List.mem_range.mpr t.isLt, ?_⟩
  simp [Fin.ofNat, Nat.mod_eq_of_lt t.isLt]

theorem mem_allEngines (e : Engine) : e ∈ allEngines := by revert e; decide

/-- A property that holds of every entry of the line table, read from the vector. -/
theorem lines_all_iff (s : State) (p : Line → Bool) : s.lines.toList.all p = true ↔ ∀ l, p (s.line l) = true := by
  constructor
  · intro h l
    exact (List.all_eq_true.mp h) _ (by simp [State.line])
  · intro h
    refine List.all_eq_true.mpr fun x hx => ?_
    obtain ⟨i, hi, rfl⟩ := List.mem_iff_getElem.mp hx
    have := h ⟨i, by simpa using hi⟩
    simpa [State.line] using this

theorem taps_all_iff (s : State) (p : Tap → Bool) : s.taps.toList.all p = true ↔ ∀ t, p (s.tap t) = true := by
  constructor
  · intro h l
    exact (List.all_eq_true.mp h) _ (by simp [State.tap])
  · intro h
    refine List.all_eq_true.mpr fun x hx => ?_
    obtain ⟨i, hi, rfl⟩ := List.mem_iff_getElem.mp hx
    have := h ⟨i, by simpa using hi⟩
    simpa [State.tap] using this

/-- States that agree in every field are one. -/
theorem State.eq_of_fields {a b : State} (h1 : a.timer = b.timer) (h2 : a.store = b.store) (h3 : a.arbiter = b.arbiter)
    (h4 : a.refresh = b.refresh) (h5 : a.pool = b.pool) (h6 : a.lines = b.lines) (h7 : a.fills = b.fills)
    (h8 : a.oldestOpen = b.oldestOpen) (h9 : a.links = b.links) (h10 : a.commits = b.commits) (h11 : a.taps = b.taps)
    (h12 : a.proc = b.proc) (h13 : a.tempo = b.tempo) (h14 : a.oscs = b.oscs) (h15 : a.scenes = b.scenes)
    (h16 : a.port = b.port) (h17 : a.notices = b.notices) (h18 : a.faults = b.faults) (h19 : a.freeIx = b.freeIx)
    (h20 : a.pending = b.pending) : a = b := by
  cases a; cases b; simp_all

end Sys2Proof.Machine
end

