-- ==== Sys2Proof/Laws/Memory.lean ====
section
/-! SUPPORT. The store array: a read after a write, and the canonical form, which every operation keeps. -/

namespace Sys2Proof.Machine

/-! ### Reading -/

/-- In canonical form above a bound, a word at or below the bound is not listed. -/
theorem Memory.read_of_wfFrom {m : Memory} {low w : Nat} (h : Memory.wfFrom (some low) m = true) (hw : w ≤ low) :
    m.read w = StoreWord.unlisted := by
  induction m generalizing low with
  | nil => rfl
  | cons c m ih =>
    obtain ⟨a, x⟩ := c
    simp only [Memory.wfFrom, Option.all_some, Bool.and_eq_true, decide_eq_true_eq] at h
    have hne : a ≠ w := by omega
    simp only [Memory.read, hne, if_false]
    exact ih h.2 (by omega)

/-- A lower bound may be weakened. -/
theorem Memory.wfFrom_mono {m : Memory} {low high : Nat} (h : Memory.wfFrom (some high) m = true) (hl : low ≤ high) :
    Memory.wfFrom (some low) m = true := by
  cases m with
  | nil => rfl
  | cons c m =>
    obtain ⟨a, x⟩ := c
    simp only [Memory.wfFrom, Option.all_some, Bool.and_eq_true, decide_eq_true_eq] at h ⊢
    exact ⟨⟨by omega, h.1.2⟩, h.2⟩

/-- A bound may be dropped. -/
theorem Memory.wfFrom_none {m : Memory} {low : Nat} (h : Memory.wfFrom (some low) m = true) :
    Memory.wfFrom none m = true := by
  cases m with
  | nil => rfl
  | cons c m =>
    obtain ⟨a, x⟩ := c
    simp only [Memory.wfFrom, Option.all_some, Option.all_none, Bool.and_eq_true] at h ⊢
    exact ⟨⟨trivial, h.1.2⟩, h.2⟩

theorem Memory.read_consWord_same {m : Memory} {w : Nat} {v : StoreWord} (h : Memory.wfFrom (some w) m = true) :
    (Memory.consWord w v m).read w = v := by
  unfold Memory.consWord
  split
  · rename_i hv
    rw [Memory.read_of_wfFrom h (Nat.le_refl w), hv]
  · simp [Memory.read]

theorem Memory.read_consWord_other {m : Memory} {w a : Nat} {v : StoreWord} (h : a ≠ w) :
    (Memory.consWord w v m).read a = m.read a := by
  unfold Memory.consWord
  split
  · rfl
  · simp [Memory.read, Ne.symm h]

/-- Reading the word just written gives what was written. -/
theorem Memory.read_write_same {m : Memory} {low : Option Nat} {w : Nat} {v : StoreWord}
    (h : Memory.wfFrom low m = true) : (m.write w v).read w = v := by
  induction m generalizing low with
  | nil => exact Memory.read_consWord_same rfl
  | cons c m ih =>
    obtain ⟨a, x⟩ := c
    simp only [Memory.wfFrom, Bool.and_eq_true] at h
    unfold Memory.write
    split
    · rename_i hlt
      refine Memory.read_consWord_same ?_
      simp only [Memory.wfFrom, Option.all_some, Bool.and_eq_true, decide_eq_true_eq]
      exact ⟨⟨hlt, h.1.2⟩, h.2⟩
    · split
      · rename_i ha
        subst ha
        exact Memory.read_consWord_same h.2
      · rename_i ha
        simp only [Memory.read, ha, if_false]
        exact ih h.2

/-- Reading another word gives what it held. -/
theorem Memory.read_write_other {m : Memory} {w a : Nat} {v : StoreWord} (h : a ≠ w) :
    (m.write w v).read a = m.read a := by
  induction m with
  | nil => exact Memory.read_consWord_other h
  | cons c m ih =>
    obtain ⟨b, x⟩ := c
    unfold Memory.write
    split
    · exact Memory.read_consWord_other h
    · split
      · rename_i hb
        subst hb
        rw [Memory.read_consWord_other h]
        simp [Memory.read, Ne.symm h]
      · simp only [Memory.read, ih]

/-! ### The canonical form -/

/-- A write keeps the canonical form above any bound below the word. -/
theorem Memory.wfFrom_write {m : Memory} {low : Option Nat} {w : Nat} {v : StoreWord}
    (h : Memory.wfFrom low m = true) (hl : low.all (· < w) = true) : Memory.wfFrom low (m.write w v) = true := by
  have cons : ∀ {m : Memory} {low : Option Nat} {w : Nat}, Memory.wfFrom (some w) m = true → low.all (· < w) = true →
      Memory.wfFrom low (Memory.consWord w v m) = true := by
    intro m low w hm hw
    unfold Memory.consWord
    split
    · cases low with
      | none => exact Memory.wfFrom_none hm
      | some b => exact Memory.wfFrom_mono hm (Nat.le_of_lt (by simpa using hw))
    · rename_i hv
      simp only [Memory.wfFrom, Bool.and_eq_true, bne_iff_ne, ne_eq]
      exact ⟨⟨hw, hv⟩, hm⟩
  induction m generalizing low with
  | nil => exact cons rfl hl
  | cons c m ih =>
    obtain ⟨a, x⟩ := c
    have hm := h
    simp only [Memory.wfFrom, Bool.and_eq_true] at hm
    unfold Memory.write
    split
    · rename_i hlt
      refine cons ?_ hl
      simp only [Memory.wfFrom, Option.all_some, Bool.and_eq_true, decide_eq_true_eq]
      exact ⟨⟨hlt, hm.1.2⟩, hm.2⟩
    · split
      · rename_i ha
        subst ha
        exact cons hm.2 hl
      · simp only [Memory.wfFrom, Bool.and_eq_true]
        refine ⟨hm.1, ih hm.2 ?_⟩
        simp only [Option.all_some, decide_eq_true_eq]
        omega

/-- Every write keeps the canonical form. -/
theorem Memory.wf_write {m : Memory} {w : Nat} {v : StoreWord} (h : m.wf = true) : (m.write w v).wf = true :=
  Memory.wfFrom_write h rfl

/-- The store operations keep the canonical form. -/
theorem storeWrite_wf {s : State} {w : Nat} {v : Sample} (h : s.store.cells.wf = true) :
    (storeWrite w v s).store.cells.wf = true := Memory.wf_write h

theorem storeRead_wf {s : State} {w : Nat} {u : Upset} (h : s.store.cells.wf = true) :
    (storeRead w u s).store.cells.wf = true := Memory.wf_write h

/-- The reset memory is in canonical form. -/
theorem reset_store_wf : State.reset.store.cells.wf = true := rfl

end Sys2Proof.Machine
end

