-- ==== Sys2Proof/Laws/Port.lean ====
section
/-! SUPPORT. What a WRITE_COMMAND can do: the cases of the mailbox and of the record, what every command leaves alone, and
the bytes of a record read back. -/

namespace Sys2Proof.Machine

/-! ### The completion -/

/-- What the mailbox held before a completion does not show after it. -/
@[simp] theorem complete_hold (command held : Byte) (code : ResultCode) (check : Nat) (bytes : List Byte) (s : State) :
    complete command code check bytes (hold held s) = complete command code check bytes s := rfl

@[simp] theorem complete_collide_flag (command : Byte) (code : ResultCode) (check : Nat) (bytes : List Byte) (s : State) :
    (complete command code check bytes s).port.collide = s.port.collide := rfl

/-! ### Taking a command -/

/-- Zeros shifted out leave the mailbox. -/
@[simp] theorem zerosOut_mailbox (n : Nat) (s : State) : (zerosOut n s).port.mailbox = s.port.mailbox := rfl

/-- A record released before its argument length only shifts out zeros. -/
@[simp] theorem writeCommand_cut (code : Byte) (owner : List Byte → State → Reply × State) (s : State) :
    writeCommand code owner .cut s = zerosOut 2 s := rfl

/-- In HELD a command collides. -/
theorem writeCommand_held {s : State} {held : Byte} (h : s.port.mailbox = .held held) (code : Byte)
    (owner : List Byte → State → Reply × State) (length : Byte) (args : List Byte) :
    writeCommand code owner (.sent length args) s = collide (wrote args.length s) := by
  unfold writeCommand wrote
  simp only [h, recordBytes]

/-- In EMPTY or DONE a command is taken and judged. -/
theorem writeCommand_free {s : State} (h : mailboxFree s = true) (code : Byte)
    (owner : List Byte → State → Reply × State) (length : Byte) (args : List Byte) :
    writeCommand code owner (.sent length args) s = takeCommand code owner length args (wrote args.length s) := by
  unfold mailboxFree at h
  unfold writeCommand wrote
  simp only [recordBytes]
  cases hm : s.port.mailbox with
  | held c => simp [hm] at h
  | empty => simp
  | done r => simp

/-- Test 2 of R169 for a code of the command table. -/
theorem lengthFits_iff {code : Byte} {n : Nat} (h : (code, n) ∈ commandTable) (length : Byte) (args : List Byte) :
    lengthFits code length args = true ↔ length.toNat = n ∧ args.length = n := by
  have uniq : ∀ row ∈ commandTable, ∀ row' ∈ commandTable, row.1 = row'.1 → row.2 = row'.2 := by decide +kernel
  have le : ∀ row ∈ commandTable, row.2 ≤ 60 := by decide +kernel
  unfold lengthFits
  simp only [List.any_eq_true, Bool.and_eq_true, beq_iff_eq, decide_eq_true_eq]
  constructor
  · rintro ⟨row, hr, ⟨⟨h1, h2⟩, h3⟩, h4⟩
    have same := uniq row hr (code, n) h h1
    exact ⟨h2.trans same, h3.trans same⟩
  · rintro ⟨h1, h2⟩
    have := le _ h
    exact ⟨(code, n), h, ⟨⟨rfl, h1⟩, h2⟩, by dsimp only at this; omega⟩

/-- A record of the wrong length is refused BAD_LENGTH. -/
theorem writeCommand_badLength {s : State} (hf : mailboxFree s = true) {code : Byte} {n : Nat}
    (h : (code, n) ∈ commandTable) {length : Byte} {args : List Byte} (hb : ¬(length.toNat = n ∧ args.length = n))
    (owner : List Byte → State → Reply × State) :
    writeCommand code owner (.sent length args) s = complete code .badLength 0 [] (wrote args.length s) := by
  rw [writeCommand_free hf]
  unfold takeCommand
  have : lengthFits code length args = false := by
    rw [Bool.eq_false_iff]
    exact fun hh => hb ((lengthFits_iff h _ _).mp hh)
  simp [this]

/-- A command of the right length that the mode takes is its owner's. -/
theorem writeCommand_owner {s : State} {code : Byte} {args : List Byte} (h : mailboxFree s = true)
    (hl : lengthFits code (BitVec.ofNat 8 args.length) args = true) (hm : (s.inSafe && !takenInSafe code) = false)
    (owner : List Byte → State → Reply × State) :
    writeCommand code owner (whole args) s = answer code (owner args (hold code (wrote args.length s))) := by
  unfold whole
  rw [writeCommand_free h]
  unfold takeCommand
  have hm' : ((wrote args.length s).inSafe && !takenInSafe code) = false := hm
  simp [hl, hm']

/-- The same with the mode known to be NORMAL. -/
theorem writeCommand_normal {s : State} {code : Byte} {args : List Byte} (h : takesCommands s = true)
    (hl : lengthFits code (BitVec.ofNat 8 args.length) args = true) (owner : List Byte → State → Reply × State) :
    writeCommand code owner (whole args) s = answer code (owner args (hold code (wrote args.length s))) := by
  unfold takesCommands at h
  simp only [Bool.and_eq_true, beq_iff_eq] at h
  refine writeCommand_owner h.1 hl ?_ owner
  simp [State.inSafe, h.2]

/-- What no completion, no collision and no owner changes, no command of that owner changes. -/
theorem writeCommand_keeps {β : Type} (g : State → β) (hport : ∀ s p n, g { s with port := p, notices := n } = g s)
    {code : Byte} {owner : List Byte → State → Reply × State} (howner : ∀ args s, g (owner args s).2 = g s)
    (record : CommandRecord) (s : State) : g (writeCommand code owner record s) = g s := by
  have hc : ∀ (b : Byte) (r : ResultCode) (k : Nat) (bs : List Byte) (s : State), g (complete b r k bs s) = g s :=
    fun b r k bs s => hport s _ _
  have hh : ∀ (b : Byte) (s : State), g (hold b s) = g s := fun b s => hport s _ s.notices
  have hcol : ∀ s : State, g (collide s) = g s := fun s => hport s _ s.notices
  have hans : ∀ (x : Reply × State), g (answer code x) = g x.2 := by
    intro x
    obtain ⟨r, t⟩ := x
    cases r with
    | done r k bs => exact hc _ _ _ _ _
    | waits => rfl
  have htake : ∀ length args s, g (takeCommand code owner length args s) = g s := by
    intro length args s
    unfold takeCommand
    split
    · rw [hc, hh]
    · split
      · rw [hc, hh]
      · rw [hans, howner, hh]
  have hz : ∀ (n : Nat) (s : State), g (zerosOut n s) = g s := fun n s => hport s _ s.notices
  cases record with
  | cut => exact hz _ _
  | sent length args =>
    unfold writeCommand
    dsimp only
    split
    · exact (hcol _).trans (hz _ _)
    · exact (htake _ _ _).trans (hz _ _)

end Sys2Proof.Machine
end

