-- ==== Sys2Proof/Laws/Operands.lean ====
section
/-! SUPPORT. Numbers in bytes and back, and the argument bytes of a record. -/

namespace Sys2Proof.Machine

@[simp] theorem bytesOf_length (n v : Nat) : (bytesOf n v).length = n := by simp [bytesOf]

theorem bytesOf_succ (n v : Nat) : bytesOf (n + 1) v = BitVec.ofNat 8 (v / 256 ^ n) :: bytesOf n v := by
  unfold bytesOf
  rw [List.range_succ_eq_map]
  simp only [List.map_cons, List.map_map]
  congr 1
  apply List.map_congr_left
  intro i hi
  have : n - (i + 1) = n - 1 - i := by omega
  simp [Function.comp, Nat.succ_eq_add_one, this]

theorem bytesOf_one (v : Nat) : bytesOf 1 v = [BitVec.ofNat 8 v] := by simp [bytesOf]

theorem bytesOf_two (v : Nat) : bytesOf 2 v = [BitVec.ofNat 8 (v / 256), BitVec.ofNat 8 v] := by
  simp [bytesOf, List.range_succ]

theorem bytesOf_three (v : Nat) :
    bytesOf 3 v = [BitVec.ofNat 8 (v / 65536), BitVec.ofNat 8 (v / 256), BitVec.ofNat 8 v] := by
  simp [bytesOf, List.range_succ]

theorem bytesOf_four (v : Nat) :
    bytesOf 4 v =
      [BitVec.ofNat 8 (v / 16777216), BitVec.ofNat 8 (v / 65536), BitVec.ofNat 8 (v / 256), BitVec.ofNat 8 v] := by
  simp [bytesOf, List.range_succ]

theorem natOfBytes_foldl (bs : List Byte) (acc : Nat) :
    bs.foldl (fun a b => a * 256 + b.toNat) acc = acc * 256 ^ bs.length + natOfBytes bs := by
  unfold natOfBytes
  induction bs generalizing acc with
  | nil => simp
  | cons b bs ih =>
    simp only [List.foldl_cons, List.length_cons]
    rw [ih, ih (0 * 256 + b.toNat)]
    ring

theorem natOfBytes_cons (b : Byte) (bs : List Byte) :
    natOfBytes (b :: bs) = b.toNat * 256 ^ bs.length + natOfBytes bs := by
  show (b :: bs).foldl (fun a b => a * 256 + b.toNat) 0 = _
  rw [List.foldl_cons, natOfBytes_foldl]
  simp

/-- A number that fits in its bytes reads back. -/
theorem natOfBytes_bytesOf (n v : Nat) : natOfBytes (bytesOf n v) = v % 256 ^ n := by
  induction n with
  | zero => simp [bytesOf, natOfBytes, Nat.mod_one]
  | succ n ih =>
    rw [bytesOf_succ, natOfBytes_cons, ih]
    simp only [bytesOf_length, BitVec.toNat_ofNat, Nat.reducePow]
    rw [pow_succ, Nat.mod_mul]
    ring

/-! ### Argument bytes -/

/-- A two-byte tap number at the head of the arguments reads back. -/
theorem argField_tap (t : TapNo) (rest : List Byte) : argField (bytesOf 2 t.val ++ rest) 0 2 = t.val := by
  have := t.isLt
  simp only [argField, List.drop_zero, bytesOf_two, List.cons_append, List.nil_append, List.take_succ_cons, List.take_zero,
    natOfBytes, List.foldl_cons, List.foldl_nil, BitVec.toNat_ofNat]
  omega

theorem argTap_bytes (t : TapNo) (rest : List Byte) : argTap (bytesOf 2 t.val ++ rest) = t := by
  simp [argTap, argField_tap, Fin.ofNat, Nat.mod_eq_of_lt t.isLt]

/-- A four-byte number reads back. -/
theorem argField_four {v : Nat} (h : v < 2 ^ 32) : argField (bytesOf 4 v) 0 4 = v := by
  simp only [argField, List.drop_zero, bytesOf_four, List.take_succ_cons, List.take_zero, natOfBytes, List.foldl_cons,
    List.foldl_nil, BitVec.toNat_ofNat]
  omega

end Sys2Proof.Machine
end

