-- ==== Sys2Proof/Laws/Ops.lean ====
section
/-! SUPPORT. What the shared operations do to the fields they touch, once each, beside the frames of Frames.lean. -/

namespace Sys2Proof.Machine

/-! ### Fields that an operation sets -/

@[simp] theorem raise_pending (src : Source) (s : State) :
    (raise src s).notices.pending = s.notices.pending ||| sourceBit src.code := rfl
@[simp] theorem raise_mask (src : Source) (s : State) : (raise src s).notices.mask = s.notices.mask := rfl

/-- A notice pending stays pending when another is raised. -/
theorem raise_keeps_pending {s : State} {i : Nat} (h : s.notices.pending.getLsbD i = true) (src : Source) :
    (raise src s).notices.pending.getLsbD i = true := by
  simp only [raise_pending, BitVec.getLsbD_or, h, Bool.true_or]

@[simp] theorem complete_notices (c : Byte) (r : ResultCode) (k : Nat) (bs : List Byte) (s : State) :
    (complete c r k bs s).notices = s.notices.raise .commandDone := rfl
@[simp] theorem complete_mailbox (c : Byte) (r : ResultCode) (k : Nat) (bs : List Byte) (s : State) :
    (complete c r k bs s).port.mailbox = .done { command := c, code := r, check := k, bytes := bs } := rfl

@[simp] theorem endAccess_inService (b : Bool) (s : State) : (endAccess b s).arbiter.inService = none := rfl
@[simp] theorem withdrawFills_fills (s : State) : (withdrawFills s).fills = [] := by simp [withdrawFills]
@[simp] theorem emptyCommits_commits (s : State) : (emptyCommits s).commits = [] := rfl
@[simp] theorem setWalker_walker (w : Option Walk) (s : State) : (setWalker w s).pool.walker = w := rfl

@[simp] theorem mutePass_pass (s : State) : (mutePass s).proc.pass = none := by
  unfold mutePass
  split
  · assumption
  · rfl

@[simp] theorem endWaiting_waiting (code : ResultCode) (s : State) : (endWaiting code s).pool.waiting = none := by
  unfold endWaiting
  split
  · assumption
  · rfl

theorem endWaiting_none {code : ResultCode} {s : State} (h : s.pool.waiting = none) : endWaiting code s = s := by
  unfold endWaiting; rw [h]

theorem endWaiting_some {code : ResultCode} {s : State} {w : Waiting} (h : s.pool.waiting = some w) :
    endWaiting code s = complete allocCode code 0 [] { s with pool := { s.pool with waiting := none } } := by
  unfold endWaiting; rw [h]

/-- Ending a waiting allocation leaves the rest of the pool. -/
@[simp] theorem endWaiting_pool (code : ResultCode) (s : State) :
    (endWaiting code s).pool = { s.pool with waiting := none } := by
  cases h : s.pool.waiting with
  | none => rw [endWaiting_none h, ← h]
  | some w => rw [endWaiting_some h]; rfl

/-! ### A store fault -/

/-- Below the fourth fault, and in SAFE, a store fault is recorded and raised and does nothing else (R182, R186). -/
theorem storeFault_records {s : State} (h : ¬(s.faults.mode = .normal ∧ 3 ≤ s.faults.level)) (entry : FaultEntry)
    (full : Bool) : storeFault entry full s = raise .storeFault { s with faults := s.faults.record entry full } := by
  unfold storeFault; rw [if_neg h]

/-- The fourth fault in NORMAL enters SAFE (R182, R185). -/
theorem storeFault_enters {s : State} (h : s.faults.mode = .normal ∧ 3 ≤ s.faults.level) (entry : FaultEntry)
    (full : Bool) :
    storeFault entry full s = enterSafe (raise .storeFault { s with faults := s.faults.record entry full }) := by
  unfold storeFault; rw [if_pos h]

/-- What the entry into SAFE leaves (R185). -/
@[simp] theorem enterSafe_leaves (s : State) :
    (enterSafe s).commits = [] ∧ (enterSafe s).fills = [] ∧ (enterSafe s).proc.pass = none ∧
    (enterSafe s).pool = { s.pool with waiting := none } ∧ (enterSafe s).faults = { s.faults with mode := .safe } ∧
    (enterSafe s).notices.mask = s.notices.mask ∧ (enterSafe s).port.collide = s.port.collide ∧
    (enterSafe s).port.mailbox = (if s.pool.waiting.isSome then
      .done { command := allocCode, code := .safe, check := 0, bytes := [] } else s.port.mailbox) ∧
    (enterSafe s).notices.pending = s.notices.pending ||| sourceBit 1 |||
      (if s.pool.waiting.isSome then sourceBit 16 else 0) := by
  obtain ⟨u, hu⟩ : ∃ u, u =
      mutePass (withdrawFills (emptyCommits (raise .safeEntered { s with faults := { s.faults with mode := .safe } }))) :=
    ⟨_, rfl⟩
  have e : enterSafe s = endWaiting .safe u := by rw [hu]; rfl
  have hw : u.pool.waiting = s.pool.waiting := by simp [hu]
  rw [e]
  cases h : s.pool.waiting with
  | none =>
    rw [endWaiting_none (hw.trans h), hu]
    simp [← h, Source.code]
    simp [h]
  | some w =>
    rw [endWaiting_some (hw.trans h), hu]
    simp [NoticeUnit.raise, Source.code]

end Sys2Proof.Machine
end

