-- ==== Sys2Proof/Laws/Boundary.lean ====
section
/-! SUPPORT. What the boundary event does to the tables it goes through, one equation a table, and the mean and the fill
list. -/

namespace Sys2Proof.Machine

/-! ### Sums and the fill list -/

theorem foldl_add_eq_sum (xs : List Nat) : xs.foldl (· + ·) 0 = xs.sum := by rw [List.sum_eq_foldl]

theorem meanSpacing_eq (xs : List Nat) : meanSpacing xs = xs.sum / xs.length := by
  unfold meanSpacing; rw [foldl_add_eq_sum]

theorem mem_insertFill (now : PeriodCount) (f g : Fill) (fs : List Fill) :
    g ∈ insertFill now f fs ↔ g = f ∨ g ∈ fs := by
  induction fs with
  | nil => simp [insertFill]
  | cons x xs ih =>
    unfold insertFill
    split
    · simp only [List.mem_cons, ih]; tauto
    · simp only [List.mem_cons]

/-! ### Quiet tables -/

theorem tablesQuiet_iff (s : State) :
    tablesQuiet s = true ↔ (∀ l, (s.line l).state = .free) ∧ ∀ t, (s.tap t).state = .idle := by
  unfold tablesQuiet
  rw [Bool.and_eq_true, lines_all_iff, taps_all_iff]
  simp

/-- With an ACTIVE line B does not change. -/
theorem sizeAfter_of_active {s : State} {l : LineNo} (h : (s.line l).state = .active) : sizeAfter s = s.timer.size := by
  have : tablesQuiet s = false := by
    rw [Bool.eq_false_iff]
    intro hq
    have := ((tablesQuiet_iff s).mp hq).1 l
    rw [h] at this
    cases this
  unfold sizeAfter
  rw [this]
  split <;> rfl

/-! ### The boundary, table by table -/

/-- A boundary up to the readers: the timer (R2, R3, R9). -/
@[simp] theorem boundaryStart_timer (zero : Bool) (s : State) :
    (boundaryStart zero s).timer = s.timer.boundary zero (tablesQuiet s) (sizeAfter s) := by
  unfold boundaryStart; simp

@[simp] theorem boundaryStart_size (zero : Bool) (s : State) : (boundaryStart zero s).size = (sizeAfter s).toNat := by
  unfold State.size; rw [boundaryStart_timer]; rfl

/-- A boundary up to the readers: a line (R18, R19). -/
@[simp] theorem boundaryStart_line (zero : Bool) (s : State) (l : LineNo) :
    (boundaryStart zero s).line l = (s.line l).boundary zero (sizeAfter s).toNat := by
  unfold boundaryStart State.line; simp [closeLines, State.size, Timer.boundary]

/-- A boundary up to the readers: the fill list (R18, R21). -/
theorem boundaryStart_fills (zero : Bool) (s : State) : (boundaryStart zero s).fills =
    (if zero then [] else allLines.filterMap (owedAtClose s.timer.period s)).foldl
      (fun fs f => oweFill (if zero then 0 else s.timer.period + 1) f fs) s.fills := by
  have same : ∀ u : State, u.lines = s.lines → u.faults = s.faults →
      ∀ p, allLines.filterMap (owedAtClose p u) = allLines.filterMap (owedAtClose p s) := by
    intro u h1 h2 p
    apply List.filterMap_congr
    intro l _
    simp [owedAtClose, State.line, State.inSafe, h1, h2]
  unfold boundaryStart
  simp only [closeLines]
  rw [same _ (by simp) (by simp)]
  cases zero <;> simp [Timer.boundary]

theorem boundary_timer (zero : Bool) (s : State) :
    (boundary zero s).timer = s.timer.boundary zero (tablesQuiet s) (sizeAfter s) := by
  unfold boundary; simp

theorem boundary_size (zero : Bool) (s : State) : (boundary zero s).size = (sizeAfter s).toNat := by
  unfold State.size; rw [boundary_timer]; rfl

theorem boundary_tempo (zero : Bool) (s : State) :
    (boundary zero s).tempo = { s.tempo with tapSide := false, oscSide := false } := by
  unfold boundary; simp [oscBoundary, tapBoundary]

theorem boundary_line (zero : Bool) (s : State) (l : LineNo) :
    (boundary zero s).line l = (s.line l).boundary zero (sizeAfter s).toNat := by
  rw [← boundaryStart_line]; unfold boundary State.line; simp

theorem boundary_tap (zero : Bool) (s : State) (t : TapNo) :
    (boundary zero s).tap t = (s.tap t).boundary (sizeAfter s).toNat s.tempo.interval s.tempo.tapSide := by
  rw [← boundaryStart_size zero s]
  unfold boundary State.tap; simp [tapBoundary]

theorem boundary_osc (zero : Bool) (s : State) (m : OscNo) :
    (boundary zero s).osc m = (s.osc m).boundary (sizeAfter s).toNat s.tempo.interval s.tempo.oscSide
      (sizeAfter s != s.timer.size) := by
  unfold boundary State.osc; simp [oscBoundary, resizes, tapBoundary, State.size, Timer.boundary]

theorem boundary_fills (zero : Bool) (s : State) : (boundary zero s).fills =
    (if zero then [] else allLines.filterMap (owedAtClose s.timer.period s)).foldl
      (fun fs f => oweFill (if zero then 0 else s.timer.period + 1) f fs) s.fills := by
  rw [← boundaryStart_fills]; unfold boundary; simp

end Sys2Proof.Machine
end

