-- ==== Sys2Proof/Laws/Claims.lean ====
section
/-! SUPPORT. The access in service through an event that withdraws claims (R34): every such event leaves it in service, and
heldBy says whose it still is. -/

namespace Sys2Proof.Machine

/-- Where every claimant stands, the access is as it was. -/
@[simp] theorem heldBy_all (a : Access) : a.heldBy (fun _ _ => true) (fun _ _ => true) true = a := by
  cases a <;> simp [Access.heldBy]

@[simp] theorem heldBy_all_map (x : Option Access) :
    x.map (Access.heldBy (fun _ _ => true) (fun _ _ => true) true) = x := by
  cases x <;> simp

/-- Two withdrawals together leave the claimants that both leave. -/
@[simp] theorem heldBy_heldBy (a : Access) (c d : Engine → LineNo → Bool) (f g : LineNo → PeriodCount → Bool)
    (p q : Bool) :
    (a.heldBy c f p).heldBy d g q = a.heldBy (fun e l => c e l && d e l) (fun l p => f l p && g l p) (p && q) := by
  cases a <;> simp [Access.heldBy, Bool.and_assoc]

/-- Commits withdrawn take the write in service from theirs (R34). -/
theorem orphanCommit_arbiter (which : Engine → LineNo → Bool) (s : State) : (orphanCommit which s).arbiter =
    { s.arbiter with
      inService := s.arbiter.inService.map (Access.heldBy (fun e l => !which e l) (fun _ _ => true) true) } := by
  unfold orphanCommit
  rcases h : s.arbiter with ⟨a, x, y⟩
  rcases a with _ | a
  · simp [h]
  · cases a <;> simp [Access.heldBy, h]

/-- Fills withdrawn take the write in service from theirs (R22, R34). -/
theorem orphanFills_arbiter (s : State) : (orphanFills s).arbiter =
    { s.arbiter with inService := s.arbiter.inService.map (Access.heldBy (fun _ _ => true) (owesFill s.fills) true) } := by
  unfold orphanFills
  rcases h : s.arbiter with ⟨a, x, y⟩
  rcases a with _ | a
  · simp [h]
  · cases a <;> simp [Access.heldBy, h]

/-- A pass that ends takes the read in service from it (R34, R102). -/
theorem orphanPassRead_arbiter (s : State) : (orphanPassRead s).arbiter =
    { s.arbiter with inService := s.arbiter.inService.map (Access.heldBy (fun _ _ => true) (fun _ _ => true) false) } := by
  unfold orphanPassRead
  rcases h : s.arbiter with ⟨a, x, y⟩
  rcases a with _ | a
  · simp [h]
  · cases a <;> simp [Access.heldBy, h]

/-- An arbiter with an access in service goes on with it (R34). -/
theorem settle_busy {s : State} {a : Access} (h : s.arbiter.inService = some a) : (settle s).arbiter = s.arbiter := by
  unfold settle serve
  simp [h]

/-- No fill of an empty list is owed. -/
@[simp] theorem owesFill_nil : owesFill [] = fun _ _ => false := rfl

/-- The emptied commit queue has no write in service (R71, R79). -/
theorem emptyCommits_arbiter (s : State) : (emptyCommits s).arbiter = { s.arbiter with
    inService := s.arbiter.inService.map (Access.heldBy (fun _ _ => false) (fun _ _ => true) true) } := by
  have h : ∀ xs s', (List.foldl (fun s (f : QueuedFrame) => freeBuffer f.engine f.buffer s) s' xs).arbiter = s'.arbiter :=
    fun xs s' => foldl_keeps State.arbiter _ (by simp) _ _
  have : (emptyCommits s).arbiter = (orphanCommit (fun _ _ => true) s).arbiter := h _ _
  rw [this, orphanCommit_arbiter]; rfl

/-- The emptied fill list has no write in service (R28). -/
theorem withdrawFills_arbiter (s : State) : (withdrawFills s).arbiter = { s.arbiter with
    inService := s.arbiter.inService.map (Access.heldBy (fun _ _ => true) (fun _ _ => false) true) } := by
  unfold withdrawFills; rw [orphanFills_arbiter]; rfl

/-- A muted pass has no read in service (R106). -/
theorem mutePass_arbiter (s : State) : (mutePass s).arbiter = { s.arbiter with
    inService := s.arbiter.inService.map (Access.heldBy (fun _ _ => true) (fun _ _ => true) s.proc.pass.isNone) } := by
  unfold mutePass
  cases hp : s.proc.pass with
  | none => simp
  | some q => simp [orphanPassRead_arbiter]

/-- The cut at a boundary takes the read in service from the pass it cuts (R102). -/
theorem cutAtBoundary_arbiter (p : PeriodCount) (s : State) : (cutAtBoundary p s).arbiter = { s.arbiter with
    inService := s.arbiter.inService.map (Access.heldBy (fun _ _ => true) (fun _ _ => true) s.proc.pass.isNone) } := by
  have h : ∀ xs ys s', (List.foldl countShort (List.foldl (shortFrame p) s' ys) xs).arbiter = s'.arbiter :=
    fun xs ys s' => (foldl_keeps State.arbiter _ (by simp) _ _).trans (foldl_keeps State.arbiter _ (by simp) _ _)
  have h2 : (cutAtBoundary p s).arbiter = (cutPass s).arbiter := h _ _ _
  rw [h2]
  unfold cutPass
  cases hp : s.proc.pass with
  | none => simp
  | some q => simp [orphanPassRead_arbiter]

/-- A boundary takes the read in service from the pass it cuts, and a write from a fill that is owed no longer (R21, R102). -/
theorem boundaryStart_arbiter (zero : Bool) (s : State) : (boundaryStart zero s).arbiter = { s.arbiter with
    inService := s.arbiter.inService.map
      (Access.heldBy (fun _ _ => true) (owesFill (boundaryStart zero s).fills) s.proc.pass.isNone) } := by
  have hf : ∀ z s, (closeLines z s).arbiter = { s.arbiter with
      inService := s.arbiter.inService.map (Access.heldBy (fun _ _ => true) (owesFill (closeLines z s).fills) true) } := by
    intro z s
    unfold closeLines; rw [orphanFills_arbiter]; simp
  unfold boundaryStart
  rw [hf]
  simp [cutAtBoundary_arbiter, Function.comp_def]

end Sys2Proof.Machine
end

