-- ==== Sys2Proof/Laws/Settle.lean ====
section
/-! SUPPORT. What follows an event, part by part: the frames that leave the commit queue (R69), the oldest period not yet
closed (R24), the retired set's order (R46) and the walker's next page (R43). -/

namespace Sys2Proof.Machine

/-- Freeing a staging buffer changes one link's buffers (R61). -/
theorem freeBuffer_link (e : Engine) (b : Fin 2) (s : State) (d : Engine) :
    (freeBuffer e b s).link d =
      if d = e then { s.link e with buffers := (s.link e).buffers.set b.val .free } else s.link d := by
  simp [freeBuffer, State.link_setLink]

/-- The buffers after one is freed. -/
theorem freeBuffer_buffer (e : Engine) (b : Fin 2) (s : State) (d : Engine) (c : Fin 2) :
    ((freeBuffer e b s).link d).buffers[c.val] = if d = e ∧ c = b then .free else (s.link d).buffers[c.val] := by
  rw [freeBuffer_link]
  by_cases h : d = e
  · subst h
    simp only [if_true, true_and]
    by_cases hc : c = b
    · subst hc; simp
    · have hne : b.val ≠ c.val := fun h => hc (Fin.ext h.symm)
      simp only [hc, if_false]
      rw [Vector.getElem_set_ne]; exact hne
  · simp [h]

/-- What freeing the buffers of some frames does to a link (R61, R71). -/
theorem freeBuffers_link (fs : List QueuedFrame) (s : State) (e : Engine) :
    let t := fs.foldl (fun s f => freeBuffer f.engine f.buffer s) s
    t.link e = { s.link e with buffers := (t.link e).buffers } ∧
    ∀ b : Fin 2, ((∃ f ∈ fs, f.engine = e ∧ f.buffer = b) → (t.link e).buffers[b.val] = .free) ∧
      ((∀ f ∈ fs, ¬(f.engine = e ∧ f.buffer = b)) → (t.link e).buffers[b.val] = (s.link e).buffers[b.val]) := by
  induction fs generalizing s with
  | nil => exact ⟨rfl, fun b => ⟨by simp, fun _ => rfl⟩⟩
  | cons f fs ih =>
    obtain ⟨h5, h6⟩ := ih (freeBuffer f.engine f.buffer s)
    dsimp only [List.foldl_cons]
    refine ⟨?_, fun b => ⟨?_, ?_⟩⟩
    · rw [h5, freeBuffer_link]
      by_cases he : e = f.engine
      · subst he; simp
      · simp [he]
    · rintro ⟨g, hg, hb⟩
      by_cases hin : ∃ g ∈ fs, g.engine = e ∧ g.buffer = b
      · exact (h6 b).1 hin
      · rw [(h6 b).2 (fun g hg hh => hin ⟨g, hg, hh⟩), freeBuffer_buffer]
        rcases List.mem_cons.mp hg with rfl | hg
        · simp [hb.1, hb.2]
        · exact absurd ⟨g, hg, hb⟩ hin
    · intro hb
      rw [(h6 b).2 (fun g hg => hb g (List.mem_cons_of_mem _ hg)), freeBuffer_buffer]
      have := hb f (List.mem_cons_self ..)
      rw [if_neg]
      rintro ⟨rfl, rfl⟩
      exact this ⟨rfl, rfl⟩

/-- When a commit has nothing more to write of a block (R25, R69). -/
theorem blockOver_iff (s : State) (k : KeptBlock) : blockOver s k = true ↔
    ¬((s.line k.line).state = .active ∧ (s.line k.line).generation = k.generation) ∨ s.size ≤ k.written := by
  simp [blockOver, blockStands]
  tauto

/-- What draining does to the commit queue and the buffers (R69): the frames gone have every block over and their buffers are
free; the first that stays begins with a block that is not over; nothing else of a link changes. -/
theorem drainFrames_spec (fs : List QueuedFrame) (s : State) :
    ∃ gone kept : List QueuedFrame, fs = gone ++ kept ∧ (∀ f ∈ gone, ∀ k ∈ f.blocks, blockOver s k = true) ∧
      ((kept = [] ∧ (drainFrames s fs).commits = []) ∨
        ∃ f rest dropped k more, kept = f :: rest ∧ f.blocks = dropped ++ k :: more ∧
          (∀ d ∈ dropped, blockOver s d = true) ∧ ¬blockOver s k = true ∧
          (drainFrames s fs).commits = { f with blocks := k :: more } :: rest) ∧
      ∀ e,
        let x := (drainFrames s fs).link e
        x = { s.link e with buffers := x.buffers } ∧
        ∀ b : Fin 2, ((∃ f ∈ gone, f.engine = e ∧ f.buffer = b) → x.buffers[b.val] = .free) ∧
          ((∀ f ∈ gone, ¬(f.engine = e ∧ f.buffer = b)) → x.buffers[b.val] = (s.link e).buffers[b.val]) := by
  induction fs generalizing s with
  | nil => exact ⟨[], [], rfl, by simp, .inl ⟨rfl, rfl⟩, fun _ => ⟨rfl, fun _ => ⟨by simp, fun _ => rfl⟩⟩⟩
  | cons f fs ih =>
    have split := List.takeWhile_append_dropWhile (p := blockOver s) (l := f.blocks)
    have taken : ∀ d ∈ f.blocks.takeWhile (blockOver s), blockOver s d = true := fun d hd => List.mem_takeWhile_imp hd
    cases h : f.blocks.dropWhile (blockOver s) with
    | nil =>
      have step : drainFrames s (f :: fs) = drainFrames (freeBuffer f.engine f.buffer s) fs := by
        simp only [drainFrames, h]
      rw [step]
      obtain ⟨gone, kept, h1, h2, h3, h4⟩ := ih (freeBuffer f.engine f.buffer s)
      have ov : ∀ k, blockOver (freeBuffer f.engine f.buffer s) k = blockOver s k := fun k => rfl
      rw [h, List.append_nil] at split
      refine ⟨f :: gone, kept, by rw [h1]; rfl, ?_, ?_, ?_⟩
      · intro g hg k hk
        rcases List.mem_cons.mp hg with rfl | hg
        · rw [← split] at hk; exact taken k hk
        · exact h2 g hg k hk
      · exact h3
      · intro e
        obtain ⟨h5, h6⟩ := h4 e
        refine ⟨?_, fun b => ⟨?_, ?_⟩⟩
        · rw [h5, freeBuffer_link]
          by_cases he : e = f.engine
          · subst he; simp
          · simp [he]
        · rintro ⟨g, hg, hb⟩
          by_cases hin : ∃ g ∈ gone, g.engine = e ∧ g.buffer = b
          · exact (h6 b).1 hin
          · rw [(h6 b).2 (fun g hg hh => hin ⟨g, hg, hh⟩), freeBuffer_buffer]
            rcases List.mem_cons.mp hg with rfl | hg
            · simp [hb.1, hb.2]
            · exact absurd ⟨g, hg, hb⟩ hin
        · intro hb
          rw [(h6 b).2 (fun g hg => hb g (List.mem_cons_of_mem _ hg)), freeBuffer_buffer]
          have := hb f (List.mem_cons_self ..)
          rw [if_neg]
          rintro ⟨rfl, rfl⟩
          exact this ⟨rfl, rfl⟩
    | cons k more =>
      have step : drainFrames s (f :: fs) = { s with commits := { f with blocks := k :: more } :: fs } := by
        simp only [drainFrames, h]
      rw [step]
      have first : ¬blockOver s k = true := by
        have := List.head?_dropWhile_not (blockOver s) f.blocks
        rw [h] at this
        simpa using this
      refine ⟨[], f :: fs, rfl, by simp, .inr ⟨f, fs, f.blocks.takeWhile (blockOver s), k, more, rfl, ?_, taken, first, rfl⟩,
        fun e => ⟨rfl, fun b => ⟨by simp, fun _ => rfl⟩⟩⟩
      rw [h] at split; exact split.symm

/-- The oldest of some periods is one of them or now, and none of them is older (R24). -/
theorem oldestOf_spec (now : PeriodCount) (ps : List PeriodCount) :
    (oldestOf now ps = now ∨ oldestOf now ps ∈ ps) ∧ ∀ p ∈ ps, age now p ≤ age now (oldestOf now ps) := by
  have key : ∀ (ps : List PeriodCount) (o : PeriodCount), 
      let r := ps.foldl (fun o p => if olderThan now p o then p else o) o
      (r = o ∨ r ∈ ps) ∧ age now o ≤ age now r ∧ ∀ p ∈ ps, age now p ≤ age now r := by
    intro ps
    induction ps with
    | nil => intro o; simp
    | cons p ps ih =>
      intro o
      obtain ⟨h1, h2, h3⟩ := ih (if olderThan now p o then p else o)
      dsimp only [List.foldl_cons]
      refine ⟨?_, ?_, ?_⟩
      · rcases h1 with h1 | h1
        · rw [h1]; split <;> simp
        · right; exact List.mem_cons_of_mem _ h1
      · refine le_trans ?_ h2
        split
        · rename_i h; simp [olderThan] at h; omega
        · exact le_refl _
      · intro q hq
        rcases List.mem_cons.mp hq with rfl | hq
        · refine le_trans ?_ h2
          split
          · exact le_refl _
          · rename_i h; simp [olderThan] at h; omega
        · exact h3 q hq
  obtain ⟨h1, _, h3⟩ := key ps now
  exact ⟨h1, h3⟩

/-! ### The page pool -/

/-- A page inserted stands behind the smaller numbers and before the rest (R46). -/
theorem insertPage_eq (p : Page) (xs : List Page) : insertPage p xs = xs.takeWhile (· < p) ++ p :: xs.dropWhile (· < p) := by
  induction xs with
  | nil => rfl
  | cons x xs ih =>
    unfold insertPage
    by_cases h : x.val < p.val
    · rw [if_pos h, ih]; simp [show x < p from h]
    · rw [if_neg h]; simp [show ¬x < p from h]

/-- In NORMAL a walker without a page takes the head of the dirty queue (R43). -/
theorem walkerTakes_normal {s : State} (h1 : s.faults.mode = .normal) (h2 : s.pool.walker = none) :
    walkerTakes s = { s with pool := { s.pool with
      walker := s.pool.dirty.head?.map fun p => { page := p, phase := .clear, pointer := 0 }, dirty := s.pool.dirty.tail } } := by
  unfold walkerTakes State.inSafe
  rw [h1, h2]
  simp
  cases hd : s.pool.dirty with
  | nil => simp; rw [← h2, ← hd]
  | cons p ps => simp

end Sys2Proof.Machine
end

