-- ==== Sys2Proof/Laws/Commits.lean ====
section
/-! SUPPORT. The law of the commit queue through the operations that touch a staging buffer, a receiver or the queue: one
link's record replaced, frames drained, a link switched on or off, the queue emptied (R57, R58, R61, R69 to R71, R79). -/

namespace Sys2Proof.Machine

/-- The law reads the queue, and of each link its state, receiver and buffers. -/
theorem CommitsLawful.congr {s t : State} (h : CommitsLawful s) (hc : t.commits = s.commits)
    (hl : ∀ e, (t.link e).state = (s.link e).state ∧ (t.link e).receiver = (s.link e).receiver ∧
      (t.link e).buffers = (s.link e).buffers) : CommitsLawful t where
  own := by rw [hc]; exact h.own
  marked := by
    intro f hf
    rw [hc] at hf
    simp only [(hl f.engine).2.2]
    exact h.marked f hf
  gathering := by
    intro e b w hr
    rw [(hl e).2.1] at hr
    simp only [(hl e).2.2]
    exact h.gathering e b w hr
  offQuiet := by
    intro e he
    rw [(hl e).1] at he
    rw [hc, (hl e).2.1]
    exact h.offQuiet e he

/-- One link's record replaced by one that keeps its queued buffers marked, gathers into a buffer marked so, and, where it is
OFF, has no frame queued and hunts. -/
theorem CommitsLawful.setLink {s : State} (h : CommitsLawful s) {e : Engine} {x : Link}
    (marked : ∀ f ∈ s.commits, f.engine = e → x.buffers[f.buffer.val] = .queued)
    (gathering : ∀ b w, x.receiver = .receiving b w → ∃ bytes overlong, x.buffers[b.val] = .receiving bytes overlong)
    (off : x.state = .off → (∀ f ∈ s.commits, f.engine ≠ e) ∧ x.receiver = .hunt) : CommitsLawful (s.setLink e x) where
  own := h.own
  marked := by
    intro f hf
    rcases eq_or_ne f.engine e with he | he
    · simpa [he] using marked f hf he
    · simpa [State.link_setLink_other _ _ he] using h.marked f hf
  gathering := by
    intro d b w
    rcases eq_or_ne d e with rfl | he
    · simpa using gathering b w
    · simpa [State.link_setLink_other _ _ he] using h.gathering d b w
  offQuiet := by
    intro d
    rcases eq_or_ne d e with rfl | he
    · simpa using off
    · simpa [State.link_setLink_other _ _ he] using h.offQuiet d

/-- Frames drained from the queue's head leave the law standing for those behind them (R61, R69). -/
theorem drainFrames_commitsLawful (fs : List QueuedFrame) (s : State) (h : CommitsLawful { s with commits := fs }) :
    CommitsLawful (drainFrames s fs) := by
  induction fs generalizing s with
  | nil => exact h
  | cons f fs ih =>
    unfold drainFrames
    split
    · apply ih
      have own := h.own
      rw [List.map_cons, List.nodup_cons] at own
      have other : ∀ g ∈ fs, ¬(g.engine = f.engine ∧ g.buffer = f.buffer) := by
        intro g hg hh
        exact own.1 (List.mem_map.mpr ⟨g, hg, Prod.ext hh.1 hh.2⟩)
      have keeps : ∀ e, ((freeBuffer f.engine f.buffer s).link e).state = (s.link e).state ∧
          ((freeBuffer f.engine f.buffer s).link e).receiver = (s.link e).receiver := by
        intro e
        rw [freeBuffer_link]
        split
        · rename_i he; subst he; exact ⟨rfl, rfl⟩
        · exact ⟨rfl, rfl⟩
      refine ⟨own.2, ?_, ?_, ?_⟩
      · intro g hg
        show ((freeBuffer f.engine f.buffer s).link g.engine).buffers[g.buffer.val] = _
        rw [freeBuffer_buffer, if_neg (other g hg)]
        exact h.marked g (List.mem_cons_of_mem _ hg)
      · intro e b w hr
        replace hr : ((freeBuffer f.engine f.buffer s).link e).receiver = .receiving b w := hr
        rw [(keeps e).2] at hr
        obtain ⟨bytes, overlong, hb⟩ := h.gathering e b w hr
        replace hb : (s.link e).buffers[b.val] = .receiving bytes overlong := hb
        refine ⟨bytes, overlong, ?_⟩
        show ((freeBuffer f.engine f.buffer s).link e).buffers[b.val] = _
        rw [freeBuffer_buffer, if_neg]
        · exact hb
        · rintro ⟨rfl, rfl⟩
          have := h.marked f (List.mem_cons_self ..)
          replace this : (s.link f.engine).buffers[f.buffer.val] = .queued := this
          rw [this] at hb; cases hb
      · intro e he
        replace he : ((freeBuffer f.engine f.buffer s).link e).state = .off := he
        rw [(keeps e).1] at he
        obtain ⟨hq, hr⟩ := h.offQuiet e he
        refine ⟨fun g hg => hq g (List.mem_cons_of_mem _ hg), ?_⟩
        show ((freeBuffer f.engine f.buffer s).link e).receiver = _
        rw [(keeps e).2]; exact hr
    · rename_i blocks _
      refine ⟨h.own, ?_, h.gathering, ?_⟩
      · intro g hg
        rcases List.mem_cons.mp hg with rfl | hg
        · exact h.marked f (List.mem_cons_self ..)
        · exact h.marked g (List.mem_cons_of_mem _ hg)
      · intro e he
        obtain ⟨hq, hr⟩ := h.offQuiet e he
        refine ⟨fun g hg => ?_, hr⟩
        rcases List.mem_cons.mp hg with rfl | hg
        · exact hq f (List.mem_cons_self ..)
        · exact hq g (List.mem_cons_of_mem _ hg)

/-- What follows an event keeps the law. -/
theorem settle_commitsLawful {s : State} (h : CommitsLawful s) : CommitsLawful (settle s) := by
  have hd : CommitsLawful (drainCommits s) := drainFrames_commitsLawful s.commits s h
  refine hd.congr ?_ fun e => ?_
  · unfold settle serve updateClosed
    split
    · rfl
    · split <;> rfl
  · unfold settle serve updateClosed
    split
    · exact ⟨rfl, rfl, rfl⟩
    · split <;> exact ⟨rfl, rfl, rfl⟩

/-- A link switched on (R57). -/
theorem switchOn_commitsLawful {s : State} (h : CommitsLawful s) {e : Engine} (off : (s.link e).state = .off) :
    CommitsLawful (s.setLink e (s.link e).switchOn) := by
  have quiet := h.offQuiet e off
  refine h.setLink (fun f hf he => absurd he (quiet.1 f hf)) ?_ ?_
  · intro b w hr; cases hr
  · intro hoff; cases hoff

/-- The queue emptied (R71, R79): no buffer that is gathered into was a queued one. -/
theorem emptyCommits_commitsLawful {s : State} (h : CommitsLawful s) : CommitsLawful (emptyCommits s) := by
  have links : ∀ e, (emptyCommits s).link e = { s.link e with buffers := ((emptyCommits s).link e).buffers } ∧
      ∀ b : Fin 2, (∀ f ∈ s.commits, ¬(f.engine = e ∧ f.buffer = b)) →
        ((emptyCommits s).link e).buffers[b.val] = (s.link e).buffers[b.val] := by
    intro e
    have same : (orphanCommit (fun _ _ => true) s).link e = s.link e := by unfold orphanCommit; split <;> rfl
    have := freeBuffers_link s.commits (orphanCommit (fun _ _ => true) s) e
    rw [same] at this
    exact ⟨this.1, fun b => (this.2 b).2⟩
  refine ⟨List.nodup_nil, fun f hf => (nomatch hf), ?_, ?_⟩
  · intro e b w hr
    rw [(links e).1] at hr
    obtain ⟨bytes, overlong, hb⟩ := h.gathering e b w hr
    refine ⟨bytes, overlong, ?_⟩
    rw [(links e).2 b, hb]
    rintro f hf ⟨rfl, rfl⟩
    have := h.marked f hf
    rw [this] at hb; cases hb
  · intro e he
    rw [(links e).1] at he
    refine ⟨fun f hf => (nomatch hf), ?_⟩
    rw [(links e).1]
    exact (h.offQuiet e he).2

/-- A link switched off (R57, R70): its frames leave the queue. -/
theorem linkOff_commitsLawful {s : State} (h : CommitsLawful s) (e : Engine) : CommitsLawful (linkOff e s) := by
  have commits : (withdrawFrames e s).commits = s.commits.filter (·.engine != e) := by simp [withdrawFrames]
  have links : ∀ d, (withdrawFrames e s).link d = s.link d := by intro d; simp [withdrawFrames, State.link]
  have law : CommitsLawful ((withdrawFrames e s).setLink e ((withdrawFrames e s).link e).switchOff) := by
    have h1 : CommitsLawful (withdrawFrames e s) := by
      refine ⟨?_, ?_, ?_, ?_⟩
      · rw [commits]; exact h.own.sublist (List.filter_sublist.map _)
      · intro f hf
        rw [commits] at hf
        simp only [links]
        exact h.marked f (List.mem_of_mem_filter hf)
      · intro d; simp only [links]; exact h.gathering d
      · intro d hd
        rw [links] at hd
        rw [commits, links]
        exact ⟨fun f hf => (h.offQuiet d hd).1 f (List.mem_of_mem_filter hf), (h.offQuiet d hd).2⟩
    have none : ∀ f ∈ (withdrawFrames e s).commits, f.engine ≠ e := by
      intro f hf
      rw [commits] at hf
      simpa using (List.mem_filter.mp hf).2
    refine h1.setLink (fun f hf he => absurd he (none f hf)) ?_ fun _ => ⟨none, rfl⟩
    intro b w hr; cases hr
  unfold linkOff
  refine settle_commitsLawful ?_
  have pass : ∀ u d, (withdrawPass e u).commits = u.commits ∧ (withdrawPass e u).link d = u.link d := by
    intro u d; simp [State.link]
  refine law.congr ((pass _ e).1.trans ?_) fun d => ?_
  · rfl
  · rw [(pass _ d).2]
    unfold abortTransmitter
    rcases eq_or_ne d e with rfl | hd
    · show ((State.setLink _ d _).link d).state = _ ∧ ((State.setLink _ d _).link d).receiver = _ ∧
        ((State.setLink _ d _).link d).buffers = _
      simp only [State.link_setLink_same, and_self]
    · show ((State.setLink _ e _).link d).state = _ ∧ ((State.setLink _ e _).link d).receiver = _ ∧
        ((State.setLink _ e _).link d).buffers = _
      simp only [State.link_setLink_other _ _ hd, and_self]

end Sys2Proof.Machine
end

