-- ==== Sys2Proof/Laws/Edges.lean ====
section
/-! SUPPORT. What an adoption taken between the two readers of a boundary leaves unchanged, and with it every counted edge;
with nothing taken between them the boundary is the plain one. -/

namespace Sys2Proof.Machine

/-- What staging an edit keeps, the taps of a pop keep. -/
theorem popTaps_keeps {β : Type} (g : State → β) (h : ∀ t e s, g (stageEdit t e s) = g s) (entry : Scene) (s : State) :
    g (popTaps entry s).state = g s := by
  have step : ∀ (p : PopProgress) (t : TapNo), g (p.judge entry t).state = g p.state := by
    intro p t
    unfold PopProgress.judge PopProgress.restore PopProgress.skip
    dsimp only
    (repeat' split) <;> first | rfl | exact h _ _ _
  have walk : ∀ (xs : List TapNo) (p : PopProgress), g (xs.foldl (PopProgress.judge entry) p).state = g p.state := by
    intro xs
    induction xs with
    | nil => intro p; rfl
    | cons x xs ih => intro p; exact (ih _).trans (step p x)
  exact walk _ _

/-- What a stage, an adoption and the depth of the stack keep, POP_SCENE keeps. -/
theorem ownPopScene_keeps {β : Type} (g : State → β) (h : ∀ t e s, g (stageEdit t e s) = g s)
    (hpop : ∀ x s, g (popTempo x s) = g s) (hdepth : ∀ xs s, g { s with scenes := xs } = g s) (args : List Byte)
    (s : State) : g (ownPopScene args s).2 = g s := by
  unfold ownPopScene
  split
  · rfl
  · dsimp only
    rw [hpop, popTaps_keeps g h, hdepth]

theorem ownSetTempo_keeps {β : Type} (g : State → β) (h : ∀ v s, g (adopt v s) = g s) (args : List Byte) (s : State) :
    g (ownSetTempo args s).2 = g s := by
  unfold ownSetTempo
  split
  · rfl
  · exact h _ _

theorem ownTapTempo_keeps {β : Type} (g : State → β) (h : ∀ x o s, g { s with tempo := x, oscs := o } = g s)
    (hoffer : ∀ v s, g (offer v s) = g s) (halign : ∀ ib s, g (alignBeat ib s) = g s)
    (hrestart : ∀ s, g (restartBeat s) = g s) (args : List Byte) (s : State) : g (ownTapTempo args s).2 = g s := by
  have restart : ∀ s, g (restartTaps s).2 = g s := by
    intro s
    unfold restartTaps
    dsimp only
    rw [hrestart]
    exact h _ s.oscs s
  have count : ∀ n s, g (countTap n s).2 = g s := by
    intro n s
    unfold countTap
    dsimp only
    rw [hoffer, halign]
    exact h _ s.oscs s
  unfold ownTapTempo
  split
  · rfl
  · split
    · exact restart _
    · dsimp only
      (repeat' split)
      · rfl
      · exact restart _
      · exact count _ _

/-- What the port, the notices and the parts an adoption touches leave alone, an adoption leaves alone. -/
theorem takeAdoption_keeps {β : Type} (g : State → β) (hport : ∀ s p n, g { s with port := p, notices := n } = g s)
    (h : ∀ x o s, g { s with tempo := x, oscs := o } = g s) (hstage : ∀ t e s, g (stageEdit t e s) = g s)
    (hdepth : ∀ xs s, g { s with scenes := xs } = g s) (hpulse : ∀ s, g (takePulse s) = g s)
    (hadopt : ∀ v s, g (adopt v s) = g s) (hoffer : ∀ v s, g (offer v s) = g s)
    (halign : ∀ ib s, g (alignBeat ib s) = g s) (hpop : ∀ x s, g (popTempo x s) = g s) (s : State) (a : Adoption) :
    g (takeAdoption s a) = g s := by
  cases a with
  | setTempo record => exact writeCommand_keeps g hport (ownSetTempo_keeps g hadopt) record s
  | tapTempo record => exact writeCommand_keeps g hport (ownTapTempo_keeps g h hoffer halign (fun s => h _ _ s)) record s
  | popScene record => exact writeCommand_keeps g hport (ownPopScene_keeps g hstage hpop hdepth) record s
  | tempoPulse => exact hpulse s

@[simp] theorem takeAdoption_frame (a : Adoption) (s : State) :
    (takeAdoption s a).timer = s.timer ∧ (takeAdoption s a).store = s.store ∧
    (takeAdoption s a).arbiter = s.arbiter ∧ (takeAdoption s a).refresh = s.refresh ∧
    (takeAdoption s a).pool = s.pool ∧ (takeAdoption s a).lines = s.lines ∧ (takeAdoption s a).fills = s.fills ∧
    (takeAdoption s a).oldestOpen = s.oldestOpen ∧ (takeAdoption s a).links = s.links ∧
    (takeAdoption s a).commits = s.commits ∧ (takeAdoption s a).proc = s.proc ∧
    (takeAdoption s a).faults = s.faults ∧ (takeAdoption s a).freeIx = s.freeIx ∧
    (takeAdoption s a).pending = s.pending := by
  exact ⟨takeAdoption_keeps State.timer (by intros; rfl) (by intros; rfl) (by intros; rfl) (by intros; rfl) (by simp) (by simp) (by simp) (by simp) (by simp) s a,
    takeAdoption_keeps State.store (by intros; rfl) (by intros; rfl) (by intros; rfl) (by intros; rfl) (by simp) (by simp) (by simp) (by simp) (by simp) s a,
    takeAdoption_keeps State.arbiter (by intros; rfl) (by intros; rfl) (by intros; rfl) (by intros; rfl) (by simp) (by simp) (by simp) (by simp) (by simp) s a,
    takeAdoption_keeps State.refresh (by intros; rfl) (by intros; rfl) (by intros; rfl) (by intros; rfl) (by simp) (by simp) (by simp) (by simp) (by simp) s a,
    takeAdoption_keeps State.pool (by intros; rfl) (by intros; rfl) (by intros; rfl) (by intros; rfl) (by simp) (by simp) (by simp) (by simp) (by simp) s a,
    takeAdoption_keeps State.lines (by intros; rfl) (by intros; rfl) (by intros; rfl) (by intros; rfl) (by simp) (by simp) (by simp) (by simp) (by simp) s a,
    takeAdoption_keeps State.fills (by intros; rfl) (by intros; rfl) (by intros; rfl) (by intros; rfl) (by simp) (by simp) (by simp) (by simp) (by simp) s a,
    takeAdoption_keeps State.oldestOpen (by intros; rfl) (by intros; rfl) (by intros; rfl) (by intros; rfl) (by simp) (by simp) (by simp) (by simp) (by simp) s a,
    takeAdoption_keeps State.links (by intros; rfl) (by intros; rfl) (by intros; rfl) (by intros; rfl) (by simp) (by simp) (by simp) (by simp) (by simp) s a,
    takeAdoption_keeps State.commits (by intros; rfl) (by intros; rfl) (by intros; rfl) (by intros; rfl) (by simp) (by simp) (by simp) (by simp) (by simp) s a,
    takeAdoption_keeps State.proc (by intros; rfl) (by intros; rfl) (by intros; rfl) (by intros; rfl) (by simp) (by simp) (by simp) (by simp) (by simp) s a,
    takeAdoption_keeps State.faults (by intros; rfl) (by intros; rfl) (by intros; rfl) (by intros; rfl) (by simp) (by simp) (by simp) (by simp) (by simp) s a,
    takeAdoption_keeps State.freeIx (by intros; rfl) (by intros; rfl) (by intros; rfl) (by intros; rfl) (by simp) (by simp) (by simp) (by simp) (by simp) s a,
    takeAdoption_keeps State.pending (by intros; rfl) (by intros; rfl) (by intros; rfl) (by intros; rfl) (by simp) (by simp) (by simp) (by simp) (by simp) s a⟩

@[simp] theorem adoptBetween_frame (as : List Adoption) (s : State) :
    (adoptBetween as s).timer = s.timer ∧ (adoptBetween as s).store = s.store ∧
    (adoptBetween as s).arbiter = s.arbiter ∧ (adoptBetween as s).refresh = s.refresh ∧
    (adoptBetween as s).pool = s.pool ∧ (adoptBetween as s).lines = s.lines ∧ (adoptBetween as s).fills = s.fills ∧
    (adoptBetween as s).oldestOpen = s.oldestOpen ∧ (adoptBetween as s).links = s.links ∧
    (adoptBetween as s).commits = s.commits ∧ (adoptBetween as s).proc = s.proc ∧
    (adoptBetween as s).faults = s.faults ∧ (adoptBetween as s).freeIx = s.freeIx ∧
    (adoptBetween as s).pending = s.pending := by
  exact ⟨foldl_keeps State.timer _ (by simp) _ _,
    foldl_keeps State.store _ (by simp) _ _,
    foldl_keeps State.arbiter _ (by simp) _ _,
    foldl_keeps State.refresh _ (by simp) _ _,
    foldl_keeps State.pool _ (by simp) _ _,
    foldl_keeps State.lines _ (by simp) _ _,
    foldl_keeps State.fills _ (by simp) _ _,
    foldl_keeps State.oldestOpen _ (by simp) _ _,
    foldl_keeps State.links _ (by simp) _ _,
    foldl_keeps State.commits _ (by simp) _ _,
    foldl_keeps State.proc _ (by simp) _ _,
    foldl_keeps State.faults _ (by simp) _ _,
    foldl_keeps State.freeIx _ (by simp) _ _,
    foldl_keeps State.pending _ (by simp) _ _⟩

@[simp] theorem readersBoundary_frame (o : EdgeOrder) (z : Bool) (s : State) :
    (readersBoundary o z s).timer = s.timer ∧ (readersBoundary o z s).store = s.store ∧
    (readersBoundary o z s).arbiter = s.arbiter ∧ (readersBoundary o z s).refresh = s.refresh ∧
    (readersBoundary o z s).pool = s.pool ∧ (readersBoundary o z s).lines = s.lines ∧
    (readersBoundary o z s).fills = s.fills ∧ (readersBoundary o z s).oldestOpen = s.oldestOpen ∧
    (readersBoundary o z s).links = s.links ∧ (readersBoundary o z s).commits = s.commits ∧
    (readersBoundary o z s).proc = s.proc ∧ (readersBoundary o z s).faults = s.faults ∧
    (readersBoundary o z s).freeIx = s.freeIx ∧ (readersBoundary o z s).pending = s.pending := by
  unfold readersBoundary
  (repeat' split) <;> simp

@[simp] theorem boundaryAround_frame (o : EdgeOrder) (z : Bool) (s : State) :
    (boundaryAround o z s).store = s.store ∧ (boundaryAround o z s).refresh = s.refresh ∧
    (boundaryAround o z s).pool = s.pool ∧ (boundaryAround o z s).faults = s.faults ∧
    (boundaryAround o z s).freeIx = s.freeIx ∧ (boundaryAround o z s).pending = s.pending := by
  simp [boundaryAround]

@[simp] theorem countEdge_frame (z : Bool) (o : EdgeOrder) (s : State) :
    (countEdge z o s).store = s.store ∧ (countEdge z o s).refresh = s.refresh ∧ (countEdge z o s).pool = s.pool ∧
    (countEdge z o s).faults = s.faults ∧ (countEdge z o s).freeIx = s.freeIx ∧
    (countEdge z o s).pending = s.pending := by
  unfold countEdge
  (repeat' split) <;> simp

@[simp] theorem countedEdge_frame (z : Bool) (o : EdgeOrder) (s : State) :
    (countedEdge z o s).store = s.store ∧ (countedEdge z o s).refresh = s.refresh ∧
    (countedEdge z o s).pool = s.pool ∧ (countedEdge z o s).faults = s.faults ∧
    (countedEdge z o s).freeIx = s.freeIx ∧ (countedEdge z o s).pending = s.pending := by
  simp [countedEdge]

@[simp] theorem edgeLocked_frame (r : Nat) (o : EdgeOrder) (s : State) :
    (edgeLocked r o s).store = s.store ∧ (edgeLocked r o s).refresh = s.refresh ∧
    (edgeLocked r o s).pool = s.pool ∧ (edgeLocked r o s).faults = s.faults ∧
    (edgeLocked r o s).freeIx = s.freeIx ∧ (edgeLocked r o s).pending = s.pending := by
  simp [edgeLocked]

@[simp] theorem loseClock_frame (r : Nat) (o : EdgeOrder) (s : State) :
    (loseClock r o s).store = s.store ∧ (loseClock r o s).refresh = s.refresh ∧ (loseClock r o s).pool = s.pool ∧
    (loseClock r o s).faults = s.faults ∧ (loseClock r o s).freeIx = s.freeIx ∧
    (loseClock r o s).pending = s.pending := by
  simp [loseClock]

@[simp] theorem turnFlywheel_frame (r : Nat) (o : EdgeOrder) (s : State) :
    (turnFlywheel r o s).store = s.store ∧ (turnFlywheel r o s).refresh = s.refresh ∧
    (turnFlywheel r o s).pool = s.pool ∧ (turnFlywheel r o s).faults = s.faults ∧
    (turnFlywheel r o s).freeIx = s.freeIx ∧ (turnFlywheel r o s).pending = s.pending := by
  unfold turnFlywheel
  dsimp only
  (repeat' split) <;> simp

/-- With nothing taken between the readers and the tap table first, the boundary is the plain one. -/
theorem boundaryAround_plain (order : EdgeOrder) (h : order.between = []) (hf : order.bankFirst = false) (zero : Bool)
    (s : State) : boundaryAround order zero s = boundary zero s := by
  simp [boundaryAround, boundary, readersBoundary, adoptBetween, h, hf]

/-- With nothing taken between them, the two readers' order does not show (R128). -/
theorem boundaryAround_alone (order : EdgeOrder) (h : order.between = []) (zero : Bool) (s : State) :
    boundaryAround order zero s = boundary zero s := by
  cases hf : order.bankFirst with
  | false => exact boundaryAround_plain order h hf zero s
  | true => simp [boundaryAround, boundary, readersBoundary, adoptBetween, h, hf, tapBoundary, oscBoundary, State.size]

/-- Whatever is taken between the readers, the boundary's other parts are the plain one's. -/
theorem boundaryAround_timer (order : EdgeOrder) (zero : Bool) (s : State) :
    (boundaryAround order zero s).timer = (boundary zero s).timer := by
  unfold boundaryAround boundary; simp

theorem boundaryAround_line (order : EdgeOrder) (zero : Bool) (s : State) (l : LineNo) :
    (boundaryAround order zero s).line l = (boundary zero s).line l := by
  unfold boundaryAround boundary State.line; simp

theorem boundaryAround_fills (order : EdgeOrder) (zero : Bool) (s : State) :
    (boundaryAround order zero s).fills = (boundary zero s).fills := by
  unfold boundaryAround boundary; simp

end Sys2Proof.Machine
end

