-- ==== Sys2Proof/Laws/Counted.lean ====
section
/-! SUPPORT. A counted edge within a period (R3), in whichever order the tempo unit and the receivers take it. -/

namespace Sys2Proof.Machine

theorem advanceBeat_elsewhere (s : State) (x : Timer) (y : Vector Link 4) :
    advanceBeat { s with timer := x, links := y } = { advanceBeat s with timer := x, links := y } := by
  unfold advanceBeat
  by_cases h : s.tempo.beatNumber + 1 = s.tempo.beatsPerBar
  · rw [if_pos h, if_pos h]; rfl
  · rw [if_neg h, if_neg h]

theorem advancePosition_elsewhere (s : State) (x : Timer) (y : Vector Link 4) :
    advancePosition { s with timer := x, links := y } = { advancePosition s with timer := x, links := y } := by
  unfold advancePosition
  by_cases h : s.tempo.interval ≤ s.tempo.beatPosition + 256
  · rw [if_pos h, if_pos h, ← advanceBeat_elsewhere]
  · rw [if_neg h, if_neg h]

theorem countPulseLoss_elsewhere (s : State) (x : Timer) (y : Vector Link 4) :
    countPulseLoss { s with timer := x, links := y } = { countPulseLoss s with timer := x, links := y } := by
  unfold countPulseLoss
  dsimp only
  cases s.tempo.lossTimer with
  | none => rfl
  | some n =>
    dsimp only
    by_cases h : n ≤ 1 ∧ s.tempo.ext.isFollower
    · rw [if_pos h, if_pos h]; rfl
    · rw [if_neg h, if_neg h]

/-- The tempo unit takes a sample edge without looking at the timer or the links. -/
theorem tempoEdge_elsewhere (s : State) (x : Timer) (y : Vector Link 4) :
    tempoEdge { s with timer := x, links := y } = { tempoEdge s with timer := x, links := y } := by
  unfold tempoEdge
  rw [advancePosition_elsewhere, countPulseLoss_elsewhere]

/-- A counted edge that makes no boundary (R3): the sample counter, the edge count, the tempo unit and every receiver. -/
theorem countedEdge_within (s : State) (order : EdgeOrder) (h : (edgeEnds s && s.timer.running) = false) :
    countedEdge false order s = { s with
      timer := { s.timer with samples := s.timer.samples + 1, edge := if edgeEnds s then 0 else s.timer.edge + 1 }
      tempo := (tempoEdge s).tempo, oscs := (tempoEdge s).oscs
      notices := (tempoEdge s).notices, links := s.links.map Link.edge } := by
  have hb : edgeEnds (edgeBefore order (countSample s)) = edgeEnds s := by simp [edgeEnds, State.size, countSample]
  have hr : (edgeBefore order (countSample s)).timer = (countSample s).timer := by simp
  unfold countedEdge countEdge
  rw [hb, hr]
  have : (countSample s).timer.running = s.timer.running := rfl
  rw [this, h]
  have key : tempoEdge s = { s with
      tempo := (tempoEdge s).tempo, oscs := (tempoEdge s).oscs, notices := (tempoEdge s).notices } := by
    apply State.eq_of_fields <;> simp
  unfold edgeBefore edgeAfter countSample receiverEdge
  cases order.tempoAfter <;> cases order.receiversAfter <;> simp only [Bool.false_or, Bool.false_eq_true, if_false, if_true]
  all_goals
    have t1 := fun x => tempoEdge_elsewhere s x s.links
    have t2 := fun x => tempoEdge_elsewhere s x (s.links.map Link.edge)
    first | rw [t2, key] | rw [t1, key]

end Sys2Proof.Machine
end

