-- ==== Sys2Proof/Laws/Pass.lean ====
section
/-! SUPPORT. The tap processor: what a frame looks like after something is handed to it, the muting of a run of taps,
which fields the reads and the block of a tap depend on, and the reads of a reading, each once. -/

namespace Sys2Proof.Machine

/-- Handing to a frame changes one link's held frames. -/
theorem handFrame_link (e : Engine) (p : PeriodCount) (hand : OutFrame → OutFrame) (s : State) (d : Engine) :
    (handFrame e p hand s).link d = if d = e then
      { s.link e with tx := (s.link e).tx.map fun f => if f.period = p ∧ f.state ≠ .ended then hand f else f }
    else s.link d := by
  simp [handFrame, State.link_setLink]

/-- The block of a tap handed in SAFE (R106). -/
def mutedBlock (b : Nat) (t : TapNo) : OutBlock :=
  { tap := t, flags := BlockFlags.mutedOnly, samples := List.replicate b 0 }

/-- A run of taps handed MUTED appends their blocks, in order, to the frame that takes them. -/
theorem muted_link (e : Engine) (p : PeriodCount) (ts : List TapNo) (s : State) (d : Engine) :
    (ts.foldl (fun s t => handMuted e p t s) s).link d = if d = e then
      { s.link e with tx := (s.link e).tx.map fun f =>
        if f.period = p ∧ f.state ≠ .ended then { f with blocks := f.blocks ++ ts.map (mutedBlock s.size) } else f }
    else s.link d := by
  induction ts generalizing s with
  | nil =>
    by_cases h : d = e
    · subst h; simp
    · simp [h]
  | cons t ts ih =>
    rw [List.foldl_cons, ih]
    have first : ∀ d, (handMuted e p t s).link d = (handFrame e p (OutFrame.addBlock (mutedBlock s.size t)) s).link d :=
      fun _ => rfl
    rw [first, first, handFrame_link, handFrame_link]
    by_cases h : d = e
    · subst h
      simp only [if_true, List.map_map, Link.mk.injEq, true_and, and_true]
      apply List.map_congr_left
      intro f _
      have size : (handMuted d p t s).size = s.size := rfl
      simp only [Function.comp, OutFrame.addBlock, size]
      split
      · rename_i hf; simp [hf]
      · rfl
    · simp [h]

/-- A run of taps handed MUTED has their CLAMPED indicators cleared (R106). -/
theorem muted_tap (e : Engine) (p : PeriodCount) (ts : List TapNo) (s : State) (n : TapNo) :
    (ts.foldl (fun s t => handMuted e p t s) s).tap n =
      { s.tap n with clamped := (s.tap n).clamped && !ts.contains n } := by
  induction ts generalizing s with
  | nil => simp
  | cons t ts ih =>
    rw [List.foldl_cons, ih]
    have : (handMuted e p t s).tap n = if n = t then { s.tap t with clamped := false } else s.tap n := by
      unfold handMuted; dsimp only; rw [State.tap_setTap]; rfl
    rw [this]
    by_cases h : n = t
    · subst h; simp
    · simp [h]

/-- The taps left of a pass are handed MUTED and its frame ends MUTED (R106). -/
theorem muteTaps_link (e : Engine) (p : PeriodCount) (ts : List TapNo) (s : State) (d : Engine) :
    (muteTaps e p ts s).link d = if d = e then
      { s.link e with tx := (s.link e).tx.map fun f =>
        if f.period = p ∧ f.state ≠ .ended then
          { f with blocks := f.blocks ++ ts.map (mutedBlock s.size), state := .ended, endStatus := some .muted }
        else f }
    else s.link d := by
  unfold muteTaps
  rw [handFrame_link, muted_link, muted_link]
  by_cases h : d = e
  · subst h
    simp only [if_true, List.map_map]
    congr 1
    apply List.map_congr_left
    intro f _
    simp only [Function.comp]
    by_cases hf : f.period = p ∧ f.state ≠ .ended
    · simp only [hf, OutFrame.finish]; simp [hf]
    · simp [hf]
  · simp [h]

/-- Two taps that differ in the CLAMPED indicator alone, in states with the same timer, lines and oscillators, need the
same reads. -/
theorem tapReads_congr {a b : State} {t u : Tap} (p : PeriodCount) (h1 : a.timer = b.timer) (h2 : a.lines = b.lines)
    (h3 : a.oscs = b.oscs) (ht : { t with clamped := false } = { u with clamped := false }) :
    tapReads a p t = tapReads b p u := by
  have hl : ∀ l, a.line l = b.line l := State.line_of_lines h2
  have ho : ∀ m, a.osc m = b.osc m := State.osc_of_oscs h3
  have hs : a.size = b.size := by unfold State.size; rw [h1]
  have side : ∀ o d g, sideReading a o d g = sideReading b o d g := by
    intro o d g
    unfold sideReading oscValues
    simp only [hl, ho, hs]
  have readings : tapReadings a t = tapReadings b u := by
    obtain ⟨st, cur, stg, del, tgt, fc, fo, os, pt, cl⟩ := t
    obtain ⟨st', cur', stg', del', tgt', fc', fo', os', pt', cl'⟩ := u
    simp only [Tap.mk.injEq, and_true] at ht
    obtain ⟨rfl, rfl, rfl, rfl, rfl, rfl, rfl, rfl, rfl⟩ := ht
    unfold tapReadings
    simp only [side, hs]
    rfl
  unfold tapReads
  rw [readings]
  apply congrArg (fun g => List.flatMap g _)
  funext x
  unfold sideReads Reading.needs headIn
  simp only [hl, hs, h1]

/-- States with the same timer, lines, oscillators, taps and links give a tap the same block. -/
theorem passBlock_congr {a b : State} (p : Pass) (t : TapNo) (h1 : a.timer = b.timer) (h2 : a.lines = b.lines)
    (h3 : a.oscs = b.oscs) (h4 : a.taps = b.taps) (h5 : a.links = b.links) : passBlock a p t = passBlock b p t := by
  have hl : ∀ l, a.line l = b.line l := State.line_of_lines h2
  have ho : ∀ m, a.osc m = b.osc m := State.osc_of_oscs h3
  have ht : ∀ n, a.tap n = b.tap n := State.tap_of_taps h4
  have hk : ∀ e, a.link e = b.link e := State.link_of_links h5
  have hs : a.size = b.size := by unfold State.size; rw [h1]
  have side : ∀ o d g, sideReading a o d g = sideReading b o d g := by
    intro o d g
    unfold sideReading oscValues
    simp only [hl, ho, hs]
  have readings : ∀ t, tapReadings a t = tapReadings b t := by
    intro t
    unfold tapReadings
    simp only [side, hs]
  unfold passBlock lineGaps tapSample Reading.contribution headIn
  simp only [readings, ht, hs, hl, hk, h1]

/-! ### Each position once (R93) -/

/-- What keeping the first of each does to the items seen: the new ones stand behind them, and none stands twice. -/
theorem firstOnly_step (xs seen : List Nat) (h : seen.Nodup) :
    ∃ new, xs.foldl (fun seen x => if seen.contains x then seen else x :: seen) seen = new ++ seen ∧
      (new ++ seen).Nodup ∧ ∀ q, q ∈ new ++ seen ↔ q ∈ seen ∨ q ∈ xs := by
  induction xs generalizing seen with
  | nil => exact ⟨[], rfl, h, by simp⟩
  | cons x xs ih =>
    rw [List.foldl_cons]
    by_cases hx : seen.contains x = true
    · rw [if_pos hx]
      obtain ⟨new, h1, h2, h3⟩ := ih seen h
      refine ⟨new, h1, h2, fun q => ?_⟩
      rw [h3]
      have : x ∈ seen := by simpa using hx
      constructor
      · rintro (h | h)
        · exact .inl h
        · exact .inr (List.mem_cons_of_mem _ h)
      · rintro (h | h)
        · exact .inl h
        · rcases List.mem_cons.mp h with rfl | h
          · exact .inl this
          · exact .inr h
    · rw [if_neg hx]
      have : x ∉ seen := by simpa using hx
      obtain ⟨new, h1, h2, h3⟩ := ih (x :: seen) (List.nodup_cons.mpr ⟨this, h⟩)
      have e : new ++ x :: seen = (new ++ [x]) ++ seen := by simp
      refine ⟨new ++ [x], by rw [h1, e], by rw [← e]; exact h2, fun q => ?_⟩
      rw [← e, h3, List.mem_cons, List.mem_cons, or_assoc, or_left_comm]

/-- The first of each item: none twice, the same items, and those of a front first (R93). -/
theorem firstOnly_spec (xs ys : List Nat) :
    (firstOnly xs).Nodup ∧ (∀ q, q ∈ firstOnly xs ↔ q ∈ xs) ∧ firstOnly xs <+: firstOnly (xs ++ ys) := by
  obtain ⟨new, h1, h2, h3⟩ := firstOnly_step xs [] List.nodup_nil
  rw [List.append_nil] at h1 h2 h3
  unfold firstOnly
  refine ⟨?_, fun q => ?_, ?_⟩
  · rw [h1]; exact List.nodup_reverse.mpr h2
  · rw [h1, List.mem_reverse, h3]; simp
  · obtain ⟨more, k1, -, -⟩ := firstOnly_step ys new h2
    rw [List.foldl_append, h1, k1, List.reverse_append]
    exact List.prefix_append _ _

end Sys2Proof.Machine
end

