-- ==== Sys2Proof/Laws/Cut.lean ====
section
/-! SUPPORT. What a boundary does to a link, to the notices and to the tap processor: the cut (R102, R103), the links' own work
(R56, R72, R74) and the two together. -/

namespace Sys2Proof.Machine

/-- Source code c is bit c - 1 of the flags (R194). -/
theorem getLsbD_sourceBit (c i : Nat) (h : i < 16) : (sourceBit c).getLsbD i = decide (i = c - 1) := by
  unfold sourceBit
  rw [← BitVec.twoPow_eq, BitVec.getLsbD_twoPow]
  by_cases hc : i = c - 1
  · subst hc; simp [h]
  · have : ¬c - 1 = i := fun e => hc e.symm
    simp [hc, this]

/-- A raising sets one flag and no other (R179). -/
theorem raise_bit (src : Source) (s : State) {i : Nat} (h : i < 16) :
    (raise src s).notices.pending.getLsbD i = true ↔ s.notices.pending.getLsbD i = true ∨ i = src.code - 1 := by
  rw [raise_pending, BitVec.getLsbD_or, getLsbD_sourceBit _ _ h]
  simp

/-! ### The short-passes counter (R73) -/

@[simp] theorem Counter.advance_zero (c : Counter) : c.advance 0 = c := by
  have : ¬65536 ≤ c.count.toNat := by have := c.count.isLt; omega
  simp [Counter.advance, this]

/-- Advances one by one add up (R73). -/
theorem Counter.advance_succ (c : Counter) (n : Nat) : (c.advance 1).advance n = c.advance (n + 1) := by
  unfold Counter.advance
  have hc := c.count.isLt
  congr 1
  · apply BitVec.eq_of_toNat_eq; simp [BitVec.toNat_add]; omega
  · have : (c.count + BitVec.ofNat 16 1).toNat = (c.count.toNat + 1) % 65536 := by simp [BitVec.toNat_add]
    rw [this, Bool.or_assoc]
    congr 1
    rw [Bool.eq_iff_iff]
    simp only [Bool.or_eq_true, decide_eq_true_eq]
    omega

theorem countShort_link (s : State) (e d : Engine) : (countShort s e).link d = if d = e then
    { s.link e with counters := { (s.link e).counters with short := (s.link e).counters.short.advance 1 } }
    else s.link d := by
  unfold countShort advanceCounter
  dsimp only
  have : ∀ src t, (raise src t).link d = t.link d := fun _ _ => rfl
  rw [this]
  split <;> simp [State.link_setLink, this, Counters.put, Counters.get]

/-- The engines whose frames ended SHORT are counted (R103). -/
theorem countShorts_link (xs : List Engine) (s : State) (e : Engine) : (xs.foldl countShort s).link e =
    { s.link e with counters := { (s.link e).counters with
      short := (s.link e).counters.short.advance (xs.count e) } } := by
  induction xs generalizing s with
  | nil => simp
  | cons x xs ih =>
    rw [List.foldl_cons, ih, countShort_link]
    by_cases h : e = x
    · subst h; simp [Counter.advance_succ]
    · have : ¬x = e := fun k => h k.symm
      simp [h, this]

theorem countShort_bit (s : State) (x : Engine) {i : Nat} (h : i < 16) :
    (countShort s x).notices.pending.getLsbD i = true ↔ s.notices.pending.getLsbD i = true ∨ i = 9 + x.val ∨
      (i = 13 ∧ (s.link x).counters.short.newlyOverflows 1 = true) := by
  unfold countShort
  rw [raise_bit _ _ h]
  unfold advanceCounter
  dsimp only [Counters.get]
  have code : (Source.overrun x).code - 1 = 9 + x.val := by simp only [Source.code]; omega
  rw [code]
  split
  · rename_i ho
    rw [raise_bit _ _ h]
    simp only [Source.code, ho, and_true, State.setLink]
    tauto
  · rename_i ho
    simp only [ho, State.setLink]
    tauto

/-- The notices of the count: OVERRUN for each engine counted, and COUNTER_OVERFLOW where a flag is first set (R73, R103). -/
theorem countShorts_bit (xs : List Engine) (s : State) {i : Nat} (h : i < 16) :
    (xs.foldl countShort s).notices.pending.getLsbD i = true ↔ s.notices.pending.getLsbD i = true ∨
      (∃ e ∈ xs, i = 9 + e.val) ∨ (i = 13 ∧ ∃ e, (s.link e).counters.short.overflow = false ∧
        65536 ≤ (s.link e).counters.short.count.toNat + xs.count e) := by
  induction xs generalizing s with
  | nil =>
    have : ∀ e, ¬65536 ≤ (s.link e).counters.short.count.toNat := fun e => by
      have := (s.link e).counters.short.count.isLt; omega
    simp [this]
  | cons x xs ih =>
    rw [List.foldl_cons, ih, countShort_bit _ _ h]
    have key : (∃ e, ((countShort s x).link e).counters.short.overflow = false ∧
        65536 ≤ ((countShort s x).link e).counters.short.count.toNat + xs.count e) ∨
        (s.link x).counters.short.newlyOverflows 1 = true ↔
      ∃ e, (s.link e).counters.short.overflow = false ∧
        65536 ≤ (s.link e).counters.short.count.toNat + (x :: xs).count e := by
      have hx := (s.link x).counters.short.count.isLt
      have adv : ((s.link x).counters.short.count + BitVec.ofNat 16 1).toNat =
          ((s.link x).counters.short.count.toNat + 1) % 65536 := by simp [BitVec.toNat_add]
      constructor
      · rintro (⟨e, h1, h2⟩ | h1)
        · rw [countShort_link] at h1 h2
          by_cases he : e = x
          · subst he
            simp only [if_true, Counter.advance, Bool.or_eq_false_iff, decide_eq_false_iff_not] at h1 h2
            rw [adv] at h2
            refine ⟨e, h1.1, ?_⟩
            rw [List.count_cons_self]; omega
          · simp only [he, if_false] at h1 h2
            refine ⟨e, h1, ?_⟩
            have : ¬x = e := fun k => he k.symm
            simpa [List.count_cons, this] using h2
        · simp only [Counter.newlyOverflows, Bool.and_eq_true, Bool.not_eq_true', decide_eq_true_eq] at h1
          exact ⟨x, h1.1, by rw [List.count_cons_self]; omega⟩
      · rintro ⟨e, h1, h2⟩
        by_cases he : e = x
        · subst he
          rw [List.count_cons_self] at h2
          by_cases hn : 65536 ≤ (s.link e).counters.short.count.toNat + 1
          · right; simp [Counter.newlyOverflows, h1, hn]
          · left
            refine ⟨e, ?_, ?_⟩ <;> rw [countShort_link] <;> simp only [if_true, Counter.advance]
            · simp [h1]; omega
            · rw [adv]; omega
        · left
          have : ¬x = e := fun k => he k.symm
          refine ⟨e, ?_, ?_⟩ <;> rw [countShort_link, if_neg he]
          · exact h1
          · simpa [List.count_cons, this] using h2
    rw [← key]
    simp only [List.mem_cons, exists_eq_or_imp]
    have shuffle : ∀ P Q I A B C : Prop, ((P ∨ Q ∨ (I ∧ C)) ∨ B ∨ I ∧ A) ↔ P ∨ (Q ∨ B) ∨ I ∧ (A ∨ C) := by
      intros; tauto
    exact shuffle _ _ _ _ _ _

/-! ### The cut (R102, R103) -/

/-- A pass still running ends its frame SHORT (R102). -/
def cutFrame (s : State) (e : Engine) (f : OutFrame) : OutFrame :=
  if s.proc.pass.any (fun p => p.engine == e && p.period == f.period) ∧ f.state ≠ .ended then f.finish .short else f

/-- An engine still queued has its frame end SHORT with its planned count (R103). -/
def givenFrame (period : PeriodCount) (s : State) (e : Engine) (f : OutFrame) : OutFrame :=
  if e ∈ s.proc.queue ∧ f.period = period ∧ f.state ≠ .ended then (f.plan (passTaps e s).length).finish .short else f

theorem cutPass_link (s : State) (e : Engine) :
    (cutPass s).link e = { s.link e with tx := (s.link e).tx.map (cutFrame s e) } := by
  unfold cutPass
  cases hp : s.proc.pass with
  | none =>
    have : cutFrame s e = id := by funext f; simp [cutFrame, hp]
    rw [this, List.map_id]
  | some p =>
    have : ∀ t : State, ({ t with proc := { t.proc with pass := none } } : State).link e = t.link e := fun _ => rfl
    dsimp only
    rw [this, handFrame_link]
    have keep : ∀ d, (orphanPassRead s).link d = s.link d := fun d => by unfold State.link; simp
    rw [keep, keep]
    by_cases h : e = p.engine
    · subst h
      simp only [if_true, Link.mk.injEq, true_and, and_true]
      apply List.map_congr_left
      intro f _
      simp only [cutFrame, hp, Option.any_some, beq_self_eq_true, Bool.true_and, beq_iff_eq]
      by_cases hf : f.period = p.period ∧ f.state ≠ .ended
      · rw [if_pos hf, if_pos ⟨hf.1.symm, hf.2⟩]
      · rw [if_neg hf, if_neg fun k => hf ⟨k.1.symm, k.2⟩]
    · rw [if_neg h]
      have h' : ¬p.engine = e := fun k => h k.symm
      have : cutFrame s e = id := by funext f; simp [cutFrame, hp, h']
      rw [this, List.map_id]

theorem shortFrames_link (period : PeriodCount) (xs : List Engine) (s : State) (e : Engine) :
    (xs.foldl (shortFrame period) s).link e = { s.link e with tx := (s.link e).tx.map fun f =>
      if e ∈ xs ∧ f.period = period ∧ f.state ≠ .ended then (f.plan (passTaps e s).length).finish .short else f } := by
  induction xs generalizing s with
  | nil => simp
  | cons x xs ih =>
    rw [List.foldl_cons, ih]
    have taps : passTaps e (shortFrame period s x) = passTaps e s := rfl
    rw [taps]
    unfold shortFrame
    rw [handFrame_link]
    by_cases h : e = x
    · subst h
      simp only [if_true, List.map_map, Link.mk.injEq, true_and, and_true]
      apply List.map_congr_left
      intro f _
      simp only [Function.comp, List.mem_cons, true_or, true_and]
      by_cases hf : f.period = period ∧ f.state ≠ .ended
      · rw [if_pos hf]; simp [OutFrame.finish, OutFrame.plan]
      · rw [if_neg hf]; simp only [hf, and_false, if_false]
    · simp only [h, if_false, List.mem_cons, false_or]

/-- What the cut does to a link (R102, R103). -/
theorem cutAtBoundary_link (period : PeriodCount) (s : State) (e : Engine) : (cutAtBoundary period s).link e =
    { s.link e with
      counters := { (s.link e).counters with short := (s.link e).counters.short.advance ((shortEngines s).count e) }
      tx := (s.link e).tx.map fun f => givenFrame period s e (cutFrame s e f) } := by
  have same : ∀ t : State, ({ t with proc := { t.proc with queue := [] } } : State).link e = t.link e := fun _ => rfl
  unfold cutAtBoundary
  dsimp only
  rw [same, countShorts_link, shortFrames_link, cutPass_link]
  have taps : passTaps e (cutPass s) = passTaps e s := by
    unfold passTaps State.tap; simp
  rw [taps, List.map_map]
  rfl

/-- What the cut raises (R73, R103). -/
theorem cutAtBoundary_bit (period : PeriodCount) (s : State) {i : Nat} (h : i < 16) :
    (cutAtBoundary period s).notices.pending.getLsbD i = true ↔ s.notices.pending.getLsbD i = true ∨
      (∃ e ∈ shortEngines s, i = 9 + e.val) ∨ (i = 13 ∧ ∃ e, (s.link e).counters.short.overflow = false ∧
        65536 ≤ (s.link e).counters.short.count.toNat + (shortEngines s).count e) := by
  unfold cutAtBoundary
  dsimp only
  rw [countShorts_bit _ _ h]
  have n1 : ∀ xs t, (List.foldl (shortFrame period) t xs).notices = t.notices :=
    fun xs t => foldl_keeps State.notices _ (by intro s e; rfl) _ _
  have n2 : (cutPass s).notices = s.notices := by
    unfold cutPass
    cases s.proc.pass with
    | none => rfl
    | some p => dsimp only; exact (by simp [handFrame, State.setLink])
  rw [n1, n2]
  have c : ∀ e, ((List.foldl (shortFrame period) (cutPass s) s.proc.queue).link e).counters = (s.link e).counters := by
    intro e; rw [shortFrames_link, cutPass_link]
  simp only [c]

/-! ### The links (R56, R72, R74) -/

theorem linkBoundary_link (s : State) (x e : Engine) : (linkBoundary s x).link e =
    if e = x then (s.link x).countMissed.openFrame s.timer.period else s.link e := by
  unfold linkBoundary
  dsimp only
  have : ∀ src t, (raise src t).link e = t.link e := fun _ _ => rfl
  split <;> simp [State.link_setLink, this]

theorem linkBoundary_bit (s : State) (x : Engine) {i : Nat} (h : i < 16) :
    (linkBoundary s x).notices.pending.getLsbD i = true ↔
      s.notices.pending.getLsbD i = true ∨ ((s.link x).becomesLost = true ∧ i = 5 + x.val) := by
  unfold linkBoundary
  dsimp only
  have code : (Source.linkLost x).code - 1 = 5 + x.val := by simp only [Source.code]; omega
  split
  · rename_i hl
    rw [raise_bit _ _ h, code]
    simp [hl, State.setLink]
  · rename_i hl
    simp [hl, State.setLink]

theorem linkBoundaries_link (xs : List Engine) (hn : xs.Nodup) (s : State) (e : Engine) :
    (xs.foldl linkBoundary s).link e =
      if e ∈ xs then (s.link e).countMissed.openFrame s.timer.period else s.link e := by
  induction xs generalizing s with
  | nil => rfl
  | cons x xs ih =>
    have hn' := List.nodup_cons.mp hn
    have timer : (linkBoundary s x).timer = s.timer := by unfold linkBoundary; dsimp only; split <;> rfl
    rw [List.foldl_cons, ih hn'.2, linkBoundary_link, timer]
    by_cases h : e = x
    · subst h; simp [hn'.1]
    · simp [h]

theorem linkBoundaries_bit (xs : List Engine) (hn : xs.Nodup) (s : State) {i : Nat} (h : i < 16) :
    (xs.foldl linkBoundary s).notices.pending.getLsbD i = true ↔
      s.notices.pending.getLsbD i = true ∨ ∃ e ∈ xs, (s.link e).becomesLost = true ∧ i = 5 + e.val := by
  induction xs generalizing s with
  | nil => simp
  | cons x xs ih =>
    have hn' := List.nodup_cons.mp hn
    rw [List.foldl_cons, ih hn'.2, linkBoundary_bit _ _ h]
    have : (∃ e ∈ xs, ((linkBoundary s x).link e).becomesLost = true ∧ i = 5 + e.val) ↔
        ∃ e ∈ xs, (s.link e).becomesLost = true ∧ i = 5 + e.val := by
      apply exists_congr
      intro e
      apply and_congr_right
      intro he
      have hne : e ≠ x := fun k => hn'.1 (k ▸ he)
      rw [linkBoundary_link, if_neg hne]
    rw [this]
    simp only [List.mem_cons, exists_eq_or_imp]
    tauto

/-- What the links' boundary work does to a link (R56, R72, R74). -/
theorem linksBoundary_link (s : State) (e : Engine) :
    (linksBoundary s).link e = (s.link e).countMissed.openFrame s.timer.period := by
  unfold linksBoundary
  rw [linkBoundaries_link _ (by decide), if_pos (mem_allEngines e)]

/-- What the links' boundary work raises (R56). -/
theorem linksBoundary_bit (s : State) {i : Nat} (h : i < 16) : (linksBoundary s).notices.pending.getLsbD i = true ↔
    s.notices.pending.getLsbD i = true ∨ ∃ e, (s.link e).becomesLost = true ∧ i = 5 + e.val := by
  unfold linksBoundary
  rw [linkBoundaries_bit _ (by decide) _ h]
  simp [mem_allEngines]

/-! ### The boundary up to the readers -/

/-- A boundary up to the readers: a link. -/
theorem boundaryStart_link (zero : Bool) (s : State) (e : Engine) : (boundaryStart zero s).link e =
    ({ s.link e with
      counters := { (s.link e).counters with short := (s.link e).counters.short.advance ((shortEngines s).count e) }
      tx := (s.link e).tx.map fun f => givenFrame s.timer.period s e (cutFrame s e f) } : Link).countMissed.openFrame
        (if zero then 0 else s.timer.period + 1) := by
  have close : ∀ z (t : State), (closeLines z t).link e = t.link e := fun z t => by unfold State.link; simp
  unfold boundaryStart
  dsimp only
  rw [close, linksBoundary_link, cutAtBoundary_link]
  simp [Timer.boundary]
  rfl

/-- A boundary up to the readers: the notices raised. -/
theorem boundaryStart_bit (zero : Bool) (s : State) {i : Nat} (h : i < 16) :
    (boundaryStart zero s).notices.pending.getLsbD i = true ↔ s.notices.pending.getLsbD i = true ∨
      (∃ e, (s.link e).becomesLost = true ∧ i = 5 + e.val) ∨ (∃ e ∈ shortEngines s, i = 9 + e.val) ∨
      (i = 13 ∧ ∃ e, (s.link e).counters.short.overflow = false ∧
        65536 ≤ (s.link e).counters.short.count.toNat + (shortEngines s).count e) := by
  have close : ∀ z (t : State), (closeLines z t).notices = t.notices := fun z t => by simp
  unfold boundaryStart
  dsimp only
  rw [close, linksBoundary_bit _ h, cutAtBoundary_bit _ _ h]
  have lost : ∀ e, ((cutAtBoundary s.timer.period { s with
      timer := s.timer.boundary zero (tablesQuiet s) (sizeAfter s) }).link e).becomesLost = (s.link e).becomesLost := by
    intro e; rw [cutAtBoundary_link]; rfl
  simp only [lost]
  have : shortEngines { s with timer := s.timer.boundary zero (tablesQuiet s) (sizeAfter s) } = shortEngines s := rfl
  rw [this]
  have shuffle : ∀ P Q R L : Prop, ((P ∨ Q ∨ R) ∨ L) ↔ P ∨ L ∨ Q ∨ R := by intros; tauto
  exact shuffle _ _ _ _

end Sys2Proof.Machine
end

