-- ==== Sys2Proof/Laws/Measure.lean ====
section
/-! SUPPORT. Measuring (R1), in the words of the statements: what a spacing does to the relock run, and when the run is full
(R2, R5) or emptied (R5). -/

namespace Sys2Proof.Machine

/-- A spacing is consistent with a mean when it differs from it by no more than a 64th (R1). -/
theorem consistent_iff (m s : Nat) : consistent m s = true ↔ 64 * ((s : Int) - m).natAbs ≤ m := by
  unfold consistent; rw [decide_eq_true_iff]
  have : (s - m) + (m - s) = ((s : Int) - m).natAbs := by omega
  rw [this]

/-- A spacing joins an empty relock run, and one with whose mean it is consistent (R1). -/
theorem joins_iff (t : Timer) (s : Nat) : t.joins s = true ↔
    t.relockRun = [] ∨ 64 * ((s : Int) - (t.relockRun.sum / t.relockRun.length : Nat)).natAbs ≤
      t.relockRun.sum / t.relockRun.length := by
  unfold Timer.joins
  rw [Bool.or_eq_true, consistent_iff, meanSpacing_eq]
  simp

/-- A spacing that is not 0 is offered to the relock run (R1). -/
theorem measure_run {t : Timer} {last reading : Nat} (h : t.lastEdge = some last) (hl : last < reading) :
    (t.measureOffer reading).relockRun = t.offered (reading - last) := by
  unfold Timer.measureOffer Timer.spacing
  rw [h]
  have : ∃ n, reading - last = n + 1 := ⟨reading - last - 1, by omega⟩
  obtain ⟨n, hn⟩ := this
  simp [hn]

/-- When a spacing joins the relock run and the run then holds 64 (R2, R5). -/
theorem runFull_iff (t : Timer) (reading : Nat) : t.runFull reading = true ↔
    (∃ last, t.lastEdge = some last ∧ last < reading ∧ (t.relockRun = [] ∨
      64 * (((reading - last : Nat) : Int) - (t.relockRun.sum / t.relockRun.length : Nat)).natAbs ≤
        t.relockRun.sum / t.relockRun.length)) ∧
    (t.measureOffer reading).relockRun.length = 64 := by
  unfold Timer.runFull
  cases h : t.lastEdge with
  | none => simp [Timer.spacing, h]
  | some last =>
    by_cases hl : last < reading
    · rw [measure_run h hl]
      have : ∃ n, reading - last = n + 1 := ⟨reading - last - 1, by omega⟩
      obtain ⟨n, hn⟩ := this
      have e : t.spacing reading = some (n + 1) := by simp [Timer.spacing, h, hn]
      rw [e]
      show (t.joins (n + 1) && (t.offered (n + 1)).length == 64) = true ↔ _
      rw [Bool.and_eq_true, joins_iff, ← hn]
      simp [hl]
    · have e : t.spacing reading = some 0 := by simp [Timer.spacing, h]; omega
      rw [e]; simp [hl]

/-- When a spacing empties the relock run (R5). -/
theorem runEmptied_iff (t : Timer) (reading : Nat) : t.runEmptied reading = true ↔
    (∃ last, t.lastEdge = some last ∧ last < reading ∧ t.relockRun ≠ [] ∧
      t.relockRun.sum / t.relockRun.length <
        64 * (((reading - last : Nat) : Int) - (t.relockRun.sum / t.relockRun.length : Nat)).natAbs) := by
  unfold Timer.runEmptied
  cases h : t.lastEdge with
  | none => simp [Timer.spacing, h]
  | some last =>
    by_cases hl : last < reading
    · have : ∃ n, reading - last = n + 1 := ⟨reading - last - 1, by omega⟩
      obtain ⟨n, hn⟩ := this
      have e : t.spacing reading = some (n + 1) := by simp [Timer.spacing, h, hn]
      rw [e]
      show (!t.joins (n + 1)) = true ↔ _
      rw [Bool.not_eq_true', ← Bool.not_eq_true, joins_iff, ← hn]
      simp [hl]
    · have e : t.spacing reading = some 0 := by simp [Timer.spacing, h]; omega
      rw [e]; simp [hl]

end Sys2Proof.Machine
end

