-- ==== Sys2Proof/Laws/Taps.lean ====
section
/-! SUPPORT. The law of a tap record through the five steps of its boundary work. -/

namespace Sys2Proof.Machine

/-- The law inside the boundary work: a fade has moved at least once since it began, and a pending target may still wait on
a tap whose crossfade has just completed. -/
structure Tap.MidLawful (t : Tap) : Prop where
  fade : t.state.isFade = true → t.fadeCount < t.fadeOf ∧ t.fadeOf ≤ 64
  noFade : t.state.isFade = false → t.fadeCount = 0 ∧ t.fadeOf = 0
  oldSide : t.oldSide.isSome = (t.state == .fading)
  pendingTarget : t.pendingTarget.isSome = true → t.state = .fading ∨ t.state = .running
  runFlag : t.current.run = (t.state != .idle && t.state != .stopping)
  current : t.current.fadesWell = true
  staged : (Edit.set? t.staged).all ParamSet.fadesWell = true
  preset : ∀ p, t.staged = some (.preset p) → p.run = false
  waiting : t.pendingTarget.all ParamSet.fadesWell = true

@[simp] theorem ParamSet.fadesWell_run (p : ParamSet) (r : Bool) : ({ p with run := r } : ParamSet).fadesWell = p.fadesWell :=
  rfl

/-- Steps 1 and 2 take the law to the law inside, and every fade in progress has moved. -/
theorem Tap.Lawful.advance {t : Tap} (h : t.Lawful) (b : Nat) :
    (t.advance b).completeMove.MidLawful ∧
      ((t.advance b).completeMove.state.isFade = true → 0 < (t.advance b).completeMove.fadeCount) ∧
      (t.advance b).completeMove.staged = t.staged := by
  obtain ⟨h1, h2, h3, h4, h5, h6, h7, h8, h9⟩ := h
  obtain ⟨st, cur, stg, del, tgt, fc, fo, os, pt, cl⟩ := t
  dsimp only at *
  refine ⟨⟨?_, ?_, ?_, ?_, ?_, ?_, ?_, ?_, ?_⟩, ?_, ?_⟩ <;> cases st <;> simp [TapState.isFade] at h1 h2 h4 <;>
    simp [Tap.advance, Tap.completeMove, TapState.isFade, Tap.glided, Tap.toRunning, Tap.toIdle] <;> (repeat' split) <;>
    simp_all <;> rfl

/-- No target waits, but behind a crossfade. -/
def Tap.noneWaits (t : Tap) : Prop := t.state = .fading ∨ t.pendingTarget = none

/-- A stop keeps the law inside. -/
theorem Tap.MidLawful.applyStop {t : Tap} (h : t.MidLawful) (moved : t.state.isFade = true → 0 < t.fadeCount)
    (waits : t.noneWaits) : t.applyStop.MidLawful ∧ t.applyStop.staged = t.staged ∧ t.applyStop.noneWaits := by
  obtain ⟨h1, h2, h3, h4, h5, h6, h7, h8, h9⟩ := h
  obtain ⟨st, cur, stg, del, tgt, fc, fo, os, pt, cl⟩ := t
  unfold Tap.noneWaits at waits ⊢
  dsimp only at *
  have well : ({ cur with run := false } : ParamSet).fadesWell = true := h6
  have edge : cur.edgeFade ≤ 64 := by simp [ParamSet.fadesWell] at h6; omega
  cases st <;> simp [TapState.isFade] at h1 h2 h4 moved waits <;>
    dsimp only [Tap.applyStop, Tap.stop, Tap.mirror, Tap.toIdle]
  case idle => exact ⟨⟨by simp [TapState.isFade], fun _ => h2, h3, by simp [waits], h5, h6, h7, h8, h9⟩, rfl, .inr waits⟩
  case stopping =>
    exact ⟨⟨fun _ => h1, by simp [TapState.isFade], h3, by simp [waits], h5, h6, h7, h8, h9⟩, rfl, .inr waits⟩
  case starting =>
    exact ⟨⟨fun _ => by dsimp only; omega, by simp [TapState.isFade], h3, by simp [waits], rfl, well, h7, h8, h9⟩, rfl,
      .inr waits⟩
  case fading =>
    exact ⟨⟨fun _ => h1, by simp [TapState.isFade], h3, by simp, h5, h6, h7, h8, by simpa [Tap.stopForm] using h6⟩, rfl,
      .inl rfl⟩
  all_goals
    split
    · exact ⟨⟨by simp [TapState.isFade], by simp, h3, by simp [waits], rfl, well, h7, h8, h9⟩, rfl, .inr waits⟩
    · exact ⟨⟨fun _ => by dsimp only; omega, by simp [TapState.isFade], h3, by simp [waits], rfl, well, h7, h8, h9⟩, rfl,
        .inr waits⟩

/-- A crossfade of 1 to 64 periods begun by a sounding tap keeps the law inside. -/
theorem Tap.MidLawful.crossfade {t : Tap} (h : t.MidLawful) {p : ParamSet}
    (well : p.fadesWell = true) {n : Nat} (hn : 0 < n) (hn' : n ≤ 64) (ib : Nat) : (t.crossfade ib n p).MidLawful :=
  ⟨fun _ => ⟨hn, hn'⟩, by simp [Tap.crossfade, TapState.isFade], rfl, by simp [Tap.crossfade], rfl, well, h.staged, h.preset,
    h.waiting⟩

/-- A glide, or its end at once, keeps the law inside. -/
theorem Tap.MidLawful.glideTo {t : Tap} (h : t.MidLawful) (sounds : t.state = .running ∨ t.state = .gliding)
    (waits : t.pendingTarget = none) (p : ParamSet) (well : p.fadesWell = true) (run : p.run = true) (target : Nat) :
    ({ t with current := p }.glideTo target).MidLawful := by
  have hold : t.oldSide.isSome = false := by
    rw [h.oldSide]; rcases sounds with h | h <;> rw [h] <;> rfl
  unfold Tap.glideTo
  dsimp only
  split
  · exact ⟨by simp [TapState.isFade], by simp, hold, by simp, run, well, h.staged, h.preset, h.waiting⟩
  · exact ⟨by simp [TapState.isFade], by simp, hold, by simp [waits], run, well, h.staged, h.preset, h.waiting⟩

/-- A retarget of a sounding tap keeps the law inside. -/
theorem Tap.MidLawful.retarget {t : Tap} (h : t.MidLawful) (sounds : t.state = .running ∨ t.state = .gliding)
    (waits : t.pendingTarget = none) {p : ParamSet} (well : p.fadesWell = true) (ib : Nat) :
    (t.retarget ib p).MidLawful ∧ (t.retarget ib p).staged = t.staged ∧ (t.retarget ib p).noneWaits := by
  have hold : t.oldSide.isSome = false := by
    rw [h.oldSide]; rcases sounds with h | h <;> rw [h] <;> rfl
  have fade : p.fadeLen ≤ 64 ∧ (p.method ≠ .jump → 0 < p.fadeLen) := by
    simp [ParamSet.fadesWell] at well
    exact ⟨by omega, fun hm => by tauto⟩
  unfold Tap.retarget
  split
  · exact ⟨⟨by simp [Tap.toRunning, TapState.isFade], by simp [Tap.toRunning], hold, by simp [Tap.toRunning], rfl, well,
      h.staged, h.preset, h.waiting⟩, rfl, .inr waits⟩
  · rename_i hm
    split
    · exact ⟨h.glideTo sounds waits { p with run := true } well rfl _, rfl, .inr waits⟩
    · exact ⟨h.crossfade well (fade.2 (by simp [hm])) fade.1 ib, rfl, .inl rfl⟩
  · rename_i hm
    exact ⟨h.crossfade well (fade.2 (by simp [hm])) fade.1 ib, rfl, .inl rfl⟩

/-- A start keeps the law inside. -/
theorem Tap.MidLawful.applyStart {t : Tap} (h : t.MidLawful) (moved : t.state.isFade = true → 0 < t.fadeCount)
    (waits : t.noneWaits) {p : ParamSet} (well : p.fadesWell = true) (ib : Nat) :
    (t.applyStart ib p).MidLawful ∧ (t.applyStart ib p).staged = t.staged ∧ (t.applyStart ib p).noneWaits := by
  have edge : p.edgeFade ≤ 64 := by simp [ParamSet.fadesWell] at well; omega
  have none : t.state ≠ .fading → t.pendingTarget = none := fun hn => waits.resolve_left hn
  have hold : t.state ≠ .fading → t.oldSide.isSome = false := by
    intro hn; rw [h.oldSide]; simpa using hn
  unfold Tap.applyStart
  split <;> rename_i hst
  · unfold Tap.start
    have n := none (by simp [hst])
    have o := hold (by simp [hst])
    split
    · exact ⟨⟨by simp [Tap.toRunning, TapState.isFade], by simp [Tap.toRunning], o, by simp [Tap.toRunning], rfl, well,
        h.staged, h.preset, h.waiting⟩, rfl, .inr n⟩
    · rename_i he
      exact ⟨⟨fun _ => ⟨Nat.pos_of_ne_zero he, edge⟩, by simp [TapState.isFade], o, by simp [Tap.take, n], rfl, well,
        h.staged, h.preset, h.waiting⟩, rfl, .inr n⟩
  · have n := none (by simp [hst])
    have o := hold (by simp [hst])
    have f := h.fade (by rw [hst]; rfl)
    exact ⟨⟨fun _ => f, by simp [Tap.take, hst, TapState.isFade], by simp [Tap.take, hst, o],
      by simp [Tap.take, n], by simp [Tap.take, hst], well, h.staged, h.preset, h.waiting⟩, rfl, .inr n⟩
  · exact h.retarget (.inl hst) (none (by simp [hst])) well ib
  · exact h.retarget (.inr hst) (none (by simp [hst])) well ib
  · exact ⟨⟨h.fade, h.noFade, h.oldSide, fun _ => .inl hst, h.runFlag, h.current, h.staged, h.preset, well⟩, rfl,
      .inl hst⟩
  · have n := none (by simp [hst])
    have o := hold (by simp [hst])
    have f := h.fade (by rw [hst]; rfl)
    have m := moved (by rw [hst]; rfl)
    exact ⟨⟨fun _ => ⟨by simp only [Tap.mirror, Tap.take]; omega, f.2⟩, by simp [Tap.mirror, TapState.isFade], o,
      by simp [Tap.mirror, Tap.take, n], rfl, well, h.staged, h.preset, h.waiting⟩, rfl, .inr n⟩

/-- Step 3 keeps the law inside, and leaves nothing staged. -/
theorem Tap.MidLawful.applyEdit {t : Tap} (h : t.MidLawful) (moved : t.state.isFade = true → 0 < t.fadeCount) (ib : Nat) :
    (t.applyEdit ib).MidLawful ∧ (t.applyEdit ib).staged = none := by
  have base : ({ t with staged := none } : Tap).MidLawful :=
    ⟨h.fade, h.noFade, h.oldSide, h.pendingTarget, h.runFlag, h.current, rfl, by simp, h.waiting⟩
  have behind : ∀ q : ParamSet, q.fadesWell = true → t.pendingTarget.isSome = true →
      ({ t with staged := none, pendingTarget := some q } : Tap).MidLawful := fun q hq hp =>
    ⟨h.fade, h.noFade, h.oldSide, fun _ => h.pendingTarget hp, h.runFlag, h.current, rfl, by simp, hq⟩
  have free : t.pendingTarget.isSome ≠ true → ({ t with staged := none } : Tap).noneWaits := by
    intro hp; right; simpa using hp
  unfold Tap.applyEdit
  dsimp only
  split
  · rename_i hs; exact ⟨h, hs⟩
  · rename_i p hs
    have well : p.fadesWell = true := by have := h.staged; rw [hs] at this; exact this
    split
    · rename_i hp; exact ⟨behind p well hp, rfl⟩
    · rename_i hp
      have := base.applyStart moved (free hp) well ib
      exact ⟨this.1, this.2.1⟩
  · rename_i p hs
    have well : p.fadesWell = true := by have := h.staged; rw [hs] at this; exact this
    split
    · rename_i hp; exact ⟨behind _ h.current hp, rfl⟩
    · rename_i hp
      have stop := base.applyStop moved (free hp)
      unfold Tap.applyPreset
      split
      · rename_i hst
        have hst' : t.state = .idle := hst
        have n : t.pendingTarget = none := by simpa using hp
        exact ⟨⟨by simp [hst', TapState.isFade], fun _ => h.noFade (by rw [hst']; rfl), h.oldSide, by simp [n],
          by simp [hst', h.preset p hs], well, rfl, by simp, h.waiting⟩, rfl⟩
      · exact ⟨stop.1, stop.2.1⟩
  · rename_i hs
    split
    · rename_i hp; exact ⟨behind _ h.current hp, rfl⟩
    · rename_i hp
      have stop := base.applyStop moved (free hp)
      exact ⟨stop.1, stop.2.1⟩

/-- Step 4 keeps the law inside, and leaves no target waiting but behind a crossfade. -/
theorem Tap.MidLawful.applyPending {t : Tap} (h : t.MidLawful) (clear : t.staged = none) (ib : Nat) :
    (t.applyPending ib).MidLawful ∧ (t.applyPending ib).staged = none ∧ (t.applyPending ib).noneWaits := by
  unfold Tap.applyPending
  split
  · rename_i hst; exact ⟨h, clear, .inl hst⟩
  · rename_i hp _; exact ⟨h, clear, .inr hp⟩
  · rename_i p hp hst
    have run : t.state = .running := (h.pendingTarget (by simp [hp])).resolve_left (by simpa using hst)
    have base : ({ t with pendingTarget := none } : Tap).MidLawful :=
      ⟨h.fade, h.noFade, h.oldSide, by simp, h.runFlag, h.current, h.staged, h.preset, rfl⟩
    have well : p.fadesWell = true := by have := h.waiting; rw [hp] at this; exact this
    dsimp only
    split
    · have := base.retarget (.inl run) rfl well ib
      exact ⟨this.1, this.2.1.trans clear, this.2.2⟩
    · have := base.applyStop (by simp [run, TapState.isFade]) (.inr rfl)
      have same : ({ t with pendingTarget := none } : Tap).applyStop = ({ t with pendingTarget := none } : Tap).stop := by
        unfold Tap.applyStop; simp [run]
      rw [same] at this
      exact ⟨this.1, this.2.1.trans clear, this.2.2⟩

/-- Step 5 keeps the law inside. -/
theorem Tap.MidLawful.followTempo {t : Tap} (h : t.MidLawful) (waits : t.noneWaits) (ib : Nat) (concerned : Bool) :
    (t.followTempo ib concerned).MidLawful ∧ (t.followTempo ib concerned).staged = t.staged ∧
      (t.followTempo ib concerned).noneWaits := by
  unfold Tap.followTempo
  split
  · rename_i hc
    obtain ⟨hm, hst, -, -⟩ := hc
    have sounds : t.state = .running ∨ t.state = .gliding := by
      revert hst; cases t.state <;> simp [TapState.isSteady]
    have n : t.pendingTarget = none := waits.resolve_left (by rcases sounds with h | h <;> simp [h])
    have well := h.current
    have run : t.current.run = true := by rw [h.runFlag]; rcases sounds with h | h <;> rw [h] <;> rfl
    have fade := well
    simp [ParamSet.fadesWell, hm] at fade
    split
    · exact ⟨h.glideTo sounds n t.current well run _, rfl, .inr n⟩
    · rename_i hx; exact ⟨h.crossfade well (by simp [hx] at fade; omega) (by omega) ib, rfl, .inl rfl⟩
    · rename_i hx; exact ⟨h.crossfade well (by simp [hx] at fade; omega) (by omega) ib, rfl, .inl rfl⟩
  · exact ⟨h, rfl, waits⟩

/-- A tap's boundary work keeps its law, and leaves nothing staged. -/
theorem Tap.Lawful.boundary {t : Tap} (h : t.Lawful) (b ib : Nat) (found : Bool) :
    (t.boundary b ib found).Lawful ∧ (t.boundary b ib found).staged = none := by
  obtain ⟨mid, moved, _⟩ := h.advance b
  obtain ⟨mid3, clear⟩ := mid.applyEdit moved ib
  obtain ⟨mid4, clear4, waits⟩ := mid3.applyPending clear ib
  obtain ⟨m, same, w⟩ := mid4.followTempo waits ib
    (found || becameRunning (t.advance b).state (t.advance b).completeMove.state)
  refine ⟨⟨m.fade, m.noFade, m.oldSide, ?_, m.runFlag, m.current, m.staged, m.preset, m.waiting⟩, same.trans clear4⟩
  intro hp
  refine w.resolve_right ?_
  intro hn
  unfold Tap.boundary at hp
  dsimp only at hp
  rw [hn] at hp
  cases hp

end Sys2Proof.Machine
end

