-- ==== Sys2Proof/Laws/Names.lean ====
section
/-! SUPPORT. What a tap names, through the five steps of its boundary work (R81): no step names a line that was not named
before it, so that the law of R81 stands through a boundary. -/

namespace Sys2Proof.Machine

/-- The four ways a tap names a line (R81). -/
theorem Tap.names_iff (l : LineNo) (t : Tap) : t.names l = true ↔
    (t.state ≠ .idle ∧ t.current.line = l) ∨ (∃ o, t.oldSide = some o ∧ o.line = l) ∨
      (∃ p, t.pendingTarget = some p ∧ p.line = l) ∨ ∃ p, Edit.set? t.staged = some p ∧ p.line = l := by
  simp [Tap.names, Option.any_eq_true, or_assoc]

/-- What carries the law of R81 through the steps of a boundary: a pending target is no IDLE tap's. -/
def Tap.waitsAwake (t : Tap) : Prop := t.pendingTarget.isSome = true → t.state ≠ .idle

/-- Step 1 (R109, R110). -/
theorem Tap.names_advance (b : Nat) (l : LineNo) (t : Tap) : (t.advance b).names l = t.names l := by
  unfold Tap.advance; split <;> rfl

/-- Step 2 (R111). -/
theorem Tap.names_completeMove (l : LineNo) (t : Tap) (h : t.completeMove.names l = true) : t.names l = true := by
  rw [Tap.names_iff] at *
  unfold Tap.completeMove at h
  cases hs : t.state <;> rw [hs] at h <;> dsimp only at h <;> (try split at h) <;>
    simp_all [Tap.toRunning, Tap.toIdle]
  all_goals grind

/-- A retarget names the lines named and the new set's (R117 to R119). -/
theorem Tap.names_retarget (ib : Nat) (p : ParamSet) (l : LineNo) (t : Tap) (awake : t.state ≠ .idle)
    (h : (t.retarget ib p).names l = true) : t.names l = true ∨ p.line = l := by
  rw [Tap.names_iff] at *
  unfold Tap.retarget at h
  cases hm : p.method <;> rw [hm] at h <;> (try split at h) <;>
    simp_all [Tap.take, Tap.toRunning, Tap.crossfade, Tap.reading, Tap.glideTo]
  all_goals grind

/-- A stop of a tap that is not IDLE (R114). -/
theorem Tap.names_stop (l : LineNo) (t : Tap) (awake : t.state ≠ .idle) (h : t.stop.names l = true) : t.names l = true := by
  rw [Tap.names_iff] at *
  unfold Tap.stop at h
  dsimp only at h
  split at h <;> simp_all [Tap.toIdle]

/-- A stop in each state (R112, R114, R115, R120). -/
theorem Tap.names_applyStop (l : LineNo) (t : Tap) (h : t.applyStop.names l = true) : t.names l = true := by
  unfold Tap.applyStop at h
  cases hs : t.state <;> rw [hs] at h <;> dsimp only at h
  · exact h
  · rw [Tap.names_iff] at *; simp_all [Tap.mirror]
  · exact Tap.names_stop l t (by rw [hs]; decide) h
  · exact Tap.names_stop l t (by rw [hs]; decide) h
  · rw [Tap.names_iff] at *; simp_all [Tap.stopForm]; grind
  · exact h

/-- A start in each state names the lines named and its set's (R113 to R120). -/
theorem Tap.names_applyStart (ib : Nat) (p : ParamSet) (l : LineNo) (t : Tap) (h : (t.applyStart ib p).names l = true) :
    t.names l = true ∨ p.line = l := by
  unfold Tap.applyStart at h
  cases hs : t.state <;> rw [hs] at h <;> dsimp only at h
  · rw [Tap.names_iff] at *; unfold Tap.start at h; split at h <;> simp_all [Tap.take, Tap.toRunning] <;> grind
  · rw [Tap.names_iff] at *; simp_all [Tap.take]; grind
  · exact Tap.names_retarget ib p l t (by rw [hs]; decide) h
  · exact Tap.names_retarget ib p l t (by rw [hs]; decide) h
  · rw [Tap.names_iff] at *; simp_all; grind
  · rw [Tap.names_iff] at *; simp_all [Tap.take, Tap.mirror]; grind

/-- Step 3 (R108). -/
theorem Tap.names_applyEdit (ib : Nat) (l : LineNo) (t : Tap) (awake : t.waitsAwake)
    (h : (t.applyEdit ib).names l = true) : t.names l = true := by
  have plain : ∀ q : Option ParamSet, ({ t with staged := none, pendingTarget := q } : Tap).names l = true →
      (∃ p, q = some p ∧ p.line = l) ∨ (t.state ≠ .idle ∧ t.current.line = l) ∨ ∃ o, t.oldSide = some o ∧ o.line = l := by
    intro q hq; rw [Tap.names_iff] at hq; simp_all [Edit.set?]; grind
  have clear : ({ t with staged := none } : Tap).names l = true → t.names l = true := by
    intro hq; rw [Tap.names_iff] at *; simp_all [Edit.set?]; grind
  unfold Tap.applyEdit at h
  cases hst : t.staged with
  | none => rw [hst] at h; exact h
  | some e =>
    rw [hst] at h
    cases e with
    | start p =>
      dsimp only at h
      have named : p.line = l → t.names l = true := fun hp => by
        rw [Tap.names_iff]; right; right; right; exact ⟨p, by rw [hst]; rfl, hp⟩
      split at h
      · rcases plain _ h with ⟨q, hq, hl⟩ | h | h
        · cases hq; exact named hl
        · rw [Tap.names_iff]; exact .inl h
        · rw [Tap.names_iff]; exact .inr (.inl h)
      · rcases Tap.names_applyStart ib p l _ h with h | h
        · exact clear h
        · exact named h
    | preset p =>
      dsimp only at h
      have named : p.line = l → t.names l = true := fun hp => by
        rw [Tap.names_iff]; right; right; right; exact ⟨p, by rw [hst]; rfl, hp⟩
      split at h
      · rename_i hp
        rcases plain _ h with ⟨q, hq, hl⟩ | h | h
        · cases hq; rw [Tap.names_iff]; exact .inl ⟨awake hp, hl⟩
        · rw [Tap.names_iff]; exact .inl h
        · rw [Tap.names_iff]; exact .inr (.inl h)
      · unfold Tap.applyPreset at h
        split at h
        · rename_i hi
          apply clear
          rw [Tap.names_iff] at *; simp_all
        · exact clear (Tap.names_applyStop l _ h)
    | stop =>
      dsimp only at h
      split at h
      · rename_i hp
        rcases plain _ h with ⟨q, hq, hl⟩ | h | h
        · cases hq; rw [Tap.names_iff]; exact .inl ⟨awake hp, hl⟩
        · rw [Tap.names_iff]; exact .inl h
        · rw [Tap.names_iff]; exact .inr (.inl h)
      · exact clear (Tap.names_applyStop l _ h)

/-- Step 4 (R121). -/
theorem Tap.names_applyPending (ib : Nat) (l : LineNo) (t : Tap) (awake : t.waitsAwake)
    (h : (t.applyPending ib).names l = true) : t.names l = true := by
  unfold Tap.applyPending at h
  split at h
  · exact h
  · exact h
  · rename_i p hp _
    have aw : t.state ≠ .idle := awake (by rw [hp]; rfl)
    have clear : ({ t with pendingTarget := none } : Tap).names l = true → t.names l = true := by
      intro hq; rw [Tap.names_iff] at *; simp_all; grind
    split at h
    · rcases Tap.names_retarget ib p l _ (by exact aw) h with h | h
      · exact clear h
      · rw [Tap.names_iff]; right; right; left; exact ⟨p, hp, h⟩
    · exact clear (Tap.names_stop l _ (by exact aw) h)

/-- Step 5 (R122, R123). -/
theorem Tap.names_followTempo (ib : Nat) (c : Bool) (l : LineNo) (t : Tap)
    (h : (t.followTempo ib c).names l = true) : t.names l = true := by
  unfold Tap.followTempo at h
  split at h
  · rename_i hc
    have aw : t.state ≠ .idle := by intro hi; rw [hi] at hc; simp [TapState.isSteady] at hc
    rw [Tap.names_iff] at *
    cases hm : t.current.method <;> rw [hm] at h <;> simp_all [Tap.crossfade, Tap.take, Tap.reading, Tap.glideTo]
    all_goals grind
  · exact h

/-- A tap's boundary work names no line that the tap did not name before (R81). -/
theorem Tap.Lawful.names_boundary {t : Tap} (h : t.Lawful) (b ib : Nat) (found : Bool) (l : LineNo)
    (hn : (t.boundary b ib found).names l = true) : t.names l = true := by
  have awake : ∀ u : Tap, u.MidLawful → u.waitsAwake := by
    intro u hu hp
    rcases hu.pendingTarget hp with h | h <;> rw [h] <;> decide
  obtain ⟨mid, moved, -⟩ := h.advance b
  obtain ⟨mid3, -⟩ := mid.applyEdit moved ib
  have h5 := Tap.names_followTempo ib _ l _ hn
  have h4 := Tap.names_applyPending ib l _ (awake _ mid3) h5
  have h3 := Tap.names_applyEdit ib l _ (awake _ mid) h4
  have h2 := Tap.names_completeMove l _ h3
  rwa [Tap.names_advance] at h2

/-- The law of R81 in the words of FREE_LINE: no tap names a FREE line (R26, R81). -/
theorem namesActive_iff (s : State) :
    (∀ t l, (s.tap t).names l = true → (s.line l).state = .active) ↔
      (∀ t, (s.tap t).state ≠ .idle → (s.line (s.tap t).current.line).state = .active) ∧
      (∀ t o, (s.tap t).oldSide = some o → (s.line o.line).state = .active) ∧
      (∀ t p, (s.tap t).pendingTarget = some p → (s.line p.line).state = .active) ∧
      (∀ t p, Edit.set? (s.tap t).staged = some p → (s.line p.line).state = .active) := by
  simp only [Tap.names_iff]
  constructor
  · intro h
    exact ⟨fun t ht => h t _ (.inl ⟨ht, rfl⟩), fun t o ho => h t _ (.inr (.inl ⟨o, ho, rfl⟩)),
      fun t p hp => h t _ (.inr (.inr (.inl ⟨p, hp, rfl⟩))), fun t p hp => h t _ (.inr (.inr (.inr ⟨p, hp, rfl⟩)))⟩
  · rintro ⟨h1, h2, h3, h4⟩ t l (⟨ht, rfl⟩ | ⟨o, ho, rfl⟩ | ⟨p, hp, rfl⟩ | ⟨p, hp, rfl⟩)
    exacts [h1 t ht, h2 t o ho, h3 t p hp, h4 t p hp]

end Sys2Proof.Machine
end

