-- ==== Sys2Proof/Laws/Notes.lean ====
section
/-! SUPPORT. What a note length, a base delay, a cycle length and an increment are worth, as the spec writes them (R88, R129,
R143, R144). -/

namespace Sys2Proof.Machine

/-- The modifier's factor f (R129). -/
def Modifier.factor : Modifier → Rat
  | .straight => 1
  | .dotted => 3 / 2
  | .triplet => 2 / 3

/-- Rounding to the nearest whole number, a value halfway going up. -/
theorem roundUpHalf_eq (n : Nat) {d : Nat} (h : 0 < d) : roundUpHalf n d = ⌊(n : Rat) / d + 1 / 2⌋₊ := by
  have hd : (d : Rat) ≠ 0 := by exact_mod_cast h.ne'
  have : (n : Rat) / d + 1 / 2 = ((2 * n + d : Nat) : Rat) / ((2 * d : Nat) : Rat) := by
    push_cast; field_simp
  rw [this, Nat.floor_div_eq_div, roundUpHalf]

/-- A note length is Ib × 4 × 2^-(k mod 8) × f, exactly (R129). -/
theorem noteLength_eq (ib k : Nat) (m : Modifier) :
    ((noteLength ib k m).1 : Rat) / (noteLength ib k m).2 = (ib : Rat) * 4 / 2 ^ (k % 8) * m.factor := by
  unfold noteLength
  cases m <;> simp only [Modifier.sixths, Modifier.factor] <;> push_cast <;> field_simp <;> ring

theorem noteLength_pos (ib k : Nat) (m : Modifier) : 0 < (noteLength ib k m).2 := by
  unfold noteLength; positivity

/-- A base delay in TEMPO: the note length to the nearest 256th, capped at the largest delay (R88). -/
theorem baseDelay_tempo {p : ParamSet} (ib : Nat) (h : p.mode = .tempo) : baseDelay ib p =
    min (1048575 * 256 + 255) ⌊(ib : Rat) * 4 / 2 ^ (p.noteExp % 8) * p.modifier.factor + 1 / 2⌋₊ := by
  unfold baseDelay
  rw [h]
  dsimp only
  rw [roundUpHalf_eq _ (noteLength_pos _ _ _), noteLength_eq]; rfl

/-- A SYNC cycle: the note length to the nearest sample, brought into 2B to 2^24 (R143). -/
theorem effectiveLength_sync {o : OscSetting} (b ib : Nat) (h : o.mode = .sync) : effectiveLength b ib o =
    min (2 ^ 24) (max (2 * b) ⌊((ib : Rat) / 256) * 4 / 2 ^ (o.noteExp % 8) * o.modifier.factor + 1 / 2⌋₊) := by
  unfold effectiveLength
  rw [h]
  dsimp only
  have hp := noteLength_pos ib o.noteExp o.modifier
  rw [roundUpHalf_eq _ (by positivity)]
  unfold clampCycle
  have e := noteLength_eq ib o.noteExp o.modifier
  have : ((noteLength ib o.noteExp o.modifier).1 : Rat) / (((noteLength ib o.noteExp o.modifier).2 * 256 : Nat) : Rat)
    = ((ib : Rat) / 256) * 4 / 2 ^ (o.noteExp % 8) * o.modifier.factor := by
    push_cast
    rw [← div_div, e]; ring
  rw [this]

theorem isPowerOfTwo_iff {n : Nat} (h : isPowerOfTwo n = true) : ∃ k, n = 2 ^ k := by
  unfold isPowerOfTwo at h
  simp only [Bool.and_eq_true, bne_iff_ne, beq_iff_eq] at h
  exact (Nat.and_sub_one_eq_zero_iff_isPowerOfTwo h.1).mp h.2

theorem isPowerOfTwo_pow (k : Nat) : isPowerOfTwo (2 ^ k) = true := by
  unfold isPowerOfTwo
  simp only [Bool.and_eq_true, bne_iff_ne, beq_iff_eq]
  refine ⟨by positivity, (Nat.and_sub_one_eq_zero_iff_isPowerOfTwo (by positivity)).mpr ⟨k, rfl⟩⟩

/-- The whole numbers within a relative 2^-14 of 2^32/Lc lie between two whole numbers (R144). -/
theorem near_iff {lc : Nat} (h : 0 < lc) (n : Nat) :
    |(n : Rat) - 2 ^ 32 / (lc : Rat)| ≤ 2 ^ 32 / (lc : Rat) / 2 ^ 14 ↔
      (2 ^ 18 * (2 ^ 14 - 1) + lc - 1) / lc ≤ n ∧ n ≤ 2 ^ 18 * (2 ^ 14 + 1) / lc := by
  have hl : (0 : Rat) < lc := by exact_mod_cast h
  have h1 : (2 ^ 18 * (2 ^ 14 - 1) + lc - 1) / lc ≤ n ↔ 2 ^ 18 * (2 ^ 14 - 1) ≤ n * lc := by
    rw [← Nat.lt_succ_iff, Nat.div_lt_iff_lt_mul h, Nat.succ_mul]; omega
  have h2 : n ≤ 2 ^ 18 * (2 ^ 14 + 1) / lc ↔ n * lc ≤ 2 ^ 18 * (2 ^ 14 + 1) := Nat.le_div_iff_mul_le h
  rw [h1, h2, abs_le]
  have e1 : -(2 ^ 32 / (lc : Rat) / 2 ^ 14) ≤ (n : Rat) - 2 ^ 32 / (lc : Rat) ↔ (2 ^ 18 * (2 ^ 14 - 1) : Rat) ≤ n * lc := by
    rw [neg_le_sub_iff_le_add, ← sub_le_iff_le_add, div_div, ← mul_le_mul_iff_left₀ hl]
    have : (2 ^ 32 / (lc : Rat) - 2 ^ 32 / (lc * 2 ^ 14)) * lc = 2 ^ 18 * (2 ^ 14 - 1) := by field_simp
    rw [this]
  have e2 : (n : Rat) - 2 ^ 32 / (lc : Rat) ≤ 2 ^ 32 / (lc : Rat) / 2 ^ 14 ↔ (n * lc : Rat) ≤ 2 ^ 18 * (2 ^ 14 + 1) := by
    rw [sub_le_iff_le_add, div_div, ← mul_le_mul_iff_left₀ hl]
    have : (2 ^ 32 / ((lc : Rat) * 2 ^ 14) + 2 ^ 32 / lc) * lc = 2 ^ 18 * (2 ^ 14 + 1) := by field_simp; norm_num
    rw [this]
  rw [e1, e2]
  norm_num
  norm_cast

/-- An increment keeps the bound of R144 wherever a whole number does (log 16). -/
theorem approxReciprocal_near {lc : Nat} (h : 0 < lc) (hc : lc ≤ 2 ^ 24) :
    ((∃ n : Nat, |(n : Rat) - 2 ^ 32 / (lc : Rat)| ≤ 2 ^ 32 / (lc : Rat) / 2 ^ 14) →
      |(approxReciprocal lc : Rat) - 2 ^ 32 / (lc : Rat)| ≤ 2 ^ 32 / (lc : Rat) / 2 ^ 14) ∧
    ((¬∃ n : Nat, |(n : Rat) - 2 ^ 32 / (lc : Rat)| ≤ 2 ^ 32 / (lc : Rat) / 2 ^ 14) →
      approxReciprocal lc = 2 ^ 32 / lc ∨ approxReciprocal lc = 2 ^ 32 / lc + 1) := by
  unfold approxReciprocal
  rw [if_neg h.ne']
  by_cases hp : isPowerOfTwo lc = true
  · rw [if_pos hp]
    obtain ⟨k, rfl⟩ := isPowerOfTwo_iff hp
    have hk : k ≤ 24 := by
      by_contra hk
      have : 2 ^ 24 < 2 ^ k := Nat.pow_lt_pow_right (by norm_num) (by omega)
      omega
    refine ⟨fun _ => ?_, fun _ => .inl rfl⟩
    have : ((2 ^ 32 / 2 ^ k : Nat) : Rat) = 2 ^ 32 / ((2 ^ k : Nat) : Rat) := by
      rw [Nat.cast_div (pow_dvd_pow 2 (by omega)) (by positivity)]; norm_num
    rw [this, sub_self, abs_zero]; positivity
  · rw [if_neg hp]
    dsimp only
    split
    · rename_i hle
      refine ⟨fun _ => ?_, fun hn => absurd ⟨_, (near_iff h _).mpr ⟨le_refl _, hle⟩⟩ hn⟩
      rw [near_iff h]
      unfold clampNat
      exact ⟨le_min hle (le_max_left _ _), min_le_left _ _⟩
    · rename_i hle
      refine ⟨fun ⟨n, hn⟩ => ?_, fun _ => ?_⟩
      · rw [near_iff h] at hn; exact absurd (hn.1.trans hn.2) hle
      · unfold clampNat; omega

/-- The increment of a power of two is exact (R144). -/
theorem approxReciprocal_pow {j : Nat} (h : j ≤ 24) : approxReciprocal (2 ^ j) = 2 ^ (32 - j) := by
  unfold approxReciprocal
  rw [if_neg (by positivity), if_pos (isPowerOfTwo_pow j), Nat.pow_div (by omega) (by norm_num)]

end Sys2Proof.Machine
end

