-- ==== Sys2Proof/Laws/Records.lean ====
section
/-! SUPPORT. The items of the records that the reading commands return, in the order their rules list them (R27, R52, R77,
R87, R140, R152, R164, R183), and the encodings they are made of (R188, R194). -/

namespace Sys2Proof.Machine

/-! ### Encodings -/

/-- A byte of a number, most significant first (R188). -/
theorem bytesOf_byte (n v i : Nat) (h : i < n) : (bytesOf n v)[i]? = some (BitVec.ofNat 8 (v / 256 ^ (n - 1 - i))) := by
  simp [bytesOf, h]

/-- What may be absent, as its bytes or all ones in its first (R194, log 20). -/
theorem optionalSetBytes_eq (p : Option ParamSet) : optionalSetBytes p = (p.map ParamSet.bytes).getD [0xFF] := by
  cases p <;> rfl

theorem optionalStagedOscBytes_eq (x : Option StagedOsc) :
    optionalStagedOscBytes x = (x.map fun x => x.setting.bytes ++ flagByte x.restart).getD [0xFF] := by
  cases x <;> rfl

/-- An oscillator's code: none 0, M0 to M15 as 1 to 16 (R194). -/
theorem oscCode_eq (m : Option OscNo) : oscCode m = (m.map fun m => m.val + 1).getD 0 := by cases m <;> rfl

/-! ### Records -/

/-- READ_LINE's items (R27). -/
theorem lineBytes_items (l : LineNo) (start : Nat) (s : State) :
    lineBytes l start s =
      bytesOf 1 (s.line l).state.code ++ bytesOf 1 (s.line l).generation.toNat
        ++ bytesOfOption 1 ((s.line l).writer.map (·.val)) ++ bytesOfOption 1 ((s.line l).stagedWriter.map (·.val))
        ++ bytesOf 2 (s.line l).pages.length ++ bytesOf 4 ((s.line l).pages.length * 4096) ++ bytesOf 4 (s.line l).head
        ++ flagByte (s.line l).taken ++ flagByte (decide ((s.fills.filter fun f => f.line == l) ≠ []))
        ++ bytesOf 2 (s.line l).gapRun ++ bytesOf 1 (s.line l).lastClose.code
        ++ bytesOf 1 (s.fills.filter fun f => f.line == l).length
        ++ (s.fills.filter fun f => f.line == l).flatMap (fun f => bytesOf 4 f.period.toNat)
        ++ pageListBytes start (s.line l).pages := by
  have h : (!(owedFills s.fills l).isEmpty) = decide ((s.fills.filter fun f => f.line == l) ≠ []) := by
    unfold owedFills
    cases s.fills.filter fun f => f.line == l <;> rfl
  unfold lineBytes
  simp only [h]
  rfl

/-- READ_POOL's items (R52). -/
theorem poolBytes_items (start : Nat) (s : State) :
    poolBytes start s =
      bytesOf 2 s.pool.free.length ++ bytesOf 2 s.pool.dirty.length ++ bytesOf 1 s.pool.retired.length
        ++ (match s.pool.walker with
          | none => [0xFF, 0xFF]
          | some k => bytesOf 2 k.page.val ++ bytesOf 1 k.phase.code ++ bytesOf 2 (4096 - k.pointer))
        ++ bytesOf 1 s.refresh.backlog ++ flagByte s.refresh.urgent ++ bytesOf 2 s.refresh.row
        ++ bytesOf 2 s.store.corrected
        ++ (match s.pool.waiting with
          | none => [0]
          | some w => [1] ++ bytesOf 1 w.line.val ++ bytesOf 2 w.count)
        ++ pageListBytes start s.pool.retired := by
  unfold poolBytes
  cases s.pool.walker <;> cases s.pool.waiting <;> rfl

/-- A tap's items (R87). -/
theorem tapBytes_items (t : Tap) :
    t.bytes =
      bytesOf 1 t.state.code ++ t.current.bytes
        ++ (match t.staged with
          | some (.start p) => [0] ++ p.bytes
          | some (.preset p) => [1] ++ p.bytes
          | some .stop => [2]
          | none => [3])
        ++ bytesOf 4 t.delay ++ bytesOf 4 t.target ++ bytesOf 1 t.fadeCount ++ bytesOf 1 t.fadeOf
        ++ (match t.oldSide with
          | some o => bytesOf 1 o.line.val ++ bytesOf 4 o.delay ++ bytesOf 3 o.gain ++ flagByte o.inverted
              ++ bytesOf 1 o.interp.code ++ bytesOf 1 ((o.osc.map fun m => m.val + 1).getD 0) ++ bytesOf 3 o.depth
              ++ bytesOf 1 o.quadrant
          | none => [0xFF])
        ++ ((t.pendingTarget.map ParamSet.bytes).getD [0xFF]) ++ flagByte t.clamped := by
  have kind : bytesOf 1 (Edit.code t.staged) ++ stagedSetBytes t.staged =
      (match t.staged with
        | some (.start p) => [0] ++ p.bytes
        | some (.preset p) => [1] ++ p.bytes
        | some .stop => [2]
        | none => [3]) := by
    rcases t.staged with _ | _ | _ | _ <;> simp [Edit.code, stagedSetBytes, bytesOf_one]
  have side : optionalOldSideBytes t.oldSide =
      (match t.oldSide with
        | some o => bytesOf 1 o.line.val ++ bytesOf 4 o.delay ++ bytesOf 3 o.gain ++ flagByte o.inverted
            ++ bytesOf 1 o.interp.code ++ bytesOf 1 ((o.osc.map fun m => m.val + 1).getD 0) ++ bytesOf 3 o.depth
            ++ bytesOf 1 o.quadrant
        | none => [0xFF]) := by
    rcases t.oldSide with _ | o
    · rfl
    · simp only [optionalOldSideBytes, oscCode_eq]
  unfold Tap.bytes
  rw [side, optionalSetBytes_eq, ← kind]
  simp only [List.append_assoc]

/-- READ_LINK's items (R77). -/
theorem linkBytes_items (e : Engine) (s : State) :
    let k := s.link e
    let staged := fun b : Fin 2 => match k.buffers[b.val] with
      | .free => [0]
      | .receiving _ _ => [1]
      | .queued => [2] ++ bytesOf 4 (((s.commits.find? fun f => f.engine == e && f.buffer == b).map (·.period.toNat)).getD 0)
    linkBytes e s =
      bytesOf 1 k.state.code ++ bytesOf 1 k.missed ++ flagByte k.accepted
        ++ (match k.receiver with
          | .hunt => [0]
          | .receiving _ window => [1] ++ bytesOf 1 window)
        ++ staged 0 ++ staged 1 ++ bytesOf 1 (s.commits.filter fun f => f.engine == e).length
        ++ bytesOf 1 s.commits.length ++ k.tally.bytes ++ k.report.bytes ++ bytesOf 1 k.tx.length
        ++ k.tx.flatMap fun f => bytesOf 1 f.state.code ++ [f.period.setWidth 8] := by
  intro k staged
  have window : k.receiver.bytes = (match k.receiver with
      | .hunt => [0]
      | .receiving _ window => [1] ++ bytesOf 1 window) := by
    rcases k.receiver with _ | ⟨b, w⟩ <;> rfl
  have buffer : ∀ b : Fin 2, bufferBytes e b s = staged b := by
    intro b
    have period : queuedPeriod e b s =
        ((s.commits.find? fun f => f.engine == e && f.buffer == b).map (·.period.toNat)).getD 0 := by
      unfold queuedPeriod
      cases s.commits.find? fun f => f.engine == e && f.buffer == b <;> rfl
    show (match (s.link e).buffers[b.val] with
      | .free => bytesOf 1 0
      | .receiving _ _ => bytesOf 1 1
      | .queued => bytesOf 1 2 ++ bytesOf 4 (queuedPeriod e b s)) = staged b
    simp only [staged, k]
    rw [period]
    cases (s.link e).buffers[b.val] <;> rfl
  unfold linkBytes
  simp only [buffer]
  rw [← window]
  rfl

/-- READ_TEMPO's items (R140). -/
theorem tempoBytes_items (t : Tempo) :
    tempoBytes t =
      bytesOf 1 t.source.code ++ bytesOf 4 t.interval ++ flagByte t.tapSide ++ flagByte t.oscSide
        ++ bytesOf 1 t.beatsPerBar ++ bytesOf 1 t.beatNumber ++ bytesOf 4 t.beatPosition ++ bytesOf 1 t.tapList.length
        ++ t.tapList.flatMap (fun v => bytesOf 4 (v * 256)) ++ bytesOfOption 5 (t.lastTap.map (·.toNat))
        ++ bytesOf 1 t.ext.code ++ bytesOf 1 t.window.length ++ bytesOf 4 t.window.sum ++ bytesOf 1 t.phase
        ++ flagByte t.lossTimer.isSome := by
  unfold tempoBytes
  rw [List.sum_eq_foldl]

/-- READ_OSC's items (R152). -/
theorem oscBytes_items (o : Osc) :
    o.bytes =
      o.setting.bytes ++ bytesOf 4 o.effective ++ bytesOf 4 o.increment ++ bytesOf 4 o.phase.toNat
        ++ bytesOf 4 o.endPhase.toNat ++ flagByte o.endWrap ++ bytesOf 4 (BitVec.ofInt 32 o.held).toNat
        ++ bytesOf 4 (BitVec.ofInt 32 o.nextValue).toNat ++ flagByte o.restartPending
        ++ ((o.staged.map fun x => x.setting.bytes ++ flagByte x.restart).getD [0xFF]) := by
  unfold Osc.bytes
  rw [optionalStagedOscBytes_eq]
  rfl

/-- READ_SCENES's items for one entry (R164). -/
theorem sceneBytes_items (entry : Scene) : entry.bytes = (match entry.tempo with
    | some v => [1] ++ bytesOf 4 v
    | none => [0]) := by
  unfold Scene.bytes
  cases entry.tempo <;> rfl

end Sys2Proof.Machine
end

