-- ==== Sys2Proof/Laws/Scenes.lean ====
section
/-! SUPPORT. A pop (R158, R159), tap by tap: what each tap is judged against, what it is left as, and the counts of the
result. -/

namespace Sys2Proof.Machine

/-- A tap judged changes its own staged edit at most. -/
theorem judge_state (entry : Scene) (p : PopProgress) (t : TapNo) :
    ∃ staged, (p.judge entry t).state = p.state.setTap t { p.state.tap t with staged := staged } := by
  unfold PopProgress.judge PopProgress.restore PopProgress.skip stageEdit
  dsimp only
  split
  · exact ⟨(p.state.tap t).staged, (State.setTap_self _ _).symm⟩
  · split
    · exact ⟨_, rfl⟩
    · split
      · exact ⟨(p.state.tap t).staged, (State.setTap_self _ _).symm⟩
      · exact ⟨_, rfl⟩

/-- A tap judged leaves the others. -/
theorem judge_other (entry : Scene) (p : PopProgress) {t u : TapNo} (h : u ≠ t) :
    (p.judge entry t).state.tap u = p.state.tap u := by
  obtain ⟨x, hx⟩ := judge_state entry p t
  rw [hx, State.tap_setTap_other _ _ h]

/-- A walk over some taps leaves the others. -/
theorem judgeAll_other (entry : Scene) (xs : List TapNo) (p : PopProgress) {u : TapNo} (h : u ∉ xs) :
    (xs.foldl (PopProgress.judge entry) p).state.tap u = p.state.tap u := by
  induction xs generalizing p with
  | nil => rfl
  | cons x xs ih =>
    rw [List.foldl_cons, ih _ (fun hu => h (List.mem_cons_of_mem _ hu)), judge_other]
    rintro rfl; exact h (List.mem_cons_self ..)

/-- A walk changes the taps alone. -/
theorem judgeAll_state (entry : Scene) (xs : List TapNo) (p : PopProgress) :
    let q := xs.foldl (PopProgress.judge entry) p
    q.state = { p.state with taps := q.state.taps } := by
  induction xs generalizing p with
  | nil => rfl
  | cons x xs ih =>
    dsimp only
    rw [List.foldl_cons, ih]
    obtain ⟨y, hy⟩ := judge_state entry p x
    rw [hy]; rfl

/-- The taps below one, the tap, and those above it. -/
theorem allTaps_split (t : TapNo) : allTaps = allTaps.take t.val ++ t :: allTaps.drop (t.val + 1) := by
  have hl : t.val < allTaps.length := by simp [allTaps]
  have : allTaps[t.val] = t := by simp [allTaps]
  conv => lhs; rw [← List.take_append_drop t.val allTaps, List.drop_eq_getElem_cons hl, this]

/-- The taps below a number. -/
theorem mem_take_allTaps (k : Nat) (u : TapNo) : u ∈ allTaps.take k ↔ u.val < k := by
  have : allTaps.take k = (List.range (min k 512)).map (Fin.ofNat 512) := by
    unfold allTaps
    rw [← List.map_take, List.take_range]
  rw [this, List.mem_map]
  constructor
  · rintro ⟨i, hi, rfl⟩
    have := List.mem_range.mp hi
    simp [Fin.ofNat]; omega
  · intro h
    exact ⟨u.val, List.mem_range.mpr (by have := u.isLt; omega), by simp⟩

/-- The taps from a number on. -/
theorem mem_drop_allTaps (k : Nat) (u : TapNo) : u ∈ allTaps.drop k ↔ k ≤ u.val := by
  have : allTaps.drop k = (List.range' k (512 - k)).map (Fin.ofNat 512) := by
    unfold allTaps
    rw [← List.map_drop, List.range_eq_range', List.drop_range']; simp
  rw [this, List.mem_map]
  constructor
  · rintro ⟨i, hi, rfl⟩
    have := List.mem_range'_1.mp hi
    simp [Fin.ofNat]; omega
  · intro h
    exact ⟨u.val, List.mem_range'_1.mpr (by have := u.isLt; omega), by simp⟩

/-- A pop before its first tap. -/
def popStart (s : State) : PopProgress := { state := s, restored := 0, skipped := 0, firstSkipped := none }

/-- The pop as it has gone before a tap. -/
def popBefore (entry : Scene) (p : PopProgress) (t : TapNo) : PopProgress :=
  (allTaps.take t.val).foldl (PopProgress.judge entry) p

/-- The part as the pop has left it before a tap: the taps below it as the pop leaves them, and the rest as they stood. -/
theorem popBefore_state (entry : Scene) (s : State) (t : TapNo) :
    let u := (popTaps entry s).state
    (popBefore entry (popStart s) t).state =
      { u with taps := Vector.ofFn fun i : TapNo => if i < t then u.tap i else s.tap i } := by
  intro u
  have hu : u = (popTaps entry s).state := rfl
  unfold popTaps at hu
  change u = (allTaps.foldl (PopProgress.judge entry) (popStart s)).state at hu
  generalize hp : popStart s = p0 at *
  have hs : p0.state = s := by rw [← hp]; rfl
  have e1 : (popBefore entry p0 t).state = { s with taps := (popBefore entry p0 t).state.taps } := by
    have := judgeAll_state entry (allTaps.take t.val) p0
    rw [hs] at this; exact this
  have e2 : u = { s with taps := u.taps } := by
    rw [hu]
    have := judgeAll_state entry allTaps p0
    rw [hs] at this; exact this
  have same : ∀ x, { u with taps := x } = { s with taps := x } := fun x => by rw [e2]
  rw [same]
  have : (popBefore entry p0 t).state.taps = Vector.ofFn fun i : TapNo => if i < t then u.tap i else s.tap i := by
    apply Vector.ext_fin
    intro i
    rw [Vector.getElem_ofFn]
    have split : u = ((allTaps.drop t.val).foldl (PopProgress.judge entry) (popBefore entry p0 t)).state := by
      rw [hu]; unfold popBefore
      rw [← List.foldl_append, List.take_append_drop]
    show (popBefore entry p0 t).state.tap i = _
    by_cases h : i < t
    · rw [if_pos h, split, judgeAll_other]
      rw [mem_drop_allTaps]; exact Nat.not_le.mpr h
    · rw [if_neg h, ← hs]
      unfold popBefore
      rw [judgeAll_other]
      rw [mem_take_allTaps]; exact h
  rw [e1, this]

/-- A tap after the pop is as its own judgement left it. -/
theorem pop_tap (entry : Scene) (s : State) (t : TapNo) :
    let p := popBefore entry (popStart s) t
    (popTaps entry s).state.tap t = (p.judge entry t).state.tap t := by
  intro p
  unfold popTaps
  conv => lhs; rw [allTaps_split t]
  rw [List.foldl_append, List.foldl_cons, judgeAll_other]
  · rfl
  · rw [mem_drop_allTaps]; omega

/-- The counts of a pop, tap by tap. -/
theorem pop_counts (entry : Scene) (s : State) (restores : TapNo → Bool) (skips : TapNo → Option Nat)
    (h : ∀ t, let p := popBefore entry (popStart s) t
      let q := p.judge entry t
      q.restored = p.restored + (restores t).toNat ∧ q.skipped = p.skipped + (skips t).isSome.toNat ∧
      q.firstSkipped = p.firstSkipped.or ((skips t).map (t, ·))) :
    let q := popTaps entry s
    q.restored = (allTaps.filter restores).length ∧ q.skipped = (allTaps.filter fun t => (skips t).isSome).length ∧
    q.firstSkipped = ((allTaps.filter fun t => (skips t).isSome).head?).bind fun t => (skips t).map (t, ·) := by
  have key : ∀ k, k ≤ 512 →
      let q := (allTaps.take k).foldl (PopProgress.judge entry) (popStart s)
      q.restored = ((allTaps.take k).filter restores).length ∧
      q.skipped = ((allTaps.take k).filter fun t => (skips t).isSome).length ∧
      q.firstSkipped = (((allTaps.take k).filter fun t => (skips t).isSome).head?).bind fun t => (skips t).map (t, ·) := by
    intro k
    induction k with
    | zero => intro _; simp [popStart]
    | succ k ih =>
      intro hk
      obtain ⟨h1, h2, h3⟩ := ih (by omega)
      have next : allTaps.take (k + 1) = allTaps.take k ++ [(⟨k, by omega⟩ : TapNo)] := by
        rw [List.take_add_one]
        have at_k : allTaps[k]? = some (⟨k, by omega⟩ : TapNo) := by
          unfold allTaps
          rw [List.getElem?_map, List.getElem?_range (show k < 512 by omega), Option.map_some]
          exact congrArg some (Fin.ext (Nat.mod_eq_of_lt (by omega)))
        rw [at_k, Option.toList_some]
      obtain ⟨a, b, c⟩ := h ⟨k, by omega⟩
      have pb : popBefore entry (popStart s) (⟨k, by omega⟩ : TapNo) =
          (allTaps.take k).foldl (PopProgress.judge entry) (popStart s) := rfl
      rw [pb] at a b c
      intro q
      have hq : q = ((allTaps.take k).foldl (PopProgress.judge entry) (popStart s)).judge entry ⟨k, by omega⟩ := by
        simp only [q, next, List.foldl_append, List.foldl_cons, List.foldl_nil]
      rw [hq, next]
      simp only [List.filter_append, List.length_append]
      refine ⟨?_, ?_, ?_⟩
      · rw [a, h1]; cases hr : restores ⟨k, by omega⟩ <;> simp [hr]
      · rw [b, h2]; cases hx : skips ⟨k, by omega⟩ <;> simp [hx]
      · rw [c, h3, List.head?_append]
        cases hx : ((allTaps.take k).filter fun t => (skips t).isSome).head? with
        | none =>
          cases hy : skips ⟨k, by omega⟩ <;> simp [hy]
        | some t =>
          have : t ∈ (allTaps.take k).filter fun t => (skips t).isSome := List.mem_of_head? hx
          have := (List.mem_filter.mp this).2
          obtain ⟨n, hn⟩ := Option.isSome_iff_exists.mp this
          simp [hn]
  have full : allTaps.take 512 = allTaps := List.take_of_length_le (by simp [allTaps])
  have := key 512 (le_refl _)
  rw [full] at this
  exact this

end Sys2Proof.Machine
end

