-- ==== Sys2Proof/Laws/Sine.lean ====
section
/-! SUPPORT. The series of the SINE shape (R148, log 17): it lies within 2^-60 of the sine over the first quarter, so that
every value the model admits lies within 2^-16 of it. -/

namespace Sys2Proof.Machine

/-- The series' sum in the real numbers. -/
theorem sineSeries_cast (x : Rat) :
    ((sineSeries x : Rat) : ℝ) = x * sineDivisors.foldr (fun (d : Nat) tail => 1 - (x : ℝ) * x / d * tail) 1 := by
  simp only [sineSeries, sineDivisors, List.foldr]
  push_cast
  rfl

/-- The terms of the exponential's series at x·i whose imaginary parts make up the sine's. -/
theorem exp_terms_im (x : ℝ) :
    (∑ m ∈ Finset.range 25, ((x : ℂ) * Complex.I) ^ m / (m.factorial : ℂ)).im =
      x * sineDivisors.foldr (fun (d : Nat) tail => 1 - x * x / d * tail) 1 := by
  have term : ∀ m, (((x : ℂ) * Complex.I) ^ m / (m.factorial : ℂ)).im = x ^ m / m.factorial * (Complex.I ^ m).im := by
    intro m
    have split : ((x : ℂ) * Complex.I) ^ m / (m.factorial : ℂ) = ((x ^ m / m.factorial : ℝ) : ℂ) * Complex.I ^ m := by
      push_cast; rw [mul_pow]; ring
    rw [split, Complex.im_ofReal_mul]
  have turn : ∀ k, (Complex.I ^ (4 * k)).im = 0 ∧ (Complex.I ^ (4 * k + 1)).im = 1 ∧ (Complex.I ^ (4 * k + 2)).im = 0 ∧
      (Complex.I ^ (4 * k + 3)).im = -1 := by
    intro k
    refine ⟨?_, ?_, ?_, ?_⟩ <;> simp [pow_add, pow_mul, Complex.I_pow_four, Complex.I_sq, Complex.I_pow_three]
  have a := turn 0; have b := turn 1; have c := turn 2; have d := turn 3; have e := turn 4; have f := turn 5
  have g := turn 6
  norm_num only at a b c d e f g
  rw [Complex.im_sum]
  simp only [term, Finset.sum_range_succ, Finset.sum_range_zero, a, b, c, d, e, f, g, sineDivisors, List.foldr, Nat.factorial]
  push_cast
  ring

/-- The series is within 2^-61 of the sine at an angle up to 1.58. -/
theorem sineSeries_close (x : Rat) (low : 0 ≤ x) (high : x ≤ 158 / 100) :
    |((sineSeries x : Rat) : ℝ) - Real.sin x| ≤ 1 / 2 ^ 61 := by
  have low' : (0 : ℝ) ≤ x := by exact_mod_cast low
  have high' : (x : ℝ) ≤ 158 / 100 := by have := (Rat.cast_le (K := ℝ)).mpr high; push_cast at this; exact this
  have norm : ‖((x : ℝ) : ℂ) * Complex.I‖ = x := by
    rw [norm_mul, Complex.norm_I, mul_one, Complex.norm_real, Real.norm_of_nonneg low']
  have small : ‖((x : ℝ) : ℂ) * Complex.I‖ / (Nat.succ 25 : ℕ) ≤ 1 / 2 := by
    rw [norm]; push_cast; linarith
  have bound := Complex.exp_bound' small
  have power : (x : ℝ) ^ 25 ≤ (158 / 100) ^ 25 := pow_le_pow_left₀ low' high' 25
  have tail : ‖((x : ℝ) : ℂ) * Complex.I‖ ^ 25 / (Nat.factorial 25 : ℕ) * 2 ≤ 1 / 2 ^ 61 := by
    rw [norm]
    refine le_trans (mul_le_mul_of_nonneg_right (div_le_div_of_nonneg_right power (by positivity)) (by norm_num)) ?_
    norm_num [Nat.factorial]
  have im := Complex.abs_im_le_norm (Complex.exp (((x : ℝ) : ℂ) * Complex.I)
    - ∑ m ∈ Finset.range 25, (((x : ℝ) : ℂ) * Complex.I) ^ m / (m.factorial : ℂ))
  rw [Complex.sub_im, exp_terms_im, Complex.exp_ofReal_mul_I_im] at im
  rw [sineSeries_cast, abs_sub_comm]
  exact le_trans im (le_trans bound tail)

/-- The series at the angle of a phase is within 2^-60 of the sine at the phase, over the first quarter (R148). -/
theorem sineNear_close (p : Nat) (h : p ≤ 2 ^ 30) :
    |((sineNear p : Rat) : ℝ) - Real.sin (2 * Real.pi * p / 2 ^ 32)| ≤ 1 / 2 ^ 60 := by
  have below : (p : Rat) ≤ 2 ^ 30 := by exact_mod_cast h
  have below' : (p : ℝ) ≤ 2 ^ 30 := by exact_mod_cast h
  have series := sineSeries_close (2 * piApprox * p / 2 ^ 32) (by unfold piApprox; positivity)
    (by unfold piApprox; linarith)
  have turn : |Real.sin ((2 * piApprox * p / 2 ^ 32 : Rat) : ℝ) - Real.sin (2 * Real.pi * p / 2 ^ 32)| ≤ 1 / 2 ^ 61 := by
    refine le_trans (Real.abs_sin_sub_sin_le _ _) ?_
    have above := Real.pi_gt_d20
    have under := Real.pi_lt_d20
    have nonneg : (0 : ℝ) ≤ p := Nat.cast_nonneg p
    unfold piApprox
    push_cast
    rw [abs_le]
    constructor <;> nlinarith
  have parts := abs_add_le (((sineNear p : Rat) : ℝ) - Real.sin ((2 * piApprox * p / 2 ^ 32 : Rat) : ℝ))
    (Real.sin ((2 * piApprox * p / 2 ^ 32 : Rat) : ℝ) - Real.sin (2 * Real.pi * p / 2 ^ 32))
  rw [sub_add_sub_cancel] at parts
  refine le_trans parts ?_
  unfold sineNear
  linarith

end Sys2Proof.Machine
end

