-- ==== Sys2Proof/Tests/Slice0.lean ====
section
/-! SUPPORT. Own tests: ill-formed commands refused, transactions written out from R193 and R194, worked values of the spec,
and, for every statement with hypotheses, states and operands that meet them. -/

namespace Sys2Proof.Tests

-- One kernel check at a time: many at once would each take a thread's stack.
set_option Elab.async false

open Sys2Proof Sys2Proof.Machine

/-! ### Well-formedness -/

theorem test_wellFormed_badCommand : (Instr.badCommand 0xC0 (.command (whole []))).wellFormed = true ∧
    (Instr.badCommand 0x43 (.command (whole [7]))).wellFormed = false ∧ (Instr.badCommand 0xC0 (.ignored 2)).wellFormed = true ∧
    (Instr.badCommand 0xC2 (.ignored 2)).wellFormed = false ∧ (Instr.badCommand 0xC1 (.ignored 1)).wellFormed = false := by decide

theorem test_wellFormed_collision : (Instr.commandCollision 0x43 (whole [7])).wellFormed = true ∧
    (Instr.commandCollision 0x43 .cut).wellFormed = false ∧ (Instr.commandCollision 0x7F (whole [])).wellFormed = false ∧
    (Instr.commandCollision 0x7F (whole [1])).wellFormed = true := by decide

/-! ### Transactions, byte for byte -/

theorem test_decode_commands :
    decodeTransaction [0xC1, 0x43, 1, 7] = some (.setMeter (.sent 1 [7])) ∧
    decodeTransaction [0xC1, 0x10, 4, 3, 1, 0, 2] = some (.allocLine (.sent 4 [3, 1, 0, 2])) ∧
    decodeTransaction [0xC1, 0x71, 2, 0x80, 0x01] = some (.setMask (.sent 2 [0x80, 0x01])) ∧
    decodeTransaction [0xC1, 0x20, 2, 1, 0] = some (.setLink (.sent 2 [1, 0])) ∧
    decodeTransaction [0xC1, 0x31, 2, 1, 0xFF] = some (.clearTap (.sent 2 [1, 0xFF])) ∧
    decodeTransaction [0xC1, 0x60, 0] = some (.pushScene (.sent 0 [])) ∧
    decodeTransaction [0xC1, 0x7F, 0] = some (.partReset (.sent 0 [])) := by decide

theorem test_decode_others :
    decodeTransaction [0xC1, 0xC0, 0] = some (.badCommand 0xC0 (.command (.sent 0 []))) ∧
    decodeTransaction [0xC1, 0x43] = some (.setMeter .cut) ∧ decodeTransaction [0xC2, 0, 0] = some (.readResult 2) ∧
    decodeTransaction [0xC3, 0, 0, 0] = some (.readStatus 3) ∧ decodeTransaction [0xC1] = some (.badCommand 0xC1 (.ignored 0)) ∧
    decodeTransaction [0xC0, 1] = some (.badCommand 0xC0 (.ignored 1)) ∧ decodeTransaction [] = none := by decide

/-! ### The states of the tests -/

/-- A part in LOCKED within period 5, with two free pages, no page in scrub and an idle arbiter. -/
def quiet : State :=
  { State.reset with
    timer := { Timer.reset with
      wclk := .locked, running := true, mean := some 4000, window := [4000], lastEdge := some 100000
      lossTimer := some 108000, period := 5, edge := 3 }
    pool := { free := [7, 8], dirty := [9], retired := [], walker := none, waiting := none }
    arbiter := { inService := none, lastRefresh := false, urgentFirst := false }
    oldestOpen := 5 }

/-- An ACTIVE line of two pages, written by E1, with its head near the end of its first page. -/
def line3 : Line := { Line.reset with state := .active, generation := 1, writer := some 1, pages := [5, 6], head := 4090 }

/-- A set of L3 for E2 with a delay of 100 samples. -/
def set100 : ParamSet :=
  { ParamSet.allZero with reader := 2, line := 3, fixedDelay := 100 * 256, gain := 65536, fadeLen := 4, edgeFade := 2, run := true }

/-- A RUNNING tap with that set. -/
def tap100 : Tap := { Tap.reset with state := .running, current := set100, delay := 100 * 256, target := 100 * 256 }

/-- The part with L3 ACTIVE. -/
def lined : State := quiet.setLine 3 line3

/-- The part with L3 ACTIVE and T7 RUNNING on it. -/
def sounding : State := lined.setTap 7 tap100

/-- The part with its mailbox HELD, DONE, and in SAFE. -/
def held : State := { quiet with port := { quiet.port with mailbox := .held 0x10 } }
def answered : State :=
  { quiet with port := { quiet.port with mailbox := .done { command := 0x43, code := .ok, check := 0, bytes := [9] } } }
def safe : State := { quiet with faults := { quiet.faults with mode := .safe, level := 3 } }

/-- The order of an edge with nothing of it after the boundary and nothing between the readers. -/
def plain : EdgeOrder := { tempoAfter := false, receiversAfter := false, bankFirst := false, between := [] }

/-- The state a command leads to. -/
def after (c : Instr) (s : State) : State :=
  match exec c s with
  | .next t => t
  | .fault _ => s
  | .refused _ => s

/-- The result code and bytes in the mailbox. -/
def answer (s : State) : Option (ResultCode × List Byte) :=
  match s.port.mailbox with
  | .done r => some (r.code, r.bytes)
  | .empty => none
  | .held _ => none

/-! ### Worked values -/

theorem test_crc_check_value :
    crc16 [0x31, 0x32, 0x33, 0x34, 0x35, 0x36, 0x37, 0x38, 0x39] = 0xAEE7 := by decide +kernel

theorem test_setMeter : (after (.setMeter (whole [3])) quiet).tempo.beatsPerBar = 3 ∧
    answer (after (.setMeter (whole [3])) quiet) = some (.ok, []) ∧
    answer (after (.setMeter (whole [0])) quiet) = some (.badArg, []) := by decide +kernel

theorem test_allocLine :
    let t := after (.allocLine (whole [3, 1, 0, 2])) quiet
    answer t = some (.ok, [1, 0, 2]) ∧ (t.line 3).pages = [7, 8] ∧ t.pool.free = [] := by decide +kernel

theorem test_first_boundary :
    let s := { quiet with timer := { quiet.timer with running := false, edge := 0, period := 0 } }
    let t := after (.realEdge 104000 plain) s
    t.timer.running = true ∧ t.timer.period = 0 ∧ t.timer.samples = 1 ∧ t.proc.queue = [0, 1, 2, 3] ∧ t.proc.lead = 0 ∧
      (t.link 0).tx.length = 1 := by decide +kernel

theorem test_scrub_from_reset :
    let t := after .scrubClearWriteComplete State.reset
    t.pool.walker = some { page := 0, phase := .clear, pointer := 1 } ∧ t.arbiter.inService = some .scrub := by
  decide +kernel

/-! ### The hypotheses are met: the port, notices and faults -/

theorem test_meets_step : State.reset.pending = [] := rfl

theorem test_meets_transactions : (Instr.setMeter (whole [7])).wellFormed = true ∧
    encodeTransaction (.setMeter (whole [7])) = some [0xC1, 0x43, 1, 7] ∧
    encodeTransaction (.readStatus 3) = some [0xC3, 0, 0, 0] ∧ (Instr.badCommand 0xC0 (.command .cut)).wellFormed = true ∧
    encodeTransaction (.badCommand 0xC0 (.command .cut)) = some [0xC1, 0xC0] ∧
    encodeTransaction (.badCommand 0xC4 (.ignored 1)) = some [0xC4, 0] := by decide

/-- A set with every field at its largest value. -/
def setFull : ParamSet :=
  { reader := 3, line := 127, mode := .tempo, fixedDelay := 2 ^ 28 - 1, noteExp := 15, modifier := .triplet, gain := 2 ^ 24 - 1,
    inverted := true, interp := .linear, osc := some 15, depth := 2 ^ 24 - 1, quadrant := 3, method := .xfade
    glideRate := 2 ^ 16 - 1, fadeLen := 255, edgeFade := 255, run := true }

theorem test_meets_parameterSets : setFull.fixedDelay < 2 ^ 28 ∧ setFull.noteExp < 16 ∧ setFull.gain < 2 ^ 24 ∧
    setFull.depth < 2 ^ 24 ∧ setFull.quadrant < 4 ∧ setFull.glideRate < 2 ^ 16 ∧ setFull.fadeLen < 256 ∧
    setFull.edgeFade < 256 ∧ (RawSet.parse ([1, 2] ++ setFull.bytes) 2).toSet = setFull := by decide +kernel

/-- A set's bytes, written out from the layout of 12, and reserved bits read. -/
theorem test_layout :
    setFull.bytes = [3, 127, 1, 0x0F, 0xFF, 0xFF, 0xFF, 0x2F, 0xFF, 0xFF, 0xFF, 1, 1, 16, 0xFF, 0xFF, 0xFF, 3, 2, 0xFF, 0xFF, 0xFF,
      0xFF, 1] ∧
    set100.bytes = [2, 3, 0, 0, 0, 100, 0, 0, 1, 0, 0, 0, 0, 0, 0, 0, 0, 0, 0, 0, 0, 4, 2, 1] ∧
    (RawSet.parse (setFull.bytes.set 3 0x1F) 0).reserved = true ∧ (RawSet.parse (setFull.bytes.set 7 0x6F) 0).reserved = true ∧
    (RawSet.parse (setFull.bytes.set 17 4) 0).reserved = true ∧ (RawSet.parse setFull.bytes 0).reserved = false := by
  decide +kernel

theorem test_meets_reading :
    answered.port.mailbox = .done { command := 0x43, code := .ok, check := 0, bytes := [9] } ∧
    quiet.port.mailbox = .empty ∧ held.port.mailbox = .held 0x10 ∧
    (after (.readResult 6) answered).port.mailbox = answered.port.mailbox ∧
    (after (.readResult 7) answered).port.mailbox = .empty ∧
    (after (.readResult 8) answered).port.dataOut = [0, 2, 0x43, 0, 0, 0, 1, 9, 0] := by decide +kernel

theorem test_meets_held : held.port.mailbox = .held 0x10 ∧ collides 0x43 (whole [7]) = true ∧ (0x43 : Byte) ≠ 0x7F ∧
    ¬((1 : Byte) = 0 ∧ ([1] : List Byte) = []) := by decide

theorem test_zeros_out :
    (after (.setMeter (whole [7])) answered).port.dataOut = [0, 0, 0, 0] ∧
    (after (.setMeter .cut) answered).port.dataOut = [0, 0] ∧ (after (.setMeter .cut) answered).port.mailbox = answered.port.mailbox ∧
    (after (.badCommand 0xC0 (.command (whole []))) quiet).port.dataOut = [0, 0, 0] ∧
    (after (.badCommand 0xC4 (.ignored 2)) answered).port = { answered.port with dataOut := [0, 0, 0] } ∧
    (after (.badCommand 0xC1 (.ignored 0)) held).port = { held.port with dataOut := [0] } ∧
    (after (.partReset (whole [])) held).port.dataOut = [0, 0, 0] ∧
    (after (.commandCollision 0x43 (whole [7])) held).port = { held.port with collide := true, dataOut := [0, 0, 0, 0] } := by
  decide +kernel

theorem test_meets_judging : mailboxFree quiet = true ∧ mailboxFree answered = true ∧ (∀ row ∈ commandTable, row.1 ≠ 0xC0) ∧
    ((0x43, 1) : Byte × Nat) ∈ commandTable ∧ ¬((2 : Byte).toNat = 1 ∧ ([7, 8] : List Byte).length = 1) ∧
    safe.faults.mode = .safe ∧ mailboxFree safe = true ∧
    (0x43 : Byte) ∉ [0x02#8, 0x13#8, 0x14#8, 0x21#8, 0x22#8, 0x32#8, 0x45#8, 0x51#8, 0x63#8, 0x70#8, 0x71#8, 0x72#8, 0x73#8,
      0x7F#8] := by decide

theorem test_meets_reads : mailboxFree quiet = true ∧ 127 < (128 : Byte).toNat ∧ (63 : Byte).toNat ≤ 63 ∧ ¬(64 : Byte).toNat ≤ 63 ∧
    3 < (4 : Byte).toNat ∧ 2 ≤ (2 : Byte).toNat ∧ quiet.faults.mode = .normal ∧ 15 < (16 : Byte).toNat := by decide

/-- L and the head of L3 in READ_LINE's bytes, 4 each, in whole samples (log 20). -/
theorem test_line_items : ((lineBytes 3 0 lined).drop 6).take 8 = [0, 0, 0x20, 0, 0, 0, 0x0F, 0xFA] := by decide +kernel

theorem test_meets_counters : mailboxFree quiet = true ∧ 3 < (4 : Byte).toNat ∧ 2 < (3 : Byte).toNat := by decide

theorem test_meets_ack :
    let first := { quiet with notices := { pending := 0x8001, mask := 0 } }
    let last := { quiet with notices := { pending := 0x8001, mask := 0x7FFF } }
    mailboxFree first = true ∧ first.notices.pending.getLsbD 0 = true ∧ first.notices.mask.getLsbD 0 = false ∧
    last.notices.pending.getLsbD 15 = true ∧ last.notices.mask.getLsbD 15 = false ∧
    (∀ d < 16, 1 ≤ d → last.notices.pending.getLsbD (d - 1) = false ∨ last.notices.mask.getLsbD (d - 1) = true) ∧
    quiet.notices.pending &&& ~~~quiet.notices.mask = 0 ∧
    answer (after (.ackNotice (whole [])) last) = some (.ok, [16, 0, 1]) := by decide +kernel

theorem test_meets_mask : mailboxFree quiet = true ∧ ({ pending := 2, mask := 1 } : NoticeUnit).line = true ∧
    ({ pending := 1, mask := 1 } : NoticeUnit).line = false := by decide

theorem test_meets_clearFault : mailboxFree safe = true ∧ mailboxFree quiet = true := by decide

theorem test_meets_storeFault :
    let waits := { quiet with
      faults := { quiet.faults with level := 3 }, port := { quiet.port with mailbox := .held 0x10 }
      pool := { quiet.pool with waiting := some { line := 4, writer := 0, count := 3 } } }
    waits.faults.mode = .normal ∧ 3 ≤ waits.faults.level ∧ waits.pool.waiting.isSome ∧ safe.faults.mode = .safe ∧
    quiet.faults.level < 3 ∧ ({ quiet with faults := { quiet.faults with level := 2 } } : State).faults.level < 3 := by decide

/-- STORE_FAULT alone; with SAFE_ENTERED; and with COMMAND_DONE, where a waiting allocation ends with SAFE. -/
theorem test_fault_notices :
    let entry : FaultEntry := { kind := .refresh, page := 0, offset := 0, line := none, engine := none }
    let third : State := { quiet with faults := { quiet.faults with level := 3 } }
    let waits : State := { third with pool := { quiet.pool with waiting := some { line := 4, writer := 0, count := 3 } } }
    (storeFault entry false quiet).notices.pending = 0x0002 ∧ (storeFault entry false third).notices.pending = 0x0003 ∧
    (storeFault entry false waits).notices.pending = 0x8003 := by decide +kernel

/-! ### The hypotheses are met: tempo and oscillators -/

/-- The part with a beat position and a beat number. -/
def beat (position number : Nat) : State :=
  { quiet with tempo := { quiet.tempo with beatPosition := position, beatNumber := number } }

/-- The part in EXTERNAL with a follower state, a window and a phase, its last pulse 1000 samples ago. -/
def follower (ext : ExtState) (n phase : Nat) : State :=
  { quiet with
    timer := { quiet.timer with samples := 50000 }
    tempo := { quiet.tempo with
      source := .external, ext := ext, window := List.replicate n 1000, phase := phase, lastPulse := some 49000
      lossTimer := some 2 } }

theorem test_meets_sampleEdges :
    (beat (24000 * 256 - 257) 0).tempo.lossTimer = none ∧ 24000 * 256 - 257 + 256 < (beat 0 0).tempo.interval ∧
    (beat (24000 * 256 - 256) 2).tempo.interval ≤ 24000 * 256 - 256 + 256 ∧
    (beat (24000 * 256 - 256) 2).tempo.beatNumber + 1 ≠ 4 ∧ (beat (24000 * 256 - 256) 3).tempo.beatNumber + 1 = 4 ∧
    (tempoEdge (beat (24000 * 256 - 256) 3)).tempo.beatNumber = 0 ∧
    (follower .following 24 0).tempo.lossTimer = some 2 ∧ (follower .following 24 0).tempo.ext = .following ∧
    (tempoEdge (tempoEdge (follower .following 24 0))).tempo.ext = .lost ∧
    (tempoEdge (follower .following 24 0)).tempo.beatPosition = (follower .following 24 0).tempo.beatPosition + 256 := by
  decide +kernel

theorem test_meets_adoption :
    let same := 24000 * 256
    quiet.tempo.interval = same ∧ quiet.tempo.beatPosition < same ∧ (beat same 0).tempo.beatPosition = same ∧
    256 * ((same + 24001 : Int) - same).natAbs > same ∧ 256 * ((same + 24000 : Int) - same).natAbs ≤ same ∧
    (offer (same + 24000) quiet).tempo.interval = same ∧ (offer (same + 24001) quiet).tempo.interval = same + 24001 ∧
    (adopt 0 quiet).tempo.interval = 4096 * 256 := by decide +kernel

/-- The part with a beat position and a beat number, and M5 restarting on the bar. -/
def barred (position number : Nat) : State :=
  (beat position number).setOsc 5
    { Osc.reset 5 with setting := { (Osc.reset 5).setting with restartOnBar := true } }

/-- An adoption and an alignment that wrap the beat, within the bar and at its end. -/
theorem test_bar_starts :
    let adopted := fun number => adopt (4096 * 256) (barred (23000 * 256) number)
    let aligned := fun position number => alignBeat (24000 * 256) (barred position number)
    let shown := fun s : State => (s.tempo.beatPosition, s.tempo.beatNumber, (s.osc 5).restartPending, (s.osc 6).restartPending)
    shown (adopted 1) = (2520 * 256, 2, false, false) ∧ shown (adopted 3) = (2520 * 256, 0, true, false) ∧
    shown (aligned (12000 * 256 - 1) 3) = (0, 3, false, false) ∧ shown (aligned (12000 * 256) 2) = (0, 3, false, false) ∧
    shown (aligned (12000 * 256) 3) = (0, 0, true, false) := by decide +kernel

/-- The part with a last tap a number of samples ago. -/
def tapped (ago : SampleCount) (list : List Nat) : State :=
  { quiet with
    timer := { quiet.timer with samples := 600000 }
    tempo := { quiet.tempo with lastTap := some (600000 - ago), tapList := list } }

theorem test_meets_taps :
    takesCommands quiet = true ∧ quiet.tempo.source = .internal ∧ (follower .idle 0 0).tempo.source = .external ∧
    takesCommands (follower .idle 0 0) = true ∧ quiet.tempo.lastTap = none ∧
    (tapped 524289 []).timer.samples - (600000 - 524289) = 524289 ∧
    (tapped 4095 []).timer.samples - (600000 - 4095) = 4095 ∧ (tapped 4096 []).timer.samples - (600000 - 4096) = 4096 ∧
    (tapped 4096 []).tempo.interval > 2 * (tapped 4096 []).tempo.beatPosition ∧
    (beat (12000 * 256) 0).tempo.interval ≤ 2 * (beat (12000 * 256) 0).tempo.beatPosition ∧
    (after (.tapTempo (whole [])) (tapped 4096 [])).tempo.interval = 4096 * 256 ∧
    (after (.tapTempo (whole [])) (tapped 524288 [5000, 5000, 5000, 5000])).tempo.tapList = [5000, 5000, 5000, 524288] := by
  decide +kernel

theorem test_tap_results :
    answer (after (.tapTempo (whole [])) quiet) = some (.ok, [1, 0, 0xFF, 0xFF, 0xFF, 0xFF, 0]) ∧
    answer (after (.tapTempo (whole [])) (tapped 524289 [5000])) = some (.ok, [1, 0, 0xFF, 0xFF, 0xFF, 0xFF, 0]) ∧
    answer (after (.tapTempo (whole [])) (tapped 4095 [5000])) = some (.ok, [0, 1, 0xFF, 0xFF, 0xFF, 0xFF, 0]) ∧
    answer (after (.tapTempo (whole [])) (tapped 4096 [4097])) = some (.ok, [2, 2, 0, 0x10, 0, 0x80, 1]) ∧
    answer (after (.tapTempo (whole [])) (tapped 24000 [24093, 24000])) = some (.ok, [2, 3, 0, 0x5D, 0xDF, 0, 0]) := by
  decide +kernel

theorem test_meets_source : takesCommands quiet = true ∧ takesCommands (follower .following 24 5) = true ∧
    (follower .following 24 5).tempo.source = .external ∧ 1 < (2 : Byte).toNat := by decide +kernel

theorem test_meets_meter : takesCommands quiet = true ∧ (0 : Byte).toNat < 1 ∧ 16 < (17 : Byte).toNat ∧ 1 ≤ (16 : Byte).toNat ∧
    (16 : Byte).toNat ≤ 16 := by decide

theorem test_meets_pulses :
    quiet.tempo.ext = .idle ∧ (follower .lost 3 0).tempo.ext = .lost ∧ (follower .acquiring 22 0).tempo.ext = .acquiring ∧
    ({ follower .acquiring 0 0 with tempo := { (follower .acquiring 0 0).tempo with lastPulse := none } } : State).tempo.lastPulse
      = none ∧
    (follower .acquiring 23 0).tempo.lastPulse = some 49000 ∧ (50000 - 49000 : SampleCount).toNat = 1000 ∧
    (after .tempoPulse (follower .acquiring 22 0)).tempo.ext = .acquiring ∧
    (after .tempoPulse (follower .acquiring 23 0)).tempo.ext = .following ∧
    (after .tempoPulse (follower .following 24 22)).tempo.phase = 23 ∧
    (after .tempoPulse (follower .following 24 23)).tempo.phase = 0 := by decide +kernel

theorem test_meets_oscillators :
    let free : OscSetting :=
      { shape := .sine, mode := .free, cycle := 0, noteExp := 0, modifier := .straight, restartOnBar := false }
    effectiveLength 32 0 free = 0 ∧ effectiveLength 32 0 { free with cycle := 64 } = 64 ∧
    effectiveLength 32 0 { free with cycle := 2 ^ 24 } = 2 ^ 24 ∧ effectiveLength 32 0 { free with cycle := 1 } = 64 ∧
    effectiveLength 32 0 { free with cycle := 2 ^ 24 + 1 } = 2 ^ 24 := by decide +kernel

/-- M0's register after one step and after 32, worked out by hand from R146. -/
theorem test_lfsr : lfsrStep 1 = 3 ∧ lfsrStep 0x80200000 = 0x00400000 ∧ lfsrRenew 1 ≠ 0 ∧ lfsrRenew 0 = 0 := by decide +kernel

/-- A cycle length with no whole number within the bound of R144, and its increment. -/
theorem test_meets_far : (¬∃ n : Nat, |(n : Rat) - 2 ^ 32 / ((1048704 : Nat) : Rat)| ≤ 2 ^ 32 / ((1048704 : Nat) : Rat) / 2 ^ 14) ∧
    (∃ n : Nat, |(n : Rat) - 2 ^ 32 / ((48000 : Nat) : Rat)| ≤ 2 ^ 32 / ((48000 : Nat) : Rat) / 2 ^ 14) := by
  refine ⟨?_, 89478, ?_⟩
  · rintro ⟨n, h⟩
    rw [near_iff (by norm_num)] at h
    omega
  · rw [near_iff (by norm_num)]; omega

theorem test_notes :
    effectiveLength 64 minInterval { (Osc.reset 0).setting with mode := .sync, noteExp := 7, modifier := .triplet } = 128 ∧
    effectiveLength 16 minInterval { (Osc.reset 0).setting with mode := .sync, noteExp := 7, modifier := .triplet } = 85 ∧
    baseDelay (24000 * 256) { set100 with mode := .tempo, noteExp := 10 } = 24000 * 256 ∧
    baseDelay (24000 * 256) { set100 with mode := .tempo, noteExp := 3, modifier := .dotted } = 18000 * 256 ∧
    baseDelay (24000 * 256) { set100 with mode := .tempo, noteExp := 3, modifier := .triplet } = 8000 * 256 ∧
    baseDelay maxInterval { set100 with mode := .tempo, noteExp := 0, modifier := .dotted } = 1048575 * 256 + 255 := by
  decide +kernel

theorem test_meets_curves :
    triangleValue 0x40000000 = 1 ∧ triangleValue 0xC0000000 = -1 ∧ triangleValue 0x80000000 = 0 ∧
    ({ (Osc.reset 2).setting with shape := .random } : OscSetting).shape = .random ∧ (Osc.reset 2).endWrap = false ∧
    (Osc.reset 2).setting.shape = .sine ∧
    ({ Osc.reset 2 with setting := { (Osc.reset 2).setting with shape := .triangle } } : Osc).startValue 1 = 1 := by
  decide +kernel

theorem test_meets_setOsc : takesCommands quiet = true ∧ (2 ^ 32 - 1 < 2 ^ 32) ∧ 15 < 16 ∧ 15 < (16 : Byte).toNat ∧
    2 < (3 : Byte).toNat ∧ 1 < (2 : Byte).toNat ∧
    ((after (.setOsc (whole [15, 2, 1, 255, 255, 255, 255, 15, 2, 1, 1])) quiet).osc 15).staged = some
      { setting := { shape := .random, mode := .sync, cycle := 2 ^ 32 - 1, noteExp := 15, modifier := .triplet
                     restartOnBar := true }, restart := true } := by decide +kernel

/-! ### The hypotheses are met: transitions -/

/-- A tap in a state, at count k of a fade of n. -/
def fadeAt (state : TapState) (k n : Nat) : Tap := { tap100 with state := state, fadeCount := k, fadeOf := n }

/-- A tap gliding at one sample a sample, toward a target. -/
def glideTo (target : Nat) : Tap :=
  { tap100 with state := .gliding, target := target, current := { set100 with method := .glide, glideRate := 256 } }

theorem test_meets_moves :
    (fadeAt .starting 2 4).state.isFade = true ∧ (fadeAt .starting 2 4).fadeCount + 1 < 4 ∧
    (fadeAt .starting 3 4).fadeCount + 1 = (fadeAt .starting 3 4).fadeOf ∧
    ((fadeAt .stopping 3 4).advance 32).completeMove.state = .idle ∧
    ((fadeAt .fading 3 4).advance 32).completeMove.state = .running ∧
    ((glideTo (132 * 256 + 1)).advance 32).completeMove.delay = 132 * 256 ∧
    ((glideTo (132 * 256)).advance 32).completeMove.state = .running ∧
    ((glideTo (68 * 256 - 1)).advance 32).completeMove.delay = 68 * 256 := by decide +kernel

theorem test_meets_edits :
    Tap.reset.state = .idle ∧ ParamSet.allZero.edgeFade = 0 ∧ set100.edgeFade ≠ 0 ∧
    (fadeAt .starting 1 4).state = .starting ∧ (fadeAt .stopping 1 4).state = .stopping ∧ tap100.state = .running ∧
    (glideTo 0).state = .gliding ∧ set100.method = .jump ∧ ({ set100 with method := .glide } : ParamSet).method = .glide ∧
    set100.line = tap100.current.line ∧ ({ set100 with line := 4 } : ParamSet).line ≠ tap100.current.line ∧
    ({ set100 with method := .xfade } : ParamSet).method = .xfade ∧ Tap.reset.staged = none ∧
    tap100.state ≠ .fading ∧ tap100.pendingTarget = none ∧ ({ tap100 with staged := some .stop } : Tap).staged = some .stop :=
  by decide

theorem test_meets_followers :
    let follows : Tap := { tap100 with current := { set100 with mode := .tempo } }
    (fadeAt .fading 1 4).state = .fading ∧
    ({ tap100 with pendingTarget := some set100 } : Tap).pendingTarget = some set100 ∧ set100.run = true ∧
    follows.current.mode = .tempo ∧ follows.state = .running ∧ baseDelay (24000 * 256) follows.current ≠ follows.target ∧
    follows.current.method = .jump ∧
    baseDelay (24000 * 256) { follows.current with method := .glide } ≠ follows.target := by decide +kernel

theorem test_meets_power : (0 < 1 ∧ 1 < 2 ∧ 2 ≤ 64) ∧ (0 < 63 ∧ 63 < 64) ∧ ((1 : Rat) / 64 ≤ (1 : Rat) / 2) := by
  norm_num

/-! ### The hypotheses are met: taps and scenes -/

/-- The bytes of a set for T7 that passes all eight checks, with one change. -/
def offered (change : ParamSet → ParamSet) : List Byte := (change set100).bytes

theorem test_meets_setTap :
    let first := fun bytes => firstFailing lined 7 (RawSet.parse bytes 0)
    takesCommands lined = true ∧ (offered id).length = 24 ∧ (RawSet.parse (offered id) 0).screened = false ∧
    (RawSet.parse (offered fun p => { p with gain := 65537 }) 0).screened = true ∧ first (offered id) = none ∧
    2 ≤ (2 : Byte).toNat ∧ first ((offered id).set 17 4) = some 1 ∧ first ((offered id).set 0 4) = some 2 ∧
    first (offered fun p => { p with line := 4 }) = some 3 ∧
    first (offered fun p => { p with fixedDelay := 33 * 256 - 1 }) = some 4 ∧
    first (offered fun p => { p with fixedDelay := 33 * 256 }) = none ∧
    first (offered fun p => { p with fixedDelay := (8192 - 34) * 256 }) = none ∧
    first (offered fun p => { p with fixedDelay := (8192 - 34) * 256 + 1 }) = some 4 ∧
    first (offered fun p => { p with osc := some 0 }) = some 5 ∧
    first (offered fun p => { p with method := .glide }) = some 6 ∧
    firstFailing sounding 7 (RawSet.parse (offered fun p => { p with reader := 1 }) 0) = some 8 := by decide +kernel

/-- The screen at the two sides of each of its limits (R83). -/
theorem test_screen :
    let screened := fun i x => (RawSet.parse ((offered id).set i x) 0).screened
    let wide := fun change => (RawSet.parse (offered change) 0).screened
    (wide fun p => { p with gain := 65536 }) = false ∧ (wide fun p => { p with glideRate := 256 }) = false ∧
    (wide fun p => { p with glideRate := 257 }) = true ∧
    [(21, 64), (22, 64), (13, 16), (2, 1), (11, 1), (12, 1), (18, 2), (23, 1)].all (fun x => !screened x.1 x.2) = true ∧
    [(21, 65), (22, 65), (13, 17), (2, 2), (11, 2), (12, 2), (18, 3), (23, 2)].all (fun x => screened x.1 x.2) = true := by
  decide +kernel

theorem test_meets_setTap_run_count :
    let crowd := fun taps : Vector Tap 512 => { lined with taps := taps }
    let r := RawSet.parse (offered id) 0
    checkFails (crowd ⟨⟨List.replicate 127 tap100 ++ List.replicate 385 Tap.reset⟩, by simp only [List.size_toArray, List.length_append, List.length_replicate]⟩) 400 r 7 = false ∧
    checkFails (crowd ⟨⟨List.replicate 128 tap100 ++ List.replicate 384 Tap.reset⟩, by simp only [List.size_toArray, List.length_append, List.length_replicate]⟩) 400 r 7 = true := by decide +kernel

/-- A next set in each row of the table of R156, and which are alike. -/
theorem test_next_sets :
    let staged := fun (edit : Option Edit) (t : Tap) => ({ t with staged := edit } : Tap).nextSet
    let silent : ParamSet := { set100 with run := false }
    staged (some (.start silent)) tap100 = set100 ∧ staged (some (.preset set100)) Tap.reset = silent ∧
    staged (some (.preset setFull)) tap100 = silent ∧ staged (some .stop) tap100 = silent ∧ staged none tap100 = set100 ∧
    silent.alike { setFull with run := false } = true ∧ set100.alike set100 = true ∧ set100.alike silent = false ∧
    set100.alike { set100 with gain := 1 } = false := by decide

/-- A scene of stopped taps, but for T7. -/
def scene7 : Scene := { sets := (Vector.replicate 512 ParamSet.allZero).set 7 set100, tempo := some (12000 * 256) }

/-- The part with some scenes. -/
def stacked (n : Nat) (s : State) : State := { s with scenes := List.replicate n scene7 }

theorem test_meets_scenes :
    takesCommands (stacked 3 lined) = true ∧ (stacked 3 lined).scenes.length < 4 ∧ (stacked 4 lined).scenes.length = 4 ∧
    lined.scenes = [] ∧ answer (after (.dropScene (whole [])) (stacked 4 lined)) = some (.ok, [3]) ∧
    answer (after (.dropScene (whole [])) lined) = some (.empty, []) := by decide +kernel

theorem test_meets_pop :
    scene7.sets[7].alike (lined.tap 7).nextSet = false ∧ scene7.sets[7].run = true ∧
    firstFailing lined 7 scene7.sets[7].toRaw = none ∧ firstFailing quiet 7 scene7.sets[7].toRaw = some 3 ∧
    scene7.sets[8].alike (lined.tap 8).nextSet = true ∧ scene7.sets[8].alike tap100.nextSet = false ∧
    scene7.sets[8].run = false ∧ lined.tempo.source = .internal ∧ takesCommands (stacked 1 lined) = true := by decide +kernel

theorem test_pop_results :
    let start : PopProgress := { state := lined, restored := 0, skipped := 0, firstSkipped := none }
    let bare : PopProgress := { start with state := quiet }
    let popped := (adopt (12000 * 256) (stacked 1 quiet))
    ((start.judge scene7 7).state.tap 7).staged = some (.start set100) ∧
    popResult (start.judge scene7 7) (some (12000 * 256)) popped = [0, 1, 0, 0, 0xFF, 0xFF, 1, 0, 0x2E, 0xE0, 0, 1] ∧
    popResult (bare.judge scene7 7) (some (12000 * 256)) popped = [0, 0, 0, 1, 0, 7, 3, 1, 0, 0x2E, 0xE0, 0, 1] ∧
    popResult (start.judge scene7 8) none quiet = [0, 0, 0, 0, 0xFF, 0xFF, 0, 0] := by decide +kernel

/-! ### The hypotheses are met: the word clock and boundaries -/

/-- The part in UNLOCKED with n spacings of 4000 in its relock run. -/
def unlocked (n : Nat) : State :=
  { quiet with timer := { Timer.reset with lastEdge := some 100000, relockRun := List.replicate n 4000 } }

/-- The part in FLYWHEEL at an edge count, with a relock run of 64 ready or not. -/
def flying (edge : Nat) (ready : Bool) : State :=
  { quiet with timer := { quiet.timer with
      wclk := .flywheel, edge := edge, relockRun := List.replicate 64 4000, relockReady := ready, lossTimer := none
      flyTimer := some 112000 } }

theorem test_meets_unlocked :
    (unlocked 63).timer.wclk = .unlocked ∧ Timer.reset.lastEdge = none ∧ (unlocked 0).timer.relockRun = [] ∧
    64 * ((4062 : Int) - 4000).natAbs ≤ 4000 ∧ 4000 < 64 * ((4063 : Int) - 4000).natAbs ∧
    ((unlocked 1).timer.measureOffer 104062).relockRun = [4000, 4062] ∧
    ((unlocked 1).timer.measureOffer 104063).relockRun = [4063] ∧
    (unlocked 62).timer.runFull 104000 = false ∧ (unlocked 63).timer.runFull 104000 = true ∧
    (unlocked 63).timer.lastEdge = some 100000 ∧ 64 * ((4000 : Int) - 4000).natAbs ≤ 4000 ∧
    ((unlocked 63).timer.measureOffer 104000).relockRun.length = 64 ∧
    ((unlocked 62).timer.measureOffer 104000).relockRun.length ≠ 64 ∧
    (after (.realEdge 104000 plain) (unlocked 63)).timer.lossTimer = some 112000 := by decide +kernel

theorem test_meets_locked :
    quiet.timer.wclk = .locked ∧ quiet.timer.running = true ∧ quiet.timer.edge + 1 < quiet.size ∧
    quiet.timer.lastEdge = some 100000 ∧
    ({ quiet with timer := { quiet.timer with edge := 31 } } : State).timer.edge + 1 = quiet.size ∧
    (after (.realEdge 104000 plain) quiet).timer.edge = 4 := by decide +kernel

theorem test_meets_flywheel :
    quiet.timer.lossTimer = some 108000 ∧ (flying 31 true).timer.wclk = .flywheel ∧
    (flying 31 true).timer.flyTimer = some 112000 ∧ (flying 30 true).timer.edge + 1 < (flying 30 true).size ∧
    (flying 31 true).timer.edge + 1 = (flying 31 true).size ∧ (flying 31 false).timer.relockReady = false ∧
    (flying 31 true).timer.lastEdge = some 100000 ∧ (flying 31 true).timer.relockRun.sum / 64 = 4000 ∧
    ((flying 31 false).timer.measureOffer 104000).relockRun.length = 64 ∧
    (after (.realEdge 104000 plain) (flying 31 false)).timer.relockReady = true ∧
    (after (.realEdge 104063 plain) (flying 31 true)).timer.relockReady = false ∧
    (after (.realEdge 100000 plain) (flying 31 true)).timer.relockReady = true ∧
    (after (.flywheelEdge plain) (flying 30 true)).timer.wclk = .flywheel := by decide +kernel

/-- The part whose clock is lost, or in FLYWHEEL, before boundary 0, at an edge count. -/
def early (edge : Nat) : State :=
  { quiet with timer := { quiet.timer with running := false, period := 0, edge := edge }, oldestOpen := 0 }
def earlyFlying (edge : Nat) (ready : Bool) : State :=
  { flying edge ready with timer := { (flying edge ready).timer with running := false, period := 0 }, oldestOpen := 0 }

theorem test_meets_early :
    (early 31).timer.wclk = .locked ∧ (early 31).timer.lossTimer = some 108000 ∧ (early 31).timer.running = false ∧
    (early 31).timer.edge + 1 = (early 31).size ∧ (earlyFlying 31 true).timer.wclk = .flywheel ∧
    (earlyFlying 31 true).timer.flyTimer = some 112000 ∧
    (after (.lossTimerExpiry plain) (early 31)).timer.edge = 0 ∧ (after (.lossTimerExpiry plain) (early 31)).proc.queue = [] ∧
    ((after (.lossTimerExpiry plain) (early 31)).link 0).tx = [] ∧
    (after (.flywheelEdge plain) (earlyFlying 31 true)).timer.wclk = .locked ∧
    (after (.flywheelEdge plain) (earlyFlying 31 true)).timer.period = 0 := by decide +kernel

theorem test_meets_setPeriod :
    takesCommands quiet = true ∧ tablesQuiet quiet = true ∧ (lined.line 3).state = .active ∧ takesCommands lined = true ∧
    (sounding.tap 7).state ≠ .idle ∧ (17 : Byte) ≠ 16 ∧ (17 : Byte) ≠ 32 ∧ (17 : Byte) ≠ 64 ∧
    ({ quiet with timer := { quiet.timer with stagedSize := some .b64 } } : State).timer.stagedSize = some .b64 := by
  decide +kernel

theorem test_meets_closing :
    (quiet.line 4).state = .free ∧ (lined.line 3).state = .active ∧ (lined.line 3).taken = false ∧
    ((lined.setLine 3 { line3 with taken := true }).line 3).taken = true ∧ lined.faults.mode = .normal ∧
    (owedFills lined.fills 3).length < 2 ∧ (line3.boundary false 32).head = 4122 ∧
    (({ line3 with head := 8180 } : Line).boundary false 32).head = 20 := by decide +kernel

theorem test_meets_owing :
    let f := fun (p : PeriodCount) (l : LineNo) => ({ period := p, line := l, position := 0, written := 0 } : Fill)
    oweFill 9 (f 8 3) [f 7 3, f 7 5, f 8 2, f 8 4] = [f 7 3, f 7 5, f 8 2, f 8 3, f 8 4] ∧
    oweFill 9 (f 8 3) [f 6 3, f 7 3, f 7 5] = [f 7 3, f 7 5, f 8 3] := by decide +kernel

/-- A pass of an engine in period 5. -/
def passOf (e : Engine) (taps : List TapNo) (reads : List ReadReq) : Pass :=
  { engine := e, period := 5, planned := 2, handed := 0, taps := taps, todo := reads, got := [], faulted := false }

/-- A part whose four links are OFF, UP with its frame accepted, UP with seven periods missed, and LOST; E1's pass runs and E2
waits. -/
def cutting : State :=
  let up : Link := { Link.reset with state := .up, tx := [
    { period := 5, report := Tally.empty, state := .sending, planned := 2, blocks := [], endStatus := none }] }
  { sounding with
    links := #v[{ Link.reset with state := .off }, { up with accepted := true }, { up with missed := 7 },
      { Link.reset with state := .lost, missed := 8 }]
    proc := { queue := [2], lead := 1, pass := some (passOf 1 [7] []) } }

theorem test_meets_reporting :
    (cutting.link 0).state = .off ∧ (cutting.link 1).state = .up ∧ (cutting.link 1).accepted = true ∧
    (cutting.link 2).state = .up ∧ (cutting.link 2).accepted = false ∧ (cutting.link 2).missed + 1 = 8 ∧
    (cutting.link 3).state = .lost ∧ (1 : Engine) ∉ cutting.proc.queue ∧ (2 : Engine) ∈ cutting.proc.queue ∧
    cutting.proc.queue.Nodup ∧ (cutting.proc.pass.map (·.engine)) = some 1 ∧ (cutting.link 2).tx.length = 1 ∧
    ((cutAtBoundary 5 cutting).link 1).counters.short.count = 1 := by decide +kernel

/-- A short pass that wraps its counter, with the flag clear and with it set. -/
theorem test_short_wraps :
    let counted := fun overflow : Bool => cutting.setLink 1 { cutting.link 1 with
      counters := { Counters.zero with short := { count := 0xFFFF, overflow := overflow } } }
    let t := linksBoundary (cutAtBoundary 5 (counted false))
    (t.link 1).counters.short = { count := 0, overflow := true } ∧ t.notices.pending = 0x2C80 ∧
    (linksBoundary (cutAtBoundary 5 (counted true))).notices.pending = 0x0C80 := by decide +kernel

/-- The orders of a boundary with a SET_TEMPO or a POP_SCENE between its readers. -/
def between (bankFirst : Bool) (a : Adoption) : EdgeOrder := { plain with bankFirst := bankFirst, between := [a] }

theorem test_meets_between :
    let set := Adoption.setTempo (whole (bytesOf 4 (12000 * 256)))
    let pop := Adoption.popScene (whole [])
    let s := stacked 1 lined
    takesCommands s = true ∧ s.tempo.source = .internal ∧ 12000 * 256 < 2 ^ 32 ∧ scene7.tempo = some (12000 * 256) ∧
    s.tempo.beatPosition < 12000 * 256 ∧
    (boundaryAround (between false set) false s).tempo.tapSide = true ∧
    (boundaryAround (between true set) false s).tempo.oscSide = true ∧
    (between true pop).between = [pop] ∧ (between false pop).bankFirst = false := by decide +kernel

/-! ### The hypotheses are met: lines, pages and the store -/

theorem test_meets_alloc :
    takesCommands lined = true ∧ (lined.line 3).state = .active ∧ (lined.line 4).state = .free ∧
    2 ≤ lined.pool.free.length ∧ lined.pool.free.length < 3 ∧ ¬lined.pool.reachable < 3 ∧ lined.pool.reachable < 4 ∧
    127 < (128 : Byte).toNat ∧ 3 < (4 : Byte).toNat ∧ (0 : Byte).toNat * 256 + (0 : Byte).toNat < 1 ∧
    256 < (1 : Byte).toNat * 256 + (1 : Byte).toNat ∧
    (after (.allocLine (whole [4, 0, 0, 3])) lined).port.mailbox = .held 0x10 ∧
    answer (after (.allocLine (whole [4, 0, 0, 4])) lined) = some (.noSpace, []) := by decide +kernel

theorem test_meets_free :
    (lined.line 3).state = .active ∧ (lined.line 4).state = .free ∧ (sounding.tap 7).names 3 = true ∧
    (lined.taps.toList.all fun t => !t.names 3) = true ∧ firstNaming 3 sounding = some 7 ∧ takesCommands sounding = true ∧
    lined.pool.walker = none ∧ 127 < (128 : Byte).toNat ∧ 3 < (4 : Byte).toNat := by decide +kernel

/-- The four ways a tap names a line, and an IDLE tap's kept set, which does not. -/
theorem test_names :
    tap100.names 3 = true ∧ ({ Tap.reset with oldSide := some tap100.reading } : Tap).names 3 = true ∧
    ({ Tap.reset with pendingTarget := some set100 } : Tap).names 3 = true ∧
    ({ Tap.reset with staged := some (.preset set100) } : Tap).names 3 = true ∧
    ({ Tap.reset with current := set100, staged := some .stop } : Tap).names 3 = false := by decide

/-- A commit of E1 and an owed fill on L3. -/
def commit3 : QueuedFrame :=
  { engine := 1, period := 5, buffer := 0
    blocks := [{ line := 3, generation := 1, head := 4090, samples := List.replicate 32 9, written := 6 }] }
def fill3 : Fill := { period := 4, line := 3, position := 4058, written := 31 }

/-- The part with both at work, one of their writes in service. -/
def writing (access : Access) : State :=
  { lined with
    commits := [commit3], fills := [fill3], links := lined.links.set 1 { Link.reset with buffers := #v[.queued, .free] }
    arbiter := { lined.arbiter with inService := some access } }

theorem test_meets_arbiter :
    let s := writing .refresh
    let urgent := { s with refresh := { s.refresh with urgent := true, backlog := 4 }
                           arbiter := { s.arbiter with lastRefresh := true } }
    (s.line 3).pages[(4090 + 6) % (s.line 3).length / 4096]? = some 6 ∧
    commitClaim s = some (5, .commitWrite 1 3 (6 * 4096) 9 true) ∧ fillClaim s = some (4, .fillWrite 3 4 (5 * 4096 + 4089) true) ∧
    (s.timer.period - 5).toNat < (s.timer.period - 4).toNat ∧ s.faults.mode = .normal ∧ safe.faults.mode = .safe ∧
    s.refresh.urgent = false ∧ s.arbiter.lastRefresh = false ∧ urgent.refresh.urgent = true ∧
    urgent.arbiter.urgentFirst = false ∧ urgent.arbiter.lastRefresh = true ∧
    fillClaim { s with fills := [] } = none ∧ commitClaim { s with commits := [] } = none := by decide +kernel

/-- A pass's claim, at the last position of its line's ring, and the reads of a tap with one reading and with two. -/
theorem test_meets_passReads :
    let r : ReadReq := { side := 0, line := 3, position := 8191 }
    let p : Pass := { engine := 2, period := 5, planned := 1, handed := 0, taps := [7], todo := [r], got := [], faulted := false }
    let s := { sounding with proc := { sounding.proc with pass := some p } }
    let fading : Tap := { fadeAt .fading 1 4 with oldSide := some tap100.reading }
    (s.line 3).state = .active ∧ (s.line 3).pages[8191 % (s.line 3).length / 4096]? = some 6 ∧
    passClaim s = some (.passRead 3 2 (6 * 4096 + 4095) true) ∧ sounding.proc.pass = none ∧
    (tapReadings sounding tap100).length = 1 ∧ (tapReadings sounding fading).length = 2 ∧
    ((tapReads sounding sounding.timer.period fading).map (·.side)).take 33 = List.replicate 32 0 ++ [1] := by decide +kernel

theorem test_meets_settling :
    let busy := writing .refresh
    let idle := { busy with
      commits := [{ commit3 with blocks := [] }, commit3], arbiter := { busy.arbiter with inService := none } }
    busy.arbiter.inService.isSome = true ∧ idle.arbiter.inService = none ∧ (settle idle).commits = [commit3] ∧
    ((settle idle).link 1).buffers[0] = .free ∧ (settle idle).oldestOpen = 4 ∧
    (settle idle).arbiter.inService = some (.fillWrite 3 4 (5 * 4096 + 4089) true) ∧ (settle busy).arbiter = busy.arbiter := by
  decide +kernel

/-- The part with a refresh backlog. -/
def overdue (n row : Nat) : State :=
  { lined with refresh := { row := row, backlog := n, urgent := decide (4 ≤ n), timerArmed := true }
               arbiter := { lined.arbiter with inService := some .refresh } }

theorem test_meets_refresh :
    (overdue 3 0).refresh.timerArmed = true ∧ (overdue 3 0).refresh.backlog < 8 ∧ 8 ≤ (overdue 8 11).refresh.backlog ∧
    (overdue 1 8191).arbiter.inService = some .refresh ∧
    (after .refreshTimerExpiry (overdue 3 0)).refresh.urgent = true ∧
    ((after .refreshTimerExpiry (overdue 8 11)).faults.first.map fun f => (f.page, f.offset, f.line)) =
      some (5, 2048, some 3) ∧
    (after .refreshAccessComplete (overdue 1 8191)).refresh = { row := 0, backlog := 0, urgent := false, timerArmed := true } :=
  by decide +kernel

/-- The part with the walker at work on P9, with a level of faults, some retired pages and perhaps a waiting allocation. -/
def scrubbing (phase : ScrubPhase) (pointer level retired : Nat) (waiting : Option Waiting) : State :=
  { quiet with
    arbiter := { quiet.arbiter with inService := some .scrub }
    faults := { quiet.faults with level := level }
    port := { quiet.port with mailbox := if waiting.isSome then .held 0x10 else .empty }
    pool := { quiet.pool with
      dirty := [], retired := (List.range retired).map (fun i => Fin.ofNat 4096 (100 + i))
      walker := some { page := 9, phase := phase, pointer := pointer }, waiting := waiting } }

theorem test_meets_scrub :
    let s := scrubbing .verify 4095 2 63 none
    s.store.cells.wf = true ∧ s.arbiter.inService = some .scrub ∧
    (scrubbing .clear 4095 0 0 none).pool.walker = some { page := 9, phase := .clear, pointer := 4095 } ∧
    s.pool.walker = some { page := 9, phase := .verify, pointer := 4095 } ∧ s.pool.waiting = none ∧ s.faults.mode = .normal ∧
    readOutcome (9 * 4096 + 4095) .untouched s = .clean 0 ∧ readOutcome (9 * 4096 + 4095) .oneBit s = .corrected 0 ∧
    readOutcome (9 * 4096 + 4095) .manyBits s = .uncorrectable ∧ s.faults.level < 3 ∧ s.pool.retired.length < 64 ∧
    64 ≤ (scrubbing .verify 4095 2 64 none).pool.retired.length := by decide +kernel

theorem test_scrub_ends :
    (after .scrubClearWriteComplete (scrubbing .clear 4095 0 0 none)).pool.walker =
      some { page := 9, phase := .verify, pointer := 0 } ∧
    (after (.scrubVerifyReadComplete .oneBit) (scrubbing .verify 4095 0 0 none)).pool.free = [7, 8, 9] ∧
    (after (.scrubVerifyReadComplete .manyBits) (scrubbing .verify 3 0 2 none)).pool.retired = [9, 100, 101] := by decide +kernel

/-- An allocation waits through a VERIFY that passes and one that fails; the fourth fault ends it with SAFE. -/
theorem test_meets_waiting_on :
    let on := scrubbing .verify 4095 0 0 (some { line := 4, writer := 0, count := 4 })
    let off := scrubbing .verify 4095 0 0 (some { line := 4, writer := 0, count := 2 })
    let last := scrubbing .verify 4095 3 0 (some { line := 4, writer := 0, count := 2 })
    (∀ x, on.pool.waiting = some x → on.pool.free.length + 1 < x.count) ∧
    (∀ x, off.pool.waiting = some x → x.count ≤ off.pool.free.length + off.pool.dirty.length) ∧ 3 ≤ last.faults.level ∧
    64 ≤ (scrubbing .verify 4095 3 64 none).pool.retired.length ∧
    (after (.scrubVerifyReadComplete .untouched) on).pool.waiting = on.pool.waiting ∧
    (after (.scrubVerifyReadComplete .manyBits) off).pool.waiting = off.pool.waiting ∧
    answer (after (.scrubVerifyReadComplete .manyBits) last) = some (.safe, []) :=
  ⟨(by rintro x ⟨⟩; decide), (by rintro x ⟨⟩; decide), by decide +kernel⟩

theorem test_meets_scrub_safe :
    let s := { scrubbing .verify 3 3 0 none with faults := safe.faults }
    s.arbiter.inService = some .scrub ∧ s.pool.walker = some { page := 9, phase := .verify, pointer := 3 } ∧
    s.faults.mode = .safe ∧ readOutcome (9 * 4096 + 3) .untouched s = .clean 0 ∧
    ((after (.scrubVerifyReadComplete .untouched) s).pool.walker.map (·.pointer)) = some 4 ∧
    readOutcome (9 * 4096 + 3) .manyBits s = .uncorrectable ∧
    readOutcome (9 * 4096 + 3) (.altered 5) s = .clean 5 ∧ readOutcome (9 * 4096 + 3) (.miscorrected 5) s = .corrected 5 ∧
    (after (.scrubVerifyReadComplete .manyBits) s).pool = s.pool ∧
    (after (.scrubVerifyReadComplete .manyBits) s).faults = s.faults := by decide +kernel

theorem test_meets_waiting :
    let x : Waiting := { line := 4, writer := 0, count := 3 }
    let s := scrubbing .verify 4095 0 0 (some x)
    s.pool.waiting = some x ∧ x.count ≤ s.pool.free.length + 1 ∧ s.pool.free.length + s.pool.dirty.length < x.count ∧
    s.faults.level < 3 ∧ s.pool.retired.length < 64 ∧ readOutcome (9 * 4096 + 4095) .untouched s = .clean 0 ∧
    readOutcome (9 * 4096 + 4095) .manyBits s = .uncorrectable ∧
    answer (after (.allocComplete .untouched) s) = some (.ok, [1, 0, 3]) ∧
    answer (after (.allocNoSpace .manyBits) s) = some (.noSpace, []) := by decide +kernel

/-- A fill write that PART_RESET leaves in service does not advance a fill owed later for the same line and period. -/
theorem test_orphan_fill :
    let s := after (.partReset (whole [])) (writing (.fillWrite 3 4 (5 * 4096 + 4089) true))
    s.arbiter.inService = some (.fillWrite 3 4 (5 * 4096 + 4089) false) ∧
    (after .fillWriteComplete { s with fills := [fill3] }).fills = [fill3] := by decide +kernel

theorem test_meets_accesses :
    let c := writing (.commitWrite 1 3 (6 * 4096) 9 true)
    let f := writing (.fillWrite 3 4 (5 * 4096 + 4089) true)
    let full := { quiet with store := { cells := [(1, { sample := 5, integrity := .oneWrong })], corrected := 65535 } }
    c.store.cells.wf = true ∧ c.commits = [commit3] ∧ fill3 ∈ f.fills ∧ fill3.written + 1 = f.size ∧
    ({ fill3 with written := 30 } : Fill).written + 1 < f.size ∧
    (after .commitWriteComplete c).store.cells = [(6 * 4096, { sample := 9, integrity := .sound })] ∧
    (after .fillWriteComplete f).fills = [] ∧ full.store.cells.wf = true ∧
    readOutcome 1 .untouched full = .corrected 5 ∧ (storeRead 1 .untouched full).store.corrected = 65535 ∧
    readOutcome 1 .oneBit full = .uncorrectable ∧ readOutcome 2 .untouched full = .clean 0 := by decide +kernel

/-! ### The hypotheses are met: links -/

/-- An OUTPUT frame of period 5 in a state. -/
def outFrame (state : FrameState) : OutFrame :=
  { period := 5, report := Tally.empty, state := state, planned := 0, blocks := []
    endStatus := if state = .ended then some .complete else none }

theorem test_meets_setLink :
    let s := writing .refresh
    let off := s.setLink 0 { Link.reset with state := .off }
    takesCommands s = true ∧ (s.link 1).state ≠ .off ∧ (off.link 0).state = .off ∧ takesCommands off = true ∧
    3 < (4 : Byte).toNat ∧ 1 < (2 : Byte).toNat ∧ (outFrame .ended).state = .ended ∧ (outFrame .opened).state = .opened ∧
    (outFrame .sending).state = .sending ∧ (owedForFrames 1 s).map (·.position) = [4090] ∧
    ((after (.setLink (whole [1, 0])) s).link 1).state = .off ∧ (after (.setLink (whole [1, 0])) s).commits = [] := by
  decide +kernel

/-- E1's link with a receiver and two buffers. -/
def receiver (r : Receiver) (a b : Buffer) : State := lined.setLink 1 { Link.reset with receiver := r, buffers := #v[a, b] }

theorem test_meets_receiving :
    let got := fun n => receiver (.receiving 0 2) (.receiving (List.replicate n 0) false) .free
    (lined.link 1).state ≠ .off ∧ ((receiver .hunt .queued .free).link 1).buffers[0] ≠ .free ∧
    ((receiver .hunt .queued .queued).link 1).buffers[1] ≠ .free ∧ ((got 0).link 1).receiver = .receiving 0 2 ∧
    ((got 0).link 1).edge.receiver = .receiving 0 1 ∧ ((got 0).link 1).edge.edge.receiver = .hunt ∧
    6277 < 6 + 64 * (2 + 3 * lined.size) ∧ 6 + 64 * (2 + 3 * lined.size) ≤ 6278 := by decide +kernel

/-- E1's link with a whole frame in its first buffer, the CRC put behind the bytes. -/
def framed (bytes : List Byte) : State :=
  receiver (.receiving 0 9) (.receiving (bytes ++ bytesOf 2 (crc16 bytes).toNat) false) .free

/-- The status a frame of E1 leaves. -/
def statusOf (s : State) : InputStatus := ((after (.inputFrame 1) s).link 1).tally.status

theorem test_meets_tests :
    statusOf (receiver (.receiving 0 9) (.receiving [1, 1, 5, 0, 0] false) .free) = .badFrame ∧
    statusOf (receiver (.receiving 0 9) (.receiving [1, 1, 5, 0, 0, 0] false) .free) = .check ∧
    statusOf (framed [2, 1, 5, 0]) = .badFrame ∧ statusOf (framed [1, 1, 4, 0]) = .late ∧ statusOf (framed [1, 1, 5, 0]) = .ok ∧
    statusOf { framed [1, 1, 5, 0] with timer := { quiet.timer with running := false } } = .noClock ∧
    statusOf ((framed [1, 1, 5, 0]).setLink 1 { (framed [1, 1, 5, 0]).link 1 with accepted := true }) = .repeated := by
  decide +kernel

/-- A frame of E1 with a block for L3, another for L3 and one for L4, which is FREE. -/
def threeBlocks : List Byte :=
  [1, 1, 5, 3] ++ ([3, 0] ++ (List.replicate 32 [0, 1, 2]).flatten) ++ ([3, 0] ++ List.replicate 96 7)
    ++ ([4, 0] ++ List.replicate 96 8)

/-- The CRC put behind some bytes is the one that test 2 works out from them (R62, R190). -/
theorem crc_behind (body : List Byte) :
    let bytes := body ++ bytesOf 2 (crc16 body).toNat
    natOfBytes (bytes.drop (bytes.length - 2)) = (crc16 (bytes.take (bytes.length - 2))).toNat := by
  have h : (body ++ bytesOf 2 (crc16 body).toNat).length - 2 = body.length := by simp [bytesOf]
  dsimp only
  rw [h, List.drop_left, List.take_left, natOfBytes_bytesOf]
  exact Nat.mod_eq_of_lt (crc16 body).isLt

theorem framed_receives (body : List Byte) :
    ((framed body).link 1).receiver = .receiving 0 9 ∧
    ((framed body).link 1).buffers[0] = .receiving (body ++ bytesOf 2 (crc16 body).toNat) false := by
  simp [framed, receiver]

theorem test_meets_acceptance :
    let s := framed threeBlocks
    let bytes := threeBlocks ++ bytesOf 2 (crc16 threeBlocks).toNat
    (s.link 1).receiver = .receiving 0 9 ∧ (s.link 1).buffers[0] = .receiving bytes false ∧
    natOfBytes (bytes.drop (bytes.length - 2)) = (crc16 (bytes.take (bytes.length - 2))).toNat ∧
    bytes.length = 6 + 3 * (2 + 3 * 32) :=
  ⟨(framed_receives threeBlocks).1, (framed_receives threeBlocks).2, crc_behind threeBlocks, by
    have blocks : threeBlocks.length = 298 := by decide +kernel
    have crc : (bytesOf 2 (crc16 threeBlocks).toNat).length = 2 := by simp only [bytesOf, List.length_map, List.length_range]
    rw [List.length_append, blocks, crc]⟩

theorem test_meets_acceptance_more :
    (framed []).timer.running = true ∧ ((framed []).link 1).accepted = false ∧ threeBlocks.take 4 = [1, 1, 5, 3] ∧
    (framed []).size = 32 ∧ ((framed []).line 3).state = .active ∧ ((framed []).line 3).writer = some 1 ∧
    ((framed []).line 4).state = .free ∧
    (framed []).faults.mode = .normal := by decide +kernel

theorem test_meets_lane :
    let s := lined.setLink 1 { Link.reset with tx := [outFrame .ended, outFrame .opened] }
    (s.link 1).tx = [outFrame .ended, outFrame .opened] ∧ (outFrame .ended).state = .ended ∧ (outFrame .opened).state ≠ .ended ∧
    (lined.link 1).tx = [] ∧ (outFrame .ended).endStatus = some .complete ∧
    ((after (.closeMarkLeavesLane 1) s).link 1).laneOut.length = 13 ∧
    ((after (.closeMarkLeavesLane 1) s).link 1).tx = [outFrame .opened] := by decide +kernel

/-! ### The hypotheses are met: passes -/

/-- The part with E2 first in the pass queue and its frame open, T7 and T8 sounding for it. -/
def queued : State :=
  { (sounding.setTap 8 tap100).setLink 2 { Link.reset with tx := [outFrame .opened] } with
    proc := { queue := [2, 3], lead := 2, pass := none } }

theorem test_meets_passStart :
    queued.proc.pass = none ∧ queued.proc.queue = [2, 3] ∧ queued.oldestOpen = queued.timer.period ∧
    frameReady 2 queued = true ∧ (queued.taps.toList.all fun t => !(t.state != .idle && t.current.reader == 3)) = true ∧
    (queued.tap 8).state ≠ .idle ∧ (queued.tap 8).current.reader = 2 ∧ queued.faults.mode = .normal ∧
    ({ queued with faults := { queued.faults with mode := .safe } } : State).faults.mode = .safe ∧
    (lined.proc.queue = []) := by decide +kernel

/-- The part in a pass of E2, with so many reads left of T7 and perhaps T8 after it; its read of word 1 is in service. -/
def passing (reads : List ReadReq) (taps : List TapNo) (live : Bool) (level : Nat) : State :=
  { queued with
    faults := { queued.faults with level := level }
    arbiter := { queued.arbiter with inService := some (.passRead 3 2 1 live) }
    proc := { queue := [3], lead := 2, pass := some (passOf 2 taps reads) } }

theorem test_meets_passRead :
    let r : ReadReq := { side := 0, line := 3, position := 1 }
    let s := passing [r, r] [7, 8] true 2
    s.arbiter.inService = some (.passRead 3 2 1 true) ∧ readOutcome 1 .untouched s = .clean 0 ∧
    readOutcome 1 .manyBits s = .uncorrectable ∧ ¬3 ≤ s.faults.level ∧ s.faults.mode = .normal ∧
    3 ≤ (passing [r] [7] true 3).faults.level ∧ (passing [r] [7] false 0).arbiter.inService = some (.passRead 3 2 1 false) ∧
    ((after (.passReadComplete .untouched) s).proc.pass.map fun p => (p.todo, p.got.length)) = some ([r], 1) := by decide +kernel

theorem test_meets_readings :
    let line := line3
    let got : GotSample := { side := 0, position := (4090 + 31 + 8192 - 100) % 8192, v := 0x123456 }
    tap100.state = .running ∧ tap100.current.osc = none ∧ tap100.delay = 100 * 256 ∧ sounding.size + 1 ≤ 100 ∧
    100 + sounding.size + 2 ≤ line.length ∧ line.head < line.length ∧ line.pages ≠ [] ∧ 31 < sounding.size ∧
    [got].find? (fun x => x.side == 0 && x.position == (line.head + 31 + line.length - 100) % line.length) = some got ∧
    line.writer = some 1 ∧ tap100.current.gain = 65536 ∧ tap100.current.inverted = false ∧ (sounding.line 3) = line3 ∧
    sounding.tap 7 = tap100 := by decide +kernel

/-- The part in a pass of E2, with a frame of E1 queued, in NORMAL at level 3. -/
def entering : State :=
  { (passing [] [7, 8] true 3).setLink 1 { Link.reset with buffers := #v[.queued, .free] } with commits := [commit3] }

theorem test_meets_safe_entry :
    let entry : FaultEntry := { kind := .refresh, page := 0, offset := 0, line := none, engine := none }
    let s := (entering.setTap 7 { tap100 with clamped := true }).setLink 2
      { Link.reset with tx := [outFrame .ended, outFrame .sending] }
    let t := storeFault entry false s
    s.faults.mode = .normal ∧ 3 ≤ s.faults.level ∧ s.commits = [commit3] ∧ (s.proc.pass.map (·.taps)) = some [7, 8] ∧
    quiet.proc.pass = none ∧ quiet.pool.waiting = none ∧
    ((t.link 2).tx.map fun f => (f.blocks.map (·.tap), f.endStatus)) =
      [([], some .complete), ([7, 8], some .muted)] ∧
    (t.tap 7).clamped = false ∧ (t.link 1).buffers[0] = .free := by decide +kernel

/-- The readings of a tap in every state. -/
theorem test_meets_sounding :
    let old : OldSide := tap100.reading
    let fading : Tap := { fadeAt .fading 1 4 with oldSide := some old }
    let x : GotSample := { side := 0, position := 8191, v := 100 }
    let y : GotSample := { side := 0, position := 0, v := 300 }
    0 < 32 ∧ 16 ≤ 32 ∧ line3.pages ≠ [] ∧ (sounding.line 3) = line3 ∧ fading.state = .fading ∧ fading.oldSide = some old ∧
    (tapReadings sounding fading).length = 2 ∧ (tapReadings sounding tap100).length = 1 ∧
    (tapReadings sounding (glideTo (132 * 256))).map (·.endDelay) = [132 * 256] ∧
    ((fadeAt .starting 0 4).state = .starting ∧ (fadeAt .stopping 0 4).state = .stopping) ∧
    [x, y].find? (fun g => g.side == 0 && g.position == 8191) = some x ∧
    [x, y].find? (fun g => g.side == 0 && g.position == (8191 + 1) % 8192) = some y ∧
    readingValue [x, y] 0 .linear 8192 (8191 * 256 + 64) = 150 ∧ (passOf 2 [7] []).period = sounding.timer.period := by
  decide +kernel

theorem test_meets_partReset :
    let s := writing (.commitWrite 1 3 (6 * 4096) 9 true)
    quiet.tempo.source = .internal ∧ (follower .following 24 0).tempo.source = .external ∧ quiet.pool.walker = none ∧
    (scrubbing .clear 0 0 0 none).pool.walker.isSome ∧ s.arbiter.inService = some (.commitWrite 1 3 (6 * 4096) 9 true) ∧
    (passing [] [] true 0).arbiter.inService = some (.passRead 3 2 1 true) ∧
    (overdue 1 0).arbiter.inService = some .refresh := by decide +kernel

/-! ### The hypotheses are met: the laws, in the part after the reset line with a command waiting -/

/-- The part after the reset line, with a command waiting. -/
def ready : State := { State.reset with pending := [.readClock (whole [])] }

theorem test_laws_step : ∃ t, step ready = .next t := ⟨_, rfl⟩

theorem test_laws_pages : PagesLawful ready where
  once := by
    have all : allPages = [0] ++ allPages.tail := by
      unfold allPages
      rw [List.range_succ_eq_map, List.map_cons, List.tail_cons]
      generalize List.map _ (List.map _ (List.range 4095)) = xs
      rfl
    have none : (State.reset.lines.toList.flatMap fun x : Line => x.pages) = [] := by decide +kernel
    have pool : placedPages ready = Pool.reset.free ++ Pool.reset.dirty ++ Pool.reset.retired
        ++ (Pool.reset.walker.map (·.page)).toList ++ State.reset.lines.toList.flatMap fun x : Line => x.pages := by
      simp only [placedPages, ready, State.reset]
    rw [pool, none]
    simp only [Pool.reset, List.nil_append, List.append_nil, Option.map_some, Option.toList_some]
    conv => rhs; rw [all]
    exact List.perm_append_comm
  freeEmpty := by decide +kernel
  retiredOrdered := List.Pairwise.nil
  retiredFits := by decide
  waitingFree := by intro w h; cases h
  waitingHeld := by intro h; cases h

theorem test_laws_store : StoreLawful ready := rfl

theorem test_laws_ranges : RangesLawful ready := by
  constructor
  case waiting => intro w h; cases h
  all_goals decide +kernel

theorem reset_tap (t : TapNo) : ready.tap t = Tap.reset := by
  show (Vector.replicate 512 Tap.reset)[t.val] = _
  simp only [Vector.getElem_replicate]

theorem test_laws_taps : TapsLawful ready where
  taps := by
    intro t
    rw [reset_tap]
    constructor <;> first | decide | (intro p h; cases h)
  scenes := by intro e h; cases h
  currentLine := by intro t h; rw [reset_tap] at h; exact absurd rfl h
  oldSideLine := by intro t o h; rw [reset_tap] at h; cases h
  pendingLine := by intro t p h; rw [reset_tap] at h; cases h
  stagedLine := by intro t p h; rw [reset_tap] at h; cases h

theorem test_laws_commits : CommitsLawful ready where
  own := List.nodup_nil
  marked := by intro f h; cases h
  gathering := by
    intro e b w h
    have hunts : ∀ e, (ready.link e).receiver = .hunt := by decide
    rw [hunts e] at h; cases h
  offQuiet := by decide

/-- A link switched off has no frame queued and hunts; switched on again it takes up none. -/
theorem test_off_quiet :
    let off := after (.setLink (whole [1, 0])) (writing .refresh)
    (off.link 1).state = .off ∧ off.commits = [] ∧ (off.link 1).receiver = .hunt ∧
    (after (.setLink (whole [1, 1])) { off with port := quiet.port }).commits = [] := by decide +kernel

/-- The part with a frame of period 4 and one of period 5 queued, and a command waiting. -/
def ordered : State :=
  { quiet with commits := [{ commit3 with period := 4 }, commit3], pending := [.readClock (whole [])] }

theorem test_laws_ordered : CommitsOrdered ordered ∧ (∃ t, step ordered = .next t) ∧
    ∀ f ∈ ordered.commits, (ordered.timer.period - f.period).toNat < 2 ^ 32 - 1 :=
  ⟨⟨by decide, by decide⟩, ⟨_, rfl⟩, by decide⟩

theorem test_laws_runs : RunsLawful ready where
  count := by decide +kernel
  staged := by intro t p h; rw [reset_tap] at h; exact absurd rfl h
  pending := by intro t p h; rw [reset_tap] at h; cases h

theorem test_laws_start : StartLawful ready where
  period := fun _ => ⟨rfl, rfl⟩
  queues := fun _ => ⟨rfl, rfl, rfl, rfl⟩
  frames := fun _ => by decide
  heads := fun _ => by decide +kernel

end Sys2Proof.Tests
end

section
/-! Facts about the model's shared operations that the proofs below use: an owner's plain answers, a command's keeping of
what its owner keeps, and the measuring of an edge. -/

namespace Sys2Proof.Machine

@[simp] theorem okBytes_state (bytes : List Byte) (s : State) : (okBytes bytes s).2 = s := rfl
@[simp] theorem refuse_state (code : ResultCode) (s : State) : (refuse code s).2 = s := rfl

/-- What a port, its notices and an owner keep, the owner's command keeps. -/
theorem writeCommand_preserves {P : State → Prop} (hport : ∀ s p n, P s → P { s with port := p, notices := n })
    {code : Byte} {owner : List Byte → State → Reply × State} (howner : ∀ args s, P s → P (owner args s).2)
    (record : CommandRecord) {s : State} (h : P s) : P (writeCommand code owner record s) := by
  have completed : ∀ (b : Byte) (r : ResultCode) (k : Nat) (bs : List Byte) (s : State),
      P s → P (complete b r k bs s) := fun _ _ _ _ s hs => hport s _ _ hs
  have portOnly : ∀ (p : Port) (s : State), P s → P { s with port := p } := fun p s hs => hport s p s.notices hs
  have zeros : P (zerosOut (recordBytes record) s) := portOnly _ s h
  unfold writeCommand
  cases record with
  | cut => exact zeros
  | sent length args =>
    dsimp only
    split
    · exact portOnly _ _ zeros
    · have taken : P (hold code (zerosOut (recordBytes (.sent length args)) s)) := portOnly _ _ zeros
      have owned := howner args _ taken
      unfold takeCommand
      split
      · exact completed _ _ _ _ _ taken
      · split
        · exact completed _ _ _ _ _ taken
        · unfold answer
          split
          · next reply =>
            rw [reply] at owned
            exact completed _ _ _ _ _ owned
          · next reply =>
            rw [reply] at owned
            exact owned

/-- A whole record of the length the command's layout defines passes test 2 of R169. -/
theorem lengthFits_whole {code : Byte} {n : Nat} (h : (code, n) ∈ commandTable) {args : List Byte}
    (hn : args.length = n) : lengthFits code (BitVec.ofNat 8 args.length) args = true := by
  have short : ∀ row ∈ commandTable, row.2 < 256 := by decide +kernel
  refine (lengthFits_iff h _ _).mpr ⟨?_, hn⟩
  rw [BitVec.toNat_ofNat, hn, Nat.mod_eq_of_lt (short _ h)]

/-- A whole record that the mode takes is its owner's, which answers behind the zeros shifted out. -/
theorem writeCommand_answers {s : State} (hf : mailboxFree s = true) {code : Byte} {n : Nat}
    (h : (code, n) ∈ commandTable) {args : List Byte} (hn : args.length = n)
    (hm : (s.inSafe && !takenInSafe code) = false) (owner : List Byte → State → Reply × State) :
    writeCommand code owner (whole args) s = answer code (owner args (hold code (wrote n s))) := by
  rw [writeCommand_owner hf (lengthFits_whole h hn) hm, hn]

/-- In NORMAL the mode takes every command. -/
theorem taken_of_normal {s : State} (h : s.faults.mode = .normal) (code : Byte) :
    (s.inSafe && !takenInSafe code) = false := by
  simp [State.inSafe, h]

theorem takesCommands_iff (s : State) :
    takesCommands s = true ↔ mailboxFree s = true ∧ s.faults.mode = .normal := by
  simp [takesCommands]

/-- Measuring an edge sets the last edge time and the relock run alone (R1). -/
theorem Timer.measureOffer_eq (t : Timer) (reading : Nat) : t.measureOffer reading =
    { t with lastEdge := some reading, relockRun := (t.measureOffer reading).relockRun } := by
  unfold Timer.measureOffer
  split <;> rfl

end Sys2Proof.Machine
end

section
/-! O18. Before boundary 0 (R2, R24, R78): every operation of the part keeps it without a period, a queued or open frame,
an owed fill, a due pass or a moved head, as long as periods are not running; the one thing that sets periods running
is boundary 0 itself. -/

namespace Sys2Proof.Machine

/-! ### The law, taken apart -/

/-- No period has begun: what StartLawful asks of a part whose periods are not running. -/
structure Unstarted (s : State) : Prop where
  period : s.timer.period = 0
  oldestOpen : s.oldestOpen = 0
  commits : s.commits = []
  fills : s.fills = []
  queue : s.proc.queue = []
  pass : s.proc.pass = none
  frames : ∀ e, (s.link e).tx = []
  heads : ∀ l, (s.line l).head = 0

theorem startLawful_iff (s : State) : StartLawful s ↔ (s.timer.running = false → Unstarted s) := by
  constructor
  · rintro ⟨period, queues, frames, heads⟩ hr
    obtain ⟨hp, ho⟩ := period hr
    obtain ⟨hc, hf, hq, hpass⟩ := queues hr
    exact ⟨hp, ho, hc, hf, hq, hpass, frames hr, heads hr⟩
  · intro h
    exact ⟨fun hr => ⟨(h hr).period, (h hr).oldestOpen⟩,
      fun hr => ⟨(h hr).commits, (h hr).fills, (h hr).queue, (h hr).pass⟩,
      fun hr => (h hr).frames, fun hr => (h hr).heads⟩

/-- With periods running the law asks nothing. -/
theorem StartLawful.of_running {s : State} (h : s.timer.running = true) : StartLawful s :=
  (startLawful_iff s).mpr fun hr => absurd (h.symm.trans hr) (by decide)

/-- An operation that leaves the running flag keeps the law when it keeps an unstarted part unstarted. -/
theorem StartLawful.next {s t : State} (h : StartLawful s) (hr : t.timer.running = s.timer.running)
    (hu : Unstarted s → Unstarted t) : StartLawful t :=
  (startLawful_iff t).mpr fun ht => hu ((startLawful_iff s).mp h (hr.symm.trans ht))

/-- A part that agrees with an unstarted one in what the law reads is unstarted. -/
theorem Unstarted.same {s t : State} (h : Unstarted s) (period : t.timer.period = s.timer.period := by simp)
    (oldestOpen : t.oldestOpen = s.oldestOpen := by simp) (commits : t.commits = s.commits := by simp)
    (fills : t.fills = s.fills := by simp) (queue : t.proc.queue = s.proc.queue := by simp)
    (pass : t.proc.pass = s.proc.pass := by simp)
    (frames : ∀ e, (t.link e).tx = (s.link e).tx := by simp [State.link])
    (heads : ∀ l, (t.line l).head = (s.line l).head := by simp [State.line]) : Unstarted t where
  period := period.trans h.period
  oldestOpen := oldestOpen.trans h.oldestOpen
  commits := commits.trans h.commits
  fills := fills.trans h.fills
  queue := queue.trans h.queue
  pass := pass.trans h.pass
  frames e := (frames e).trans (h.frames e)
  heads l := (heads l).trans (h.heads l)

/-- The same of the law. -/
theorem StartLawful.same {s t : State} (h : StartLawful s) (timer : t.timer = s.timer := by simp)
    (oldestOpen : t.oldestOpen = s.oldestOpen := by simp) (commits : t.commits = s.commits := by simp)
    (fills : t.fills = s.fills := by simp) (proc : t.proc = s.proc := by simp) (links : t.links = s.links := by simp)
    (lines : t.lines = s.lines := by simp) : StartLawful t :=
  h.next (by rw [timer]) fun u => u.same (by rw [timer]) oldestOpen commits fills (by rw [proc]) (by rw [proc])
    (fun e => by rw [State.link_of_links links]) (fun l => by rw [State.line_of_lines lines])

/-- A timer set otherwise but for its period count and its running flag keeps the law. -/
theorem StartLawful.withTimer {s : State} (h : StartLawful s) {x : Timer} (hr : x.running = s.timer.running)
    (hp : x.period = s.timer.period) : StartLawful { s with timer := x } :=
  h.next hr fun u => u.same hp

/-! ### One table entry written -/

/-- A link written with the frames it held before leaves the part unstarted. -/
theorem Unstarted.setLink {s : State} (h : Unstarted s) (e : Engine) {x : Link} (hx : x.tx = (s.link e).tx) :
    Unstarted (s.setLink e x) :=
  h.same (frames := fun d => by
    rw [State.link_setLink]
    split
    · next hd => rw [hx, hd]
    · rfl)

theorem StartLawful.setLink {s : State} (h : StartLawful s) (e : Engine) {x : Link} (hx : x.tx = (s.link e).tx) :
    StartLawful (s.setLink e x) :=
  h.next rfl fun u => u.setLink e hx

/-- A line written with its head at 0 leaves the part unstarted. -/
theorem Unstarted.setLine {s : State} (h : Unstarted s) (l : LineNo) {x : Line} (hx : x.head = 0) :
    Unstarted (s.setLine l x) :=
  h.same (heads := fun m => by
    rw [State.line_setLine]
    split
    · rw [hx, h.heads]
    · rfl)

/-! ### What a link's own operations hold of its frames -/

@[simp] theorem Link.open_tx (b : Nat) (k : Link) : (k.open b).tx = k.tx := by
  unfold Link.open
  split
  · rfl
  · split <;> rfl

@[simp] theorem Link.timeOut_tx (k : Link) : k.timeOut.tx = k.tx := by
  unfold Link.timeOut
  split <;> rfl

@[simp] theorem Link.edge_tx (k : Link) : k.edge.tx = k.tx := by
  unfold Link.edge
  split
  · rfl
  · split
    · exact k.timeOut_tx
    · rfl

/-! ### Settling, and the entry into SAFE -/

/-- With nothing queued, settling finds no frame to drain and no period open (R24, R69). -/
theorem Unstarted.settle {s : State} (h : Unstarted s) : Unstarted (settle s) := by
  have drained : drainCommits s = s := by
    unfold drainCommits
    rw [h.commits, drainFrames, ← h.commits]
  have closed : updateClosed s = s := by
    have : closedUpTo s = s.oldestOpen := by simp [closedUpTo, oldestOf, h.commits, h.fills, h.period, h.oldestOpen]
    rw [updateClosed, this]
  unfold Machine.settle
  rw [drained, closed]
  exact h.same

theorem StartLawful.settle {s : State} (h : StartLawful s) : StartLawful (settle s) :=
  h.next (by simp) Unstarted.settle

theorem Unstarted.emptyCommits {s : State} (h : Unstarted s) : Unstarted (emptyCommits s) := by
  unfold Machine.emptyCommits
  rw [h.commits]
  exact h.same (commits := h.commits.symm)

theorem Unstarted.withdrawFills {s : State} (h : Unstarted s) : Unstarted (withdrawFills s) :=
  h.same (fills := by rw [withdrawFills_fills, h.fills])

theorem Unstarted.mutePass {s : State} (h : Unstarted s) : Unstarted (mutePass s) := by
  unfold Machine.mutePass
  rw [h.pass]
  exact h

/-- The entry into SAFE withdraws nothing where nothing stands (R185). -/
theorem Unstarted.enterSafe {s : State} (h : Unstarted s) : Unstarted (enterSafe s) := by
  have raised : Unstarted (raise .safeEntered { s with faults := { s.faults with mode := .safe } }) := h.same
  unfold Machine.enterSafe
  exact raised.emptyCommits.withdrawFills.mutePass.same

theorem Unstarted.storeFault {s : State} (h : Unstarted s) (entry : FaultEntry) (full : Bool) :
    Unstarted (storeFault entry full s) := by
  have recorded : Unstarted (raise .storeFault { s with faults := s.faults.record entry full }) := h.same
  unfold Machine.storeFault
  split
  · exact recorded.enterSafe
  · exact recorded

theorem StartLawful.storeFault {s : State} (h : StartLawful s) (entry : FaultEntry) (full : Bool) :
    StartLawful (storeFault entry full s) :=
  h.next (by simp) fun u => u.storeFault entry full

/-! ### The page pool -/

theorem StartLawful.takePages {s : State} (h : StartLawful s) (l : LineNo) (writer : Engine) (n : Nat) :
    StartLawful (takePages l writer n s) :=
  h.next (by simp) fun u => by
    unfold Machine.takePages
    exact (u.setLine l rfl).same (heads := fun _ => rfl)

theorem StartLawful.walkerTakes {s : State} (h : StartLawful s) : StartLawful (walkerTakes s) := h.same

theorem StartLawful.lookAtWaiting {s : State} (h : StartLawful s) : StartLawful (lookAtWaiting s) := by
  unfold Machine.lookAtWaiting
  split
  · exact h
  · next w _ =>
    split
    · have cleared : StartLawful { s with pool := { s.pool with waiting := none } } := h.same
      exact (cleared.takePages w.line w.writer w.count).same
    · exact h

theorem StartLawful.lookAtShortage {s : State} (h : StartLawful s) : StartLawful (lookAtShortage s) := h.same

theorem StartLawful.verifyPasses {s : State} (h : StartLawful s) (k : Walk) : StartLawful (verifyPasses k s) := by
  unfold Machine.verifyPasses
  split
  · exact h.same
  · have joined : StartLawful { s with pool := { s.pool with free := s.pool.free ++ [k.page], walker := none } } :=
      h.same
    exact joined.lookAtWaiting.walkerTakes

theorem StartLawful.verifyFails {s : State} (h : StartLawful s) (k : Walk) : StartLawful (verifyFails k s) := by
  have faulted : ∀ (p : Pool) (full : Bool),
      StartLawful (Machine.storeFault (verifyFaultEntry k) full { s with pool := p }) := fun p full =>
    (h.same : StartLawful { s with pool := p }).storeFault (verifyFaultEntry k) full
  unfold Machine.verifyFails
  split
  · exact h
  · split
    · exact (StartLawful.lookAtShortage (faulted _ false)).walkerTakes
    · exact StartLawful.walkerTakes (faulted _ true)

theorem StartLawful.completeVerify {s : State} (h : StartLawful s) (k : Walk) (u : Upset) :
    StartLawful (completeVerify k u s) := by
  have read : StartLawful (endAccess false (storeRead (wordOf k.page k.pointer) u s)) := h.same
  unfold Machine.completeVerify
  refine StartLawful.settle ?_
  split
  · exact read.verifyPasses k
  · exact read.verifyFails k

/-! ### Counted edges -/

/-- Periods run from boundary 0 on, and no counted edge stops them (R2). -/
theorem countedEdge_running (zero : Bool) (order : EdgeOrder) (s : State) :
    (countedEdge zero order s).timer.running = (s.timer.running || zero) := by
  have before : (edgeBefore order (countSample s)).timer.running = s.timer.running := by simp [countSample]
  unfold countedEdge countEdge
  rw [(edgeAfter_frame order _).1]
  split
  · rw [boundaryAround_timer, boundary_timer]
    exact congrArg (· || zero) before
  · next h =>
    have : zero = false := by simp_all
    rw [this, Bool.or_false]
    exact before

/-- Before boundary 0 a flywheel edge makes no boundary (log 6), and with periods running the law asks nothing. -/
theorem StartLawful.countedEdge {s : State} (h : StartLawful s) (order : EdgeOrder) :
    StartLawful (countedEdge false order s) := by
  cases hr : s.timer.running with
  | true => exact .of_running (by rw [countedEdge_running, hr]; rfl)
  | false =>
    rw [countedEdge_within s order (by rw [hr, Bool.and_false])]
    exact h.next rfl fun u => u.same

/-! ### Links -/

theorem StartLawful.advanceCounter {s : State} (h : StartLawful s) (e : Engine) (name : CounterName) (k : Nat) :
    StartLawful (advanceCounter e name k s) := by
  have put := h.setLink e
    (x := { s.link e with counters := (s.link e).counters.put (((s.link e).counters.get name).advance k) name }) rfl
  unfold Machine.advanceCounter
  dsimp only
  split
  · exact put.same
  · exact put

theorem StartLawful.freeBuffer {s : State} (h : StartLawful s) (e : Engine) (b : Fin 2) :
    StartLawful (freeBuffer e b s) := by
  unfold Machine.freeBuffer
  exact h.setLink e rfl

theorem StartLawful.refuseFrame {s : State} (h : StartLawful s) (e : Engine) (buffer : Fin 2) (status : InputStatus) :
    StartLawful (refuseFrame e buffer status s) := by
  have counted : ∀ {s : State}, StartLawful s → StartLawful (countRefusal e status s) := by
    intro s h
    unfold countRefusal
    split
    · exact h.advanceCounter e .check 1
    · exact h.advanceCounter e .late 1
    · exact h
  have recorded := h.setLink e (x := (s.link e).record status) rfl
  exact (counted recorded).freeBuffer e buffer

/-- No frame is accepted while periods are not running (R62, test of NO_CLOCK). -/
theorem running_of_frameRefusal_none {e : Engine} {bytes : List Byte} {overlong : Bool} {s : State}
    (h : frameRefusal e bytes overlong s = none) : s.timer.running = true := by
  by_contra hr
  rw [Bool.not_eq_true] at hr
  unfold frameRefusal at h
  rw [hr] at h
  (repeat' split at h) <;> simp_all

theorem StartLawful.judgeFrame {s : State} (h : StartLawful s) (e : Engine) (buffer : Fin 2) (bytes : List Byte)
    (overlong : Bool) : StartLawful (judgeFrame e buffer bytes overlong s) := by
  unfold Machine.judgeFrame
  split
  · exact h.refuseFrame e buffer _
  · next accepted => exact .of_running (by simpa using running_of_frameRefusal_none accepted)

theorem Unstarted.withdrawFrames {s : State} (h : Unstarted s) (e : Engine) : Unstarted (withdrawFrames e s) :=
  h.same (commits := by simp [Machine.withdrawFrames, h.commits])
    (fills := by simp [Machine.withdrawFrames, owedForFrames, h.commits])

theorem Unstarted.abortTransmitter {s : State} (h : Unstarted s) (e : Engine) : Unstarted (abortTransmitter e s) := by
  have none_held : ∀ n, abortFrames n (s.link e).tx = (s.link e).tx := fun n => by rw [h.frames]; rfl
  have aborted := h.setLink e
    (x := { s.link e with tx := abortFrames (Config.laneProgress s.freeIx) (s.link e).tx }) (none_held _)
  exact aborted.same (frames := fun _ => rfl)

theorem Unstarted.withdrawPass {s : State} (h : Unstarted s) (e : Engine) : Unstarted (withdrawPass e s) := by
  unfold Machine.withdrawPass
  rw [h.pass]
  exact h.same (queue := by simp [h.queue])

/-- A link switched off withdraws nothing where nothing stands (R70, R75, R104). -/
theorem StartLawful.linkOff {s : State} (h : StartLawful s) (e : Engine) : StartLawful (linkOff e s) :=
  h.next (by simp) fun u => by
    have off := (u.withdrawFrames e).setLink e (x := ((withdrawFrames e s).link e).switchOff) rfl
    exact ((off.abortTransmitter e).withdrawPass e).settle

/-! ### Resets -/

theorem resetLine_startLawful (s : State) : StartLawful (resetLine s) := by
  refine (startLawful_iff _).mpr fun _ => ⟨rfl, rfl, rfl, rfl, rfl, rfl, fun e => ?_, fun l => ?_⟩
  · simp [resetLine, State.reset, State.link, Link.reset]
  · simp [resetLine, State.reset, State.line, Line.reset]

theorem Unstarted.resetLines {s : State} (h : Unstarted s) : Unstarted (resetLines s) :=
  h.withdrawFills.same (fills := rfl) (heads := fun l => by
    rw [h.withdrawFills.heads]
    simp [Machine.resetLines, State.line, Line.partReset, Line.freed])

@[simp] theorem Link.partReset_tx (k : Link) : k.partReset.tx = k.tx := rfl

theorem Unstarted.resetLinks {s : State} (h : Unstarted s) : Unstarted (resetLinks s) := by
  have cleared : Unstarted { Machine.emptyCommits s with links := (Machine.emptyCommits s).links.map Link.partReset } :=
    h.emptyCommits.same
  exact List.foldlRecOn (motive := Unstarted) allEngines _ cleared fun _ u e _ => u.abortTransmitter e

theorem Unstarted.resetTaps {s : State} (h : Unstarted s) : Unstarted (resetTaps s) :=
  h.same (queue := h.queue.symm) (pass := h.pass.symm)

theorem Unstarted.resetBlocks {s : State} (h : Unstarted s) : Unstarted (resetBlocks s) := by
  have blocks := h.resetLines.resetLinks.resetTaps
  unfold Machine.resetBlocks
  exact Unstarted.settle (blocks.same)

theorem StartLawful.partReset {s : State} (h : StartLawful s) : StartLawful (partReset s) :=
  h.next (by simp [Machine.partReset, Machine.resetBlocks]) fun u => by
    unfold Machine.partReset
    exact u.resetBlocks.same

/-! ### The commands that do more than read or stage -/

theorem StartLawful.ownAllocLine {s : State} (h : StartLawful s) (args : List Byte) :
    StartLawful (ownAllocLine args s).2 := by
  have allocated : ∀ l writer n, StartLawful (allocate l writer n s).2 := by
    intro l writer n
    unfold allocate
    split
    · exact h.takePages l writer n
    · split
      · unfold refuse
        dsimp only
        split
        · exact h
        · exact h.same
      · exact h.same
  unfold Machine.ownAllocLine
  dsimp only
  split
  · exact h
  · split
    · exact h
    · exact allocated _ _ _

theorem StartLawful.freeLine {s : State} (h : StartLawful s) (l : LineNo) : StartLawful (freeLine l s) := by
  refine h.next (by simp) fun u => ?_
  have freed : Unstarted (s.setLine l (s.line l).freed) := u.setLine l rfl
  unfold Machine.freeLine
  exact Unstarted.settle (freed.same (fills := by simp [u.fills]))

theorem StartLawful.ownFreeLine {s : State} (h : StartLawful s) (args : List Byte) :
    StartLawful (ownFreeLine args s).2 := by
  unfold Machine.ownFreeLine
  dsimp only
  split
  · exact h
  · split
    · exact h
    · split
      · exact h
      · exact h.freeLine _

theorem StartLawful.ownSetWriter {s : State} (h : StartLawful s) (args : List Byte) :
    StartLawful (ownSetWriter args s).2 := by
  unfold Machine.ownSetWriter
  dsimp only
  split
  · exact h
  · split
    · exact h
    · exact h.next rfl fun u => u.setLine _ (u.heads _)

theorem StartLawful.ownSetLink {s : State} (h : StartLawful s) (args : List Byte) :
    StartLawful (ownSetLink args s).2 := by
  unfold Machine.ownSetLink
  dsimp only
  split
  · exact h
  · split
    · unfold okBytes
      dsimp only
      split
      · exact h
      · exact h.linkOff _
    · unfold okBytes
      dsimp only
      split
      · exact h.setLink _ rfl
      · exact h

theorem StartLawful.ownReadCounters {s : State} (h : StartLawful s) (args : List Byte) :
    StartLawful (ownReadCounters args s).2 := by
  unfold Machine.ownReadCounters
  dsimp only
  split
  · exact h
  · exact h.setLink _ rfl

theorem StartLawful.ownSetPeriod {s : State} (h : StartLawful s) (args : List Byte) :
    StartLawful (ownSetPeriod args s).2 := by
  unfold Machine.ownSetPeriod
  split
  · exact h
  · split
    · exact h
    · exact h.withTimer rfl rfl

/-! ### The commands that only read or stage -/

/-- The fields that the law reads. -/
def startView (s : State) :
    (Timer × PeriodCount × List QueuedFrame × List Fill) × TapProc × Vector Link 4 × Vector Line 128 :=
  ((s.timer, s.oldestOpen, s.commits, s.fills), s.proc, s.links, s.lines)

/-- The law looks at its fields alone. -/
theorem StartLawful.of_view {s t : State} (h : StartLawful s) (e : startView t = startView s) : StartLawful t := by
  simp only [startView, Prod.mk.injEq] at e
  obtain ⟨⟨timer, oldestOpen, commits, fills⟩, proc, links, lines⟩ := e
  exact h.same timer oldestOpen commits fills proc links lines

/-- A command whose owner leaves those fields keeps the law. -/
theorem StartLawful.command {s : State} (h : StartLawful s) {code : Byte} {owner : List Byte → State → Reply × State}
    (keeps : ∀ args s, startView (owner args s).2 = startView s) (record : CommandRecord) :
    StartLawful (writeCommand code owner record s) :=
  h.of_view (writeCommand_keeps startView (fun _ _ _ => rfl) keeps record s)

/-- A command whose owner keeps the law keeps it. -/
theorem StartLawful.commandOf {s : State} (h : StartLawful s) {code : Byte} {owner : List Byte → State → Reply × State}
    (keeps : ∀ args s, StartLawful s → StartLawful (owner args s).2) (record : CommandRecord) :
    StartLawful (writeCommand code owner record s) :=
  writeCommand_preserves (fun _ _ _ hs => hs.same) keeps record h

theorem ownReadLine_view (args : List Byte) (s : State) : startView (ownReadLine args s).2 = startView s := by
  unfold ownReadLine; split <;> rfl

theorem ownReadPool_view (args : List Byte) (s : State) : startView (ownReadPool args s).2 = startView s := by
  unfold ownReadPool; split <;> rfl

theorem ownReadLink_view (args : List Byte) (s : State) : startView (ownReadLink args s).2 = startView s := by
  unfold ownReadLink; split <;> rfl

theorem ownReadTap_view (args : List Byte) (s : State) : startView (ownReadTap args s).2 = startView s := by
  unfold ownReadTap; split <;> rfl

theorem ownReadOsc_view (args : List Byte) (s : State) : startView (ownReadOsc args s).2 = startView s := by
  unfold ownReadOsc; split <;> rfl

theorem ownSetTap_view (args : List Byte) (s : State) : startView (ownSetTap args s).2 = startView s := by
  unfold ownSetTap judgeSet
  dsimp only
  split
  · rfl
  · split <;> rfl

theorem ownClearTap_view (args : List Byte) (s : State) : startView (ownClearTap args s).2 = startView s := by
  unfold ownClearTap; split <;> rfl

theorem ownSetTempo_view (args : List Byte) (s : State) : startView (ownSetTempo args s).2 = startView s :=
  ownSetTempo_keeps startView (by simp [startView]) args s

theorem ownTapTempo_view (args : List Byte) (s : State) : startView (ownTapTempo args s).2 = startView s :=
  ownTapTempo_keeps startView (fun _ _ _ => rfl) (by simp [startView]) (by simp [startView]) (by simp [startView]) args
    s

theorem ownSetTempoSource_view (args : List Byte) (s : State) :
    startView (ownSetTempoSource args s).2 = startView s := by
  unfold ownSetTempoSource
  split
  · rfl
  · split
    · rfl
    · split <;> rfl

theorem ownSetMeter_view (args : List Byte) (s : State) : startView (ownSetMeter args s).2 = startView s := by
  unfold ownSetMeter
  dsimp only
  split <;> rfl

theorem ownSetOsc_view (args : List Byte) (s : State) : startView (ownSetOsc args s).2 = startView s := by
  unfold ownSetOsc; split <;> rfl

theorem ownPopScene_view (args : List Byte) (s : State) : startView (ownPopScene args s).2 = startView s :=
  ownPopScene_keeps startView (fun _ _ _ => rfl) (by simp [startView]) (fun _ _ => rfl) args s

theorem ownDropScene_view (args : List Byte) (s : State) : startView (ownDropScene args s).2 = startView s := by
  unfold ownDropScene; split <;> rfl

/-! ### The events -/

/-- A real edge in LOCKED leaves periods running: the first makes boundary 0 (R2). -/
theorem edgeLocked_startLawful (reading : Nat) (order : EdgeOrder) (s : State) :
    StartLawful (edgeLocked reading order s) := by
  refine .of_running ?_
  unfold edgeLocked
  rw [countedEdge_running]
  exact Bool.or_not_self _

theorem StartLawful.edgeUnlocked {s : State} (h : StartLawful s) (reading : Nat) :
    StartLawful (edgeUnlocked reading s) := by
  have timed : (Machine.edgeUnlocked reading s).timer.running = s.timer.running ∧
      (Machine.edgeUnlocked reading s).timer.period = s.timer.period := by
    unfold Machine.edgeUnlocked
    rw [(tempoEdge_frame _).1, Timer.measureOffer_eq]
    cases s.timer.runFull reading <;> exact ⟨rfl, rfl⟩
  exact h.next timed.1 fun u => u.same timed.2

theorem StartLawful.edgeFlywheel {s : State} (h : StartLawful s) (reading : Nat) :
    StartLawful (edgeFlywheel reading s) := by
  unfold Machine.edgeFlywheel
  rw [Timer.measureOffer_eq]
  exact h.withTimer rfl rfl

theorem StartLawful.loseClock {s : State} (h : StartLawful s) (reading : Nat) (order : EdgeOrder) :
    StartLawful (loseClock reading order s) := by
  have lost : StartLawful { s with timer := { s.timer with
      wclk := .flywheel, relockRun := [], relockReady := false, lossTimer := none
      flyTimer := some (reading + s.timer.m) } } := h.withTimer rfl rfl
  unfold Machine.loseClock
  exact (lost.countedEdge order).same

theorem StartLawful.relock {s : State} (h : StartLawful s) (reading : Nat) : StartLawful (relock reading s) :=
  h.next rfl fun u => u.same (period := rfl)

theorem StartLawful.turnFlywheel {s : State} (h : StartLawful s) (reading : Nat) (order : EdgeOrder) :
    StartLawful (turnFlywheel reading order s) := by
  have armed : StartLawful { s with timer := { s.timer with flyTimer := some (reading + s.timer.m) } } :=
    h.withTimer rfl rfl
  have counted := armed.countedEdge order
  unfold Machine.turnFlywheel
  dsimp only
  split
  · exact counted.relock reading
  · exact counted

theorem StartLawful.passTakes {s : State} (h : StartLawful s) (o : ReadOutcome) : StartLawful (passTakes o s) :=
  h.next (by simp) fun u => by
    unfold Machine.passTakes
    rw [u.pass]
    exact u

theorem StartLawful.readFault {s : State} (h : StartLawful s) (l : LineNo) (e : Engine) (w : Nat) (o : ReadOutcome) :
    StartLawful (readFault l e w o s) := by
  unfold Machine.readFault
  split
  · split
    · exact h
    · exact h.storeFault _ false
  · exact h
  · exact h

theorem StartLawful.advanceCommit {s : State} (h : StartLawful s) : StartLawful (advanceCommit s) :=
  h.next (by simp) fun u => by
    unfold Machine.advanceCommit
    rw [u.commits]
    exact u

/-- Every command keeps the law of the time before boundary 0. -/
theorem exec_startLawful (c : Instr) {s : State} (h : StartLawful s) : ∃ t, exec c s = .next t ∧ StartLawful t := by
  cases c with
  | resetLine => exact ⟨_, rfl, resetLine_startLawful s⟩
  | realEdge reading order =>
    refine ⟨_, rfl, ?_⟩
    split
    · exact h.edgeUnlocked reading
    · exact edgeLocked_startLawful reading order s
    · exact h.edgeFlywheel reading
  | lossTimerExpiry order =>
    refine ⟨_, rfl, ?_⟩
    split
    · exact h.loseClock _ order
    · exact h
  | flywheelEdge order =>
    refine ⟨_, rfl, ?_⟩
    split
    · exact h.turnFlywheel _ order
    · exact h
  | openMark e =>
    refine ⟨_, rfl, ?_⟩
    split
    · exact h
    · exact h.setLink e (Link.open_tx _ _)
  | inputFrame e =>
    refine ⟨_, rfl, ?_⟩
    split
    · exact h
    · have hunting := h.setLink e (x := { s.link e with receiver := .hunt }) rfl
      split
      · exact hunting.judgeFrame e _ _ _
      · exact h
      · exact h
  | receiveTimeout e =>
    refine ⟨_, rfl, ?_⟩
    split
    · exact h.setLink e (Link.timeOut_tx _)
    · exact h
  | closeMarkLeavesLane e =>
    refine ⟨_, rfl, ?_⟩
    split
    · exact h
    · next f rest held =>
      split
      · exact h.next rfl fun u => by
          rw [u.frames e] at held
          cases held
      · exact h
  | commitWriteComplete =>
    refine ⟨_, rfl, ?_⟩
    split
    · next w v live _ =>
      have written : StartLawful (endAccess false (storeWrite w v s)) := h.same
      refine StartLawful.settle ?_
      split
      · exact written.advanceCommit
      · exact written
    · exact h
  | fillWriteComplete =>
    refine ⟨_, rfl, ?_⟩
    split
    · next w live _ =>
      have written : StartLawful (endAccess false (storeWrite w 0 s)) := h.same
      refine StartLawful.settle ?_
      split
      · exact written.next rfl fun u => by
          have unowed : s.fills = [] := u.fills
          exact u.same (fills := by simp [unowed])
      · exact written
    · exact h
  | passStart =>
    refine ⟨_, rfl, ?_⟩
    split
    · next e ready =>
      exact h.next (by simp) fun u => by
        simp [passReady, u.pass, u.queue] at ready
    · exact h
  | passReadComplete upset =>
    refine ⟨_, rfl, ?_⟩
    split
    · next l e w live _ =>
      have read : StartLawful (endAccess false (storeRead w upset s)) := h.same
      have judged := read.readFault l e w (readOutcome w upset s)
      refine StartLawful.settle ?_
      split
      · exact judged.passTakes _
      · exact judged
    · exact h
  | refreshTimerExpiry =>
    refine ⟨_, rfl, ?_⟩
    split
    · exact h
    · split
      · exact StartLawful.settle h.same
      · exact (h.storeFault _ false).settle
  | refreshAccessComplete =>
    refine ⟨_, rfl, ?_⟩
    split
    · exact StartLawful.settle h.same
    · exact h
  | scrubClearWriteComplete =>
    refine ⟨_, rfl, ?_⟩
    split
    · exact StartLawful.settle h.same
    · exact h
  | scrubVerifyReadComplete upset =>
    refine ⟨_, rfl, ?_⟩
    split
    · exact h.completeVerify _ upset
    · exact h
  | allocComplete upset =>
    refine ⟨_, rfl, ?_⟩
    split
    · split
      · exact h.completeVerify _ upset
      · exact h
    · exact h
  | allocNoSpace upset =>
    refine ⟨_, rfl, ?_⟩
    split
    · split
      · exact h.completeVerify _ upset
      · exact h
    · exact h
  | tempoPulse => exact ⟨_, rfl, h.same⟩
  | pulseLossTimerExpiry =>
    refine ⟨_, rfl, ?_⟩
    split
    · exact h
    · split
      · exact h.same
      · exact h
  | readResult clocked =>
    refine ⟨_, rfl, ?_⟩
    split <;> exact h.same
  | readStatus clocked =>
    refine ⟨_, rfl, ?_⟩
    split <;> exact h.same
  | commandCollision code record =>
    refine ⟨_, rfl, ?_⟩
    split
    · split
      · exact h.same
      · exact h
    · exact h
  | badCommand code transaction =>
    refine ⟨_, rfl, ?_⟩
    split
    · split
      · unfold refuseUnknown
        split
        · exact h.same
        · split <;> exact h.same
      · exact h.same
    · exact h
  | setPeriod record => exact ⟨_, rfl, h.commandOf (fun args _ hs => hs.ownSetPeriod args) record⟩
  | readClock record => exact ⟨_, rfl, h.command (fun _ _ => rfl) record⟩
  | allocLine record => exact ⟨_, rfl, h.commandOf (fun args _ hs => hs.ownAllocLine args) record⟩
  | freeLine record => exact ⟨_, rfl, h.commandOf (fun args _ hs => hs.ownFreeLine args) record⟩
  | setWriter record => exact ⟨_, rfl, h.commandOf (fun args _ hs => hs.ownSetWriter args) record⟩
  | readLine record => exact ⟨_, rfl, h.command ownReadLine_view record⟩
  | readPool record => exact ⟨_, rfl, h.command ownReadPool_view record⟩
  | setLink record => exact ⟨_, rfl, h.commandOf (fun args _ hs => hs.ownSetLink args) record⟩
  | readLink record => exact ⟨_, rfl, h.command ownReadLink_view record⟩
  | readCounters record => exact ⟨_, rfl, h.commandOf (fun args _ hs => hs.ownReadCounters args) record⟩
  | setTap record => exact ⟨_, rfl, h.command ownSetTap_view record⟩
  | clearTap record => exact ⟨_, rfl, h.command ownClearTap_view record⟩
  | readTap record => exact ⟨_, rfl, h.command ownReadTap_view record⟩
  | saveTap record => exact ⟨_, rfl, h.command ownReadTap_view record⟩
  | setTempo record => exact ⟨_, rfl, h.command ownSetTempo_view record⟩
  | tapTempo record => exact ⟨_, rfl, h.command ownTapTempo_view record⟩
  | setTempoSource record => exact ⟨_, rfl, h.command ownSetTempoSource_view record⟩
  | setMeter record => exact ⟨_, rfl, h.command ownSetMeter_view record⟩
  | resync record => exact ⟨_, rfl, h.command (fun _ _ => rfl) record⟩
  | readTempo record => exact ⟨_, rfl, h.command (fun _ _ => rfl) record⟩
  | setOsc record => exact ⟨_, rfl, h.command ownSetOsc_view record⟩
  | readOsc record => exact ⟨_, rfl, h.command ownReadOsc_view record⟩
  | pushScene record => exact ⟨_, rfl, h.command (fun _ _ => rfl) record⟩
  | popScene record => exact ⟨_, rfl, h.command ownPopScene_view record⟩
  | dropScene record => exact ⟨_, rfl, h.command ownDropScene_view record⟩
  | readScenes record => exact ⟨_, rfl, h.command (fun _ _ => rfl) record⟩
  | ackNotice record => exact ⟨_, rfl, h.command (fun _ _ => rfl) record⟩
  | setMask record => exact ⟨_, rfl, h.command (fun _ _ => rfl) record⟩
  | readFault record => exact ⟨_, rfl, h.command (fun _ _ => rfl) record⟩
  | clearFault record => exact ⟨_, rfl, h.command (fun _ _ => rfl) record⟩
  | partReset record =>
    refine ⟨_, rfl, ?_⟩
    split
    · exact h.same
    · have zeros : ∀ n, StartLawful (zerosOut n s) := fun _ => h.same
      split
      · exact (zeros _).partReset
      · split <;> exact h.same
  | dataByte e x =>
    refine ⟨_, rfl, ?_⟩
    split
    · exact h
    · exact h.setLink e rfl

/-- Settles O18: the law is kept command by command. -/
theorem everyStepKeepsTheStartLawful : Obligations.EveryStepKeepsTheStartLawful := by
  intro s t h e
  unfold step at e
  split at e
  · exact Host.Outcome.next.inj e ▸ h
  · next c rest _ =>
    have queued : StartLawful { s with pending := rest } := h.same
    obtain ⟨u, run, lawful⟩ := exec_startLawful c queued
    exact Host.Outcome.next.inj (run.symm.trans e) ▸ lawful

end Sys2Proof.Machine
end

section
/-! The word clock: the reset line (O3), real edges and the flywheel (O32 to O34), and the staging of a period size
(O35). -/

namespace Sys2Proof.Machine

/-! ### The reset line -/

/-- The page numbers are the numbers below 4096, in order. -/
theorem allPages_val : allPages.map (·.val) = List.range 4096 := by
  have number : ∀ n ∈ List.range 4096, (Fin.ofNat 4096 n).val = n := fun n hn =>
    Nat.mod_eq_of_lt (List.mem_range.mp hn)
  rw [allPages, List.map_map]
  exact (List.map_congr_left number).trans (List.map_id _)

/-- Settles O3, table by table. -/
theorem resetLineLeavesTheStatedState : Obligations.ResetLineLeavesTheStatedState := by
  intro s
  have queued : (resetLine s).pool.dirty = allPages.tail := by simp only [resetLine, State.reset, Pool.reset]
  have dirty : (resetLine s).pool.dirty.map (·.val) = List.range' 1 4095 := by
    rw [queued, List.map_tail, allPages_val, List.range_eq_range', List.tail_range']
  have line : ∀ l, (resetLine s).line l = Line.reset := fun l => by simp [resetLine, State.reset, State.line]
  have link : ∀ e, (resetLine s).link e = Link.reset := fun e => by simp [resetLine, State.reset, State.link]
  have tap : ∀ n, (resetLine s).tap n = Tap.reset := fun n => by simp [resetLine, State.reset, State.tap]
  have osc : ∀ m, (resetLine s).osc m = Osc.reset m := fun m => by simp [resetLine, State.reset, State.osc]
  exact ⟨resetLine s, rfl, rfl, line, rfl, rfl, rfl, rfl, rfl, rfl, rfl, rfl, rfl, dirty, rfl, link, tap, rfl, rfl, osc,
    rfl, rfl, rfl, rfl⟩

/-! ### Measuring (R1, R4) -/

/-- A first edge has no spacing, and one at the last edge's reading a spacing of 0. -/
theorem Timer.spacing_unoffered {t : Timer} {reading : Nat} (h : t.lastEdge = none ∨ t.lastEdge = some reading) :
    t.spacing reading = none ∨ t.spacing reading = some 0 := by
  rcases h with h | h <;> simp [Timer.spacing, h]

/-- A first edge and a spacing of 0 offer nothing to the relock run, nor fill or empty it. -/
theorem Timer.unoffered {t : Timer} {reading : Nat} (h : t.lastEdge = none ∨ t.lastEdge = some reading) :
    (t.measureOffer reading).relockRun = t.relockRun ∧ t.runFull reading = false ∧ t.runEmptied reading = false := by
  unfold Timer.measureOffer Timer.runFull Timer.runEmptied
  rcases Timer.spacing_unoffered h with h | h <;> rw [h] <;> exact ⟨rfl, rfl, rfl⟩

theorem Timer.measureOffer_samples (t : Timer) (reading : Nat) : (t.measureOffer reading).samples = t.samples := by
  rw [Timer.measureOffer_eq]

/-- A spacing that joins goes to the tail, the oldest of 64 leaving. -/
theorem Timer.offered_of_joins {t : Timer} {s : Nat} (h : t.joins s = true) :
    t.offered s = (if 64 ≤ t.relockRun.length then t.relockRun.tail else t.relockRun) ++ [s] := by
  unfold Timer.offered joinTail
  rw [if_pos h, List.drop_one]

/-- A spacing that does not join begins a new run. -/
theorem Timer.offered_of_not_joins {t : Timer} {s : Nat} (h : ¬t.joins s = true) : t.offered s = [s] := by
  unfold Timer.offered
  rw [if_neg h]

/-- A measured edge in LOCKED sets the last edge time and the window, and with the window M and the loss timer (R4). -/
theorem Timer.measureLocked_eq (t : Timer) (reading : Nat) : t.measureLocked reading =
    { t with
      lastEdge := some reading, window := (t.measureLocked reading).window
      mean := some ((t.measureLocked reading).window.sum / (t.measureLocked reading).window.length)
      lossTimer := some (reading +
        2 * ((t.measureLocked reading).window.sum / (t.measureLocked reading).window.length)) } := by
  unfold Timer.measureLocked
  simp only [meanSpacing_eq]

/-- A first edge and a spacing of 0 leave the window. -/
theorem Timer.measureLocked_unoffered {t : Timer} {reading : Nat} (h : t.lastEdge = none ∨ t.lastEdge = some reading) :
    (t.measureLocked reading).window = t.window := by
  unfold Timer.measureLocked
  rcases Timer.spacing_unoffered h with h | h <;> simp only [h]

/-- Another spacing joins the window, the oldest of 64 leaving. -/
theorem Timer.measureLocked_joins {t : Timer} {last reading : Nat} (h : t.lastEdge = some last) (hl : last < reading) :
    (t.measureLocked reading).window =
      (if 64 ≤ t.window.length then t.window.tail else t.window) ++ [reading - last] := by
  obtain ⟨n, hn⟩ : ∃ n, reading - last = n + 1 := ⟨reading - last - 1, by omega⟩
  have spacing : t.spacing reading = some (n + 1) := by simp [Timer.spacing, h, hn]
  unfold Timer.measureLocked
  rw [spacing, hn, ← List.drop_one]
  rfl

/-- A timer that locks takes its relock run as its window (R2, R6). -/
theorem Timer.lock_eq {t : Timer} (reading : Nat) {run : List Nat} (h : t.relockRun = run) : t.lock reading = { t with
    wclk := .locked, window := run, mean := some (run.sum / run.length), relockRun := [], relockReady := false
    lossTimer := some (reading + 2 * (run.sum / run.length)), flyTimer := none } := by
  unfold Timer.lock
  simp only [meanSpacing_eq, h]

/-! ### Edges and the tempo unit -/

/-- The tempo unit takes a sample edge of a part whose timer has moved as it takes that of the part. -/
theorem tempoEdge_withTimer (s : State) (x : Timer) : tempoEdge { s with timer := x } = { s with
    timer := x, tempo := (tempoEdge s).tempo, oscs := (tempoEdge s).oscs, notices := (tempoEdge s).notices } := by
  have moved : tempoEdge { s with timer := x } = { tempoEdge s with timer := x, links := s.links } :=
    tempoEdge_elsewhere s x s.links
  rw [moved]
  apply State.eq_of_fields <;> simp

/-- The edge count before the edge is B − 1 or more. -/
theorem edgeEnds_iff (s : State) : edgeEnds s = true ↔ s.size ≤ s.timer.edge + 1 := by
  unfold edgeEnds
  rw [decide_eq_true_iff]
  omega

/-- A counted edge that makes no boundary, of a part whose timer has moved. -/
theorem countedEdge_within_withTimer (s : State) (x : Timer) (order : EdgeOrder)
    (h : (edgeEnds { s with timer := x } && x.running) = false) :
    countedEdge false order { s with timer := x } = { s with
      timer := { x with
        samples := x.samples + 1, edge := if edgeEnds { s with timer := x } then 0 else x.edge + 1 }
      tempo := (tempoEdge s).tempo, oscs := (tempoEdge s).oscs, notices := (tempoEdge s).notices
      links := s.links.map Link.edge } := by
  rw [countedEdge_within _ order h, tempoEdge_withTimer]

/-- A counted edge that makes a boundary (R2, R3). -/
theorem countedEdge_boundary (zero : Bool) (order : EdgeOrder) (s : State)
    (h : (zero || (edgeEnds s && s.timer.running)) = true) :
    countedEdge zero order s = edgeAfter order (boundaryAround order zero (edgeBefore order (countSample s))) := by
  have timer : (edgeBefore order (countSample s)).timer = (countSample s).timer := by simp
  have ends : edgeEnds (edgeBefore order (countSample s)) = edgeEnds s := by simp [edgeEnds, State.size, countSample]
  have running : (edgeBefore order (countSample s)).timer.running = s.timer.running := by rw [timer]; rfl
  unfold countedEdge countEdge
  rw [ends, running, if_pos h]

/-- What a boundary made by an edge leaves the timer. -/
theorem edgeBoundary_timer (order : EdgeOrder) (zero : Bool) (s : State) :
    (edgeAfter order (boundaryAround order zero (edgeBefore order s))).timer =
      s.timer.boundary zero (tablesQuiet (edgeBefore order s)) (sizeAfter (edgeBefore order s)) := by
  rw [(edgeAfter_frame order _).1, boundaryAround_timer, boundary_timer, (edgeBefore_frame order s).1]

/-! ### Real edges by the word-clock state -/

theorem exec_realEdge_unlocked {s : State} (reading : Nat) (order : EdgeOrder) (h : s.timer.wclk = .unlocked) :
    exec (.realEdge reading order) s = .next (edgeUnlocked reading s) := by
  show execRealEdge reading order s = _
  rw [execRealEdge, h]

theorem exec_realEdge_locked {s : State} (reading : Nat) (order : EdgeOrder) (h : s.timer.wclk = .locked) :
    exec (.realEdge reading order) s = .next (edgeLocked reading order s) := by
  show execRealEdge reading order s = _
  rw [execRealEdge, h]

theorem exec_realEdge_flywheel {s : State} (reading : Nat) (order : EdgeOrder) (h : s.timer.wclk = .flywheel) :
    exec (.realEdge reading order) s = .next (edgeFlywheel reading s) := by
  show execRealEdge reading order s = _
  rw [execRealEdge, h]

/-- Settles O32: an edge in UNLOCKED is measured and handed to the tempo unit alone. -/
theorem unlockedEdgesAreMeasured : Obligations.UnlockedEdgesAreMeasured := by
  refine ⟨fun t reading => ⟨?_, t.measureOffer_eq reading, fun h => (Timer.unoffered h).1, ?_⟩, ?_⟩
  · exact congrArg Timer.lastEdge (t.measureOffer_eq reading)
  · intro last hlast hlt s m
    rw [measure_run hlast hlt]
    refine ⟨fun hr => ?_, fun _ hc => ?_, fun hr hc => ?_⟩
    · rw [Timer.offered_of_joins ((joins_iff t s).mpr (.inl hr)), hr]
      rfl
    · exact Timer.offered_of_joins ((joins_iff t s).mpr (.inr hc))
    · refine Timer.offered_of_not_joins fun hj => ?_
      exact ((joins_iff t s).mp hj).elim hr fun hle => absurd hle (Nat.not_le.mpr hc)
  · intro s reading order hu timer m before joins full
    have full_iff : s.timer.runFull reading = true ↔ full := runFull_iff s.timer reading
    have samples : timer.samples = s.timer.samples := s.timer.measureOffer_samples reading
    have edge : edgeUnlocked reading s = _ := tempoEdge_withTimer s _
    refine ⟨_, exec_realEdge_unlocked reading order hu, ?_, fun hn => ?_, fun hf => ?_⟩
    · rw [edge]
    · rw [edge, if_neg (mt full_iff.mp hn), ← samples]
    · rw [edge, if_pos (full_iff.mpr hf), ← samples]
      rw [Timer.lock_eq reading rfl]

/-- Settles O33, from the counted edge within a period and at its end. -/
theorem lockedEdgesAreCountedAndMakeBoundaries : Obligations.LockedEdgesAreCountedAndMakeBoundaries := by
  refine ⟨fun s reading order hlocked hrunning hedge => ?_, fun s reading order hlocked hends => ?_⟩
  · have within : edgeEnds { s with timer := s.timer.measureLocked reading } = false := by
      rw [← Bool.not_eq_true, edgeEnds_iff]
      exact Nat.not_le.mpr hedge
    have counted := countedEdge_within_withTimer s (s.timer.measureLocked reading) order (by rw [within]; rfl)
    have edge : edgeLocked reading order s =
        countedEdge false order { s with timer := s.timer.measureLocked reading } := by
      unfold edgeLocked
      rw [hrunning]
      rfl
    refine ⟨_, exec_realEdge_locked reading order hlocked, ?_, ?_, ?_, ?_⟩ <;> rw [edge, counted]
    · rw [within]
      exact congrArg (fun t : Timer => { t with samples := t.samples + 1, edge := t.edge + 1 })
        (s.timer.measureLocked_eq reading)
    · exact Timer.measureLocked_unoffered
    · exact fun last => Timer.measureLocked_joins
  · rw [exec_realEdge_locked reading order hlocked]
    have makes : (!s.timer.running ||
        (edgeEnds { s with timer := s.timer.measureLocked reading } && s.timer.running)) = true := by
      rcases hends with h | h
      · rw [h]; rfl
      · rw [(edgeEnds_iff { s with timer := s.timer.measureLocked reading }).mpr h.ge, Bool.true_and, Bool.not_or_self]
    exact congrArg Host.Outcome.next (countedEdge_boundary (!s.timer.running) order _ makes)

/-! ### The period size -/

theorem PeriodSize.ofNat?_toNat (b : PeriodSize) : PeriodSize.ofNat? (argByte (bytesOf 1 b.toNat) 0) = some b := by
  cases b <;> rfl

theorem PeriodSize.ofNat?_none {x : Byte} (h16 : x ≠ 16) (h32 : x ≠ 32) (h64 : x ≠ 64) :
    PeriodSize.ofNat? (argByte [x] 0) = none := by
  have number : ∀ y : Byte, x ≠ y → x.toNat ≠ y.toNat := fun y hy e => hy (BitVec.eq_of_toNat_eq e)
  have h16 : x.toNat ≠ 16 := number 16 h16
  have h32 : x.toNat ≠ 32 := number 32 h32
  have h64 : x.toNat ≠ 64 := number 64 h64
  show PeriodSize.ofNat? x.toNat = none
  unfold PeriodSize.ofNat?
  split
  · contradiction
  · contradiction
  · contradiction
  · rfl

/-- SET_PERIOD in NORMAL with one argument byte is the timer's to answer. -/
theorem exec_setPeriod_answers {s : State} (h : takesCommands s = true) {args : List Byte} (hn : args.length = 1) :
    exec (.setPeriod (whole args)) s = .next (answer 0x01 (ownSetPeriod args (hold 0x01 (wrote 1 s)))) := by
  obtain ⟨free, normal⟩ := (takesCommands_iff s).mp h
  exact congrArg Host.Outcome.next (writeCommand_answers free (by decide) hn (taken_of_normal normal _) _)

/-- An ACTIVE line, or a tap that is not IDLE, and the tables are not quiet. -/
theorem tablesQuiet_false {s : State} (h : (∃ l, (s.line l).state = .active) ∨ ∃ t, (s.tap t).state ≠ .idle) :
    tablesQuiet s = false := by
  refine Bool.eq_false_iff.mpr fun hq => ?_
  obtain ⟨free, idle⟩ := (tablesQuiet_iff s).mp hq
  rcases h with ⟨l, hl⟩ | ⟨t, ht⟩
  · exact absurd ((free l).symm.trans hl) (by decide)
  · exact ht (idle t)

theorem countShort_mask (s : State) (e : Engine) : (countShort s e).notices.mask = s.notices.mask := by
  unfold countShort advanceCounter
  dsimp only
  rw [raise_mask]
  split <;> rfl

theorem cutAtBoundary_mask (period : PeriodCount) (s : State) :
    (cutAtBoundary period s).notices.mask = s.notices.mask := by
  have pass : (cutPass s).notices.mask = s.notices.mask := by
    unfold cutPass
    split
    · rfl
    · simp
  unfold cutAtBoundary
  exact (foldl_keeps (fun t : State => t.notices.mask) _ countShort_mask _ _).trans
    ((foldl_keeps (fun t : State => t.notices.mask) (shortFrame period) (fun _ _ => rfl) _ _).trans pass)

theorem linkBoundary_mask (s : State) (e : Engine) : (linkBoundary s e).notices.mask = s.notices.mask := by
  unfold linkBoundary
  dsimp only
  split <;> rfl

theorem linksBoundary_mask (s : State) : (linksBoundary s).notices.mask = s.notices.mask := by
  unfold linksBoundary
  exact foldl_keeps (fun t : State => t.notices.mask) linkBoundary linkBoundary_mask allEngines s

/-- A boundary masks and unmasks no source. -/
theorem boundary_mask (zero : Bool) (s : State) : (boundary zero s).notices.mask = s.notices.mask := by
  have closed : ∀ z t, (closeLines z t).notices = t.notices := by simp
  have start : (boundaryStart zero s).notices.mask = s.notices.mask := by
    unfold boundaryStart
    rw [closed, linksBoundary_mask, cutAtBoundary_mask]
  unfold boundary
  simpa using start

/-- Settles O35, by whether the tables are quiet. -/
theorem periodSizesAreStagedAndTaken : Obligations.PeriodSizesAreStagedAndTaken := by
  refine ⟨fun s takes => ⟨fun free idle b => ?_, fun busy b => ?_, fun x h16 h32 h64 => ?_⟩, fun s zero => ?_⟩
  · have quiet : tablesQuiet (hold 0x01 (wrote 1 s)) = true := (tablesQuiet_iff s).mpr ⟨free, idle⟩
    rw [exec_setPeriod_answers takes (bytesOf_length 1 _), ownSetPeriod, PeriodSize.ofNat?_toNat]
    dsimp only
    rw [quiet]
    rfl
  · have busy : tablesQuiet (hold 0x01 (wrote 1 s)) = false := tablesQuiet_false busy
    rw [exec_setPeriod_answers takes (bytesOf_length 1 _), ownSetPeriod, PeriodSize.ofNat?_toNat]
    dsimp only
    rw [busy]
    rfl
  · rw [exec_setPeriod_answers takes rfl, ownSetPeriod, PeriodSize.ofNat?_none h16 h32 h64]
    rfl
  · intro t
    have timer : t = s.timer.boundary zero (tablesQuiet s) (sizeAfter s) := boundary_timer zero s
    have whole : t = { s.timer with
        period := if zero then 0 else s.timer.period + 1
        edge := 0, running := s.timer.running || zero, size := t.size, stagedSize := t.stagedSize } := by
      rw [timer]
      rfl
    refine ⟨whole, by simp, by simp, by simp, by simp, by simp, by simp, boundary_mask zero s,
      fun b staged free idle => ?_, fun stays => ?_⟩
    · have quiet : tablesQuiet s = true := (tablesQuiet_iff s).mpr ⟨free, idle⟩
      rw [timer, quiet, sizeAfter, staged, quiet]
      exact ⟨rfl, rfl⟩
    · rw [timer]
      rcases stays with unstaged | busy
      · refine ⟨?_, ?_⟩
        · show sizeAfter s = _
          rw [sizeAfter, unstaged]
        · show (if tablesQuiet s then none else s.timer.stagedSize) = _
          rw [unstaged, ite_self]
      · have busy := tablesQuiet_false busy
        rw [busy]
        refine ⟨?_, rfl⟩
        show sizeAfter s = _
        rw [sizeAfter, busy]
        cases s.timer.stagedSize <;> rfl

/-! ### The flywheel -/

/-- A flywheel edge at B − 1 makes a boundary with periods running, and before boundary 0 goes round (log 6). -/
theorem countedEdge_ends_withTimer (s : State) (x : Timer) (order : EdgeOrder)
    (ends : edgeEnds { s with timer := x } = true) :
    countedEdge false order { s with timer := x } =
      if x.running then
        edgeAfter order (boundaryAround order false (edgeBefore order
          { s with timer := { x with samples := x.samples + 1 } }))
      else { s with
        timer := { x with samples := x.samples + 1, edge := 0 }
        tempo := (tempoEdge s).tempo, oscs := (tempoEdge s).oscs, notices := (tempoEdge s).notices
        links := s.links.map Link.edge } := by
  have counted : countSample { s with timer := x } = { s with timer := { x with samples := x.samples + 1 } } := rfl
  by_cases hr : x.running = true
  · rw [if_pos hr, countedEdge_boundary false order _ (by rw [ends, hr]; rfl), counted]
  · have within : (edgeEnds { s with timer := x } && x.running) = false := by
      rw [Bool.not_eq_true] at hr
      rw [hr, Bool.and_false]
    rw [if_neg hr, countedEdge_within_withTimer s x order within, if_pos ends]

/-- No counted edge touches the relock run. -/
theorem countedEdge_relockRun (zero : Bool) (order : EdgeOrder) (s : State) :
    (countedEdge zero order s).timer.relockRun = s.timer.relockRun := by
  have before : (edgeBefore order (countSample s)).timer.relockRun = s.timer.relockRun := by simp [countSample]
  unfold countedEdge countEdge
  rw [(edgeAfter_frame order _).1]
  split
  · rw [boundaryAround_timer, boundary_timer]
    exact before
  · exact before

theorem exec_lossTimerExpiry_locked {s : State} {expiry : Nat} (order : EdgeOrder) (h : s.timer.wclk = .locked)
    (ha : s.timer.lossTimer = some expiry) : exec (.lossTimerExpiry order) s = .next (loseClock expiry order s) := by
  show execLossTimerExpiry order s = _
  rw [execLossTimerExpiry, h, ha]

theorem exec_flywheelEdge_flywheel {s : State} {expiry : Nat} (order : EdgeOrder) (h : s.timer.wclk = .flywheel)
    (ha : s.timer.flyTimer = some expiry) : exec (.flywheelEdge order) s = .next (turnFlywheel expiry order s) := by
  show execFlywheelEdge order s = _
  rw [execFlywheelEdge, h, ha]

/-- Relock ready after a real edge in FLYWHEEL with a spacing (R5): set where the run is full, cleared where it is
emptied. -/
theorem relockReady_after {t : Timer} {last reading : Nat} (hlast : t.lastEdge = some last) (hlt : last < reading) :
    let m := t.relockRun.sum / t.relockRun.length
    let empties := t.relockRun ≠ [] ∧ m < 64 * (((reading - last : Nat) : Int) - m).natAbs
    let ready := (t.relockReady || t.runFull reading) && !t.runEmptied reading
    (empties → ready = false) ∧
    (¬empties → (t.measureOffer reading).relockRun.length = 64 → ready = true) ∧
    (¬empties → (t.measureOffer reading).relockRun.length ≠ 64 → ready = t.relockReady) := by
  intro m empties ready
  have emptied : t.runEmptied reading = true ↔ empties := by
    rw [runEmptied_iff]
    exact ⟨fun ⟨l, hl, _, h⟩ => by cases hlast.symm.trans hl; exact h, fun h => ⟨last, hlast, hlt, h⟩⟩
  have stays : ¬empties → ready = (t.relockReady || t.runFull reading) := fun h => by
    have : t.runEmptied reading = false := Bool.eq_false_iff.mpr (mt emptied.mp h)
    simp only [ready, this, Bool.not_false, Bool.and_true]
  refine ⟨fun h => ?_, fun h hfull => ?_, fun h hnot => ?_⟩
  · simp only [ready, emptied.mpr h, Bool.not_true, Bool.and_false]
  · have joins : t.relockRun = [] ∨ 64 * (((reading - last : Nat) : Int) - m).natAbs ≤ m := by
      by_contra hj
      rw [not_or, Nat.not_le] at hj
      exact h hj
    rw [stays h, (runFull_iff t reading).mpr ⟨⟨last, hlast, hlt, joins⟩, hfull⟩, Bool.or_true]
  · have : t.runFull reading = false := Bool.eq_false_iff.mpr fun hf => hnot ((runFull_iff t reading).mp hf).2
    rw [stays h, this, Bool.or_false]

/-- Settles O34, from the counted edge within a period and at its end, and the run that makes relock ready. -/
theorem theFlywheelTakesOverTurnsAndRelocks : Obligations.TheFlywheelTakesOverTurnsAndRelocks := by
  refine ⟨?loss, ?fly, ?boundary⟩
  case loss =>
    intro s expiry order hlocked harmed lost counted
    rw [exec_lossTimerExpiry_locked order hlocked harmed]
    have ends := edgeEnds_iff { s with timer := { lost with samples := s.timer.samples } }
    have within := countedEdge_within_withTimer s { lost with samples := s.timer.samples } order
    have atEnd := countedEdge_ends_withTimer s { lost with samples := s.timer.samples } order
    refine ⟨fun hedge => ?_, fun hedge hr => ?_, fun hedge hr => ?_⟩
    · have notEnds := Bool.eq_false_iff.mpr (mt ends.mp (Nat.not_le.mpr hedge))
      rw [notEnds] at within
      exact congrArg (fun u => Host.Outcome.next (raise .wclkLost u)) (within rfl)
    · have edge := atEnd (ends.mpr hedge.ge)
      rw [if_neg (by rw [Bool.not_eq_true]; exact hr)] at edge
      exact congrArg (fun u => Host.Outcome.next (raise .wclkLost u)) edge
    · have edge := atEnd (ends.mpr hedge.ge)
      rw [if_pos hr] at edge
      exact congrArg (fun u => Host.Outcome.next (raise .wclkLost u)) edge
  case fly =>
    intro s order hfly
    refine ⟨fun expiry harmed => ?_, fun reading => ?_⟩
    · intro turned counted m relocked ended
      rw [exec_flywheelEdge_flywheel order hfly harmed]
      have ends := edgeEnds_iff s
      have within := countedEdge_within_withTimer s { turned with samples := s.timer.samples } order
      have atEnd := countedEdge_ends_withTimer s { turned with samples := s.timer.samples } order
      have run := countedEdge_relockRun false order { s with timer := { turned with samples := s.timer.samples } }
      refine ⟨fun hedge => ?_, fun hedge hready => ?_, fun hedge hready => ?_⟩
      · have notEnds : edgeEnds s = false := Bool.eq_false_iff.mpr (mt ends.mp (Nat.not_le.mpr hedge))
        rw [show edgeEnds { s with timer := { turned with samples := s.timer.samples } } = false from notEnds] at within
        unfold turnFlywheel
        rw [notEnds, Bool.and_false]
        exact congrArg Host.Outcome.next (within rfl)
      · unfold turnFlywheel
        rw [hready]
        exact congrArg Host.Outcome.next (atEnd (ends.mpr hedge.ge))
      · have edge := atEnd (ends.mpr hedge.ge)
        unfold turnFlywheel
        rw [hready, ends.mpr hedge.ge]
        rw [edge] at run
        refine (congrArg (fun u => Host.Outcome.next (relock expiry u)) edge).trans ?_
        exact congrArg (fun x => Host.Outcome.next (raise .wclkRestored { ended with timer := x }))
          (Timer.lock_eq expiry run)
    · rw [exec_realEdge_flywheel reading order hfly]
      refine ⟨_, rfl, fun h => ?_, fun last hlast hlt => relockReady_after hlast hlt⟩
      obtain ⟨_, notFull, notEmptied⟩ := Timer.unoffered h
      rw [notFull, notEmptied, Bool.or_false, Bool.not_false, Bool.and_true]
  case boundary =>
    intro s order zero t
    have timer : t.timer = _ := edgeBoundary_timer order zero s
    rw [timer]
    exact ⟨rfl, rfl, rfl, rfl, rfl, rfl, rfl, rfl, rfl, rfl, rfl, rfl⟩

end Sys2Proof.Machine
end

section
/-! O9. The reading commands: what each answers, by the command, and their items in the order their rules list them. -/

namespace Sys2Proof.Machine

/-! ### How a reading command answers -/

/-- A command that SAFE takes is taken in either mode (R172). -/
theorem taken_of_safe (s : State) {code : Byte} (h : takenInSafe code = true) :
    (s.inSafe && !takenInSafe code) = false := by
  rw [h, Bool.not_true, Bool.and_false]

/-- A command whose owner answers OK and changes nothing completes with the owner's items. -/
theorem command_returns {s : State} (hf : mailboxFree s = true) {code : Byte} {n : Nat} (h : (code, n) ∈ commandTable)
    {args : List Byte} (hn : args.length = n) (hm : (s.inSafe && !takenInSafe code) = false)
    {owner : List Byte → State → Reply × State} {items : List Byte}
    (ho : owner args (hold code (wrote n s)) = okBytes items (hold code (wrote n s))) :
    (.next (writeCommand code owner (whole args) s) : Host.Outcome State Fault Refusal) =
      .next (complete code .ok 0 items (wrote n s)) := by
  rw [writeCommand_answers hf h hn hm, ho]
  rfl

/-- A command whose owner refuses the arguments completes with BAD_ARG. -/
theorem command_refuses {s : State} (hf : mailboxFree s = true) {code : Byte} {n : Nat} (h : (code, n) ∈ commandTable)
    {args : List Byte} (hn : args.length = n) (hm : (s.inSafe && !takenInSafe code) = false)
    {owner : List Byte → State → Reply × State}
    (ho : owner args (hold code (wrote n s)) = refuse .badArg (hold code (wrote n s))) :
    (.next (writeCommand code owner (whole args) s) : Host.Outcome State Fault Refusal) =
      .next (complete code .badArg 0 [] (wrote n s)) := by
  rw [writeCommand_answers hf h hn hm, ho]
  rfl

/-! ### Numbers in the argument bytes -/

/-- A number that fits in a byte reads back. -/
theorem argByte_ofNat {v : Nat} (h : v < 256) (rest : List Byte) : argByte (BitVec.ofNat 8 v :: rest) 0 = v :=
  Nat.mod_eq_of_lt h

/-- A two-byte number above 511 begins with a byte of 2 or more. -/
theorem argField_above {hi lo : Byte} (h : 2 ≤ hi.toNat) : 511 < argField [hi, lo] 0 2 := by
  have value : argField [hi, lo] 0 2 = (0 * 256 + hi.toNat) * 256 + lo.toNat := rfl
  omega

/-! ### The owners -/

theorem ownReadLine_names (l : LineNo) (i : Byte) (s : State) :
    ownReadLine [BitVec.ofNat 8 l.val, i] s = okBytes (lineBytes l i.toNat s) s := by
  have number := argByte_ofNat (Nat.lt_trans l.isLt (by decide : 128 < 256)) [i]
  unfold ownReadLine
  rw [number, if_neg (Nat.not_lt.mpr (Nat.le_of_lt_succ l.isLt)), Fin.ofNat_val_eq_self]
  rfl

theorem ownReadLink_names (e : Engine) (s : State) :
    ownReadLink [BitVec.ofNat 8 e.val] s = okBytes (linkBytes e s) s := by
  have number := argByte_ofNat (Nat.lt_trans e.isLt (by decide : 4 < 256)) []
  unfold ownReadLink
  rw [number, if_neg (Nat.not_lt.mpr (Nat.le_of_lt_succ e.isLt)), Fin.ofNat_val_eq_self]

theorem ownReadOsc_names (m : OscNo) (s : State) :
    ownReadOsc [BitVec.ofNat 8 m.val] s = okBytes (s.osc m).bytes s := by
  have number := argByte_ofNat (Nat.lt_trans m.isLt (by decide : 16 < 256)) []
  unfold ownReadOsc
  rw [number, if_neg (Nat.not_lt.mpr (Nat.le_of_lt_succ m.isLt)), Fin.ofNat_val_eq_self]

theorem ownReadTap_names (t : TapNo) (s : State) : ownReadTap (bytesOf 2 t.val) s = okBytes (s.tap t).bytes s := by
  have number := argField_tap t []
  have tap := argTap_bytes t []
  rw [List.append_nil] at number tap
  unfold ownReadTap
  rw [number, if_neg (Nat.not_lt.mpr (Nat.le_of_lt_succ t.isLt)), tap]

theorem ownReadTap_refuses {hi lo : Byte} (h : 2 ≤ hi.toNat) (s : State) :
    ownReadTap [hi, lo] s = refuse .badArg s := by
  unfold ownReadTap
  rw [if_pos (argField_above h)]

/-- READ_COUNTERS with an engine and a mode in range (R176). -/
theorem ownReadCounters_names (e : Engine) {mode : Byte} (h : mode.toNat ≤ 2) (s : State) :
    ownReadCounters [BitVec.ofNat 8 e.val, mode] s = okBytes (s.link e).counters.bytes
      (s.setLink e { s.link e with counters := (s.link e).counters.after mode.toNat }) := by
  have number := argByte_ofNat (Nat.lt_trans e.isLt (by decide : 4 < 256)) [mode]
  have asked : argByte [BitVec.ofNat 8 e.val, mode] 1 = mode.toNat := rfl
  have inRange : ¬(3 < e.val ∨ 2 < mode.toNat) := by omega
  unfold ownReadCounters
  rw [number, asked, if_neg inRange, Fin.ofNat_val_eq_self]

/-- READ_COUNTERS in a mode answers the counters as they stood and leaves them as the mode says (R176). -/
theorem exec_readCounters {s : State} (hf : mailboxFree s = true) (e : Engine) {mode : Byte} (h : mode.toNat ≤ 2) :
    exec (.readCounters (whole [BitVec.ofNat 8 e.val, mode])) s = .next (complete 0x22 .ok 0 (s.link e).counters.bytes
      ((wrote 2 s).setLink e { s.link e with counters := (s.link e).counters.after mode.toNat })) := by
  refine congrArg Host.Outcome.next ?_
  rw [writeCommand_answers (n := 2) hf (by decide) rfl (taken_of_safe s rfl), ownReadCounters_names e h]
  rfl

/-- Settles O9, command by command. -/
theorem readCommandsReturnRecords : Obligations.ReadCommandsReturnRecords := by
  refine ⟨fun n v => ⟨bytesOf_length n v, bytesOf_byte n v⟩, fun n v => ⟨rfl, rfl⟩, rfl, rfl,
    ⟨rfl, rfl, rfl, rfl, rfl, rfl, rfl, rfl, rfl, rfl, rfl, rfl, rfl, rfl, rfl, rfl, rfl, rfl, rfl⟩, ?_⟩
  intro s hf returns refuses tally part tapItems settingItems
  refine ⟨?clock, ?line, ?lineRange, ?pool, ?poolRange, ?link, ?linkRange, ?tap, ?tapRange, ?saved, ?tempo, ?osc,
    ?oscRange, ?scenes, ?fault, ?counters, ?countersRange⟩
  case clock => exact command_returns hf (by decide) rfl (taken_of_safe s rfl) rfl
  case line =>
    intro l i line owed
    refine command_returns (n := 2) hf (by decide) rfl (taken_of_safe s rfl) ((ownReadLine_names l i _).trans ?_)
    exact congrArg (okBytes · _) (lineBytes_items l i.toNat s)
  case lineRange => exact fun l i h => command_refuses (n := 2) hf (by decide) rfl (taken_of_safe s rfl) (if_pos h)
  case pool =>
    intro i h
    refine command_returns (n := 1) hf (by decide) rfl (taken_of_safe s rfl) ((if_neg (Nat.not_lt.mpr h)).trans ?_)
    exact congrArg (okBytes · _) (poolBytes_items i.toNat s)
  case poolRange => exact fun i h => command_refuses (n := 1) hf (by decide) rfl (taken_of_safe s rfl) (if_pos h)
  case link =>
    intro e k staged
    refine command_returns (n := 1) hf (by decide) rfl (taken_of_safe s rfl) ((ownReadLink_names e _).trans ?_)
    exact congrArg (okBytes · _) (linkBytes_items e s)
  case linkRange => exact fun e h => command_refuses (n := 1) hf (by decide) rfl (taken_of_safe s rfl) (if_pos h)
  case tap =>
    intro t
    refine command_returns (n := 2) hf (by decide) (bytesOf_length 2 _) (taken_of_safe s rfl)
      ((ownReadTap_names t _).trans ?_)
    exact congrArg (okBytes · _) (tapBytes_items (s.tap t))
  case tapRange =>
    exact fun hi lo h => command_refuses (n := 2) hf (by decide) rfl (taken_of_safe s rfl) (ownReadTap_refuses h _)
  case saved =>
    intro normal
    refine ⟨fun t => ?_, fun hi lo h => ?_⟩
    · refine command_returns (n := 2) hf (by decide) (bytesOf_length 2 _) (taken_of_normal normal _)
        ((ownReadTap_names t _).trans ?_)
      exact congrArg (okBytes · _) (tapBytes_items (s.tap t))
    · exact command_refuses (n := 2) hf (by decide) rfl (taken_of_normal normal _) (ownReadTap_refuses h _)
  case tempo =>
    exact command_returns hf (by decide) rfl (taken_of_safe s rfl) (congrArg (okBytes · _) (tempoBytes_items s.tempo))
  case osc =>
    intro m o
    refine command_returns (n := 1) hf (by decide) rfl (taken_of_safe s rfl) ((ownReadOsc_names m _).trans ?_)
    exact congrArg (okBytes · _) (oscBytes_items (s.osc m))
  case oscRange => exact fun m h => command_refuses (n := 1) hf (by decide) rfl (taken_of_safe s rfl) (if_pos h)
  case scenes =>
    exact command_returns hf (by decide) rfl (taken_of_safe s rfl)
      (congrArg (fun f => okBytes (bytesOf 1 s.scenes.length ++ s.scenes.flatMap f) _) (funext sceneBytes_items))
  case fault =>
    refine command_returns hf (by decide) rfl (taken_of_safe s rfl) (congrArg (okBytes · _) ?_)
    show s.faults.bytes = _
    unfold FaultUnit.bytes
    cases s.faults.first <;> rfl
  case counters =>
    intro e k c shown taken cleared
    exact ⟨exec_readCounters hf e (by decide), exec_readCounters hf e (by decide), exec_readCounters hf e (by decide)⟩
  case countersRange =>
    exact fun e mode h => command_refuses (n := 2) hf (by decide) rfl (taken_of_safe s rfl) (if_pos h)

end Sys2Proof.Machine
end

section
/-! O58. What every operation leaves of the tap records (R81, R109 to R121): each tap that a command or a boundary writes
keeps its law and names only ACTIVE lines, and no line that a tap names is freed. -/

namespace Sys2Proof.Machine

/-! ### The law, tap by tap -/

/-- What the law asks of one tap record of a part: its own law, and that it names ACTIVE lines alone (R81). -/
structure TapStands (s : State) (t : Tap) : Prop where
  lawful : t.Lawful
  named : ∀ l, t.names l = true → (s.line l).state = .active

/-- Every set of a scene fades well. -/
def Scene.fadesWell (e : Scene) : Prop := ∀ t : TapNo, (e.sets[t.val]).fadesWell = true

theorem tapsLawful_iff (s : State) :
    TapsLawful s ↔ (∀ t, TapStands s (s.tap t)) ∧ ∀ e ∈ s.scenes, e.fadesWell := by
  constructor
  · rintro ⟨taps, scenes, current, oldSide, pending, staged⟩
    have named := (namesActive_iff s).mpr ⟨current, oldSide, pending, staged⟩
    exact ⟨fun t => ⟨taps t, named t⟩, scenes⟩
  · rintro ⟨stands, scenes⟩
    obtain ⟨current, oldSide, pending, staged⟩ := (namesActive_iff s).mp fun t => (stands t).named
    exact ⟨fun t => (stands t).lawful, scenes, current, oldSide, pending, staged⟩

theorem TapsLawful.stands {s : State} (h : TapsLawful s) (t : TapNo) : TapStands s (s.tap t) :=
  ((tapsLawful_iff s).mp h).1 t

/-- A record stands as long as no ACTIVE line is freed; its CLAMPED indicator does not matter. -/
theorem TapStands.next {s u : State} {x y : Tap} (h : TapStands s x)
    (lines : ∀ l, (s.line l).state = .active → (u.line l).state = .active)
    (same : { y with clamped := false } = { x with clamped := false }) : TapStands u y := by
  obtain ⟨⟨fade, noFade, oldSide, pending, runFlag, current, staged, preset, waiting⟩, named⟩ := h
  obtain ⟨_, _, _, _, _, _, _, _, _, _⟩ := x
  obtain ⟨_, _, _, _, _, _, _, _, _, _⟩ := y
  simp only [Tap.mk.injEq, and_true] at same
  obtain ⟨rfl, rfl, rfl, rfl, rfl, rfl, rfl, rfl, rfl⟩ := same
  exact ⟨⟨fade, noFade, oldSide, pending, runFlag, current, staged, preset, waiting⟩, fun l hl => lines l (named l hl)⟩

/-- An operation that frees no line, leaves the tap records but for the CLAMPED indicators and leaves the scenes keeps the
law. -/
theorem TapsLawful.next {s u : State} (h : TapsLawful s)
    (lines : ∀ l, (s.line l).state = .active → (u.line l).state = .active)
    (taps : ∀ t, { u.tap t with clamped := false } = { s.tap t with clamped := false })
    (scenes : u.scenes = s.scenes := by simp) : TapsLawful u :=
  (tapsLawful_iff u).mpr ⟨fun t => (h.stands t).next lines (taps t), by rw [scenes]; exact h.scenes⟩

/-- The same of an operation that leaves the tap records whole. -/
theorem TapsLawful.keepTaps {s u : State} (h : TapsLawful s)
    (lines : ∀ l, (s.line l).state = .active → (u.line l).state = .active)
    (taps : u.taps = s.taps := by simp) (scenes : u.scenes = s.scenes := by simp) : TapsLawful u :=
  h.next lines (fun t => by rw [State.tap_of_taps taps]) scenes

/-- The same of an operation that leaves the line table. -/
theorem TapsLawful.keepLines {s u : State} (h : TapsLawful s)
    (taps : ∀ t, { u.tap t with clamped := false } = { s.tap t with clamped := false })
    (lines : u.lines = s.lines := by simp) (scenes : u.scenes = s.scenes := by simp) : TapsLawful u :=
  h.next (fun l hl => by rw [State.line_of_lines lines]; exact hl) taps scenes

/-- The same of an operation that leaves both tables. -/
theorem TapsLawful.same {s u : State} (h : TapsLawful s) (taps : u.taps = s.taps := by simp)
    (lines : u.lines = s.lines := by simp) (scenes : u.scenes = s.scenes := by simp) : TapsLawful u :=
  h.keepLines (fun t => by rw [State.tap_of_taps taps]) lines scenes

/-- Settling writes no tap, no line and no scene. -/
theorem TapsLawful.settle {s : State} (h : TapsLawful s) : TapsLawful (settle s) := h.same

/-- A line written keeps the law unless it frees the line. -/
theorem TapsLawful.setLine {s : State} (h : TapsLawful s) (l : LineNo) {x : Line}
    (hx : (s.line l).state = .active → x.state = .active) : TapsLawful (s.setLine l x) :=
  h.keepTaps fun m hm => by
    rw [State.line_setLine]
    split
    · next e => exact hx (e ▸ hm)
    · exact hm

/-- A part whose tap records are all as a reset leaves them, and whose scene stack is empty, keeps the law. -/
theorem TapsLawful.of_reset {s : State} (taps : ∀ t, s.tap t = Tap.reset) (scenes : s.scenes = []) : TapsLawful s := by
  have stands : TapStands s Tap.reset :=
    ⟨⟨by decide, by decide, rfl, by decide, rfl, by decide, rfl, by simp [Tap.reset], rfl⟩,
      fun l hl => by simp [Tap.names, Tap.reset, Edit.set?] at hl⟩
  exact (tapsLawful_iff s).mpr ⟨fun t => by rw [taps t]; exact stands, by simp [scenes]⟩

/-! ### Staged edits (R82, R84) -/

/-- A set that may be staged: it fades well and names an ACTIVE line. -/
structure SetStands (s : State) (p : ParamSet) : Prop where
  well : p.fadesWell = true
  active : (s.line p.line).state = .active

/-- An edit staged for a tap, replacing any held: the law asks of it its set alone. -/
theorem TapsLawful.stageEdit {s : State} (h : TapsLawful s) (t : TapNo) {edit : Edit}
    (set : ∀ p, Edit.set? (some edit) = some p → SetStands s p) (preset : ∀ p, edit = .preset p → p.run = false) :
    TapsLawful (stageEdit t edit s) := by
  refine (tapsLawful_iff _).mpr ⟨fun u => ?_, h.scenes⟩
  have staged : ((Machine.stageEdit t edit s).tap u) = if u = t then { s.tap t with staged := some edit } else s.tap u :=
    State.tap_setTap s t u _
  rw [staged]
  split
  · obtain ⟨law, named⟩ := h.stands t
    refine ⟨⟨law.fade, law.noFade, law.oldSide, law.pendingTarget, law.runFlag, law.current, ?_, ?_, law.waiting⟩, ?_⟩
    · exact (Option.all_eq_true _ _).mpr fun p hp => (set p hp).well
    · exact fun p hp => preset p (Option.some.inj hp)
    · intro l hl
      rcases (Tap.names_iff l _).mp hl with current | oldSide | pending | ⟨p, hp, rfl⟩
      · exact named l ((Tap.names_iff l _).mpr (.inl current))
      · exact named l ((Tap.names_iff l _).mpr (.inr (.inl oldSide)))
      · exact named l ((Tap.names_iff l _).mpr (.inr (.inr (.inl pending))))
      · exact (set p hp).active
  · exact (h.stands u).next (fun _ hl => hl) rfl

/-- A stop names no line (R86). -/
theorem TapsLawful.stageStop {s : State} (h : TapsLawful s) (t : TapNo) : TapsLawful (Machine.stageEdit t .stop s) :=
  h.stageEdit t (fun _ hp => nomatch hp) (fun _ hp => nomatch hp)

/-- A set is staged as a preset only with its run flag stop (R84). -/
theorem TapsLawful.stageSet {s : State} (h : TapsLawful s) (t : TapNo) {p : ParamSet} (hp : SetStands s p) :
    TapsLawful (Machine.stageEdit t (stagedAs p) s) := by
  refine h.stageEdit t (fun q hq => ?_) (fun q hq => ?_)
  · have : q = p := by
      unfold stagedAs at hq
      split at hq <;> exact (Option.some.inj hq).symm
    exact this ▸ hp
  · unfold stagedAs at hq
    split at hq
    · cases hq
    · next run =>
      rw [← Edit.preset.inj hq]
      simpa using run

/-- A start of a set that stands (R113). -/
theorem TapsLawful.stageStart {s : State} (h : TapsLawful s) (t : TapNo) {p : ParamSet} (hp : SetStands s p) :
    TapsLawful (Machine.stageEdit t (.start p) s) :=
  h.stageEdit t (fun _ hq => Option.some.inj hq ▸ hp) (fun _ hq => nomatch hq)

/-! ### The checks of SET_TAP (R83, R84) -/

/-- The eight checks all pass where none is the first to fail. -/
theorem checks_pass {s : State} {t : TapNo} {r : RawSet} (h : firstFailing s t r = none) {n : Nat}
    (hn : n ∈ [1, 2, 3, 4, 5, 6, 7, 8]) : checkFails s t r n = false :=
  Bool.eq_false_iff.mpr (List.find?_eq_none.mp h n hn)

/-- A set that the checks pass names an ACTIVE line (check 3). -/
theorem active_of_checks {s : State} {t : TapNo} {r : RawSet} (h : firstFailing s t r = none) :
    (s.line r.toSet.line).state = .active := by
  have passes : (decide (127 < r.line) || (s.line (Fin.ofNat 128 r.line)).state != .active) = false :=
    checks_pass h (n := 3) (by decide)
  have line : ((s.line (Fin.ofNat 128 r.line)).state != .active) = false := (Bool.or_eq_false_iff.mp passes).2
  exact bne_eq_false_iff_eq.mp line

/-- A set that the screen lets through and check 6 passes fades well. -/
theorem RawSet.toSet_fadesWell {r : RawSet} (screened : r.screened = false) (check : checkMethodFails r = false) :
    r.toSet.fadesWell = true := by
  simp only [RawSet.screened, Bool.or_eq_false_iff, decide_eq_false_iff_not, Nat.not_lt] at screened
  simp only [checkMethodFails, Bool.or_eq_false_iff, Bool.and_eq_false_iff, beq_eq_false_iff_ne] at check
  obtain ⟨⟨⟨⟨⟨⟨⟨⟨⟨-, -⟩, fade⟩, edge⟩, -⟩, mode⟩, -⟩, -⟩, method⟩, -⟩ := screened
  obtain ⟨⟨⟨-, lengths⟩, -⟩, jumps⟩ := check
  have jump : r.toSet.method = .jump ↔ r.method = 0 := by
    simp only [RawSet.toSet]
    split
    · simp_all
    · split <;> simp_all
  have tempo : r.toSet.mode = .tempo ↔ r.mode ≠ 0 := by
    simp only [RawSet.toSet]
    split <;> simp_all
  have fadeLen : r.toSet.fadeLen = r.fadeLen := rfl
  have edgeFade : r.toSet.edgeFade = r.edgeFade := rfl
  simp only [ParamSet.fadesWell, Bool.and_eq_true, Bool.or_eq_true, decide_eq_true_eq, beq_iff_eq, Bool.not_eq_true',
    Bool.and_eq_false_iff, beq_eq_false_iff_ne, ne_eq, jump, tempo, fadeLen, edgeFade]
  omega

/-- A set that SET_TAP stages stands. -/
theorem RawSet.setStands {s : State} {t : TapNo} {r : RawSet} (screened : r.screened = false)
    (h : firstFailing s t r = none) : SetStands s r.toSet :=
  ⟨RawSet.toSet_fadesWell screened (checks_pass h (n := 6) (by decide)), active_of_checks h⟩

/-- A kept set that the checks pass names an ACTIVE line: its own (R159). -/
theorem active_of_toRaw {s : State} {t : TapNo} {p : ParamSet} (h : firstFailing s t p.toRaw = none) :
    (s.line p.line).state = .active := by
  have line : p.toRaw.toSet.line = p.line := Fin.ofNat_val_eq_self p.line
  exact line ▸ active_of_checks h

/-! ### Scenes (R156 to R159) -/

/-- A tap's next set fades well (R156). -/
theorem Tap.Lawful.nextSet {t : Tap} (h : t.Lawful) : t.nextSet.fadesWell = true := by
  have staged : ∀ p, Edit.set? t.staged = some p → p.fadesWell = true :=
    fun p hp => by have := h.staged; rw [hp] at this; exact this
  unfold Tap.nextSet
  split
  · next p hs => exact staged p (by rw [hs]; rfl)
  · next p hs =>
    split
    · exact staged p (by rw [hs]; rfl)
    · exact h.current
  · exact h.current
  · exact h.current

theorem TapsLawful.ownPushScene {s : State} (h : TapsLawful s) (args : List Byte) :
    TapsLawful (ownPushScene args s).2 := by
  refine (tapsLawful_iff _).mpr ⟨fun t => (h.stands t).next (fun _ hl => hl) rfl, fun e he => ?_⟩
  rcases List.mem_cons.mp (List.mem_of_mem_take he) with rfl | he
  · intro t
    have : (sceneOf s).sets[t.val] = (s.tap t).nextSet := by simp [sceneOf, State.tap]
    rw [this]
    exact (h.taps t).nextSet
  · exact h.scenes e he

/-- A pop keeps the law tap by tap: what it stages is a stop, or a set of the entry that the checks pass (R159). -/
theorem TapsLawful.judge {entry : Scene} (well : entry.fadesWell) {p : PopProgress} (h : TapsLawful p.state)
    (t : TapNo) : TapsLawful (p.judge entry t).state := by
  unfold PopProgress.judge
  dsimp only
  split
  · exact h
  · split
    · exact h.stageStop t
    · split
      · exact h
      · next passes => exact h.stageStart t ⟨well t, active_of_toRaw passes⟩

/-- Scenes discarded keep the law. -/
theorem TapsLawful.dropScenes {s : State} (h : TapsLawful s) {scenes : List Scene} (sub : scenes ⊆ s.scenes) :
    TapsLawful { s with scenes := scenes } :=
  (tapsLawful_iff _).mpr ⟨fun t => (h.stands t).next (fun _ hl => hl) rfl, fun e he => h.scenes e (sub he)⟩

theorem TapsLawful.popTaps {s : State} (h : TapsLawful s) {entry : Scene} (well : entry.fadesWell) :
    TapsLawful (popTaps entry s).state :=
  List.foldlRecOn (motive := fun p : PopProgress => TapsLawful p.state) allTaps _ h
    fun _ hp t _ => hp.judge well t

theorem TapsLawful.ownPopScene {s : State} (h : TapsLawful s) (args : List Byte) :
    TapsLawful (ownPopScene args s).2 := by
  unfold Machine.ownPopScene
  split
  · exact h
  · next entry rest held =>
    have rest_sub : rest ⊆ s.scenes := by rw [held]; exact List.subset_cons_self entry rest
    have walked := (h.dropScenes rest_sub).popTaps (h.scenes entry (by rw [held]; exact List.mem_cons_self))
    exact walked.same

theorem TapsLawful.ownDropScene {s : State} (h : TapsLawful s) (args : List Byte) :
    TapsLawful (ownDropScene args s).2 := by
  unfold Machine.ownDropScene
  split
  · exact h
  · next e rest held => exact h.dropScenes (by rw [held]; exact List.subset_cons_self e rest)

/-! ### SET_TAP and CLEAR_TAP -/

theorem TapsLawful.ownSetTap {s : State} (h : TapsLawful s) (args : List Byte) : TapsLawful (ownSetTap args s).2 := by
  unfold Machine.ownSetTap
  dsimp only
  split
  · exact h
  · next inRange =>
    have screened : (RawSet.parse args 2).screened = false := by
      rw [← Bool.not_eq_true]
      exact fun hs => inRange (.inr hs)
    unfold judgeSet
    split
    · exact h
    · next passes => exact h.stageSet _ (RawSet.setStands screened passes)

theorem TapsLawful.ownClearTap {s : State} (h : TapsLawful s) (args : List Byte) :
    TapsLawful (ownClearTap args s).2 := by
  unfold Machine.ownClearTap
  split
  · exact h
  · exact h.stageStop _

/-! ### The boundary -/

/-- The tap table's boundary work keeps each record's law and names no line anew (R108). -/
theorem TapsLawful.tapBoundary {s : State} (h : TapsLawful s) : TapsLawful (tapBoundary s) := by
  refine (tapsLawful_iff _).mpr ⟨fun t => ?_, h.scenes⟩
  have moved : (Machine.tapBoundary s).tap t = (s.tap t).boundary s.size s.tempo.interval s.tempo.tapSide := by
    simp [Machine.tapBoundary, State.tap]
  rw [moved]
  exact ⟨((h.taps t).boundary _ _ _).1, fun l hl => (h.stands t).named l ((h.taps t).names_boundary _ _ _ l hl)⟩

@[simp] theorem Line.boundary_state (first : Bool) (b : Nat) (l : Line) : (l.boundary first b).state = l.state := by
  unfold Line.boundary Line.close Line.takeWriter
  split
  · cases first <;> rfl
  · rfl

theorem TapsLawful.boundaryStart {s : State} (h : TapsLawful s) (zero : Bool) : TapsLawful (boundaryStart zero s) :=
  h.keepTaps fun l hl => by rw [boundaryStart_line, Line.boundary_state]; exact hl

/-- A command whose owner keeps the law keeps it. -/
theorem TapsLawful.command {s : State} (h : TapsLawful s) {code : Byte} {owner : List Byte → State → Reply × State}
    (keeps : ∀ args s, TapsLawful s → TapsLawful (owner args s).2) (record : CommandRecord) :
    TapsLawful (writeCommand code owner record s) :=
  writeCommand_preserves (fun _ _ _ hs => hs.same) keeps record h

/-- The fields that the law reads. -/
def tapsView (s : State) : Vector Tap 512 × Vector Line 128 × List Scene := (s.taps, s.lines, s.scenes)

/-- A command whose owner leaves those fields keeps the law. -/
theorem TapsLawful.commandKeeps {s : State} (h : TapsLawful s) {code : Byte}
    {owner : List Byte → State → Reply × State} (keeps : ∀ args s, tapsView (owner args s).2 = tapsView s)
    (record : CommandRecord) : TapsLawful (writeCommand code owner record s) := by
  refine h.command (fun args s hs => ?_) record
  have same := keeps args s
  simp only [tapsView, Prod.mk.injEq] at same
  obtain ⟨taps, lines, scenes⟩ := same
  exact hs.same taps lines scenes

theorem ownSetTempo_tapsView (args : List Byte) (s : State) : tapsView (ownSetTempo args s).2 = tapsView s :=
  ownSetTempo_keeps tapsView (by simp [tapsView]) args s

theorem ownTapTempo_tapsView (args : List Byte) (s : State) : tapsView (ownTapTempo args s).2 = tapsView s :=
  ownTapTempo_keeps tapsView (fun _ _ _ => rfl) (by simp [tapsView]) (by simp [tapsView]) (by simp [tapsView]) args s

/-- A tempo event between the two readers of a boundary keeps the law (R128, R162). -/
theorem TapsLawful.takeAdoption {s : State} (h : TapsLawful s) (a : Adoption) : TapsLawful (takeAdoption s a) := by
  cases a with
  | setTempo record => exact h.commandKeeps ownSetTempo_tapsView record
  | tapTempo record => exact h.commandKeeps ownTapTempo_tapsView record
  | popScene record => exact h.command (fun args _ hs => hs.ownPopScene args) record
  | tempoPulse => exact TapsLawful.same h (u := takePulse s)

theorem TapsLawful.adoptBetween {s : State} (h : TapsLawful s) (events : List Adoption) :
    TapsLawful (adoptBetween events s) :=
  List.foldlRecOn (motive := TapsLawful) events _ h fun _ hs a _ => hs.takeAdoption a

theorem TapsLawful.readersBoundary {s : State} (h : TapsLawful s) (order : EdgeOrder) (resized : Bool) :
    TapsLawful (readersBoundary order resized s) := by
  unfold Machine.readersBoundary
  split
  · have bank : TapsLawful (oscBoundary resized s) := h.same
    exact (bank.adoptBetween order.between).tapBoundary
  · exact TapsLawful.same (h.tapBoundary.adoptBetween order.between)

theorem TapsLawful.boundaryAround {s : State} (h : TapsLawful s) (order : EdgeOrder) (zero : Bool) :
    TapsLawful (boundaryAround order zero s) := by
  have read := (h.boundaryStart zero).readersBoundary order (resizes s)
  have queued : TapsLawful (formQueue (Machine.readersBoundary order (resizes s) (Machine.boundaryStart zero s))) :=
    read.same
  exact queued.settle

/-- A timer set otherwise keeps the law. -/
theorem TapsLawful.withTimer {s : State} (h : TapsLawful s) (x : Timer) : TapsLawful { s with timer := x } := h.same

theorem TapsLawful.countedEdge {s : State} (h : TapsLawful s) (zero : Bool) (order : EdgeOrder) :
    TapsLawful (countedEdge zero order s) := by
  have before : TapsLawful (edgeBefore order (countSample s)) := h.same
  have counted : TapsLawful (countEdge zero order (edgeBefore order (countSample s))) := by
    unfold countEdge
    split
    · exact before.boundaryAround order zero
    · exact before.withTimer _
  unfold Machine.countedEdge
  exact counted.same

theorem TapsLawful.edgeLocked {s : State} (h : TapsLawful s) (reading : Nat) (order : EdgeOrder) :
    TapsLawful (edgeLocked reading order s) :=
  (h.withTimer _).countedEdge _ order

theorem TapsLawful.loseClock {s : State} (h : TapsLawful s) (reading : Nat) (order : EdgeOrder) :
    TapsLawful (loseClock reading order s) := by
  have counted := (h.withTimer { s.timer with
    wclk := .flywheel, relockRun := [], relockReady := false, lossTimer := none
    flyTimer := some (reading + s.timer.m) }).countedEdge false order
  unfold Machine.loseClock
  exact counted.same

theorem TapsLawful.turnFlywheel {s : State} (h : TapsLawful s) (reading : Nat) (order : EdgeOrder) :
    TapsLawful (turnFlywheel reading order s) := by
  have counted := (h.withTimer { s.timer with flyTimer := some (reading + s.timer.m) }).countedEdge false order
  unfold Machine.turnFlywheel
  dsimp only
  split
  · exact counted.same
  · exact counted

/-! ### Passes, and the entry into SAFE -/

theorem TapsLawful.muteTaps {s : State} (h : TapsLawful s) (e : Engine) (p : PeriodCount) (ts : List TapNo) :
    TapsLawful (muteTaps e p ts s) :=
  h.keepLines fun t => by
    show { (ts.foldl (fun s t => handMuted e p t s) s).tap t with clamped := false } = _
    rw [muted_tap]

theorem TapsLawful.mutePass {s : State} (h : TapsLawful s) : TapsLawful (mutePass s) := by
  unfold Machine.mutePass
  split
  · exact h
  · next p _ =>
    have orphaned : TapsLawful (orphanPassRead s) := h.same
    exact (orphaned.muteTaps p.engine p.period p.taps).same

/-- The entry into SAFE changes the taps by their CLAMPED indicators alone (R106, R185). -/
theorem TapsLawful.enterSafe {s : State} (h : TapsLawful s) : TapsLawful (enterSafe s) := by
  have emptied : TapsLawful (withdrawFills (emptyCommits
      (raise .safeEntered { s with faults := { s.faults with mode := .safe } }))) := h.same
  have muted := emptied.mutePass
  unfold Machine.enterSafe
  exact muted.same

theorem TapsLawful.storeFault {s : State} (h : TapsLawful s) (entry : FaultEntry) (full : Bool) :
    TapsLawful (storeFault entry full s) := by
  have recorded : TapsLawful (raise .storeFault { s with faults := s.faults.record entry full }) := h.same
  unfold Machine.storeFault
  split
  · exact recorded.enterSafe
  · exact recorded

theorem TapsLawful.passOn {s : State} (h : TapsLawful s) (p : Pass) : TapsLawful (passOn p s) := h.same

theorem TapsLawful.beginPass {s : State} (h : TapsLawful s) (e : Engine) : TapsLawful (beginPass e s) := by
  have planned : TapsLawful (handFrame e s.timer.period (OutFrame.plan (passTaps e s).length)
      { s with proc := { s.proc with queue := s.proc.queue.tail } }) := h.same
  unfold Machine.beginPass
  dsimp only
  split
  · exact planned.muteTaps e _ _
  · exact planned.passOn _

theorem TapsLawful.handBlock {s : State} (h : TapsLawful s) (p : Pass) (t : TapNo) : TapsLawful (handBlock p t s) :=
  h.keepLines fun u => by
    unfold Machine.handBlock
    dsimp only
    rw [State.tap_setTap]
    split
    · next e => rw [e]
    · rfl

theorem TapsLawful.passTakes {s : State} (h : TapsLawful s) (o : ReadOutcome) : TapsLawful (passTakes o s) := by
  unfold Machine.passTakes
  split
  · exact h
  · dsimp only
    split
    · split
      · exact (h.handBlock _ _).passOn _
      · exact h.same
    · exact h

theorem TapsLawful.readFault {s : State} (h : TapsLawful s) (l : LineNo) (e : Engine) (w : Nat) (o : ReadOutcome) :
    TapsLawful (readFault l e w o s) := by
  unfold Machine.readFault
  split
  · split
    · exact h
    · exact h.storeFault _ false
  · exact h
  · exact h

/-! ### Lines and pages -/

/-- A line that takes pages is ACTIVE (R15). -/
theorem TapsLawful.takePages {s : State} (h : TapsLawful s) (l : LineNo) (writer : Engine) (n : Nat) :
    TapsLawful (takePages l writer n s) := by
  unfold Machine.takePages
  have taken := h.setLine l (x :=
    { state := .active, generation := (s.line l).generation + 1, writer := some writer, stagedWriter := none,
      pages := s.pool.free.take n, head := 0, taken := (s.line l).taken, gapRun := 0, lastClose := .written })
    fun _ => rfl
  exact taken.same

theorem TapsLawful.lookAtWaiting {s : State} (h : TapsLawful s) : TapsLawful (lookAtWaiting s) := by
  unfold Machine.lookAtWaiting
  split
  · exact h
  · next w _ =>
    split
    · have cleared : TapsLawful { s with pool := { s.pool with waiting := none } } := h.same
      exact (cleared.takePages w.line w.writer w.count).same
    · exact h

theorem TapsLawful.verifyPasses {s : State} (h : TapsLawful s) (k : Walk) : TapsLawful (verifyPasses k s) := by
  unfold Machine.verifyPasses
  split
  · exact h.same
  · have joined : TapsLawful { s with pool := { s.pool with free := s.pool.free ++ [k.page], walker := none } } :=
      h.same
    exact joined.lookAtWaiting.same

theorem TapsLawful.verifyFails {s : State} (h : TapsLawful s) (k : Walk) : TapsLawful (verifyFails k s) := by
  have faulted : ∀ (p : Pool) (full : Bool),
      TapsLawful (Machine.storeFault (verifyFaultEntry k) full { s with pool := p }) := fun p full =>
    (h.same : TapsLawful { s with pool := p }).storeFault (verifyFaultEntry k) full
  unfold Machine.verifyFails
  split
  · exact h
  · split
    · have short := faulted { s.pool with retired := insertPage k.page s.pool.retired, walker := none } false
      exact short.same
    · have full := faulted { s.pool with dirty := s.pool.dirty ++ [k.page], walker := none } true
      exact full.same

theorem TapsLawful.completeVerify {s : State} (h : TapsLawful s) (k : Walk) (u : Upset) :
    TapsLawful (completeVerify k u s) := by
  have read : TapsLawful (endAccess false (storeRead (wordOf k.page k.pointer) u s)) := h.same
  unfold Machine.completeVerify
  dsimp only
  split
  · exact (read.verifyPasses k).same
  · exact (read.verifyFails k).same

theorem TapsLawful.ownAllocLine {s : State} (h : TapsLawful s) (args : List Byte) :
    TapsLawful (ownAllocLine args s).2 := by
  have allocated : ∀ l writer n, TapsLawful (allocate l writer n s).2 := by
    intro l writer n
    unfold allocate
    split
    · exact h.takePages l writer n
    · split
      · unfold refuse
        dsimp only
        split
        · exact h
        · exact h.same
      · exact h.same
  unfold Machine.ownAllocLine
  dsimp only
  split
  · exact h
  · split
    · exact h
    · exact allocated _ _ _

/-- A line that no tap names may be freed (R26, R81). -/
theorem TapsLawful.freeLine {s : State} (h : TapsLawful s) {l : LineNo} (unnamed : ∀ t, (s.tap t).names l = false) :
    TapsLawful (freeLine l s) := by
  have freed : TapsLawful (s.setLine l (s.line l).freed) := by
    refine (tapsLawful_iff _).mpr ⟨fun t => ⟨h.taps t, fun m hm => ?_⟩, h.scenes⟩
    have other : m ≠ l := fun e => Bool.false_ne_true ((unnamed t).symm.trans (e ▸ hm))
    rw [State.line_setLine_other _ _ other]
    exact (h.stands t).named m hm
  unfold Machine.freeLine
  exact freed.same

/-- FREE_LINE finds no tap that names the line only where none does (R26). -/
theorem firstNaming_none {l : LineNo} {s : State} (h : firstNaming l s = none) (t : TapNo) :
    (s.tap t).names l = false :=
  Bool.eq_false_iff.mpr (List.find?_eq_none.mp h t (mem_allTaps t))

theorem TapsLawful.ownFreeLine {s : State} (h : TapsLawful s) (args : List Byte) :
    TapsLawful (ownFreeLine args s).2 := by
  unfold Machine.ownFreeLine
  dsimp only
  split
  · exact h
  · split
    · exact h
    · split
      · exact h
      · next unnamed => exact h.freeLine (firstNaming_none unnamed)

theorem TapsLawful.ownSetWriter {s : State} (h : TapsLawful s) (args : List Byte) :
    TapsLawful (ownSetWriter args s).2 := by
  unfold Machine.ownSetWriter
  dsimp only
  split
  · exact h
  · split
    · exact h
    · exact h.setLine _ id

/-! ### Links -/

/-- The blocks of a frame judged set block-taken flags alone (R66). -/
theorem TapsLawful.judgeBlocks {s : State} (h : TapsLawful s) (e : Engine) (earlier : List Nat)
    (blocks : List (Nat × List Sample)) : TapsLawful (judgeBlocks e earlier blocks s).2.2 := by
  induction blocks generalizing earlier s with
  | nil => exact h
  | cons block rest ih =>
    unfold Machine.judgeBlocks
    dsimp only
    split
    · have kept : TapsLawful (keepBlock block.1 block.2 s).2 := h.setLine _ id
      exact ih kept _
    · exact ih h _

theorem TapsLawful.acceptFrame {s : State} (h : TapsLawful s) (e : Engine) (buffer : Fin 2) (bytes : List Byte) :
    TapsLawful (acceptFrame e buffer bytes s) := by
  have heard : TapsLawful (s.setLink e (s.link e).hear) := h.same
  unfold Machine.acceptFrame
  exact (heard.judgeBlocks e [] (inputBlocks bytes s.size)).same

theorem TapsLawful.judgeFrame {s : State} (h : TapsLawful s) (e : Engine) (buffer : Fin 2) (bytes : List Byte)
    (overlong : Bool) : TapsLawful (judgeFrame e buffer bytes overlong s) := by
  unfold Machine.judgeFrame
  split
  · exact h.same
  · exact (h.acceptFrame e buffer bytes).same

theorem ownSetLink_tapsView (args : List Byte) (s : State) : tapsView (ownSetLink args s).2 = tapsView s := by
  unfold ownSetLink okBytes
  dsimp only
  (repeat' split) <;> simp [tapsView]

/-! ### Resets -/

theorem resetLine_tapsLawful (s : State) : TapsLawful (resetLine s) :=
  .of_reset (fun t => by simp [resetLine, State.reset, State.tap]) rfl

/-- After PART_RESET every tap is reset and the scene stack empty, whatever line is freed (R107, R165). -/
theorem partReset_tapsLawful (s : State) : TapsLawful (partReset s) := by
  refine .of_reset (fun t => ?_) ?_
  · simp [partReset, resetBlocks, State.tap, resetTaps]
  · simp [partReset, resetBlocks]

/-! ### The commands that leave taps, lines and scenes -/

theorem ownSetPeriod_tapsView (args : List Byte) (s : State) : tapsView (ownSetPeriod args s).2 = tapsView s := by
  unfold ownSetPeriod
  split
  · rfl
  · split <;> rfl

theorem ownReadLine_tapsView (args : List Byte) (s : State) : tapsView (ownReadLine args s).2 = tapsView s := by
  unfold ownReadLine; split <;> rfl

theorem ownReadPool_tapsView (args : List Byte) (s : State) : tapsView (ownReadPool args s).2 = tapsView s := by
  unfold ownReadPool; split <;> rfl

theorem ownReadLink_tapsView (args : List Byte) (s : State) : tapsView (ownReadLink args s).2 = tapsView s := by
  unfold ownReadLink; split <;> rfl

theorem ownReadCounters_tapsView (args : List Byte) (s : State) :
    tapsView (ownReadCounters args s).2 = tapsView s := by
  unfold ownReadCounters
  dsimp only
  split <;> rfl

theorem ownReadTap_tapsView (args : List Byte) (s : State) : tapsView (ownReadTap args s).2 = tapsView s := by
  unfold ownReadTap; split <;> rfl

theorem ownReadOsc_tapsView (args : List Byte) (s : State) : tapsView (ownReadOsc args s).2 = tapsView s := by
  unfold ownReadOsc; split <;> rfl

theorem ownSetTempoSource_tapsView (args : List Byte) (s : State) :
    tapsView (ownSetTempoSource args s).2 = tapsView s := by
  unfold ownSetTempoSource
  split
  · rfl
  · split
    · rfl
    · split <;> rfl

theorem ownSetMeter_tapsView (args : List Byte) (s : State) : tapsView (ownSetMeter args s).2 = tapsView s := by
  unfold ownSetMeter
  dsimp only
  split <;> rfl

theorem ownSetOsc_tapsView (args : List Byte) (s : State) : tapsView (ownSetOsc args s).2 = tapsView s := by
  unfold ownSetOsc; split <;> rfl

/-! ### Every command -/

/-- Every command keeps the law of the tap records. -/
theorem exec_tapsLawful (c : Instr) {s : State} (h : TapsLawful s) : ∃ t, exec c s = .next t ∧ TapsLawful t := by
  cases c with
  | resetLine => exact ⟨_, rfl, resetLine_tapsLawful s⟩
  | realEdge reading order =>
    refine ⟨_, rfl, ?_⟩
    split
    · exact h.same
    · exact h.edgeLocked reading order
    · exact h.same
  | lossTimerExpiry order =>
    refine ⟨_, rfl, ?_⟩
    split
    · exact h.loseClock _ order
    · exact h
  | flywheelEdge order =>
    refine ⟨_, rfl, ?_⟩
    split
    · exact h.turnFlywheel _ order
    · exact h
  | openMark e =>
    refine ⟨_, rfl, ?_⟩
    split
    · exact h
    · exact h.same
  | inputFrame e =>
    refine ⟨_, rfl, ?_⟩
    split
    · exact h
    · have hunting : TapsLawful (s.setLink e { s.link e with receiver := .hunt }) := h.same
      split
      · exact hunting.judgeFrame e _ _ _
      · exact h
      · exact h
  | receiveTimeout e =>
    refine ⟨_, rfl, ?_⟩
    split
    · exact h.same
    · exact h
  | closeMarkLeavesLane e =>
    refine ⟨_, rfl, ?_⟩
    split
    · exact h
    · split
      · exact h.same
      · exact h
  | commitWriteComplete =>
    refine ⟨_, rfl, ?_⟩
    split
    · dsimp only
      split <;> exact h.same
    · exact h
  | fillWriteComplete =>
    refine ⟨_, rfl, ?_⟩
    split
    · dsimp only
      split <;> exact h.same
    · exact h
  | passStart =>
    refine ⟨_, rfl, ?_⟩
    split
    · exact (h.beginPass _).settle
    · exact h
  | passReadComplete upset =>
    refine ⟨_, rfl, ?_⟩
    split
    · next l e w live _ =>
      have read : TapsLawful (endAccess false (storeRead w upset s)) := h.same
      have judged := read.readFault l e w (readOutcome w upset s)
      refine TapsLawful.settle ?_
      split
      · exact judged.passTakes _
      · exact judged
    · exact h
  | refreshTimerExpiry =>
    refine ⟨_, rfl, ?_⟩
    split
    · exact h
    · split
      · exact h.same
      · exact (h.storeFault _ false).settle
  | refreshAccessComplete =>
    refine ⟨_, rfl, ?_⟩
    split
    · exact h.same
    · exact h
  | scrubClearWriteComplete =>
    refine ⟨_, rfl, ?_⟩
    split
    · exact h.same
    · exact h
  | scrubVerifyReadComplete upset =>
    refine ⟨_, rfl, ?_⟩
    split
    · exact h.completeVerify _ upset
    · exact h
  | allocComplete upset =>
    refine ⟨_, rfl, ?_⟩
    split
    · split
      · exact h.completeVerify _ upset
      · exact h
    · exact h
  | allocNoSpace upset =>
    refine ⟨_, rfl, ?_⟩
    split
    · split
      · exact h.completeVerify _ upset
      · exact h
    · exact h
  | tempoPulse => exact ⟨_, rfl, h.takeAdoption .tempoPulse⟩
  | pulseLossTimerExpiry =>
    refine ⟨_, rfl, ?_⟩
    split
    · exact h
    · split
      · exact h.same
      · exact h
  | readResult clocked =>
    refine ⟨_, rfl, ?_⟩
    split <;> exact h.same
  | readStatus clocked =>
    refine ⟨_, rfl, ?_⟩
    split <;> exact h.same
  | commandCollision code record =>
    refine ⟨_, rfl, ?_⟩
    split
    · split
      · exact h.same
      · exact h
    · exact h
  | badCommand code transaction =>
    refine ⟨_, rfl, ?_⟩
    split
    · split
      · unfold refuseUnknown
        split
        · exact h.same
        · split <;> exact h.same
      · exact h.same
    · exact h
  | setPeriod record => exact ⟨_, rfl, h.commandKeeps ownSetPeriod_tapsView record⟩
  | readClock record => exact ⟨_, rfl, h.commandKeeps (fun _ _ => rfl) record⟩
  | allocLine record => exact ⟨_, rfl, h.command (fun args _ hs => hs.ownAllocLine args) record⟩
  | freeLine record => exact ⟨_, rfl, h.command (fun args _ hs => hs.ownFreeLine args) record⟩
  | setWriter record => exact ⟨_, rfl, h.command (fun args _ hs => hs.ownSetWriter args) record⟩
  | readLine record => exact ⟨_, rfl, h.commandKeeps ownReadLine_tapsView record⟩
  | readPool record => exact ⟨_, rfl, h.commandKeeps ownReadPool_tapsView record⟩
  | setLink record => exact ⟨_, rfl, h.commandKeeps ownSetLink_tapsView record⟩
  | readLink record => exact ⟨_, rfl, h.commandKeeps ownReadLink_tapsView record⟩
  | readCounters record => exact ⟨_, rfl, h.commandKeeps ownReadCounters_tapsView record⟩
  | setTap record => exact ⟨_, rfl, h.command (fun args _ hs => hs.ownSetTap args) record⟩
  | clearTap record => exact ⟨_, rfl, h.command (fun args _ hs => hs.ownClearTap args) record⟩
  | readTap record => exact ⟨_, rfl, h.commandKeeps ownReadTap_tapsView record⟩
  | saveTap record => exact ⟨_, rfl, h.commandKeeps ownReadTap_tapsView record⟩
  | setTempo record => exact ⟨_, rfl, h.commandKeeps ownSetTempo_tapsView record⟩
  | tapTempo record => exact ⟨_, rfl, h.commandKeeps ownTapTempo_tapsView record⟩
  | setTempoSource record => exact ⟨_, rfl, h.commandKeeps ownSetTempoSource_tapsView record⟩
  | setMeter record => exact ⟨_, rfl, h.commandKeeps ownSetMeter_tapsView record⟩
  | resync record => exact ⟨_, rfl, h.commandKeeps (fun _ _ => rfl) record⟩
  | readTempo record => exact ⟨_, rfl, h.commandKeeps (fun _ _ => rfl) record⟩
  | setOsc record => exact ⟨_, rfl, h.commandKeeps ownSetOsc_tapsView record⟩
  | readOsc record => exact ⟨_, rfl, h.commandKeeps ownReadOsc_tapsView record⟩
  | pushScene record => exact ⟨_, rfl, h.command (fun args _ hs => hs.ownPushScene args) record⟩
  | popScene record => exact ⟨_, rfl, h.command (fun args _ hs => hs.ownPopScene args) record⟩
  | dropScene record => exact ⟨_, rfl, h.command (fun args _ hs => hs.ownDropScene args) record⟩
  | readScenes record => exact ⟨_, rfl, h.commandKeeps (fun _ _ => rfl) record⟩
  | ackNotice record => exact ⟨_, rfl, h.commandKeeps (fun _ _ => rfl) record⟩
  | setMask record => exact ⟨_, rfl, h.commandKeeps (fun _ _ => rfl) record⟩
  | readFault record => exact ⟨_, rfl, h.commandKeeps (fun _ _ => rfl) record⟩
  | clearFault record => exact ⟨_, rfl, h.commandKeeps (fun _ _ => rfl) record⟩
  | partReset record =>
    refine ⟨_, rfl, ?_⟩
    split
    · exact h.same
    · split
      · exact partReset_tapsLawful _
      · split <;> exact h.same
  | dataByte e x =>
    refine ⟨_, rfl, ?_⟩
    split
    · exact h
    · exact h.same

/-- Settles O58: the law is kept command by command, and a line that a tap names is ACTIVE. -/
theorem everyStepKeepsTapsLawful : Obligations.EveryStepKeepsTapsLawful := by
  refine ⟨fun s t h e => ?_, fun s h l free t => ?_⟩
  · unfold step at e
    split at e
    · exact Host.Outcome.next.inj e ▸ h
    · next c rest _ =>
      have queued : TapsLawful { s with pending := rest } := h.same
      obtain ⟨u, run, lawful⟩ := exec_tapsLawful c queued
      exact Host.Outcome.next.inj (run.symm.trans e) ▸ lawful
  · refine Bool.eq_false_iff.mpr fun named => ?_
    have active := (h.stands t).named l named
    rw [free] at active
    cases active

end Sys2Proof.Machine
end

section
/-! O14. A store fault (R182, R185, R186): the record, the notices and, at the fourth in NORMAL, the entry into SAFE, block
by block: the emptied commit queue and its buffers, the muted pass, and the access in service. -/

namespace Sys2Proof.Machine

/-! ### The pass muted (R106) -/

theorem mutePass_idle {s : State} (h : s.proc.pass = none) : mutePass s = s := by
  unfold mutePass; rw [h]

@[simp] theorem mutePass_proc (s : State) : (mutePass s).proc = { s.proc with pass := none } := by
  unfold mutePass
  cases h : s.proc.pass with
  | none => simp [← h]
  | some p => simp

/-- The engine's frame of the period takes the MUTED blocks and ends; no other link changes. -/
theorem mutePass_link {s : State} {p : Pass} (h : s.proc.pass = some p) (d : Engine) : (mutePass s).link d =
    if d = p.engine then
      { s.link d with tx := (s.link d).tx.map fun f =>
        if f.period = p.period ∧ f.state ≠ .ended then
          { f with blocks := f.blocks ++ p.taps.map (mutedBlock s.size), state := .ended, endStatus := some .muted }
        else f }
    else s.link d := by
  have muted : (mutePass s).link d = (muteTaps p.engine p.period p.taps (orphanPassRead s)).link d := by
    unfold mutePass; rw [h]; rfl
  have same : ∀ e, (orphanPassRead s).link e = s.link e := fun e => State.link_of_links (by simp) e
  have size : (orphanPassRead s).size = s.size := by simp [State.size]
  rw [muted, muteTaps_link]
  split
  · next e => rw [e, same, size]
  · exact same d

/-- The taps left of the pass have their CLAMPED indicators cleared. -/
theorem mutePass_tap {s : State} {p : Pass} (h : s.proc.pass = some p) (n : TapNo) :
    (mutePass s).tap n = { s.tap n with clamped := (s.tap n).clamped && !p.taps.contains n } := by
  have muted : (mutePass s).tap n =
      (p.taps.foldl (fun s t => handMuted p.engine p.period t s) (orphanPassRead s)).tap n := by
    unfold mutePass; rw [h]; rfl
  rw [muted, muted_tap, State.tap_of_taps (s := orphanPassRead s) (t := s) (by simp)]

/-! ### The commit queue emptied (R71) -/

/-- Every queued frame's buffer is free, and nothing else of a link changes. -/
theorem emptyCommits_link (s : State) (e : Engine) :
    (emptyCommits s).link e = { s.link e with buffers := ((emptyCommits s).link e).buffers } ∧
    ∀ b : Fin 2, ((∃ f ∈ s.commits, f.engine = e ∧ f.buffer = b) →
        ((emptyCommits s).link e).buffers[b.val] = .free) ∧
      ((∀ f ∈ s.commits, ¬(f.engine = e ∧ f.buffer = b)) →
        ((emptyCommits s).link e).buffers[b.val] = (s.link e).buffers[b.val]) := by
  have freed := freeBuffers_link s.commits (orphanCommit (fun _ _ => true) s) e
  rw [State.link_of_links (s := orphanCommit (fun _ _ => true) s) (t := s) (by simp)] at freed
  exact freed

/-! ### The entry into SAFE (R185) -/

/-- The part in SAFE, with its commits and fills withdrawn: the state whose pass the entry into SAFE mutes. -/
def safeWithdrawn (s : State) : State :=
  withdrawFills (emptyCommits (raise .safeEntered { s with faults := { s.faults with mode := .safe } }))

theorem enterSafe_eq (s : State) : enterSafe s = endWaiting .safe (mutePass (safeWithdrawn s)) := rfl

@[simp] theorem safeWithdrawn_frame (s : State) : (safeWithdrawn s).proc = s.proc ∧
    (safeWithdrawn s).taps = s.taps ∧ (safeWithdrawn s).timer = s.timer := by
  simp [safeWithdrawn]

theorem safeWithdrawn_link (s : State) (e : Engine) :
    (safeWithdrawn s).link e = { s.link e with buffers := ((safeWithdrawn s).link e).buffers } ∧
    ∀ b : Fin 2, ((∃ f ∈ s.commits, f.engine = e ∧ f.buffer = b) →
        ((safeWithdrawn s).link e).buffers[b.val] = .free) ∧
      ((∀ f ∈ s.commits, ¬(f.engine = e ∧ f.buffer = b)) →
        ((safeWithdrawn s).link e).buffers[b.val] = (s.link e).buffers[b.val]) := by
  have withdrawn : (safeWithdrawn s).link e =
      (emptyCommits (raise .safeEntered { s with faults := { s.faults with mode := .safe } })).link e :=
    State.link_of_links (by simp [safeWithdrawn]) e
  rw [withdrawn]
  exact emptyCommits_link (raise .safeEntered { s with faults := { s.faults with mode := .safe } }) e

theorem enterSafe_proc (s : State) : (enterSafe s).proc = { s.proc with pass := none } := by
  simp [enterSafe_eq]

/-- The access in service is no commit's, no fill's and no pass's any longer (R34). -/
theorem enterSafe_arbiter (s : State) : (enterSafe s).arbiter = { s.arbiter with
    inService :=
      s.arbiter.inService.map (Access.heldBy (fun _ _ => false) (fun _ _ => false) s.proc.pass.isNone) } := by
  rw [enterSafe_eq, (endWaiting_frame _ _).2.2.1, mutePass_arbiter, (safeWithdrawn_frame s).1]
  simp [safeWithdrawn, withdrawFills_arbiter, emptyCommits_arbiter, Function.comp_def]

/-- A waiting allocation ends with SAFE in the mailbox, and else the port stands (R170, R185). -/
theorem enterSafe_port (s : State) : (enterSafe s).port = if s.pool.waiting.isSome then
    { s.port with mailbox := .done { command := allocCode, code := .safe, check := 0, bytes := [] } } else s.port := by
  have port : (mutePass (safeWithdrawn s)).port = s.port := by simp [safeWithdrawn]
  have waiting : (mutePass (safeWithdrawn s)).pool.waiting = s.pool.waiting := by simp [safeWithdrawn]
  rw [enterSafe_eq]
  cases h : s.pool.waiting with
  | none => rw [endWaiting_none (waiting.trans h), port]; rfl
  | some w => rw [endWaiting_some (waiting.trans h), ← port]; rfl

/-- With no pass running the entry leaves the taps and the frames held. -/
theorem enterSafe_idle {s : State} (h : s.proc.pass = none) :
    (enterSafe s).taps = s.taps ∧ ∀ e, (enterSafe s).link e = (safeWithdrawn s).link e := by
  have still : mutePass (safeWithdrawn s) = safeWithdrawn s := mutePass_idle (by simpa using h)
  rw [enterSafe_eq, still]
  exact ⟨by simp, fun e => State.link_of_links (by simp) e⟩

/-- A pass running is muted (R106). -/
theorem enterSafe_muted {s : State} {p : Pass} (h : s.proc.pass = some p) :
    (∀ n, (enterSafe s).tap n = { s.tap n with clamped := (s.tap n).clamped && !p.taps.contains n }) ∧
    ∀ e, (enterSafe s).link e =
      if e = p.engine then
        { (safeWithdrawn s).link e with tx := (s.link e).tx.map fun f =>
          if f.period = p.period ∧ f.state ≠ .ended then
            { f with blocks := f.blocks ++ p.taps.map (mutedBlock s.size), state := .ended, endStatus := some .muted }
          else f }
      else (safeWithdrawn s).link e := by
  have runs : (safeWithdrawn s).proc.pass = some p := by simpa using h
  have size : (safeWithdrawn s).size = s.size := by simp [State.size]
  refine ⟨fun n => ?_, fun e => ?_⟩
  · have muted : (enterSafe s).tap n = (mutePass (safeWithdrawn s)).tap n :=
      State.tap_of_taps (by rw [enterSafe_eq]; simp) n
    rw [muted, mutePass_tap runs, State.tap_of_taps (s := safeWithdrawn s) (t := s) (by simp)]
  · have muted : (enterSafe s).link e = (mutePass (safeWithdrawn s)).link e :=
      State.link_of_links (by rw [enterSafe_eq]; simp) e
    have frames : ((safeWithdrawn s).link e).tx = (s.link e).tx := by rw [(safeWithdrawn_link s e).1]
    rw [muted, mutePass_link runs, size, frames]

/-- The entry into SAFE touches a link's staging buffers and the frames it holds alone. -/
theorem enterSafe_link (s : State) (e : Engine) : (enterSafe s).link e = { s.link e with
    buffers := ((safeWithdrawn s).link e).buffers, tx := ((enterSafe s).link e).tx } := by
  have base := (safeWithdrawn_link s e).1
  cases h : s.proc.pass with
  | none =>
    rw [(enterSafe_idle h).2, base]
  | some p =>
    rw [(enterSafe_muted h).2]
    split
    · rw [base]
    · rw [base]

/-! ### The store fault (R182, R186) -/

/-- The fault record after a store fault, with the mode (R182, R185). -/
theorem storeFault_faults (entry : FaultEntry) (full : Bool) (s : State) : (storeFault entry full s).faults =
    { s.faults.record entry full with
      mode := if s.faults.mode = .normal ∧ 3 ≤ s.faults.level then .safe else s.faults.mode } := by
  by_cases h : s.faults.mode = .normal ∧ 3 ≤ s.faults.level
  · rw [storeFault_enters h, if_pos h]
    simp
  · rw [storeFault_records h, if_neg h]
    rfl

/-- The notices at the fourth fault: STORE_FAULT and SAFE_ENTERED, and COMMAND_DONE where an allocation waited. -/
theorem storeFault_enters_notices {s : State} (h : s.faults.mode = .normal ∧ 3 ≤ s.faults.level) (entry : FaultEntry)
    (full : Bool) : (storeFault entry full s).notices = { s.notices with
      pending := s.notices.pending ||| 0x0003#16 ||| (if s.pool.waiting.isSome then 0x8000#16 else 0) } := by
  have bits : sourceBit 2 ||| sourceBit 1 = 0x0003#16 := by decide
  obtain ⟨-, -, -, -, -, mask, -, -, pending⟩ :=
    enterSafe_leaves (raise .storeFault { s with faults := s.faults.record entry full })
  have eta : ∀ n : NoticeUnit, n = ⟨n.pending, n.mask⟩ := fun _ => rfl
  rw [storeFault_enters h, eta (enterSafe _).notices, mask, pending]
  simp only [raise_pending, raise_mask, raise_frame, Source.code, BitVec.or_assoc]
  rw [← BitVec.or_assoc (sourceBit 2), bits]
  rfl

/-- Settles O14: what every fault records, then the fourth in NORMAL, then the others. -/
theorem storeFaultsCountTowardSafe : Obligations.StoreFaultsCountTowardSafe := by
  intro s entry full t muted
  have faults : t.faults = _ := storeFault_faults entry full s
  refine ⟨by rw [faults]; rfl, by rw [faults]; rfl, by rw [faults]; rfl, by rw [faults]; rfl, ?entry, ?only⟩
  case entry =>
    intro normal fourth
    have enters : s.faults.mode = .normal ∧ 3 ≤ s.faults.level := ⟨normal, fourth⟩
    let u := raise .storeFault { s with faults := s.faults.record entry full }
    have ht : t = enterSafe u := storeFault_enters enters entry full
    have port : t.port = _ := (congrArg State.port ht).trans (enterSafe_port u)
    have link := enterSafe_link u
    have buffers := fun e => (safeWithdrawn_link u e).2
    refine ⟨?whole, by rw [faults, if_pos enters], storeFault_enters_notices enters entry full, ?arbiter, ?waited, ?quiet,
      ?links, ?freed, ?others, ?idle, ?pass⟩
    case whole => rw [ht]; apply State.eq_of_fields <;> simp [u, enterSafe_proc]
    case arbiter => rw [ht]; exact enterSafe_arbiter u
    case waited =>
      intro waits
      rw [port, if_pos (show u.pool.waiting.isSome from waits)]
      rfl
    case quiet =>
      intro unasked
      rw [port, if_neg (by simp [u, unasked])]
      rfl
    case links => exact fun e => by rw [ht, link]; rfl
    case freed => exact fun f hf => by rw [ht, link]; exact (buffers _ _).1 ⟨f, hf, rfl, rfl⟩
    case others => exact fun e b unheld => by rw [ht, link]; exact (buffers e b).2 unheld
    case idle =>
      intro still
      obtain ⟨taps, links⟩ := enterSafe_idle (s := u) still
      refine ⟨ht ▸ taps, fun e => ?_⟩
      rw [ht, links, (safeWithdrawn_link u e).1]
      rfl
    case pass =>
      intro p runs
      obtain ⟨taps, links⟩ := enterSafe_muted (s := u) runs
      refine ⟨fun e other => ?_, ?_, fun n => ht ▸ taps n⟩
      · rw [ht, links, if_neg other, (safeWithdrawn_link u e).1]
        rfl
      · rw [ht, links, if_pos rfl]
        rfl
  case only =>
    intro stays
    have counts : ¬(s.faults.mode = .normal ∧ 3 ≤ s.faults.level) := by
      rintro ⟨normal, fourth⟩
      rcases stays with safe | below
      · rw [normal] at safe; cases safe
      · omega
    refine ⟨?_, by rw [faults, if_neg counts], ?_⟩
    · rw [show t = _ from storeFault_records counts entry full]
      rfl
    · show (storeFault entry full s).notices = _
      rw [storeFault_records counts]
      rfl

end Sys2Proof.Machine
end

section
/-! O7. Settling (R24, R25, R34 to R36, R69): the drained commit queue with the closed periods, and the arbiter's choice. -/

namespace Sys2Proof.Machine

/-- The part whose claims the arbiter sees when it settles: the commit queue drained, the closed periods brought up to
date. -/
def settledClaims (s : State) : State := updateClosed (drainCommits s)

theorem settle_eq (s : State) : settle s = serve (settledClaims s) := rfl

@[simp] theorem settledClaims_arbiter (s : State) : (settledClaims s).arbiter = s.arbiter := by
  simp [settledClaims]

/-- Serving changes the arbiter alone. -/
theorem serve_withArbiter (s : State) : { serve s with arbiter := s.arbiter } = s := by
  unfold serve
  split
  · rfl
  · split <;> rfl

/-- The claims the arbiter chooses from are those of the settled part. -/
theorem settle_withArbiter (s : State) : { settle s with arbiter := s.arbiter } = settledClaims s := by
  have served := serve_withArbiter (settledClaims s)
  rwa [settledClaims_arbiter] at served

/-- An idle arbiter with nothing to choose stays idle. -/
theorem serve_nothing {s : State} (idle : s.arbiter.inService = none) (h : chooseClaim s = none) : serve s = s := by
  unfold serve; rw [idle, h]

/-- An idle arbiter serves its choice, which ends the first choice (R34, R36). -/
theorem serve_choice {s : State} {a : Access} (idle : s.arbiter.inService = none) (h : chooseClaim s = some a) :
    serve s = { s with arbiter := { s.arbiter with inService := some a, urgentFirst := false } } := by
  unfold serve; rw [idle, h]

@[simp] theorem settle_oldestOpen (s : State) : (settle s).oldestOpen = closedUpTo (drainCommits s) := by
  simp [settle_eq, settledClaims, updateClosed]

/-- The periods that keep a period open after settling: the queued frames' and the owed fills' (R24). -/
theorem closedUpTo_drained (s : State) : closedUpTo (drainCommits s) =
    oldestOf s.timer.period ((settle s).commits.map (·.period) ++ s.fills.map (·.period)) := by
  have commits : (settle s).commits = (drainCommits s).commits := by simp [settle_eq, settledClaims]
  rw [commits]
  simp [closedUpTo]

/-- Settles O7, from the draining of the queue, the oldest of the open periods and the arbiter's service. -/
theorem settlingDrainsClosesAndServes : Obligations.SettlingDrainsClosesAndServes := by
  intro s t finished waiting
  have commits : t.commits = (drainCommits s).commits := by simp [t, settle_eq, settledClaims]
  have links : ∀ e, t.link e = (drainCommits s).link e := fun e =>
    State.link_of_links (by simp [t, settle_eq, settledClaims]) e
  have isOver : ∀ k, blockOver s k = true ↔ finished k := blockOver_iff s
  have oldest : t.oldestOpen = oldestOf s.timer.period waiting :=
    (settle_oldestOpen s).trans (closedUpTo_drained s)
  obtain ⟨isOne, isOldest⟩ := oldestOf_spec s.timer.period waiting
  refine ⟨?frame, ?drained, oldest ▸ isOne, fun p hp => oldest ▸ isOldest p hp, ?busy, ?idle⟩
  case frame => apply State.eq_of_fields <;> simp [t]
  case drained =>
    obtain ⟨gone, kept, parts, goneOver, first, linkSpec⟩ := drainFrames_spec s.commits s
    refine ⟨gone, kept, parts, fun f hf k hk => (isOver k).mp (goneOver f hf k hk), ?_, fun e => ?_⟩
    · rw [commits]
      rcases first with ⟨empty, drained⟩ | ⟨f, rest, dropped, k, more, hk, hb, droppedOver, stands, drained⟩
      · exact .inl ⟨empty, drained⟩
      · exact .inr ⟨f, rest, dropped, k, more, hk, hb, fun d hd => (isOver d).mp (droppedOver d hd),
          fun done => stands ((isOver k).mpr done), drained⟩
    · rw [links]
      exact linkSpec e
  case busy =>
    intro inService
    obtain ⟨a, ha⟩ := Option.isSome_iff_exists.mp inService
    exact settle_busy ha
  case idle =>
    intro idle
    have ready : (settledClaims s).arbiter.inService = none := by rw [settledClaims_arbiter, idle]
    rw [settle_withArbiter s]
    show (serve (settledClaims s)).arbiter = _
    cases choice : chooseClaim (settledClaims s) with
    | none => rw [serve_nothing ready choice, settledClaims_arbiter]
    | some a => rw [serve_choice ready choice, settledClaims_arbiter]

end Sys2Proof.Machine
end

section
/-! O36. A boundary at the line table (R13, R17 to R19, R21, R29): the record a line is left as, the fills that the closes
owe, and the place of an owed fill on the fill list. -/

namespace Sys2Proof.Machine

/-! ### The close of a line -/

theorem Line.boundary_free {l : Line} (h : l.state = .free) (first : Bool) (b : Nat) :
    l.boundary first b = { l with taken := false } := by
  unfold Line.boundary; rw [h]

theorem Line.boundary_active {l : Line} (h : l.state = .active) (first : Bool) (b : Nat) :
    l.boundary first b = { (l.close first b).takeWriter with taken := false } := by
  unfold Line.boundary; rw [h]

/-- Boundary 0 closes no line. -/
@[simp] theorem Line.close_first (b : Nat) (l : Line) : l.close true b = l := rfl

theorem Line.close_taken {l : Line} (h : l.taken = true) (b : Nat) : l.close false b =
    { l with lastClose := .written, gapRun := 0, head := (l.head + b) % l.length } := by
  simp [Line.close, h]

theorem Line.close_untaken {l : Line} (h : l.taken = false) (b : Nat) : l.close false b =
    { l with lastClose := .filled, gapRun := min 65535 (l.gapRun + 1), head := (l.head + b) % l.length } := by
  simp [Line.close, h]

/-- A boundary finds an ACTIVE line with B as it stands (R9), closes it and takes its staged writer. -/
theorem boundary_activeLine {s : State} {l : LineNo} (h : (s.line l).state = .active) (zero : Bool) :
    (boundary zero s).line l = { ((s.line l).close zero s.size).takeWriter with taken := false } := by
  rw [boundary_line, sizeAfter_of_active h, Line.boundary_active h]
  rfl

/-! ### The fills the closes owe -/

/-- In SAFE no close owes a fill (R29). -/
theorem owedAtClose_safe {s : State} (h : s.faults.mode = .safe) (ended : PeriodCount) (l : LineNo) :
    owedAtClose ended s l = none := by
  simp [owedAtClose, State.inSafe, h]

/-- In NORMAL the fills owed are those of the ACTIVE lines without a block, in ascending line order. -/
theorem owedAtClose_normal {s : State} (h : s.faults.mode = .normal) (ended : PeriodCount) (lines : List LineNo) :
    lines.filterMap (owedAtClose ended s) =
      (lines.filter fun l => (s.line l).state == .active && !(s.line l).taken).map fun l =>
        { period := ended, line := l, position := (s.line l).head, written := 0 } := by
  induction lines with
  | nil => rfl
  | cons l lines ih =>
    cases owes : (s.line l).state == .active && !(s.line l).taken with
    | true =>
      have owed : owedAtClose ended s l =
          some { period := ended, line := l, position := (s.line l).head, written := 0 } := by
        simp only [Bool.and_eq_true, beq_iff_eq, Bool.not_eq_true'] at owes
        simp [owedAtClose, State.inSafe, h, owes]
      rw [List.filterMap_cons_some owed, List.filter_cons_of_pos (by exact owes), List.map_cons, ih]
    | false =>
      have owed : owedAtClose ended s l = none := by
        simp only [Bool.and_eq_false_iff, beq_eq_false_iff_ne, Bool.not_eq_false'] at owes
        refine if_neg ?_
        rintro ⟨active, untaken, -⟩
        rcases owes with free | taken
        · exact free active
        · exact Bool.false_ne_true (untaken.symm.trans taken)
      rw [List.filterMap_cons_none owed, List.filter_cons_of_neg (by rw [owes]; decide), ih]

/-! ### The place of an owed fill -/

/-- The older of two periods lies further back, modulo 2^32 (log 12). -/
theorem olderThan_iff (now p q : PeriodCount) : olderThan now p q = true ↔ (now - q).toNat < (now - p).toNat :=
  decide_eq_true_iff

/-- The fills that stand before a fill: those of older periods, and those of its own period on lower-numbered lines. -/
def fillBefore (now : PeriodCount) (f g : Fill) : Bool :=
  olderThan now g.period f.period || (g.period == f.period && decide (g.line < f.line))

theorem fillBefore_iff (now : PeriodCount) (f g : Fill) : fillBefore now f g = true ↔
    (now - f.period).toNat < (now - g.period).toNat ∨ (g.period = f.period ∧ g.line < f.line) := by
  rw [fillBefore, Bool.or_eq_true, olderThan_iff, Bool.and_eq_true, beq_iff_eq, decide_eq_true_iff]

/-- An owed fill stands behind those before it and before the rest (R21). -/
theorem insertFill_eq (now : PeriodCount) (f : Fill) (fs : List Fill) :
    insertFill now f fs = fs.takeWhile (fillBefore now f) ++ f :: fs.dropWhile (fillBefore now f) := by
  induction fs with
  | nil => rfl
  | cons g gs ih =>
    unfold insertFill
    by_cases h : fillBefore now f g = true
    · rw [List.takeWhile_cons_of_pos h, List.dropWhile_cons_of_pos h, ih]
      exact if_pos h
    · rw [List.takeWhile_cons_of_neg h, List.dropWhile_cons_of_neg h, List.nil_append]
      exact if_neg h

/-- The first with a property erased is the first of those with it. -/
theorem filter_eraseP_same {α : Type} (p : α → Bool) (xs : List α) : (xs.eraseP p).filter p = (xs.filter p).tail := by
  induction xs with
  | nil => rfl
  | cons x xs ih =>
    cases h : p x with
    | true => rw [List.eraseP_cons_of_pos h, List.filter_cons_of_pos h, List.tail_cons]
    | false =>
      have h' : ¬p x = true := by rw [h]; decide
      rw [List.eraseP_cons_of_neg h', List.filter_cons_of_neg h', List.filter_cons_of_neg h', ih]

/-- It is none of those with a property that excludes its own. -/
theorem filter_eraseP_other {α : Type} {p q : α → Bool} (apart : ∀ x, p x = true → q x = false) (xs : List α) :
    (xs.eraseP p).filter q = xs.filter q := by
  induction xs with
  | nil => rfl
  | cons x xs ih =>
    cases h : p x with
    | true =>
      have out : ¬q x = true := by rw [apart x h]; decide
      rw [List.eraseP_cons_of_pos h, List.filter_cons_of_neg out]
    | false =>
      rw [List.eraseP_cons_of_neg (by rw [h]; decide), List.filter_cons, List.filter_cons, ih]

/-- Inserting a fill leaves the other lines' fills, and adds one to its own line's. -/
theorem insertFill_filter (now : PeriodCount) (f : Fill) (fs : List Fill) (l : LineNo) :
    (l ≠ f.line → (insertFill now f fs).filter (·.line == l) = fs.filter (·.line == l)) ∧
    ((insertFill now f fs).filter (·.line == f.line)).length = (fs.filter (·.line == f.line)).length + 1 := by
  have parts := List.takeWhile_append_dropWhile (p := fillBefore now f) (l := fs)
  rw [insertFill_eq]
  refine ⟨fun other => ?_, ?_⟩
  · conv_rhs => rw [← parts]
    rw [List.filter_append, List.filter_append, List.filter_cons_of_neg (by simpa using other.symm)]
  · have counts := congrArg (fun gs : List Fill => (gs.filter (·.line == f.line)).length) parts
    simp only [List.filter_append, List.length_append] at counts
    rw [List.filter_append, List.filter_cons_of_pos (by exact beq_self_eq_true _), List.length_append, List.length_cons]
    omega

/-- A line with at most one fill owes the inserted one too. -/
theorem oweFill_fits {now : PeriodCount} {f : Fill} {fs : List Fill}
    (h : (fs.filter (·.line == f.line)).length ≤ 1) : oweFill now f fs = insertFill now f fs := by
  have count := (insertFill_filter now f fs f.line).2
  unfold oweFill owedFills
  exact if_neg (by omega)

/-- A line that would hold three loses the first of them. -/
theorem oweFill_over {now : PeriodCount} {f : Fill} {fs : List Fill}
    (h : 2 ≤ (fs.filter (·.line == f.line)).length) :
    oweFill now f fs = (insertFill now f fs).eraseP (·.line == f.line) := by
  have count := (insertFill_filter now f fs f.line).2
  unfold oweFill owedFills
  exact if_pos (by omega)

/-- Owing a fill leaves the other lines' fills. -/
theorem oweFill_other (now : PeriodCount) (f : Fill) (fs : List Fill) {l : LineNo} (other : l ≠ f.line) :
    (oweFill now f fs).filter (·.line == l) = fs.filter (·.line == l) := by
  have inserted := (insertFill_filter now f fs l).1 other
  have apart : ∀ g : Fill, (g.line == f.line) = true → (g.line == l) = false := by
    intro g hg
    rw [eq_of_beq hg]
    exact beq_false_of_ne other.symm
  rcases Nat.lt_or_ge (fs.filter (·.line == f.line)).length 2 with few | many
  · rw [oweFill_fits (by omega), inserted]
  · rw [oweFill_over many, filter_eraseP_other apart, inserted]

/-- Settles O36: the lines, the fill list, and the place of a fill on it. -/
theorem boundariesCloseLinesAndOweFills : Obligations.BoundariesCloseLinesAndOweFills := by
  refine ⟨fun s zero l => ⟨?free, ?first, ?written, ?filled⟩, fun s zero => ⟨?none, ?owed⟩, fun now f fs => ?place⟩
  case free =>
    intro free
    rw [boundary_line, Line.boundary_free free]
  case first =>
    rintro active rfl
    rw [boundary_activeLine active]
    rfl
  case written =>
    rintro active rfl taken
    rw [boundary_activeLine active, Line.close_taken taken]
    rfl
  case filled =>
    rintro active rfl untaken
    rw [boundary_activeLine active, Line.close_untaken untaken]
    rfl
  case none =>
    rw [boundary_fills]
    rintro (rfl | safe)
    · rfl
    · have unowed : allLines.filterMap (owedAtClose s.timer.period s) = [] :=
        List.filterMap_eq_nil_iff.mpr fun l _ => owedAtClose_safe safe _ l
      rw [unowed]
      cases zero <;> rfl
  case owed =>
    rintro rfl normal
    rw [boundary_fills, owedAtClose_normal normal]
    rfl
  case place =>
    refine ⟨fs.takeWhile (fillBefore now f), fs.dropWhile (fillBefore now f),
      List.takeWhile_append_dropWhile.symm, fun g hg => (fillBefore_iff now f g).mp (List.mem_takeWhile_imp hg),
      fun g hg before => ?_, fun l other => oweFill_other now f fs other, fun few => ?_, fun many => ?_⟩
    · have stays := List.head?_dropWhile_not (fillBefore now f) fs
      rw [hg] at stays
      exact absurd ((fillBefore_iff now f g).mpr before) (by simpa using stays)
    · rw [oweFill_fits few, insertFill_eq]
    · rw [oweFill_over many, filter_eraseP_same, insertFill_eq]

end Sys2Proof.Machine
end

section
/-! O39. ALLOC_LINE (R14, R15, R48): its arguments read back, and the page pool's three answers. -/

namespace Sys2Proof.Machine

/-! ### Pages taken (R15) -/

theorem takePages_line (l : LineNo) (writer : Engine) (n : Nat) (s : State) : (takePages l writer n s).line l =
    { state := .active, generation := (s.line l).generation + 1, writer := some writer, stagedWriter := none,
      pages := s.pool.free.take n, head := 0, taken := (s.line l).taken, gapRun := 0, lastClose := .written } :=
  State.line_setLine_same s l _

/-- The result of an allocation: the new generation and the page count (R15). -/
theorem allocResult_takePages (l : LineNo) (writer : Engine) (n : Nat) (s : State) :
    allocResult l n (takePages l writer n s) = ((s.line l).generation + 1) :: bytesOf 2 n := by
  unfold allocResult
  rw [takePages_line, bytesOf_one, BitVec.ofNat_toNat, BitVec.setWidth_eq]
  rfl

/-! ### The page pool's answers (R48) -/

theorem allocate_grants {s : State} {n : Nat} (h : n ≤ s.pool.free.length) (l : LineNo) (writer : Engine) :
    allocate l writer n s =
      (.done .ok 0 (((s.line l).generation + 1) :: bytesOf 2 n), takePages l writer n s) := by
  unfold allocate
  rw [if_pos h]
  dsimp only
  rw [allocResult_takePages]

theorem allocate_refuses {s : State} {n : Nat} (h : s.pool.free.length < n) (short : s.pool.reachable < n)
    (l : LineNo) (writer : Engine) : allocate l writer n s =
      refuse .noSpace (if s.pool.dirty = [] ∧ s.pool.walker = none then s else raise .poolExhausted s) := by
  unfold allocate
  rw [if_neg (Nat.not_le.mpr h), if_pos short]
  simp only [Bool.and_eq_true, List.isEmpty_iff, Option.isNone_iff_eq_none]

theorem allocate_waits {s : State} {n : Nat} (h : s.pool.free.length < n) (reach : n ≤ s.pool.reachable)
    (l : LineNo) (writer : Engine) : allocate l writer n s =
      (.waits, { s with pool := { s.pool with waiting := some { line := l, writer := writer, count := n } } }) := by
  unfold allocate
  rw [if_neg (Nat.not_le.mpr h), if_neg (Nat.not_lt.mpr reach)]

/-! ### The command -/

/-- A two-byte argument at the end of the record. -/
theorem argField_two (a b hi lo : Byte) : argField [a, b, hi, lo] 2 2 = hi.toNat * 256 + lo.toNat := by
  simp [argField, natOfBytes]

/-- ALLOC_LINE with an argument out of its range. -/
theorem ownAllocLine_refuses {l w n1 n0 : Byte}
    (h : 127 < l.toNat ∨ 3 < w.toNat ∨ n1.toNat * 256 + n0.toNat < 1 ∨ 256 < n1.toNat * 256 + n0.toNat) (s : State) :
    ownAllocLine [l, w, n1, n0] s = refuse .badArg s := by
  unfold ownAllocLine
  dsimp only
  rw [argField_two]
  exact if_pos h

/-- ALLOC_LINE with arguments in range: the line's state, and then the pool, decides. -/
theorem ownAllocLine_names (l : LineNo) (e : Engine) {n : Nat} (h : 1 ≤ n) (h' : n ≤ 256) (s : State) :
    ownAllocLine (bytesOf 1 l.val ++ bytesOf 1 e.val ++ bytesOf 2 n) s =
      if (s.line l).state = .active then refuse .state s else allocate l e n s := by
  have args : bytesOf 1 l.val ++ bytesOf 1 e.val ++ bytesOf 2 n =
      [BitVec.ofNat 8 l.val, BitVec.ofNat 8 e.val, BitVec.ofNat 8 (n / 256), BitVec.ofNat 8 n] := by
    rw [bytesOf_one, bytesOf_one, bytesOf_two]
    rfl
  have line : argByte (bytesOf 1 l.val ++ bytesOf 1 e.val ++ bytesOf 2 n) 0 = l.val := by
    rw [args]
    exact argByte_ofNat (Nat.lt_trans l.isLt (by decide)) _
  have writer : argByte (bytesOf 1 l.val ++ bytesOf 1 e.val ++ bytesOf 2 n) 1 = e.val := by
    rw [args]
    exact Nat.mod_eq_of_lt (Nat.lt_trans e.isLt (by decide))
  have count : argField (bytesOf 1 l.val ++ bytesOf 1 e.val ++ bytesOf 2 n) 2 2 = n := by
    rw [args, argField_two, BitVec.toNat_ofNat, BitVec.toNat_ofNat]
    omega
  have inRange : ¬(127 < l.val ∨ 3 < e.val ∨ n < 1 ∨ 256 < n) := by
    have := l.isLt
    have := e.isLt
    omega
  unfold ownAllocLine
  dsimp only
  rw [line, writer, count, if_neg inRange, Fin.ofNat_val_eq_self, Fin.ofNat_val_eq_self]

/-- A free mailbox in NORMAL hands ALLOC_LINE to the line table. -/
theorem exec_allocLine {s : State} (h : takesCommands s = true) {args : List Byte} (hn : args.length = 4) :
    exec (.allocLine (whole args)) s = .next (answer 0x10 (ownAllocLine args (hold 0x10 (wrote 4 s)))) := by
  obtain ⟨free, normal⟩ := (takesCommands_iff s).mp h
  exact congrArg Host.Outcome.next (writeCommand_answers free (by decide) hn (taken_of_normal normal _) _)

/-- Settles O39, refusal by refusal and answer by answer. -/
theorem allocLineTakesPagesOrWaits : Obligations.AllocLineTakesPagesOrWaits := by
  intro s takes
  refine ⟨fun l w n1 n0 out => ?_, fun l e n low high => ?_⟩
  · rw [exec_allocLine takes rfl, ownAllocLine_refuses out]
    rfl
  · intro line taken reachable
    have run : taken = .next (answer 0x10 (ownAllocLine (bytesOf 1 l.val ++ bytesOf 1 e.val ++ bytesOf 2 n)
        (hold 0x10 (wrote 4 s)))) := exec_allocLine takes (by simp)
    rw [run, ownAllocLine_names l e low high]
    have freeLine : line.state = .free → ¬((hold 0x10 (wrote 4 s)).line l).state = .active := fun free active =>
      nomatch free.symm.trans active
    refine ⟨fun active => ?_, fun free enough => ?_, fun free few short => ?_, fun free few reach => ?_⟩
    · rw [if_pos (show ((hold 0x10 (wrote 4 s)).line l).state = .active from active)]
      rfl
    · intro granted
      rw [if_neg (freeLine free), allocate_grants (s := hold 0x10 (wrote 4 s)) enough]
      rfl
    · rw [if_neg (freeLine free), allocate_refuses (s := hold 0x10 (wrote 4 s)) few short]
      show Host.Outcome.next (complete 0x10 .noSpace 0 [] (if s.pool.dirty = [] ∧ s.pool.walker = none then
        hold 0x10 (wrote 4 s) else raise .poolExhausted (hold 0x10 (wrote 4 s)))) = _
      split <;> rfl
    · rw [if_neg (freeLine free), allocate_waits (s := hold 0x10 (wrote 4 s)) few reach]
      rfl

end Sys2Proof.Machine
end

section
/-! O40. FREE_LINE and SET_WRITER (R20, R25, R26, R43, R51): which tap is named in a refusal, and the part a freed line
leaves before the claims are settled. -/

namespace Sys2Proof.Machine

/-! ### Which tap names a line -/

theorem Edit.set?_eq_some (edit : Option Edit) (p : ParamSet) :
    Edit.set? edit = some p ↔ edit = some (.start p) ∨ edit = some (.preset p) := by
  rcases edit with _ | (q | q | _) <;> simp [Edit.set?]

/-- The lowest-numbered tap that names a line is the one FREE_LINE finds (R26). -/
theorem firstNaming_eq {l : LineNo} {s : State} {t : TapNo} (named : (s.tap t).names l = true)
    (lowest : ∀ u, u < t → (s.tap u).names l = false) : firstNaming l s = some t := by
  have below : (allTaps.take t.val).find? (fun u => (s.tap u).names l) = none :=
    List.find?_eq_none.mpr fun u hu => by
      rw [lowest u ((mem_take_allTaps t.val u).mp hu)]
      decide
  unfold firstNaming
  rw [allTaps_split t, List.find?_append, below, Option.none_or, List.find?_cons_of_pos (by exact named)]

theorem firstNaming_eq_none {l : LineNo} {s : State} (h : ∀ t, (s.tap t).names l = false) : firstNaming l s = none :=
  List.find?_eq_none.mpr fun t _ => by
    rw [h t]
    decide

/-! ### The walker's next page (R43) -/

/-- In NORMAL the walker, if it holds no page, takes the head of the dirty queue, and the rest of the pool stands. -/
theorem walkerTakes_pool {s : State} (normal : s.faults.mode = .normal) :
    (∃ walked, walked ++ (walkerTakes s).pool.dirty = s.pool.dirty ∧
      (s.pool.walker.isSome → walked = [] ∧ (walkerTakes s).pool.walker = s.pool.walker) ∧
      (s.pool.walker = none → walked = s.pool.dirty.take 1 ∧
        (walkerTakes s).pool.walker = walked.head?.map fun p => { page := p, phase := .clear, pointer := 0 })) ∧
    (walkerTakes s).pool.free = s.pool.free ∧ (walkerTakes s).pool.retired = s.pool.retired ∧
    (walkerTakes s).pool.waiting = s.pool.waiting := by
  cases h : s.pool.walker with
  | some k =>
    have same : walkerTakes s = s := by
      unfold walkerTakes
      rw [h, Option.isSome_some, Bool.or_true, if_pos rfl]
    rw [same]
    exact ⟨⟨[], rfl, fun _ => ⟨rfl, h⟩, nofun⟩, rfl, rfl, rfl⟩
  | none =>
    rw [walkerTakes_normal normal h]
    refine ⟨⟨s.pool.dirty.take 1, ?_, nofun, fun _ => ⟨rfl, ?_⟩⟩, rfl, rfl, rfl⟩
    · rw [← List.drop_one]
      exact List.take_append_drop 1 s.pool.dirty
    · cases s.pool.dirty <;> rfl

/-! ### A line freed -/

/-- The part after FREE_LINE, before the walker and the arbiter look at it (R25, R26, R51). -/
def lineWithdrawn (l : LineNo) (s : State) : State :=
  let s1 := orphanCommit (fun _ m => m == l) (s.setLine l (s.line l).freed)
  orphanFills { s1 with
    fills := s1.fills.filter (·.line != l)
    pool := { s1.pool with dirty := s1.pool.dirty ++ (s.line l).pages } }

/-- The same once the walker has looked for a page (R43): what the claims are settled of. -/
def lineReleased (l : LineNo) (s : State) : State := walkerTakes (lineWithdrawn l s)

theorem freeLine_eq (l : LineNo) (s : State) : freeLine l s = settle (lineReleased l s) := rfl

/-- Freeing a line touches lines, fills, pages and the access in service alone. -/
@[simp] theorem lineReleased_frame (l : LineNo) (s : State) :
    (lineReleased l s).timer = s.timer ∧ (lineReleased l s).store = s.store ∧
    (lineReleased l s).refresh = s.refresh ∧ (lineReleased l s).oldestOpen = s.oldestOpen ∧
    (lineReleased l s).links = s.links ∧ (lineReleased l s).commits = s.commits ∧
    (lineReleased l s).taps = s.taps ∧ (lineReleased l s).proc = s.proc ∧ (lineReleased l s).tempo = s.tempo ∧
    (lineReleased l s).oscs = s.oscs ∧ (lineReleased l s).scenes = s.scenes ∧ (lineReleased l s).port = s.port ∧
    (lineReleased l s).notices = s.notices ∧ (lineReleased l s).faults = s.faults ∧
    (lineReleased l s).freeIx = s.freeIx ∧ (lineReleased l s).pending = s.pending := by
  simp [lineReleased, lineWithdrawn]

@[simp] theorem lineReleased_fills (l : LineNo) (s : State) :
    (lineReleased l s).fills = s.fills.filter (·.line != l) := by
  simp [lineReleased, lineWithdrawn]

theorem lineReleased_line (l m : LineNo) (s : State) :
    (lineReleased l s).line m = if m = l then (s.line l).freed else s.line m := by
  rw [State.line_of_lines (s := lineReleased l s) (t := s.setLine l (s.line l).freed) (by simp [lineReleased, lineWithdrawn])]
  exact State.line_setLine s l m _

/-- A write of the line in service is its commit's or its fill's no longer (R25, R34). -/
theorem lineReleased_arbiter (l : LineNo) (s : State) : (lineReleased l s).arbiter = { s.arbiter with
    inService :=
      s.arbiter.inService.map (Access.heldBy (fun _ m => m != l) (owesFill (lineReleased l s).fills) true) } := by
  rw [lineReleased_fills]
  unfold lineReleased lineWithdrawn
  dsimp only
  rw [(walkerTakes_frame _).2.2.1, orphanFills_arbiter]
  simp [orphanCommit_arbiter, Function.comp_def]
  rfl

theorem lineReleased_eq (l : LineNo) (s : State) : lineReleased l s = { s with
    lines := (lineReleased l s).lines, fills := (lineReleased l s).fills, pool := (lineReleased l s).pool
    port := (lineReleased l s).port
    arbiter := { s.arbiter with
      inService := s.arbiter.inService.map
        (Access.heldBy (fun _ m => m != l) (owesFill (lineReleased l s).fills) true) } } := by
  apply State.eq_of_fields <;> simp [lineReleased_arbiter]

/-- The freed line's pages join the dirty queue's tail, and the walker may take its head (R43, R51). -/
theorem lineReleased_pool {s : State} (normal : s.faults.mode = .normal) (l : LineNo) :
    (∃ walked, walked ++ (lineReleased l s).pool.dirty = s.pool.dirty ++ (s.line l).pages ∧
      (s.pool.walker.isSome → walked = [] ∧ (lineReleased l s).pool.walker = s.pool.walker) ∧
      (s.pool.walker = none → walked = (s.pool.dirty ++ (s.line l).pages).take 1 ∧
        (lineReleased l s).pool.walker = walked.head?.map fun p => { page := p, phase := .clear, pointer := 0 })) ∧
    (lineReleased l s).pool.free = s.pool.free ∧ (lineReleased l s).pool.retired = s.pool.retired := by
  have pool : (lineWithdrawn l s).pool = { s.pool with dirty := s.pool.dirty ++ (s.line l).pages } := by
    simp [lineWithdrawn]
  obtain ⟨walked, free, retired, -⟩ := walkerTakes_pool (s := lineWithdrawn l s) (by simpa [lineWithdrawn] using normal)
  rw [pool] at walked free retired
  exact ⟨walked, free, retired⟩

/-! ### The commands -/

theorem exec_freeLine {s : State} (h : takesCommands s = true) (x : Byte) :
    exec (.freeLine (whole [x])) s = .next (answer 0x11 (ownFreeLine [x] (hold 0x11 (wrote 1 s)))) := by
  obtain ⟨free, normal⟩ := (takesCommands_iff s).mp h
  exact congrArg Host.Outcome.next (writeCommand_answers (n := 1) free (by decide) rfl (taken_of_normal normal _) _)

/-- FREE_LINE for a line in range: its state decides, then the taps that name it. -/
theorem ownFreeLine_cases (l : LineNo) (s : State) :
    ((s.line l).state = .free → ownFreeLine [BitVec.ofNat 8 l.val] s = refuse .state s) ∧
    (¬(s.line l).state = .free →
      (∀ t, firstNaming l s = some t →
        ownFreeLine [BitVec.ofNat 8 l.val] s = (.done .inUse 0 (bytesOf 2 t.val), s)) ∧
      (firstNaming l s = none → ownFreeLine [BitVec.ofNat 8 l.val] s = okBytes [] (freeLine l s))) := by
  have number := argByte_ofNat (Nat.lt_trans l.isLt (by decide : 128 < 256)) []
  unfold ownFreeLine
  rw [number, if_neg (Nat.not_lt.mpr (Nat.le_of_lt_succ l.isLt)), Fin.ofNat_val_eq_self]
  refine ⟨fun free => if_pos free, fun kept => ⟨fun t named => ?_, fun unnamed => ?_⟩⟩
  · dsimp only
    rw [if_neg kept, named]
  · dsimp only
    rw [if_neg kept, unnamed]

theorem exec_setWriter {s : State} (h : takesCommands s = true) (x y : Byte) :
    exec (.setWriter (whole [x, y])) s = .next (answer 0x12 (ownSetWriter [x, y] (hold 0x12 (wrote 2 s)))) := by
  obtain ⟨free, normal⟩ := (takesCommands_iff s).mp h
  exact congrArg Host.Outcome.next (writeCommand_answers (n := 2) free (by decide) rfl (taken_of_normal normal _) _)

theorem ownSetWriter_names (l : LineNo) (e : Engine) (s : State) :
    ownSetWriter [BitVec.ofNat 8 l.val, BitVec.ofNat 8 e.val] s =
      if (s.line l).state = .free then refuse .state s
      else okBytes [] (s.setLine l { s.line l with stagedWriter := some e }) := by
  have line : argByte [BitVec.ofNat 8 l.val, BitVec.ofNat 8 e.val] 0 = l.val :=
    argByte_ofNat (Nat.lt_trans l.isLt (by decide : 128 < 256)) _
  have writer : argByte [BitVec.ofNat 8 l.val, BitVec.ofNat 8 e.val] 1 = e.val :=
    Nat.mod_eq_of_lt (Nat.lt_trans e.isLt (by decide))
  have inRange : ¬(127 < l.val ∨ 3 < e.val) := by omega
  unfold ownSetWriter
  rw [line, writer, if_neg inRange, Fin.ofNat_val_eq_self, Fin.ofNat_val_eq_self]

/-- Settles O40: the names, FREE_LINE and SET_WRITER. -/
theorem linesAreFreedAndChangeWriter : Obligations.LinesAreFreedAndChangeWriter := by
  refine ⟨fun l t => ?names, fun s l takes => ?free, fun s l e takes => ?writer⟩
  case names => simp only [Tap.names_iff, Edit.set?_eq_some]
  case free =>
    intro line taken
    have run : taken = _ := exec_freeLine takes (BitVec.ofNat 8 l.val)
    have normal := ((takesCommands_iff s).mp takes).2
    have kept : line.state = .active → ¬((hold 0x11 (wrote 1 s)).line l).state = .free := fun active free =>
      nomatch active.symm.trans free
    obtain ⟨refused, judged⟩ := ownFreeLine_cases l (hold 0x11 (wrote 1 s))
    rw [run]
    refine ⟨fun free => ?_, fun active t named lowest => ?_, fun active unnamed => ?_, fun x out => ?_⟩
    · rw [refused free]
      rfl
    · rw [(judged (kept active)).1 t (firstNaming_eq named lowest)]
      rfl
    · rw [(judged (kept active)).2 (firstNaming_eq_none unnamed)]
      obtain ⟨walked, free, retired⟩ := lineReleased_pool (s := hold 0x11 (wrote 1 s)) normal l
      have port : (lineReleased l (hold 0x11 (wrote 1 s))).port = (hold 0x11 (wrote 1 s)).port := by simp
      refine ⟨lineReleased l (hold 0x11 (wrote 1 s)), rfl, lineReleased_eq l (hold 0x11 (wrote 1 s)),
        (congrArg Port.collide port).trans rfl, (congrArg Port.dataOut port).trans rfl, ?_, fun m other => ?_,
        lineReleased_fills _ _, walked, free, retired⟩
      · rw [lineReleased_line, if_pos rfl]
        rfl
      · rw [lineReleased_line, if_neg other]
        rfl
    · rw [exec_freeLine takes, ownFreeLine, if_pos (show 127 < argByte [x] 0 from out)]
      rfl
  case writer =>
    intro taken
    have run : taken = _ := exec_setWriter takes (BitVec.ofNat 8 l.val) (BitVec.ofNat 8 e.val)
    rw [run, ownSetWriter_names]
    refine ⟨fun active => ?_, fun free => ?_, fun x y out => ?_⟩
    · have kept : ¬((hold 0x12 (wrote 2 s)).line l).state = .free := fun free => nomatch active.symm.trans free
      rw [if_neg kept]
      rfl
    · rw [if_pos (show ((hold 0x12 (wrote 2 s)).line l).state = .free from free)]
      rfl
    · rw [exec_setWriter takes, ownSetWriter]
      rw [if_pos (show 127 < argByte [x, y] 0 ∨ 3 < argByte [x, y] 1 from out)]
      rfl

end Sys2Proof.Machine
end

section
/-! O41. The arbiter (R12, R22, R35 to R38, R69, R93, R94, R99): the word each claim names, the reads of a tap, and the
choice among the claims. -/

namespace Sys2Proof.Machine

/-! ### The words claimed (R12) -/

/-- A ring position of an ACTIVE line maps to the word of its page. -/
theorem Line.wordAt_active {l : Line} (active : l.state = .active) {position : Nat} {page : Page}
    (h : l.pages[position % l.length / 4096]? = some page) :
    l.wordAt position = some (page.val * 4096 + position % l.length % 4096) := by
  have held : l.pages ≠ [] := by
    rintro empty
    rw [empty] at h
    cases h
  have length : l.length ≠ 0 := by
    simpa [Line.length] using held
  unfold Line.wordAt
  rw [if_pos ⟨active, length⟩]
  dsimp only
  rw [h]
  rfl

theorem commitClaim_head {s : State} {f : QueuedFrame} {fs : List QueuedFrame} {k : KeptBlock} {ks : List KeptBlock}
    (queue : s.commits = f :: fs) (blocks : f.blocks = k :: ks) {w : Nat}
    (word : (s.line k.line).wordAt (k.head + k.written) = some w) :
    commitClaim s = some (f.period, .commitWrite f.engine k.line w (k.samples.getD k.written 0) true) := by
  unfold commitClaim
  rw [queue]
  dsimp only
  rw [blocks]
  dsimp only
  rw [word]
  rfl

theorem fillClaim_head {s : State} {f : Fill} {fs : List Fill} (owed : s.fills = f :: fs) {w : Nat}
    (word : (s.line f.line).wordAt (f.position + f.written) = some w) :
    fillClaim s = some (f.period, .fillWrite f.line f.period w true) := by
  unfold fillClaim
  rw [owed]
  dsimp only
  rw [word]
  rfl

theorem passClaim_next {s : State} {p : Pass} {r : ReadReq} {rs : List ReadReq} (pass : s.proc.pass = some p)
    (todo : p.todo = r :: rs) {w : Nat} (word : (s.line r.line).wordAt r.position = some w) :
    passClaim s = some (.passRead r.line p.engine w true) := by
  unfold passClaim
  rw [pass]
  dsimp only
  rw [todo]
  dsimp only
  rw [word]
  rfl

theorem passClaim_none {s : State} (h : s.proc.pass = none) : passClaim s = none := by
  unfold passClaim; rw [h]

/-! ### The reads of a tap (R93, R94) -/

/-- The ring positions that sample i of a reading needs in the current period. -/
def sampleReadsOf (s : State) (r : Reading) (i : Nat) : List Nat :=
  sampleNeeds r.interp (s.line r.line).length
    (r.positionAt s.size (s.line r.line).head (s.line r.line).length i)

/-- In the current period a line's head is the one it holds (R92). -/
theorem needs_current (s : State) (r : Reading) :
    r.needs s s.timer.period = firstOnly ((List.range s.size).flatMap (sampleReadsOf s r)) := by
  unfold Reading.needs headIn
  rw [if_pos rfl]
  rfl

/-- The positions of the first samples are read before those of the others. -/
theorem needs_prefix (s : State) (r : Reading) {i : Nat} (h : i ≤ s.size) :
    ∃ n, (r.needs s s.timer.period).take n = firstOnly ((List.range i).flatMap (sampleReadsOf s r)) := by
  have range : List.range s.size = List.range i ++ (List.range (s.size - i)).map (i + ·) := by
    rw [← List.range_add, Nat.add_sub_cancel' h]
  obtain ⟨-, -, more, parts⟩ := firstOnly_spec ((List.range i).flatMap (sampleReadsOf s r))
    (((List.range (s.size - i)).map (i + ·)).flatMap (sampleReadsOf s r))
  refine ⟨(firstOnly ((List.range i).flatMap (sampleReadsOf s r))).length, ?_⟩
  rw [needs_current, range, List.flatMap_append, ← parts]
  exact List.take_left

/-- A position is read for the samples below i exactly when one of them needs it. -/
theorem mem_firstOnly_samples (s : State) (r : Reading) (i q : Nat) :
    q ∈ firstOnly ((List.range i).flatMap (sampleReadsOf s r)) ↔ ∃ j, j < i ∧ q ∈ sampleReadsOf s r j := by
  rw [(firstOnly_spec _ []).2.1, List.mem_flatMap]
  simp only [List.mem_range]

/-! ### The arbiter's choice (R35 to R38) -/

theorem chooseClaim_safe {s : State} (h : s.faults.mode = .safe) : chooseClaim s = refreshClaim s := by
  unfold chooseClaim
  rw [if_pos (by simp [State.inSafe, h])]

theorem chooseClaim_calm {s : State} (h : s.faults.mode = .normal) (calm : s.refresh.urgent = false) :
    chooseClaim s = (class2Claim s).or ((passClaim s).or ((refreshClaim s).or (scrubClaim s))) := by
  unfold chooseClaim
  rw [if_neg (by simp [State.inSafe, h]), if_neg (by simp [calm])]

theorem chooseClaim_urgentFirst {s : State} (h : s.faults.mode = .normal) (urgent : s.refresh.urgent = true)
    (turn : s.arbiter.urgentFirst = true ∨ s.arbiter.lastRefresh = false) :
    chooseClaim s = (refreshClaim s).or ((class2Claim s).or ((passClaim s).or (scrubClaim s))) := by
  unfold chooseClaim
  rw [if_neg (by simp [State.inSafe, h]), if_pos urgent, if_pos (by simpa using turn)]

theorem chooseClaim_urgentAfter {s : State} (h : s.faults.mode = .normal) (urgent : s.refresh.urgent = true)
    (chosen : s.arbiter.urgentFirst = false) (after : s.arbiter.lastRefresh = true) :
    chooseClaim s = (class2Claim s).or ((passClaim s).or ((scrubClaim s).or (refreshClaim s))) := by
  unfold chooseClaim
  rw [if_neg (by simp [State.inSafe, h]), if_pos urgent, if_neg (by simp [chosen, after])]

theorem class2Claim_both {s : State} {p q : PeriodCount} {a b : Access} (commit : commitClaim s = some (p, a))
    (fill : fillClaim s = some (q, b)) : class2Claim s =
      some (if (s.timer.period - p).toNat < (s.timer.period - q).toNat then b else a) := by
  unfold class2Claim
  rw [commit, fill]
  simp only [olderThan_iff]

/-- Settles O41: the claims, the reads, each position once in the order of the samples, and the choice. -/
theorem theArbiterServesTheLowestClass : Obligations.TheArbiterServesTheLowestClass := by
  refine ⟨fun s => ⟨?commit, ?fill, ?pass, passClaim_none⟩, fun s t => ⟨?one, ?two⟩, fun s r => ?once, fun s => ?choice⟩
  case commit =>
    exact fun f fs k ks page queue blocks active mapped =>
      commitClaim_head queue blocks (Line.wordAt_active active mapped)
  case fill => exact fun f fs page owed active mapped => fillClaim_head owed (Line.wordAt_active active mapped)
  case pass => exact fun p r rs page pass todo active mapped => passClaim_next pass todo (Line.wordAt_active active mapped)
  case one =>
    intro r readings
    unfold tapReads
    rw [readings]
    exact List.append_nil _
  case two =>
    intro r u readings
    unfold tapReads
    rw [readings]
    exact congrArg (_ ++ ·) (List.append_nil _)
  case once =>
    refine ⟨?_, fun q => ?_, fun i hi => ?_⟩
    · rw [needs_current]
      exact (firstOnly_spec _ []).1
    · rw [needs_current]
      exact mem_firstOnly_samples s r s.size q
    · obtain ⟨n, first⟩ := needs_prefix s r hi
      refine ⟨n, fun q => ?_⟩
      rw [first]
      exact mem_firstOnly_samples s r i q
  case choice =>
    refine ⟨chooseClaim_safe, chooseClaim_calm, chooseClaim_urgentFirst, chooseClaim_urgentAfter,
      fun p q a b => class2Claim_both, fun p a commit unowed => ?_, fun q b idle fill => ?_⟩
    · rw [class2Claim, commit, unowed]
    · rw [class2Claim, idle, fill]

end Sys2Proof.Machine
end

section
/-! O44. The ends of a waiting allocation (R15, R43, R46, R49, R50): the VERIFY that grants it and the VERIFY that strands
it, each with the walker's next page. -/

namespace Sys2Proof.Machine

/-! ### The VERIFY read in service (R45) -/

theorem ReadOutcome.passes_iff (o : ReadOutcome) :
    o.passes = true ↔ (∃ v, o = .clean v ∧ v = 0) ∨ ∃ v, o = .corrected v ∧ v = 0 := by
  cases o <;> simp [ReadOutcome.passes]

theorem scrubInService_eq {s : State} {k : Walk} {phase : ScrubPhase} (access : s.arbiter.inService = some .scrub)
    (walker : s.pool.walker = some k) (inPhase : k.phase = phase) : scrubInService phase s = some k := by
  unfold scrubInService
  rw [access, walker]
  exact if_pos inPhase

/-- The three rows of a VERIFY read take the same change where each is due (log 14). -/
theorem exec_verifyRead {s : State} {k : Walk} (u : Upset) (read : scrubInService .verify s = some k) :
    exec (.scrubVerifyReadComplete u) s = .next (completeVerify k u s) ∧
    (verifyGrants k u s = true → exec (.allocComplete u) s = .next (completeVerify k u s)) ∧
    (verifyStrands k u s = true → exec (.allocNoSpace u) s = .next (completeVerify k u s)) := by
  refine ⟨?_, fun grants => ?_, fun strands => ?_⟩
  · show execScrubVerifyReadComplete u s = _
    rw [execScrubVerifyReadComplete, read]
  · show execAllocComplete u s = _
    rw [execAllocComplete, read]
    exact congrArg Host.Outcome.next (if_pos grants)
  · show execAllocNoSpace u s = _
    rw [execAllocNoSpace, read]
    exact congrArg Host.Outcome.next (if_pos strands)

theorem completeVerify_passes {s : State} {k : Walk} {u : Upset}
    (h : (readOutcome (wordOf k.page k.pointer) u s).passes = true) : completeVerify k u s =
      settle (verifyPasses k (endAccess false (storeRead (wordOf k.page k.pointer) u s))) :=
  congrArg settle (if_pos h)

theorem completeVerify_fails {s : State} {k : Walk} {u : Upset}
    (h : ¬(readOutcome (wordOf k.page k.pointer) u s).passes = true) : completeVerify k u s =
      settle (verifyFails k (endAccess false (storeRead (wordOf k.page k.pointer) u s))) :=
  congrArg settle (if_neg h)

/-! ### The allocation granted (R15, R49) -/

/-- The last word passed brings the free list to the count: the line takes the pages at its head, and the walker the head
of the dirty queue. -/
theorem verifyPasses_grants {s : State} {k : Walk} {x : Waiting} (last : k.pointer = 4095)
    (waits : s.pool.waiting = some x) (enough : x.count ≤ s.pool.free.length + 1) (normal : s.faults.mode = .normal) :
    verifyPasses k s = complete 0x10 .ok 0 (((s.line x.line).generation + 1) :: bytesOf 2 x.count)
      { s.setLine x.line
          { state := .active, generation := (s.line x.line).generation + 1, writer := some x.writer
            stagedWriter := none, pages := (s.pool.free ++ [k.page]).take x.count, head := 0
            taken := (s.line x.line).taken, gapRun := 0, lastClose := .written } with
        pool :=
          { s.pool with
            free := (s.pool.free ++ [k.page]).drop x.count
            walker := s.pool.dirty.head?.map fun p => { page := p, phase := .clear, pointer := 0 }
            dirty := s.pool.dirty.tail, waiting := none } } := by
  have count : x.count ≤ (s.pool.free ++ [k.page]).length := by simpa using enough
  unfold verifyPasses lookAtWaiting
  rw [if_neg (by omega)]
  dsimp only
  rw [waits]
  dsimp only
  rw [if_pos count, allocResult_takePages, walkerTakes_normal (by exact normal) (by rfl)]
  rfl

/-! ### The allocation stranded (R46, R50) -/

/-- With the reachable count below its count a waiting allocation ends (R50). -/
theorem lookAtShortage_ends {s : State} {x : Waiting} (waits : s.pool.waiting = some x)
    (short : s.pool.reachable < x.count) : lookAtShortage s = complete 0x10 .noSpace 0 []
      { (if s.pool.dirty = [] then s else raise .poolExhausted s) with pool := { s.pool with waiting := none } } := by
  unfold lookAtShortage
  rw [waits]
  dsimp only
  rw [if_pos short]
  by_cases clean : s.pool.dirty = []
  · rw [if_pos clean, if_pos (List.isEmpty_iff.mpr clean)]
    exact endWaiting_some waits
  · rw [if_neg clean, if_neg (fun h => clean (List.isEmpty_iff.mp h))]
    exact endWaiting_some (s := raise .poolExhausted s) waits

/-- The failing VERIFY that retires a page is a store fault; with the reachable count below its count the allocation ends
NO_SPACE, and the walker takes the head of the dirty queue. -/
theorem verifyFails_strands {s : State} {k : Walk} {x : Waiting} (waits : s.pool.waiting = some x)
    (room : s.pool.retired.length < 64) (below : s.faults.level < 3)
    (short : s.pool.free.length + s.pool.dirty.length < x.count) (normal : s.faults.mode = .normal) :
    verifyFails k s =
      (let retired := s.pool.retired.takeWhile (· < k.page) ++ k.page :: s.pool.retired.dropWhile (· < k.page)
      let faulted := raise .storeFault { s with
        pool :=
          { s.pool with
            walker := s.pool.dirty.head?.map fun p => { page := p, phase := .clear, pointer := 0 }
            dirty := s.pool.dirty.tail, waiting := none, retired := retired }
        faults := s.faults.record (verifyFaultEntry k) false }
      complete 0x10 .noSpace 0 [] (if s.pool.dirty = [] then faulted else raise .poolExhausted faulted)) := by
  have counts : ¬(s.faults.mode = .normal ∧ 3 ≤ s.faults.level) := fun h => by omega
  have inNormal : ¬s.inSafe = true := by simp [State.inSafe, normal]
  unfold verifyFails
  rw [if_neg inNormal, if_pos room]
  dsimp only
  rw [storeFault_records (by exact counts), insertPage_eq, lookAtShortage_ends (by exact waits) (by exact short),
    walkerTakes_normal]
  · dsimp only
    cases s.pool.dirty <;> rfl
  · cases s.pool.dirty <;> exact normal
  · rfl

/-- Settles O44: the grant, and the shortage. -/
theorem waitingAllocationsEnd : Obligations.WaitingAllocationsEnd := by
  intro s k upset x access walker phase waits normal w passes old free read ended entry
  obtain ⟨scrub, complete, noSpace⟩ := exec_verifyRead upset (scrubInService_eq access walker phase)
  have passed : (readOutcome w upset s).passes = true ↔ passes := ReadOutcome.passes_iff _
  let afterRead := endAccess false (storeRead (wordOf k.page k.pointer) upset s)
  refine ⟨fun pass last enough => ?grant, fun fail room below short => ?strand⟩
  case grant =>
    intro granted t
    have grants : verifyGrants k upset s = true := by
      simp only [verifyGrants, Bool.and_eq_true, beq_iff_eq]
      exact ⟨⟨passed.mpr pass, last⟩, by simp [waits, enough]⟩
    have same : completeVerify k upset s = settle t := by
      rw [completeVerify_passes (passed.mpr pass), verifyPasses_grants (s := afterRead) last waits enough normal]
      rfl
    exact ⟨(complete grants).trans (congrArg _ same), scrub.trans (congrArg _ same)⟩
  case strand =>
    intro retired faulted t
    have failed : ¬(readOutcome (wordOf k.page k.pointer) upset s).passes = true := fun h => fail (passed.mp h)
    have strands : verifyStrands k upset s = true := by
      simp [verifyStrands, failed, room, below, short, waits, State.inSafe, normal]
    have same : completeVerify k upset s = settle t := by
      rw [completeVerify_fails failed, verifyFails_strands (s := afterRead) waits room below short normal]
      rfl
    exact ⟨(noSpace strands).trans (congrArg _ same), scrub.trans (congrArg _ same)⟩

end Sys2Proof.Machine
end

section
/-! O45. The accesses of the store (R22, R31, R32, R34, R69): the outcome of a read, the one word a write changes, and the
claimant that a write in service advances. -/

namespace Sys2Proof.Machine

/-! ### Reads (R31, R32) -/

/-- What a read makes of its word, by how the word's bits stand. -/
theorem storeRead_cases (w : Nat) (u : Upset) (s : State) :
    let cell := (s.store.cells.read w).upset u
    (cell.integrity = .sound → readOutcome w u s = .clean cell.sample ∧
      (storeRead w u s).store.corrected = s.store.corrected) ∧
    (cell.integrity = .oneWrong → readOutcome w u s = .corrected cell.sample ∧
      (storeRead w u s).store.corrected = min 65535 (s.store.corrected + 1)) ∧
    (cell.integrity = .manyWrong → readOutcome w u s = .uncorrectable ∧
      (storeRead w u s).store.corrected = s.store.corrected) := by
  intro cell
  have outcome : readOutcome w u s = cell.outcome := rfl
  have count : (storeRead w u s).store.corrected =
      if cell.integrity = .oneWrong then min 65535 (s.store.corrected + 1) else s.store.corrected := rfl
  rw [outcome, count, StoreWord.outcome]
  refine ⟨fun h => ?_, fun h => ?_, fun h => ?_⟩ <;> rw [h] <;> exact ⟨rfl, rfl⟩

/-- A read writes back the word it has read, with its wrong bits, and no other. -/
theorem storeRead_cells {s : State} (wf : s.store.cells.wf = true) (w : Nat) (u : Upset) :
    (storeRead w u s).store.cells.read w = (s.store.cells.read w).upset u ∧
    ∀ a, a ≠ w → (storeRead w u s).store.cells.read a = s.store.cells.read a :=
  ⟨Memory.read_write_same (low := none) wf, fun _ other => Memory.read_write_other other⟩

/-! ### Writes (R31) -/

/-- A write places one sample with fresh check bits and no other word. -/
theorem storeWrite_cells {s : State} (wf : s.store.cells.wf = true) (w : Nat) (v : Sample) :
    (storeWrite w v s).store.cells.read w = { sample := v, integrity := .sound } ∧
    ∀ a, a ≠ w → (storeWrite w v s).store.cells.read a = s.store.cells.read a :=
  ⟨Memory.read_write_same (low := none) wf, fun _ other => Memory.read_write_other other⟩

/-! ### The claimants (R22, R34, R69) -/

/-- A commit that moves on changes the commit queue alone. -/
theorem advanceCommit_eq (s : State) : advanceCommit s = { s with commits := (advanceCommit s).commits } := by
  unfold advanceCommit
  split
  · rfl
  · split <;> rfl

theorem advanceCommit_head {s : State} {f : QueuedFrame} {fs : List QueuedFrame} {k : KeptBlock} {ks : List KeptBlock}
    (queue : s.commits = f :: fs) (blocks : f.blocks = k :: ks) : (advanceCommit s).commits =
      { f with blocks := { k with written := k.written + 1 } :: ks } :: fs := by
  unfold advanceCommit
  rw [queue]
  dsimp only
  rw [blocks]

theorem exec_commitWriteComplete {s : State} {e : Engine} {l : LineNo} {w : Nat} {v : Sample} {live : Bool}
    (h : s.arbiter.inService = some (.commitWrite e l w v live)) : exec .commitWriteComplete s =
      .next (settle (if live then advanceCommit (endAccess false (storeWrite w v s))
        else endAccess false (storeWrite w v s))) := by
  show execCommitWriteComplete s = _
  rw [execCommitWriteComplete, h]

theorem exec_fillWriteComplete {s : State} {l : LineNo} {p : PeriodCount} {w : Nat} {live : Bool}
    (h : s.arbiter.inService = some (.fillWrite l p w live)) : exec .fillWriteComplete s =
      .next (settle (if live then { endAccess false (storeWrite w 0 s) with
          fills := s.fills.filterMap (advanceFill s.size l p) }
        else endAccess false (storeWrite w 0 s))) := by
  show execFillWriteComplete s = _
  rw [execFillWriteComplete, h]
  rfl

/-- Settles O45: the reads, and the completion of a commit's and of a fill's write, live and withdrawn. -/
theorem storeAccessesReadAndWriteOneWord : Obligations.StoreAccessesReadAndWriteOneWord := by
  refine ⟨fun s w upset wf => ?read, fun s wf => ⟨fun e l w v live access => ?commit, fun l p w live access => ?fill⟩⟩
  case read =>
    intro cell t
    obtain ⟨sound, oneWrong, manyWrong⟩ := storeRead_cases w upset s
    obtain ⟨same, other⟩ := storeRead_cells wf w upset
    refine ⟨sound, oneWrong, fun h => ?_, same, other, rfl, fun untouched => ?_⟩
    · obtain ⟨outcome, count⟩ := manyWrong h
      exact ⟨outcome, by rw [outcome]; rfl, count⟩
    · simp only [cell, untouched]
      rfl
  case commit =>
    have run := exec_commitWriteComplete access
    obtain ⟨same, other⟩ := storeWrite_cells wf w v
    have store : ∀ t, (settle t).store = t.store := by simp
    cases live with
    | false =>
      exact ⟨endAccess false (storeWrite w v s), s.commits, run, rfl, fun _ => rfl, nofun, rfl, same, other, store _⟩
    | true =>
      let written := endAccess false (storeWrite w v s)
      have kept : (advanceCommit written).store = written.store := by simp
      refine ⟨advanceCommit written, (advanceCommit written).commits, run, ?_, nofun,
        fun _ f fs k ks queue blocks => advanceCommit_head (s := written) queue blocks, ?_, ?_, ?_, store _⟩
      · rw [kept]
        exact advanceCommit_eq written
      · rw [kept]
        rfl
      · rw [kept]
        exact same
      · rw [kept]
        exact other
  case fill =>
    have run := exec_fillWriteComplete access
    obtain ⟨same, other⟩ := storeWrite_cells wf w 0
    have store : ∀ t, (settle t).store = t.store := by simp
    cases live with
    | false =>
      exact ⟨endAccess false (storeWrite w 0 s), run, rfl, fun _ => rfl, nofun, rfl, same, other, store _⟩
    | true =>
      exact ⟨{ endAccess false (storeWrite w 0 s) with fills := s.fills.filterMap (advanceFill s.size l p) }, run, rfl,
        nofun, fun _ => rfl, rfl, same, other, store _⟩

end Sys2Proof.Machine
end

section
/-! O54. PART_RESET (R30, R51, R54, R75, R79, R107, R142, R173, R174, R187): each block's own reset, the OUTPUT frames
that end ABORT, and the walker and the arbiter that go on. -/

namespace Sys2Proof.Machine

/-! ### OUTPUT frames aborted (R74, R75) -/

@[simp] theorem abortFrames_length (n : Nat) (fs : List OutFrame) : (abortFrames n fs).length = fs.length := by
  cases fs <;> simp [abortFrames]

/-- Only the first frame held can have blocks on the lane. -/
theorem abortFrames_getElem? (n : Nat) (fs : List OutFrame) (i : Nat) :
    (abortFrames n fs)[i]? = fs[i]?.map (OutFrame.abort (if i = 0 then n else 0)) := by
  cases fs with
  | nil => rfl
  | cons f fs =>
    cases i with
    | zero => rfl
    | succ i => simp [abortFrames]

@[simp] theorem OutFrame.abort_state (n : Nat) (f : OutFrame) : (f.abort n).state = .ended := by
  unfold OutFrame.abort
  split
  · rfl
  · rfl
  · assumption

theorem abortFrames_ended {n : Nat} {fs : List OutFrame} {f : OutFrame} (h : f ∈ abortFrames n fs) :
    f.state = .ended := by
  cases fs with
  | nil => cases h
  | cons g gs =>
    rcases List.mem_cons.mp h with rfl | later
    · exact g.abort_state n
    · obtain ⟨g', -, rfl⟩ := List.mem_map.mp later
      exact g'.abort_state 0

/-- What ABORT leaves of a frame in each of its states (R75). -/
theorem OutFrame.abort_cases (n : Nat) (f : OutFrame) :
    (f.state = .ended → f.abort n = f) ∧
    (f.state = .opened →
      f.abort n = { f with state := .ended, planned := 0, blocks := [], endStatus := some .abort }) ∧
    (f.state = .sending →
      f.abort n = { f with state := .ended, blocks := f.blocks.take n, endStatus := some .abort }) := by
  unfold OutFrame.abort
  refine ⟨fun h => ?_, fun h => ?_, fun h => ?_⟩ <;> rw [h]

theorem abortTransmitter_link (e : Engine) (s : State) (d : Engine) : (abortTransmitter e s).link d =
    if d = e then { s.link d with tx := abortFrames (Config.laneProgress s.freeIx) (s.link d).tx } else s.link d := by
  have written := State.link_setLink s e d
    { s.link e with tx := abortFrames (Config.laneProgress s.freeIx) (s.link e).tx }
  by_cases h : d = e
  · subst h
    rw [if_pos rfl] at written ⊢
    exact written
  · rw [if_neg h] at written ⊢
    exact written

/-- Transmitters aborted one after another: each once, and the other links stand. -/
theorem abortTransmitters_link {es : List Engine} (once : es.Nodup) (s : State) (d : Engine) :
    (d ∉ es → (es.foldl (fun s e => abortTransmitter e s) s).link d = s.link d) ∧
    (d ∈ es → ∃ n, (es.foldl (fun s e => abortTransmitter e s) s).link d =
      { s.link d with tx := abortFrames n (s.link d).tx }) := by
  induction es generalizing s with
  | nil => exact ⟨fun _ => rfl, nofun⟩
  | cons e es ih =>
    obtain ⟨fresh, rest⟩ := List.nodup_cons.mp once
    obtain ⟨stands, aborts⟩ := ih rest (abortTransmitter e s)
    rw [List.foldl_cons]
    refine ⟨fun out => ?_, fun isIn => ?_⟩
    · rw [stands (fun h => out (List.mem_cons_of_mem _ h)), abortTransmitter_link,
        if_neg (fun h : d = e => out (h ▸ List.mem_cons_self))]
    · by_cases first : d = e
      · refine ⟨Config.laneProgress s.freeIx, ?_⟩
        rw [stands (first ▸ fresh), abortTransmitter_link, if_pos first]
      · obtain ⟨n, aborted⟩ := aborts ((List.mem_cons.mp isIn).resolve_left first)
        refine ⟨n, ?_⟩
        rw [aborted, abortTransmitter_link, if_neg first]

/-! ### The blocks reset (R174) -/

@[simp] theorem resetLinks_commits (s : State) : (resetLinks s).commits = [] :=
  foldl_keeps State.commits _ (by simp) _ _

/-- A link after PART_RESET, with its frames ended ABORT (R75, R79). -/
theorem resetLinks_link (s : State) (e : Engine) :
    ∃ n, (resetLinks s).link e = { (s.link e).partReset with tx := abortFrames n (s.link e).tx } := by
  let cleared : State := { emptyCommits s with links := (emptyCommits s).links.map Link.partReset }
  have base : cleared.link e = (s.link e).partReset := by
    have mapped : cleared.link e = ((emptyCommits s).link e).partReset := by simp [cleared, State.link]
    rw [mapped, (emptyCommits_link s e).1]
    rfl
  obtain ⟨n, aborted⟩ := (abortTransmitters_link (es := allEngines) (by decide) cleared e).2 (mem_allEngines e)
  rw [base] at aborted
  exact ⟨n, aborted⟩

theorem resetLinks_arbiter (s : State) : (resetLinks s).arbiter = { s.arbiter with
    inService := s.arbiter.inService.map (Access.heldBy (fun _ _ => false) (fun _ _ => true) true) } :=
  (foldl_keeps State.arbiter _ (by simp) _ _).trans (emptyCommits_arbiter s)

theorem resetTaps_arbiter (s : State) : (resetTaps s).arbiter = { s.arbiter with
    inService := s.arbiter.inService.map (Access.heldBy (fun _ _ => true) (fun _ _ => true) false) } :=
  orphanPassRead_arbiter s

theorem Tempo.partReset_internal {t : Tempo} (h : t.source = .internal) :
    t.partReset = { t with tapList := [], lastTap := none, tapSide := false, oscSide := false } := by
  unfold Tempo.partReset
  split
  · next other => exact absurd (h.symm.trans other) (by decide)
  · rfl

theorem Tempo.partReset_external {t : Tempo} (h : t.source = .external) :
    t.partReset = { t with tapList := [], lastTap := none, tapSide := false, oscSide := false, ext := .acquiring,
                           window := [], phase := 0, lastPulse := none, lossTimer := none } := by
  unfold Tempo.partReset
  split
  · rfl
  · next other => exact absurd (h.symm.trans other) (by decide)

/-- The part with every block reset, before the walker and the arbiter look at it. -/
def blocksReset (s : State) : State :=
  let s1 := resetTaps (resetLinks (resetLines s))
  { s1 with
    tempo := s1.tempo.partReset
    oscs := Vector.ofFn Osc.reset
    scenes := []
    faults := FaultUnit.reset
    notices := { s1.notices with pending := 0 } }

theorem resetBlocks_eq (s : State) : resetBlocks s = settle (walkerTakes (blocksReset s)) := rfl

@[simp] theorem blocksReset_stands (s : State) : (blocksReset s).timer = s.timer ∧
    (blocksReset s).store = s.store ∧ (blocksReset s).refresh = s.refresh ∧ (blocksReset s).port = s.port := by
  simp [blocksReset]

@[simp] theorem blocksReset_tables (s : State) : (blocksReset s).lines = s.lines.map Line.partReset ∧
    (blocksReset s).fills = [] ∧ (blocksReset s).commits = [] ∧
    (blocksReset s).links = (resetLinks (resetLines s)).links ∧
    (blocksReset s).taps = Vector.replicate 512 Tap.reset ∧ (blocksReset s).proc = TapProc.reset ∧
    (blocksReset s).oscs = Vector.ofFn Osc.reset ∧ (blocksReset s).scenes = [] := by
  simp [blocksReset, resetLines, resetTaps]

@[simp] theorem blocksReset_units (s : State) : (blocksReset s).tempo = s.tempo.partReset ∧
    (blocksReset s).faults = FaultUnit.reset ∧ (blocksReset s).notices = { s.notices with pending := 0 } ∧
    (blocksReset s).pool = { s.pool with dirty := s.pool.dirty ++ linePages s, waiting := none } := by
  simp [blocksReset, resetLines]

/-- The access in service is no commit's, no fill's and no pass's (R34). -/
theorem blocksReset_arbiter (s : State) : (blocksReset s).arbiter = { s.arbiter with
    inService := s.arbiter.inService.map (Access.heldBy (fun _ _ => false) (fun _ _ => false) false) } := by
  have base : (blocksReset s).arbiter = (resetTaps (resetLinks (resetLines s))).arbiter := rfl
  have lines : (resetLines s).arbiter = (withdrawFills s).arbiter := rfl
  rw [base, resetTaps_arbiter, resetLinks_arbiter, lines, withdrawFills_arbiter]
  simp [Function.comp_def]

/-! ### The part settled -/

/-- With no frame queued settling leaves the links and the queue, and with no fill owed either no period is open. -/
theorem settle_unqueued {s : State} (commits : s.commits = []) (fills : s.fills = []) :
    (settle s).commits = [] ∧ (settle s).links = s.links ∧ (settle s).oldestOpen = s.timer.period := by
  have drained : drainCommits s = s := by
    unfold drainCommits
    rw [commits, drainFrames, ← commits]
  refine ⟨?_, ?_, ?_⟩
  · rw [settle_eq, settledClaims, drained]
    simpa using commits
  · rw [settle_eq, settledClaims, drained]
    simp
  · rw [settle_oldestOpen, drained]
    simp [closedUpTo, commits, fills, oldestOf]

/-- PART_RESET's own record is taken in every mailbox state and in both modes (R168, R173). -/
theorem exec_partReset (s : State) : exec (.partReset (whole [])) s = .next (partReset (zerosOut 3 s)) :=
  congrArg Host.Outcome.next (if_pos (by decide))

/-- Settles O54, block by block. -/
theorem partResetResetsEveryBlock : Obligations.PartResetResetsEveryBlock := by
  intro s
  let u := zerosOut 3 s
  let x := blocksReset u
  obtain ⟨commits, links, oldest⟩ := settle_unqueued (s := walkerTakes x) (by simp [x]) (by simp [x])
  obtain ⟨walked, free, retired, waiting⟩ := walkerTakes_pool (s := x) (by simp [x, FaultUnit.reset])
  have pool : x.pool = { s.pool with dirty := s.pool.dirty ++ linePages s, waiting := none } :=
    (blocksReset_units u).2.2.2
  have tempoStands : (resetBlocks u).tempo = s.tempo.partReset := by rw [resetBlocks_eq]; simp [u]
  have port : (resetBlocks u).port = u.port := by rw [resetBlocks_eq]; simp
  have poolStands : (resetBlocks u).pool = (walkerTakes x).pool := by rw [resetBlocks_eq]; simp [x]
  rw [pool] at walked free retired waiting
  refine ⟨resetBlocks u, exec_partReset s, ?timer, ?store, ?refresh, fun l => ?line, ?fills, ?commits, ?oldest, ?free,
    ?retired, ?waiting, ?walked, fun e => ?link, fun n => ?tap, ?proc, fun internal => ?internal,
    fun external => ?external, fun m => ?osc, ?scenes, ?notices, ?collide, ?dataOut, ?faults, fun a access => ?arbiter⟩
  case timer => rw [resetBlocks_eq]; simp [u]
  case store => rw [resetBlocks_eq]; simp [u]
  case refresh => rw [resetBlocks_eq]; simp [u]
  case line =>
    have lines : (resetBlocks u).lines = s.lines.map Line.partReset := by rw [resetBlocks_eq]; simp [u]
    rw [State.line, lines, Vector.getElem_map]
    rfl
  case fills => rw [resetBlocks_eq]; simp
  case commits => exact commits
  case oldest => exact oldest.trans (by simp [x, u])
  case free => exact (congrArg Pool.free poolStands).trans free
  case retired => exact (congrArg Pool.retired poolStands).trans retired
  case waiting => exact (congrArg Pool.waiting poolStands).trans waiting
  case walked => rw [poolStands]; exact walked
  case link =>
    obtain ⟨onLane, linkReset⟩ := resetLinks_link (resetLines u) e
    rw [show (resetLines u).link e = s.link e by simp [State.link, resetLines, u]] at linkReset
    have stands : (resetBlocks u).links = (resetLinks (resetLines u)).links := links.trans (by simp [x])
    refine ⟨onLane, abortFrames onLane (s.link e).tx, ?_, abortFrames_length _ _, fun f => abortFrames_ended,
      fun i f held => ?_⟩
    · rw [State.link, stands]
      exact linkReset
    · rw [abortFrames_getElem?, held, Option.map_some]
      obtain ⟨ended, opened, sending⟩ := OutFrame.abort_cases (if i = 0 then onLane else 0) f
      exact ⟨fun h => congrArg some (ended h), fun h => congrArg some (opened h), fun h => congrArg some (sending h)⟩
  case tap =>
    have taps : (resetBlocks u).taps = Vector.replicate 512 Tap.reset := by rw [resetBlocks_eq]; simp
    rw [State.tap, taps, Vector.getElem_replicate]
    rfl
  case proc => rw [resetBlocks_eq]; simp; rfl
  case internal =>
    rw [tempoStands]
    exact Tempo.partReset_internal internal
  case external =>
    rw [tempoStands]
    exact Tempo.partReset_external external
  case osc =>
    have oscs : (resetBlocks u).oscs = Vector.ofFn Osc.reset := by rw [resetBlocks_eq]; simp
    rw [State.osc, oscs, Vector.getElem_ofFn]
  case scenes => rw [resetBlocks_eq]; simp
  case notices => rw [resetBlocks_eq]; simp [u]
  case collide => exact (congrArg Port.collide port).trans rfl
  case dataOut => exact (congrArg Port.dataOut port).trans rfl
  case faults => rw [resetBlocks_eq]; simp; rfl
  case arbiter =>
    have serving : (walkerTakes x).arbiter = { s.arbiter with
        inService := some (a.heldBy (fun _ _ => false) (fun _ _ => false) false) } := by
      have reset := blocksReset_arbiter u
      rw [show u.arbiter = s.arbiter from rfl, access] at reset
      simpa using reset
    rw [resetBlocks_eq, ← serving]
    exact settle_busy (congrArg Arbiter.inService serving)

end Sys2Proof.Machine
end

section
/-! What one command can do to the part, said once: the operation that each row comes to in each of its cases, and the
owner that each WRITE_COMMAND row hands its record to. An invariant is kept by every step when each of these keeps it. -/

namespace Sys2Proof.Machine

/-- The owners that the WRITE_COMMAND rows hand their records to, with the command codes they answer (R194). PART_RESET,
which no owner answers, is apart. -/
inductive Owner : Byte → (List Byte → State → Reply × State) → Prop where
  | setPeriod : Owner 0x01 ownSetPeriod
  | readClock : Owner 0x02 ownReadClock
  | allocLine : Owner 0x10 ownAllocLine
  | freeLine : Owner 0x11 ownFreeLine
  | setWriter : Owner 0x12 ownSetWriter
  | readLine : Owner 0x13 ownReadLine
  | readPool : Owner 0x14 ownReadPool
  | setLink : Owner 0x20 ownSetLink
  | readLink : Owner 0x21 ownReadLink
  | readCounters : Owner 0x22 ownReadCounters
  | setTap : Owner 0x30 ownSetTap
  | clearTap : Owner 0x31 ownClearTap
  | readTap : Owner 0x32 ownReadTap
  | saveTap : Owner 0x33 ownReadTap
  | setTempo : Owner 0x40 ownSetTempo
  | tapTempo : Owner 0x41 ownTapTempo
  | setTempoSource : Owner 0x42 ownSetTempoSource
  | setMeter : Owner 0x43 ownSetMeter
  | resync : Owner 0x44 ownResync
  | readTempo : Owner 0x45 ownReadTempo
  | setOsc : Owner 0x50 ownSetOsc
  | readOsc : Owner 0x51 ownReadOsc
  | pushScene : Owner 0x60 ownPushScene
  | popScene : Owner 0x61 ownPopScene
  | dropScene : Owner 0x62 ownDropScene
  | readScenes : Owner 0x63 ownReadScenes
  | ackNotice : Owner 0x70 ownAckNotice
  | setMask : Owner 0x71 ownSetMask
  | readFault : Owner 0x72 ownReadFault
  | clearFault : Owner 0x73 ownClearFault

/-- What a command can leave of a part, case by case. -/
inductive Leaves (s : State) : State → Prop where
  | stands : Leaves s s
  | reset : Leaves s (resetLine s)
  | edgeUnlocked (reading : Nat) : Leaves s (edgeUnlocked reading s)
  | edgeLocked (reading : Nat) (order : EdgeOrder) : Leaves s (edgeLocked reading order s)
  | edgeFlywheel (reading : Nat) : Leaves s (edgeFlywheel reading s)
  | loseClock (reading : Nat) (order : EdgeOrder) : Leaves s (loseClock reading order s)
  | turnFlywheel (reading : Nat) (order : EdgeOrder) : Leaves s (turnFlywheel reading order s)
  /-- A mark, a byte, a timeout or a frame gone from the lane: one link's receiver or transmitter. -/
  | link (e : Engine) (x : Link) (state : x.state = (s.link e).state) (missed : x.missed = (s.link e).missed) :
      Leaves s (s.setLink e x)
  | judged (e : Engine) (buffer : Fin 2) (bytes : List Byte) (overlong : Bool) :
      Leaves s (judgeFrame e buffer bytes overlong (s.setLink e { s.link e with receiver := .hunt }))
  /-- A write whose claimant, a commit or a fill, has gone. -/
  | written (w : Nat) (v : Sample) : Leaves s (settle (endAccess false (storeWrite w v s)))
  | commitAdvanced (w : Nat) (v : Sample) : Leaves s (settle (advanceCommit (endAccess false (storeWrite w v s))))
  | fillAdvanced (w : Nat) (fills : List Fill) :
      Leaves s (settle { endAccess false (storeWrite w 0 s) with fills := fills })
  | passStarted (e : Engine) : Leaves s (settle (beginPass e s))
  | passRead (l : LineNo) (e : Engine) (w : Nat) (u : Upset) (o : ReadOutcome) :
      Leaves s (settle (readFault l e w o (endAccess false (storeRead w u s))))
  | passTaken (l : LineNo) (e : Engine) (w : Nat) (u : Upset) (o : ReadOutcome) :
      Leaves s (settle (passTakes o (readFault l e w o (endAccess false (storeRead w u s)))))
  | refreshExpired (below : s.refresh.backlog < 8) (arbiter : Arbiter) :
      Leaves s (settle { s with refresh := s.refresh.expire, arbiter := arbiter })
  | refreshLate (entry : FaultEntry) : Leaves s (settle (storeFault entry false s))
  | refreshed : Leaves s (settle (endAccess true { s with refresh := s.refresh.complete }))
  | cleared (k : Walk) (walks : s.pool.walker = some k) :
      Leaves s (settle (setWalker (some k.cleared) (endAccess false (storeWrite (wordOf k.page k.pointer) 0 s))))
  | verified (k : Walk) (u : Upset) (walks : s.pool.walker = some k) : Leaves s (completeVerify k u s)
  | pulse : Leaves s (takePulse s)
  | pulseLost : Leaves s (loseTempoClock s)
  /-- Bytes shifted out, a result taken away or a collision: the port alone, which goes on holding what it holds. -/
  | port (p : Port) (held : ∀ c, s.port.mailbox = .held c → p.mailbox = .held c) : Leaves s { s with port := p }
  | refused (code : Byte) (result : ResultCode) (n : Nat) (free : mailboxFree s = true) :
      Leaves s (complete code result 0 [] (zerosOut n s))
  | command {code : Byte} {owner : List Byte → State → Reply × State} (owns : Owner code owner)
      (record : CommandRecord) : Leaves s (writeCommand code owner record s)
  | partReset (n : Nat) : Leaves s (partReset (zerosOut n s))

theorem mailboxFree_of_not_held {s : State} (h : ∀ c, s.port.mailbox = .held c → False) : mailboxFree s = true := by
  unfold mailboxFree
  split
  · next c held => exact (h c held).elim
  · rfl
  · rfl

/-- The link after an open mark stays in its state (R58, R59). -/
@[simp] theorem Link.open_state (b : Nat) (k : Link) :
    (k.open b).state = k.state ∧ (k.open b).missed = k.missed := by
  unfold Link.open
  split
  · exact ⟨rfl, rfl⟩
  · split <;> exact ⟨rfl, rfl⟩

/-- The link after a timeout stays in its state (R60). -/
@[simp] theorem Link.timeOut_state (k : Link) : k.timeOut.state = k.state ∧ k.timeOut.missed = k.missed := by
  unfold Link.timeOut
  split <;> exact ⟨rfl, rfl⟩

/-- The walk that a completion finds in service is the walker's. -/
theorem walker_of_scrubInService {phase : ScrubPhase} {s : State} {k : Walk}
    (h : scrubInService phase s = some k) : s.pool.walker = some k := by
  unfold scrubInService at h
  split at h
  · next k' _ walks =>
    split at h
    · exact walks.trans h
    · cases h
  · cases h

/-- A reading transaction takes nothing from a HELD mailbox (R171). -/
theorem collect_leaves (reply : List Byte) (n : Nat) (s : State) : Leaves s (collect (shifted reply n s)) := by
  unfold collect
  split
  · next held => exact .port _ fun c h => by rw [show s.port.mailbox = _ from held] at h; cases h
  · exact .port _ fun _ h => h

/-- A command code outside the table is answered only by a mailbox that holds nothing (R168, R169). -/
theorem refuseUnknown_leaves (code : Byte) (record : CommandRecord) (s : State) :
    Leaves s (refuseUnknown code record s) := by
  unfold refuseUnknown
  split
  · exact .port _ fun _ h => h
  · split
    · exact .port _ fun _ h => h
    · next free => exact .refused code .badCommand _ (mailboxFree_of_not_held free)

/-- Every command answers a next state, which is one of these cases. -/
theorem exec_leaves (c : Instr) (s : State) : ∃ t, exec c s = .next t ∧ Leaves s t := by
  cases c with
  | resetLine => exact ⟨_, rfl, .reset⟩
  | realEdge reading order =>
    refine ⟨_, rfl, ?_⟩
    split
    · exact .edgeUnlocked reading
    · exact .edgeLocked reading order
    · exact .edgeFlywheel reading
  | lossTimerExpiry order =>
    refine ⟨_, rfl, ?_⟩
    split
    · exact .loseClock _ order
    · exact .stands
  | flywheelEdge order =>
    refine ⟨_, rfl, ?_⟩
    split
    · exact .turnFlywheel _ order
    · exact .stands
  | openMark e =>
    refine ⟨_, rfl, ?_⟩
    split
    · exact .stands
    · exact .link e _ (Link.open_state _ _).1 (Link.open_state _ _).2
  | inputFrame e =>
    refine ⟨_, rfl, ?_⟩
    split
    · exact .stands
    · split
      · exact .judged e _ _ _
      · exact .stands
      · exact .stands
  | receiveTimeout e =>
    refine ⟨_, rfl, ?_⟩
    split
    · exact .link e _ (Link.timeOut_state _).1 (Link.timeOut_state _).2
    · exact .stands
  | closeMarkLeavesLane e =>
    refine ⟨_, rfl, ?_⟩
    split
    · exact .stands
    · split
      · exact .link e _ rfl rfl
      · exact .stands
  | commitWriteComplete =>
    refine ⟨_, rfl, ?_⟩
    split
    · dsimp only
      split
      · exact .commitAdvanced _ _
      · exact .written _ _
    · exact .stands
  | fillWriteComplete =>
    refine ⟨_, rfl, ?_⟩
    split
    · dsimp only
      split
      · exact .fillAdvanced _ _
      · exact .written _ _
    · exact .stands
  | passStart =>
    refine ⟨_, rfl, ?_⟩
    split
    · exact .passStarted _
    · exact .stands
  | passReadComplete u =>
    refine ⟨_, rfl, ?_⟩
    split
    · dsimp only
      split
      · exact .passTaken _ _ _ _ _
      · exact .passRead _ _ _ _ _
    · exact .stands
  | refreshTimerExpiry =>
    refine ⟨_, rfl, ?_⟩
    split
    · exact .stands
    · split
      · next below => exact .refreshExpired below _
      · exact .refreshLate _
  | refreshAccessComplete =>
    refine ⟨_, rfl, ?_⟩
    split
    · exact .refreshed
    · exact .stands
  | scrubClearWriteComplete =>
    refine ⟨_, rfl, ?_⟩
    split
    · next k inService => exact .cleared k (walker_of_scrubInService inService)
    · exact .stands
  | scrubVerifyReadComplete u =>
    refine ⟨_, rfl, ?_⟩
    split
    · next k inService => exact .verified k u (walker_of_scrubInService inService)
    · exact .stands
  | allocComplete u =>
    refine ⟨_, rfl, ?_⟩
    split
    · next k inService =>
      split
      · exact .verified k u (walker_of_scrubInService inService)
      · exact .stands
    · exact .stands
  | allocNoSpace u =>
    refine ⟨_, rfl, ?_⟩
    split
    · next k inService =>
      split
      · exact .verified k u (walker_of_scrubInService inService)
      · exact .stands
    · exact .stands
  | tempoPulse => exact ⟨_, rfl, .pulse⟩
  | pulseLossTimerExpiry =>
    refine ⟨_, rfl, ?_⟩
    split
    · exact .stands
    · split
      · exact .pulseLost
      · exact .stands
  | readResult clocked =>
    refine ⟨_, rfl, ?_⟩
    split
    · exact collect_leaves _ _ s
    · exact .port _ fun _ h => h
  | readStatus clocked =>
    refine ⟨_, rfl, ?_⟩
    split <;> exact .port _ fun _ h => h
  | commandCollision code record =>
    refine ⟨_, rfl, ?_⟩
    split
    · split
      · exact .port _ fun _ h => h
      · exact .stands
    · exact .stands
  | badCommand code transaction =>
    refine ⟨_, rfl, ?_⟩
    split
    · split
      · exact refuseUnknown_leaves code _ s
      · exact .port _ fun _ h => h
    · exact .stands
  | setPeriod record => exact ⟨_, rfl, .command .setPeriod record⟩
  | readClock record => exact ⟨_, rfl, .command .readClock record⟩
  | allocLine record => exact ⟨_, rfl, .command .allocLine record⟩
  | freeLine record => exact ⟨_, rfl, .command .freeLine record⟩
  | setWriter record => exact ⟨_, rfl, .command .setWriter record⟩
  | readLine record => exact ⟨_, rfl, .command .readLine record⟩
  | readPool record => exact ⟨_, rfl, .command .readPool record⟩
  | setLink record => exact ⟨_, rfl, .command .setLink record⟩
  | readLink record => exact ⟨_, rfl, .command .readLink record⟩
  | readCounters record => exact ⟨_, rfl, .command .readCounters record⟩
  | setTap record => exact ⟨_, rfl, .command .setTap record⟩
  | clearTap record => exact ⟨_, rfl, .command .clearTap record⟩
  | readTap record => exact ⟨_, rfl, .command .readTap record⟩
  | saveTap record => exact ⟨_, rfl, .command .saveTap record⟩
  | setTempo record => exact ⟨_, rfl, .command .setTempo record⟩
  | tapTempo record => exact ⟨_, rfl, .command .tapTempo record⟩
  | setTempoSource record => exact ⟨_, rfl, .command .setTempoSource record⟩
  | setMeter record => exact ⟨_, rfl, .command .setMeter record⟩
  | resync record => exact ⟨_, rfl, .command .resync record⟩
  | readTempo record => exact ⟨_, rfl, .command .readTempo record⟩
  | setOsc record => exact ⟨_, rfl, .command .setOsc record⟩
  | readOsc record => exact ⟨_, rfl, .command .readOsc record⟩
  | pushScene record => exact ⟨_, rfl, .command .pushScene record⟩
  | popScene record => exact ⟨_, rfl, .command .popScene record⟩
  | dropScene record => exact ⟨_, rfl, .command .dropScene record⟩
  | readScenes record => exact ⟨_, rfl, .command .readScenes record⟩
  | ackNotice record => exact ⟨_, rfl, .command .ackNotice record⟩
  | setMask record => exact ⟨_, rfl, .command .setMask record⟩
  | readFault record => exact ⟨_, rfl, .command .readFault record⟩
  | clearFault record => exact ⟨_, rfl, .command .clearFault record⟩
  | partReset record =>
    refine ⟨_, rfl, ?_⟩
    split
    · exact .port _ fun _ h => h
    · split
      · exact .partReset _
      · split
        · exact .port _ fun _ h => h
        · next free => exact .refused 0x7F .badLength _ (mailboxFree_of_not_held free)
  | dataByte e x =>
    refine ⟨_, rfl, ?_⟩
    split
    · exact .stands
    · exact .link e _ rfl rfl

/-- What the queue of waiting commands does not touch and every case keeps, every step keeps. -/
theorem step_keeps {P : State → Prop} (queue : ∀ s rest, P s → P { s with pending := rest })
    (leaves : ∀ s t, P s → Leaves s t → P t) (s t : State) (h : P s) (run : step s = .next t) : P t := by
  unfold step at run
  split at run
  · exact Host.Outcome.next.inj run ▸ h
  · next c rest _ =>
    obtain ⟨u, ran, left⟩ := exec_leaves c { s with pending := rest }
    exact Host.Outcome.next.inj (ran.symm.trans run) ▸ leaves _ u (queue s rest h) left

/-! ### What the owners leave alone -/

/-- The store, its refresh, the page pool and the line table: what most owners leave alone. -/
def coreView (s : State) : Store × Refresh × Pool × Vector Line 128 := (s.store, s.refresh, s.pool, s.lines)

/-- Every owner but ALLOC_LINE's, FREE_LINE's and SET_WRITER's leaves store, refresh, pool and lines alone. -/
theorem Owner.leaves_core {code : Byte} {owner : List Byte → State → Reply × State} (owns : Owner code owner)
    (other : code ≠ 0x10 ∧ code ≠ 0x11 ∧ code ≠ 0x12) (args : List Byte) (s : State) :
    coreView (owner args s).2 = coreView s := by
  cases owns with
  | setPeriod =>
    unfold ownSetPeriod
    split
    · rfl
    · split <;> rfl
  | readClock => rfl
  | allocLine => exact absurd rfl other.1
  | freeLine => exact absurd rfl other.2.1
  | setWriter => exact absurd rfl other.2.2
  | readLine => unfold ownReadLine; split <;> rfl
  | readPool => unfold ownReadPool; split <;> rfl
  | setLink =>
    unfold ownSetLink okBytes
    dsimp only
    (repeat' split) <;> simp [coreView]
  | readLink => unfold ownReadLink; split <;> rfl
  | readCounters =>
    unfold ownReadCounters
    dsimp only
    split <;> rfl
  | setTap =>
    unfold ownSetTap judgeSet
    dsimp only
    (repeat' split) <;> rfl
  | clearTap => unfold ownClearTap; split <;> rfl
  | readTap => unfold ownReadTap; split <;> rfl
  | saveTap => unfold ownReadTap; split <;> rfl
  | setTempo => exact ownSetTempo_keeps coreView (by simp [coreView]) args s
  | tapTempo =>
    exact ownTapTempo_keeps coreView (fun _ _ _ => rfl) (by simp [coreView]) (by simp [coreView])
      (by simp [coreView]) args s
  | setTempoSource =>
    unfold ownSetTempoSource
    (repeat' split) <;> rfl
  | setMeter =>
    unfold ownSetMeter
    dsimp only
    split <;> rfl
  | resync => rfl
  | readTempo => rfl
  | setOsc => unfold ownSetOsc; split <;> rfl
  | readOsc => unfold ownReadOsc; split <;> rfl
  | pushScene => rfl
  | popScene =>
    exact ownPopScene_keeps coreView (fun _ _ _ => rfl) (by simp [coreView]) (fun _ _ => rfl) args s
  | dropScene => unfold ownDropScene; split <;> rfl
  | readScenes => rfl
  | ackNotice => rfl
  | setMask => rfl
  | readFault => rfl
  | clearFault => rfl

end Sys2Proof.Machine
end

section
/-! O56. The places of a page (R42, R43, R45, R46, R48 to R51): every operation moves pages from place to place and neither
makes nor loses one, keeps the retired set in order, and lets an allocation wait for a FREE line in a HELD mailbox alone. -/

namespace Sys2Proof.Machine

/-! ### The pages of the line table -/

theorem lines_toList (s : State) : s.lines.toList = allLines.map s.line := by
  refine List.ext_getElem (by simp [allLines]) fun i hi _ => ?_
  have below : i < 128 := by simpa using hi
  simp [allLines, State.line, Nat.mod_eq_of_lt below]

/-- The pages of the line table, whichever way they are listed. -/
theorem linePages_eq (s : State) : s.lines.toList.flatMap (·.pages) = linePages s := by
  rw [lines_toList, List.flatMap_map]
  rfl

theorem linePages_congr {s t : State} (h : ∀ l, (t.line l).pages = (s.line l).pages) : linePages t = linePages s := by
  simp [linePages, h]

/-- What the items of a list carry, counted after one item is replaced. -/
theorem count_flatMap_set {α : Type} (f : α → List Page) (p : Page) (x : α) (xs : List α) {i : Nat}
    (h : i < xs.length) : ((xs.set i x).flatMap f).count p + (f xs[i]).count p =
      (xs.flatMap f).count p + (f x).count p := by
  induction xs generalizing i with
  | nil => exact absurd h (Nat.not_lt_zero i)
  | cons y ys ih =>
    cases i with
    | zero => simp [List.count_append]; omega
    | succ i =>
      have rest := ih (i := i) (by simpa using h)
      simp [List.count_append]; omega

/-- The pages of the line table, counted after one line is written. -/
theorem count_linePages_setLine (s : State) (l : LineNo) (x : Line) (p : Page) :
    (linePages (s.setLine l x)).count p + (s.line l).pages.count p = (linePages s).count p + x.pages.count p := by
  have written := count_flatMap_set Line.pages p x s.lines.toList (i := l.val) (by simp)
  rw [← linePages_eq, ← linePages_eq]
  simpa [State.setLine, State.line, Vector.toList_set] using written

/-- The places of a page, counted. -/
theorem count_placedPages (s : State) (p : Page) : (placedPages s).count p =
    s.pool.free.count p + s.pool.dirty.count p + s.pool.retired.count p
      + (s.pool.walker.map (·.page)).toList.count p + (linePages s).count p := by
  simp only [placedPages, List.count_append, linePages_eq]

/-! ### The law through the fields it reads -/

/-- The law is kept where the pages change places alone, the retired set stands and no allocation comes to wait. -/
theorem PagesLawful.move {s t : State} (h : PagesLawful s)
    (places : ∀ p, (placedPages t).count p = (placedPages s).count p)
    (freeEmpty : ∀ l, (t.line l).state = .free → (t.line l).pages = [])
    (waitingFree : ∀ w, t.pool.waiting = some w → (t.line w.line).state = .free)
    (waitingHeld : t.pool.waiting.isSome → t.port.mailbox = .held allocCode)
    (retired : t.pool.retired = s.pool.retired := by simp) : PagesLawful t where
  once := (List.perm_iff_count.mpr places).trans h.once
  retiredOrdered := by rw [retired]; exact h.retiredOrdered
  freeEmpty := freeEmpty
  retiredFits := by rw [retired]; exact h.retiredFits
  waitingFree := waitingFree
  waitingHeld := waitingHeld

/-- The same where the lines keep their states and pages, and what waits goes on waiting or waits no longer. -/
theorem PagesLawful.movePool {s t : State} (h : PagesLawful s)
    (places : ∀ p, (placedPages t).count p = (placedPages s).count p)
    (waiting : t.pool.waiting = s.pool.waiting ∨ t.pool.waiting = none := by simp)
    (retired : t.pool.retired = s.pool.retired := by simp)
    (lines : ∀ l, (t.line l).state = (s.line l).state ∧ (t.line l).pages = (s.line l).pages := by simp [State.line])
    (mailbox : t.pool.waiting.isSome → t.port.mailbox = s.port.mailbox := by simp) : PagesLawful t := by
  refine h.move places (fun l free => ?_) (fun w waits => ?_) (fun waits => ?_) retired
  · rw [(lines l).2]
    exact h.freeEmpty l ((lines l).1.symm.trans free)
  · rcases waiting with same | none
    · rw [(lines _).1]
      exact h.waitingFree w (same.symm.trans waits)
    · rw [none] at waits; cases waits
  · rw [mailbox waits]
    rcases waiting with same | none
    · exact h.waitingHeld (same ▸ waits)
    · rw [none] at waits; cases waits

/-- The same where the pool stands too, or only stops waiting. -/
theorem PagesLawful.same {s t : State} (h : PagesLawful s)
    (pool : t.pool = s.pool ∨ t.pool = { s.pool with waiting := none } := by simp)
    (lines : ∀ l, (t.line l).state = (s.line l).state ∧ (t.line l).pages = (s.line l).pages := by simp [State.line])
    (mailbox : t.pool.waiting.isSome → t.port.mailbox = s.port.mailbox := by simp) : PagesLawful t := by
  have places : ∀ p, (placedPages t).count p = (placedPages s).count p := fun p => by
    rw [count_placedPages, count_placedPages, linePages_congr fun l => (lines l).2]
    rcases pool with h | h <;> rw [h]
  refine h.movePool places ?_ ?_ lines mailbox <;> rcases pool with h | h <;> simp [h]

/-- Where no allocation waits the mailbox may come to anything: a command completes, or is taken. -/
theorem PagesLawful.port {s t : State} (h : PagesLawful s) (idle : s.pool.waiting = none)
    (pool : t.pool = s.pool := by simp)
    (lines : ∀ l, (t.line l).state = (s.line l).state ∧ (t.line l).pages = (s.line l).pages := by simp [State.line]) :
    PagesLawful t :=
  h.same (.inl pool) lines (by simp [pool, idle])

/-- A command completes where no allocation waits. -/
theorem PagesLawful.completed {s : State} (h : PagesLawful s) (idle : s.pool.waiting = none) (code : Byte)
    (result : ResultCode) (check : Nat) (bytes : List Byte) : PagesLawful (complete code result check bytes s) :=
  h.port idle

/-- With the mailbox free no allocation waits (R48, R167). -/
theorem PagesLawful.idle {s : State} (h : PagesLawful s) (free : mailboxFree s = true) : s.pool.waiting = none := by
  by_contra waits
  have held := h.waitingHeld (Option.isSome_iff_ne_none.mpr waits)
  simp [mailboxFree, held] at free

theorem PagesLawful.settle {s : State} (h : PagesLawful s) : PagesLawful (settle s) := h.same

/-! ### The walker's page (R43, R45, R46) -/

/-- The walker takes the head of the dirty queue (R43). -/
theorem PagesLawful.walkerTakes {s : State} (h : PagesLawful s) : PagesLawful (walkerTakes s) := by
  unfold Machine.walkerTakes
  split
  · exact h
  · next busy =>
    have unwalked : s.pool.walker = none := by
      by_contra walks
      simp [Option.isSome_iff_ne_none.mpr walks] at busy
    split
    · exact h
    · next p ps dirty =>
      refine h.movePool fun q => ?_
      rw [count_placedPages, count_placedPages, dirty, unwalked]
      simp [List.count_cons, linePages, State.line]
      omega

/-- The walker moves on over its page (R44, R45). -/
theorem PagesLawful.walkOn {s : State} (h : PagesLawful s) {k k' : Walk} (walks : s.pool.walker = some k)
    (page : k'.page = k.page) : PagesLawful (setWalker (some k') s) := by
  refine h.movePool (by
    intro p
    rw [count_placedPages, count_placedPages, walks]
    simp [setWalker, page, linePages, State.line]) (.inl rfl) rfl (fun _ => ⟨rfl, rfl⟩) fun _ => rfl

@[simp] theorem walkerTakes_waiting (s : State) : (walkerTakes s).pool.waiting = s.pool.waiting := by
  unfold walkerTakes
  (repeat' split) <;> rfl

@[simp] theorem Walk.cleared_page (k : Walk) : k.cleared.page = k.page := by
  unfold Walk.cleared
  split <;> rfl

/-- The walker's page joins the free list (R45). -/
theorem PagesLawful.freed {s : State} (h : PagesLawful s) {k : Walk} (walks : s.pool.walker = some k) :
    PagesLawful { s with pool := { s.pool with free := s.pool.free ++ [k.page], walker := none } } := by
  refine h.movePool fun p => ?_
  rw [count_placedPages, count_placedPages, walks]
  simp [linePages, State.line]
  omega

/-- The walker's page goes back to the dirty queue (R46). -/
theorem PagesLawful.returned {s : State} (h : PagesLawful s) {k : Walk} (walks : s.pool.walker = some k) :
    PagesLawful { s with pool := { s.pool with dirty := s.pool.dirty ++ [k.page], walker := none } } := by
  refine h.movePool fun p => ?_
  rw [count_placedPages, count_placedPages, walks]
  simp [linePages, State.line]
  omega

theorem insertPage_perm (p : Page) (xs : List Page) : (insertPage p xs).Perm (p :: xs) := by
  induction xs with
  | nil => exact .refl _
  | cons q qs ih =>
    unfold insertPage
    split
    · exact (ih.cons q).trans (.swap p q qs)
    · exact .refl _

/-- A page put in its place among others keeps them in order (R46). -/
theorem insertPage_ordered {p : Page} {xs : List Page} (ordered : xs.Pairwise (· < ·)) (new : p ∉ xs) :
    (insertPage p xs).Pairwise (· < ·) := by
  induction xs with
  | nil => exact List.pairwise_singleton _ p
  | cons q qs ih =>
    obtain ⟨above, rest⟩ := List.pairwise_cons.mp ordered
    obtain ⟨other, absent⟩ := not_or.mp (mt List.mem_cons.mpr new)
    unfold insertPage
    split
    · next before =>
      refine List.pairwise_cons.mpr ⟨fun r hr => ?_, ih rest absent⟩
      rcases List.mem_cons.mp ((insertPage_perm p qs).mem_iff.mp hr) with rfl | hr
      · exact before
      · exact above r hr
    · next after =>
      have first : p < q := by
        have : p.val ≠ q.val := fun e => other (Fin.ext e)
        exact Fin.lt_def.mpr (by omega)
      refine List.pairwise_cons.mpr ⟨fun r hr => ?_, ordered⟩
      rcases List.mem_cons.mp hr with rfl | hr
      · exact first
      · exact first.trans (above r hr)

theorem allPages_nodup : allPages.Nodup :=
  List.Nodup.of_map (·.val) (allPages_val ▸ List.nodup_range)

/-- The walker's page is not in the retired set: it is in one place (R42). -/
theorem PagesLawful.walked_unretired {s : State} (h : PagesLawful s) {k : Walk} (walks : s.pool.walker = some k) :
    k.page ∉ s.pool.retired := fun mem => by
  have once : (placedPages s).count k.page ≤ 1 :=
    List.nodup_iff_count_le_one.mp (h.once.nodup_iff.mpr allPages_nodup) _
  have retired := List.count_pos_iff.mpr mem
  rw [count_placedPages, walks] at once
  simp at once
  omega

/-- The walker's page joins the retired set where it has room (R46). -/
theorem PagesLawful.retired {s : State} (h : PagesLawful s) {k : Walk} (walks : s.pool.walker = some k)
    (room : s.pool.retired.length < 64) :
    PagesLawful { s with pool := { s.pool with retired := insertPage k.page s.pool.retired, walker := none } } where
  once := by
    refine (List.perm_iff_count.mpr fun p => ?_).trans h.once
    rw [count_placedPages, count_placedPages, walks]
    simp [linePages, State.line, (insertPage_perm k.page s.pool.retired).count_eq, List.count_cons]
    omega
  retiredOrdered := insertPage_ordered h.retiredOrdered (h.walked_unretired walks)
  freeEmpty := h.freeEmpty
  retiredFits := by
    rw [(insertPage_perm _ _).length_eq]
    exact room
  waitingFree := h.waitingFree
  waitingHeld := h.waitingHeld

/-! ### A waiting allocation (R48 to R50) -/

/-- A waiting allocation ends without pages: its command completes. -/
theorem PagesLawful.endWaiting {s : State} (h : PagesLawful s) (code : ResultCode) :
    PagesLawful (endWaiting code s) :=
  h.same

/-- The head of the free list becomes a FREE line's page list (R15, R48, R49). -/
theorem PagesLawful.takePages {s : State} (h : PagesLawful s) (idle : s.pool.waiting = none) {l : LineNo}
    (free : (s.line l).state = .free) (writer : Engine) (n : Nat) : PagesLawful (takePages l writer n s) := by
  have line : ∀ m, (Machine.takePages l writer n s).line m =
      if m = l then (Machine.takePages l writer n s).line l else s.line m := fun m => by
    rw [takePages_line]
    exact State.line_setLine s l m _
  refine h.move (fun p => ?_) (fun m hm => ?_) (by simp [Machine.takePages, idle]) (by simp [Machine.takePages, idle]) rfl
  · have lines : linePages (Machine.takePages l writer n s) =
        linePages (s.setLine l ((Machine.takePages l writer n s).line l)) :=
      linePages_congr fun m => by rw [line, State.line_setLine]
    have counted := count_linePages_setLine s l ((Machine.takePages l writer n s).line l) p
    rw [h.freeEmpty l free, List.count_nil, takePages_line] at counted
    dsimp only at counted
    have split : (s.pool.free.take n).count p + (s.pool.free.drop n).count p = s.pool.free.count p := by
      rw [← List.count_append, List.take_append_drop]
    rw [count_placedPages, count_placedPages, lines, takePages_line]
    simp only [Machine.takePages]
    omega
  · rw [line] at hm ⊢
    split at hm
    · rw [takePages_line] at hm
      cases hm
    · next other =>
      rw [if_neg other]
      exact h.freeEmpty m hm

/-- A waiting allocation that the free list has come to serve is granted (R49). -/
theorem PagesLawful.lookAtWaiting {s : State} (h : PagesLawful s) : PagesLawful (lookAtWaiting s) := by
  unfold Machine.lookAtWaiting
  split
  · exact h
  · next w waits =>
    split
    · have cleared : PagesLawful { s with pool := { s.pool with waiting := none } } := h.same
      exact (cleared.takePages rfl (h.waitingFree w waits) w.writer w.count).port (by simp [Machine.takePages])
    · exact h

/-- One that can no longer be served ends (R50). -/
theorem PagesLawful.lookAtShortage {s : State} (h : PagesLawful s) : PagesLawful (lookAtShortage s) := by
  unfold Machine.lookAtShortage
  split
  · exact h
  · split
    · refine PagesLawful.endWaiting ?_ .noSpace
      split
      · exact h
      · exact h.same
    · exact h

/-! ### A store fault, and the VERIFY reads (R45, R46, R182, R185) -/

theorem PagesLawful.storeFault {s : State} (h : PagesLawful s) (entry : FaultEntry) (full : Bool) :
    PagesLawful (storeFault entry full s) := by
  unfold Machine.storeFault
  dsimp only
  split
  · exact h.same
  · exact h.same

theorem PagesLawful.verifyPasses {s : State} (h : PagesLawful s) {k : Walk} (walks : s.pool.walker = some k) :
    PagesLawful (verifyPasses k s) := by
  unfold Machine.verifyPasses
  split
  · exact h.walkOn walks rfl
  · exact (h.freed walks).lookAtWaiting.walkerTakes

theorem PagesLawful.verifyFails {s : State} (h : PagesLawful s) {k : Walk} (walks : s.pool.walker = some k) :
    PagesLawful (verifyFails k s) := by
  unfold Machine.verifyFails
  split
  · exact h
  · split
    · next room => exact ((h.retired walks room).storeFault _ false).lookAtShortage.walkerTakes
    · exact ((h.returned walks).storeFault _ true).walkerTakes

theorem PagesLawful.completeVerify {s : State} (h : PagesLawful s) {k : Walk} (walks : s.pool.walker = some k)
    (u : Upset) : PagesLawful (completeVerify k u s) := by
  have read : PagesLawful (endAccess false (storeRead (wordOf k.page k.pointer) u s)) := h.same
  unfold Machine.completeVerify
  dsimp only
  split
  · exact (read.verifyPasses walks).settle
  · exact (read.verifyFails walks).settle

/-! ### Passes and frames -/

theorem PagesLawful.readFault {s : State} (h : PagesLawful s) (l : LineNo) (e : Engine) (w : Nat) (o : ReadOutcome) :
    PagesLawful (readFault l e w o s) := by
  unfold Machine.readFault
  split
  · split
    · exact h
    · exact h.storeFault _ false
  · exact h
  · exact h

/-- The blocks of a frame judged leave every line its state and its pages. -/
theorem judgeBlocks_line (e : Engine) (earlier : List Nat) (blocks : List (Nat × List Sample)) (s : State)
    (l : LineNo) : ∃ taken, (judgeBlocks e earlier blocks s).2.2.line l = { s.line l with taken := taken } := by
  induction blocks generalizing earlier s with
  | nil => exact ⟨_, rfl⟩
  | cons block rest ih =>
    unfold judgeBlocks
    dsimp only
    split
    · obtain ⟨taken, more⟩ := ih (block.1 :: earlier) (keepBlock block.1 block.2 s).2
      refine ⟨taken, more.trans ?_⟩
      simp only [keepBlock, State.line_setLine]
      split
      · next same => rw [same]
      · rfl
    · exact ih (block.1 :: earlier) s

/-- A frame judged leaves the line table but for the block-taken flags (R66). -/
theorem judgeFrame_line (e : Engine) (buffer : Fin 2) (bytes : List Byte) (overlong : Bool) (s : State) (l : LineNo) :
    ∃ taken, (judgeFrame e buffer bytes overlong s).line l = { s.line l with taken := taken } := by
  unfold judgeFrame
  split
  · exact ⟨_, State.line_of_lines (by simp) l⟩
  · obtain ⟨taken, judged⟩ := judgeBlocks_line e [] (inputBlocks bytes s.size) (s.setLink e (s.link e).hear) l
    refine ⟨taken, Eq.trans (State.line_of_lines ?_ l) judged⟩
    simp [acceptFrame]

theorem PagesLawful.judgeFrame {s : State} (h : PagesLawful s) (e : Engine) (buffer : Fin 2) (bytes : List Byte)
    (overlong : Bool) : PagesLawful (judgeFrame e buffer bytes overlong s) :=
  h.same (lines := fun l => by
    obtain ⟨taken, line⟩ := judgeFrame_line e buffer bytes overlong s l
    rw [line]
    exact ⟨rfl, rfl⟩)

/-! ### Commands -/

theorem held_of_not_free {s : State} (h : ¬mailboxFree s = true) : ∃ c, s.port.mailbox = .held c := by
  unfold mailboxFree at h
  split at h
  · exact ⟨_, ‹_›⟩
  · exact absurd rfl h
  · exact absurd rfl h

/-- A command that leaves pool and lines keeps the law: it is taken only where no allocation waits (R48, R167). -/
theorem PagesLawful.command {s : State} (h : PagesLawful s) {code : Byte} {owner : List Byte → State → Reply × State}
    (keeps : ∀ args s, PagesLawful s → s.pool.waiting = none →
      PagesLawful (owner args s).2 ∧ (owner args s).2.pool.waiting = none) (record : CommandRecord) :
    PagesLawful (writeCommand code owner record s) := by
  by_cases free : mailboxFree s = true
  · exact (writeCommand_preserves (P := fun s => PagesLawful s ∧ s.pool.waiting = none)
      (fun _ _ _ ⟨lawful, idle⟩ => ⟨lawful.port idle, idle⟩) (fun args s ⟨lawful, idle⟩ => keeps args s lawful idle)
      record ⟨h, h.idle free⟩).1
  · cases record with
    | cut => exact h.same
    | sent length args =>
      obtain ⟨c, held⟩ := held_of_not_free free
      rw [writeCommand_held held]
      exact h.same (.inl rfl) (fun _ => ⟨rfl, rfl⟩) fun _ => rfl

/-- Most commands leave pool and lines alone. -/
theorem PagesLawful.commandKeeps {s : State} (h : PagesLawful s) {code : Byte}
    {owner : List Byte → State → Reply × State} (keeps : ∀ args s, coreView (owner args s).2 = coreView s)
    (record : CommandRecord) : PagesLawful (writeCommand code owner record s) :=
  h.command (fun args s lawful idle => by
    obtain ⟨-, -, pool, lines⟩ := by simpa [coreView] using keeps args s
    exact ⟨lawful.port idle pool fun l => by rw [State.line_of_lines lines]; exact ⟨rfl, rfl⟩, by rw [pool, idle]⟩) record

/-- ALLOC_LINE takes pages at once, is refused, or waits in the mailbox for a FREE line (R14, R15, R48). -/
theorem PagesLawful.answerAlloc {s : State} (h : PagesLawful s) (idle : s.pool.waiting = none)
    (held : s.port.mailbox = .held allocCode) (args : List Byte) :
    PagesLawful (answer allocCode (ownAllocLine args s)) := by
  unfold ownAllocLine
  dsimp only
  split
  · exact h.completed idle _ _ _ _
  · split
    · exact h.completed idle _ _ _ _
    · next inactive =>
      have free : (s.line (Fin.ofNat 128 (argByte args 0))).state = .free := by
        cases state : (s.line (Fin.ofNat 128 (argByte args 0))).state
        · rfl
        · exact absurd state inactive
      unfold allocate
      split
      · exact (h.takePages idle free _ _).completed idle _ _ _ _
      · split
        · cases s.pool.dirty.isEmpty && s.pool.walker.isNone with
          | false =>
            have told : PagesLawful (raise .poolExhausted s) := h.same
            exact told.completed idle _ _ _ _
          | true => exact h.completed idle _ _ _ _
        · refine h.move (fun p => ?_) h.freeEmpty (fun w waits => ?_) (fun _ => held) rfl
          · rw [count_placedPages, count_placedPages]
            rfl
          · obtain rfl := Option.some.inj waits
            exact free

theorem PagesLawful.allocLine {s : State} (h : PagesLawful s) (record : CommandRecord) :
    PagesLawful (writeCommand 0x10 ownAllocLine record s) := by
  cases record with
  | cut => exact h.same
  | sent length args =>
    by_cases free : mailboxFree s = true
    · have idle := h.idle free
      rw [writeCommand_free free]
      unfold takeCommand
      split
      · exact h.port idle rfl fun _ => ⟨rfl, rfl⟩
      · split
        · exact h.port idle rfl fun _ => ⟨rfl, rfl⟩
        · have taken : PagesLawful (hold 0x10 (wrote args.length s)) := h.port idle rfl fun _ => ⟨rfl, rfl⟩
          exact taken.answerAlloc idle rfl args
    · obtain ⟨c, held⟩ := held_of_not_free free
      rw [writeCommand_held held]
      exact h.same (.inl rfl) (fun _ => ⟨rfl, rfl⟩) fun _ => rfl

/-- A line freed gives its pages to the dirty queue (R26, R51). -/
theorem PagesLawful.freeLine {s : State} (h : PagesLawful s) (idle : s.pool.waiting = none) (l : LineNo) :
    PagesLawful (freeLine l s) := by
  rw [freeLine_eq]
  refine PagesLawful.settle (PagesLawful.walkerTakes ?_)
  have line : ∀ m, (lineWithdrawn l s).line m = (s.setLine l (s.line l).freed).line m :=
    State.line_of_lines (by simp [lineWithdrawn])
  have pool : (lineWithdrawn l s).pool = { s.pool with dirty := s.pool.dirty ++ (s.line l).pages } := by
    simp [lineWithdrawn]
  refine h.move (fun p => ?_) (fun m hm => ?_) (by simp [pool, idle]) (by simp [pool, idle]) (by simp [pool])
  · have counted := count_linePages_setLine s l (s.line l).freed p
    have none : ((s.line l).freed.pages).count p = 0 := rfl
    rw [count_placedPages, count_placedPages, pool, linePages_congr fun m => congrArg Line.pages (line m)]
    simp only [List.count_append]
    omega
  · rw [line, State.line_setLine] at hm ⊢
    split at hm
    · next same => rw [if_pos same]; rfl
    · next other => rw [if_neg other]; exact h.freeEmpty m hm

theorem PagesLawful.ownFreeLine {s : State} (h : PagesLawful s) (idle : s.pool.waiting = none) (args : List Byte) :
    PagesLawful (ownFreeLine args s).2 ∧ (ownFreeLine args s).2.pool.waiting = none := by
  unfold Machine.ownFreeLine
  dsimp only
  split
  · exact ⟨h, idle⟩
  · split
    · exact ⟨h, idle⟩
    · split
      · exact ⟨h, idle⟩
      · refine ⟨h.freeLine idle _, ?_⟩
        simpa [Machine.freeLine] using idle

theorem PagesLawful.ownSetWriter {s : State} (h : PagesLawful s) (idle : s.pool.waiting = none) (args : List Byte) :
    PagesLawful (ownSetWriter args s).2 ∧ (ownSetWriter args s).2.pool.waiting = none := by
  unfold Machine.ownSetWriter
  dsimp only
  split
  · exact ⟨h, idle⟩
  · split
    · exact ⟨h, idle⟩
    · refine ⟨h.port idle rfl fun l => ?_, idle⟩
      simp only [okBytes_state, State.line_setLine]
      split
      · next same => rw [same]; exact ⟨rfl, rfl⟩
      · exact ⟨rfl, rfl⟩

/-- Every WRITE_COMMAND keeps the law. -/
theorem PagesLawful.owned {s : State} (h : PagesLawful s) {code : Byte} {owner : List Byte → State → Reply × State}
    (owns : Owner code owner) (record : CommandRecord) : PagesLawful (writeCommand code owner record s) := by
  by_cases other : code ≠ 0x10 ∧ code ≠ 0x11 ∧ code ≠ 0x12
  · exact h.commandKeeps (owns.leaves_core other) record
  · cases owns with
    | allocLine => exact h.allocLine record
    | freeLine => exact h.command (fun args _ lawful idle => lawful.ownFreeLine idle args) record
    | setWriter => exact h.command (fun args _ lawful idle => lawful.ownSetWriter idle args) record
    | _ => exact absurd (by decide) other

/-! ### Counted edges -/

/-- Adoptions taken between the two readers are commands, or a pulse. -/
theorem PagesLawful.takeAdoption {s : State} (h : PagesLawful s) (a : Adoption) : PagesLawful (takeAdoption s a) := by
  cases a with
  | setTempo record => exact h.owned .setTempo record
  | tapTempo record => exact h.owned .tapTempo record
  | popScene record => exact h.owned .popScene record
  | tempoPulse =>
    unfold Machine.takeAdoption
    exact h.same

/-- A boundary leaves every line its state and its pages. -/
@[simp] theorem Line.boundary_pages (first : Bool) (b : Nat) (l : Line) : (l.boundary first b).pages = l.pages := by
  unfold Line.boundary Line.takeWriter Line.close
  split
  · split <;> rfl
  · rfl

theorem PagesLawful.boundaryAround {s : State} (h : PagesLawful s) (order : EdgeOrder) (zero : Bool) :
    PagesLawful (boundaryAround order zero s) := by
  have started : PagesLawful (boundaryStart zero s) := h.same (lines := fun l => by simp)
  have adopted : ∀ {u : State}, PagesLawful u → PagesLawful (adoptBetween order.between u) := fun lawful =>
    List.foldlRecOn (motive := PagesLawful) order.between _ lawful fun _ lawful a _ => lawful.takeAdoption a
  have read : PagesLawful (readersBoundary order (resizes s) (boundaryStart zero s)) := by
    unfold readersBoundary
    split
    · have bank : PagesLawful (oscBoundary (resizes s) (boundaryStart zero s)) := started.same
      exact (adopted bank).same
    · have taps : PagesLawful (tapBoundary (boundaryStart zero s)) := started.same
      exact (adopted taps).same
  unfold Machine.boundaryAround
  have queued : PagesLawful (formQueue (readersBoundary order (resizes s) (boundaryStart zero s))) := read.same
  exact queued.settle

theorem PagesLawful.countedEdge {s : State} (h : PagesLawful s) (zero : Bool) (order : EdgeOrder) :
    PagesLawful (countedEdge zero order s) := by
  have before : PagesLawful (edgeBefore order (countSample s)) := h.same
  have counted : PagesLawful (countEdge zero order (edgeBefore order (countSample s))) := by
    unfold countEdge
    split
    · exact before.boundaryAround order zero
    · exact before.same
  unfold Machine.countedEdge
  exact counted.same

/-! ### Resets -/

theorem allPages_eq_cons : allPages = 0 :: allPages.tail :=
  List.eq_cons_of_mem_head? (by simp [allPages, List.head?_range])

/-- The reset line sends every page to the dirty queue, of which the walker holds P0 (R53). -/
theorem resetLine_pagesLawful (s : State) : PagesLawful (resetLine s) where
  once := by
    have unlined : linePages (resetLine s) = [] := by
      simp [linePages, State.line, resetLine, State.reset, Line.reset]
    have placed : placedPages (resetLine s) = allPages.tail ++ [0] := by
      rw [placedPages, linePages_eq, unlined]
      simp [resetLine, State.reset, Pool.reset]
    rw [placed]
    exact (List.perm_append_singleton _ _).trans (.of_eq allPages_eq_cons.symm)
  retiredOrdered := List.Pairwise.nil
  freeEmpty l _ := by simp [State.line, resetLine, State.reset, Line.reset]
  retiredFits := Nat.zero_le 64
  waitingFree _ waits := nomatch waits
  waitingHeld waits := nomatch waits

/-- PART_RESET sends every line's pages to the dirty queue (R30, R51, R54). -/
theorem PagesLawful.partReset {s : State} (h : PagesLawful s) : PagesLawful (partReset s) := by
  have blocks : PagesLawful (blocksReset s) := by
    have line : ∀ l, (blocksReset s).line l = (s.line l).partReset := fun l => by
      simp [State.line]
    have unlined : linePages (blocksReset s) = [] := by
      simp [linePages, line, Line.partReset, Line.freed]
    refine h.move (fun p => ?_) (fun l _ => by rw [line]; rfl) (by simp) (by simp)
    rw [count_placedPages, count_placedPages, unlined, (blocksReset_units s).2.2.2]
    simp only [List.count_append, List.count_nil]
    omega
  unfold Machine.partReset
  rw [resetBlocks_eq]
  exact blocks.walkerTakes.settle.completed (by simp) _ _ _ _

/-! ### Every step -/

/-- Every case of a command keeps the law of R42. -/
theorem Leaves.pagesLawful {s t : State} (h : PagesLawful s) (left : Leaves s t) : PagesLawful t := by
  cases left with
  | stands => exact h
  | reset => exact resetLine_pagesLawful s
  | edgeUnlocked reading => exact h.same
  | edgeLocked reading order =>
    have measured : PagesLawful { s with timer := s.timer.measureLocked reading } := h.same
    exact measured.countedEdge _ order
  | edgeFlywheel reading => exact h.same
  | loseClock reading order =>
    have lost : PagesLawful { s with timer := { s.timer with
        wclk := .flywheel, relockRun := [], relockReady := false, lossTimer := none
        flyTimer := some (reading + s.timer.m) } } := h.same
    unfold Machine.loseClock
    exact (lost.countedEdge false order).same
  | turnFlywheel reading order =>
    have armed : PagesLawful { s with timer := { s.timer with flyTimer := some (reading + s.timer.m) } } := h.same
    have counted := armed.countedEdge false order
    unfold Machine.turnFlywheel
    dsimp only
    split
    · exact counted.same
    · exact counted
  | link e x => exact h.same
  | judged e buffer bytes overlong =>
    have hunting : PagesLawful (s.setLink e { s.link e with receiver := .hunt }) := h.same
    exact hunting.judgeFrame e buffer bytes overlong
  | written w v => exact h.same
  | commitAdvanced w v => exact h.same
  | fillAdvanced w fills => exact h.same
  | passStarted e => exact h.same
  | passRead l e w u o =>
    have read : PagesLawful (endAccess false (storeRead w u s)) := h.same
    exact (read.readFault l e w o).settle
  | passTaken l e w u o =>
    have read : PagesLawful (endAccess false (storeRead w u s)) := h.same
    exact (read.readFault l e w o).same
  | refreshExpired below arbiter => exact h.same
  | refreshLate entry => exact (h.storeFault entry false).settle
  | refreshed => exact h.same
  | cleared k walks =>
    have stored : PagesLawful (endAccess false (storeWrite (wordOf k.page k.pointer) 0 s)) := h.same
    exact (stored.walkOn walks (Walk.cleared_page k)).settle
  | verified k u walks => exact h.completeVerify walks u
  | pulse => exact h.same
  | pulseLost => exact h.same
  | port p held =>
    refine h.same (.inl rfl) (fun _ => ⟨rfl, rfl⟩) fun waits => ?_
    have holds := h.waitingHeld waits
    exact (held allocCode holds).trans holds.symm
  | refused code result n free => exact h.port (h.idle free)
  | command owns record => exact h.owned owns record
  | partReset n =>
    have zeros : PagesLawful (zerosOut n s) := h.same
    exact zeros.partReset

/-- The places of the law hold 4096 pages in all. -/
theorem PagesLawful.count_eq {s : State} (h : PagesLawful s) :
    s.pool.free.length + s.pool.dirty.length + s.pool.retired.length + s.pool.walker.toList.length
      + (allLines.map fun l => (s.line l).pages.length).sum = 4096 := by
  have all : allPages.length = 4096 := by simp [allPages]
  have lines : (linePages s).length = (allLines.map fun l => (s.line l).pages.length).sum := List.length_flatMap
  have counted := h.once.length_eq
  rw [all, placedPages, linePages_eq] at counted
  simp only [List.length_append, lines] at counted
  cases walks : s.pool.walker <;> simp [walks] at counted ⊢ <;> omega

/-- Settles O56: each case keeps the law, and the law counts every page once. -/
theorem everyStepKeepsEachPageInOnePlace : Obligations.EveryStepKeepsEachPageInOnePlace :=
  ⟨step_keeps (fun _ _ h => h.same) fun _ _ h left => left.pagesLawful h, fun _ h => h.count_eq⟩

end Sys2Proof.Machine
end

section
/-! O59. The commit queue (R57, R58, R68, R70). Its law is a law of each link's input side (state, receiver, buffers)
and of the buffers that queued frames hold: most operations leave both, the receivers' own keep each link's part, and
only a frame accepted adds a slot. Its order is a law of the queued frames' periods: operations take periods away, a frame
accepted adds the current one, and a boundary ages all alike. -/

namespace Sys2Proof.Machine

/-! ### Links that gather and hunt -/

/-- What the law of the commit queue asks of a link by itself: it gathers into a buffer marked so, and hunts while
OFF. -/
structure Link.Intake (k : Link) : Prop where
  gathering : ∀ b w, k.receiver = .receiving b w → ∃ bytes overlong, k.buffers[b.val] = .receiving bytes overlong
  hunts : k.state = .off → k.receiver = .hunt

/-- A link's record becomes one that keeps its queued buffers, meets the law, and is OFF only if it was. -/
structure Link.Becomes (k x : Link) : Prop where
  queued : ∀ b : Fin 2, k.buffers[b.val] = .queued → x.buffers[b.val] = .queued
  intake : x.Intake
  off : x.state = .off → k.state = .off

theorem CommitsLawful.intake {s : State} (h : CommitsLawful s) (e : Engine) : (s.link e).Intake :=
  ⟨h.gathering e, fun off => (h.offQuiet e off).2⟩

/-- A record with the receiver and the buffers as they were. -/
theorem Link.Intake.same {k x : Link} (h : k.Intake) (receiver : x.receiver = k.receiver)
    (buffers : x.buffers = k.buffers) (off : x.state = .off → k.state = .off) : k.Becomes x where
  queued b marked := by rw [← marked]; simp only [buffers]
  intake :=
    { gathering := fun b w gathers => by
        simp only [buffers]
        exact h.gathering b w (receiver ▸ gathers)
      hunts := fun isOff => receiver ▸ h.hunts (off isOff) }
  off := off

/-- With the queue standing and each link become such a record, the law stands. -/
theorem CommitsLawful.become {s t : State} (h : CommitsLawful s) (commits : t.commits = s.commits)
    (links : ∀ e, (s.link e).Becomes (t.link e)) : CommitsLawful t where
  own := commits ▸ h.own
  marked f queued := (links f.engine).queued f.buffer (h.marked f (commits ▸ queued))
  gathering e := (links e).intake.gathering
  offQuiet e off := ⟨commits ▸ (h.offQuiet e ((links e).off off)).1, (links e).intake.hunts off⟩

/-- One link become such a record. -/
theorem CommitsLawful.becomeLink {s : State} (h : CommitsLawful s) {e : Engine} {x : Link}
    (link : (s.link e).Becomes x) : CommitsLawful (s.setLink e x) :=
  h.become rfl fun d => by
    rw [State.link_setLink]
    split
    · next same => exact same ▸ link
    · exact (h.intake d).same rfl rfl id

/-- The same links and the same queue. -/
theorem CommitsLawful.same {s t : State} (h : CommitsLawful s) (commits : t.commits = s.commits := by simp)
    (links : t.links = s.links := by simp) : CommitsLawful t :=
  h.congr commits fun e => by rw [State.link_of_links links]; exact ⟨rfl, rfl, rfl⟩


/-! ### Operations that leave the input side of every link -/

/-- What the law reads of a link. -/
def Link.inputSide (k : Link) : LinkState × Receiver × Vector Buffer 2 := (k.state, k.receiver, k.buffers)

/-- What the law reads of all links. -/
def inputSides (s : State) : Vector (LinkState × Receiver × Vector Buffer 2) 4 := s.links.map Link.inputSide

theorem inputSides_of_links {s t : State} (h : t.links = s.links) : inputSides t = inputSides s := by
  rw [inputSides, h, inputSides]

theorem link_of_inputSides {s t : State} (h : inputSides t = inputSides s) (e : Engine) :
    (t.link e).state = (s.link e).state ∧ (t.link e).receiver = (s.link e).receiver ∧
      (t.link e).buffers = (s.link e).buffers := by
  have side : (t.link e).inputSide = (s.link e).inputSide := by
    simpa [inputSides, State.link] using congrArg (·[e.val]) h
  simpa [Link.inputSide] using side

theorem CommitsLawful.of_inputSides {s t : State} (h : CommitsLawful s) (commits : t.commits = s.commits)
    (sides : inputSides t = inputSides s) : CommitsLawful t :=
  h.congr commits (link_of_inputSides sides)

theorem inputSides_setLink {s : State} {e : Engine} {x : Link} (h : x.inputSide = (s.link e).inputSide) :
    inputSides (s.setLink e x) = inputSides s :=
  Vector.ext_fin fun d => by
    have links := State.link_setLink s e d x
    simp only [inputSides, Vector.getElem_map]
    change ((s.setLink e x).link d).inputSide = (s.link d).inputSide
    rw [links]
    split
    · next same => rw [h, same]
    · rfl

@[simp] theorem handFrame_inputSides (e : Engine) (p : PeriodCount) (hand : OutFrame → OutFrame) (s : State) :
    inputSides (handFrame e p hand s) = inputSides s := inputSides_setLink rfl

@[simp] theorem advanceCounter_inputSides (e : Engine) (name : CounterName) (n : Nat) (s : State) :
    inputSides (advanceCounter e name n s) = inputSides s := by
  have put : inputSides (s.setLink e { s.link e with
      counters := (s.link e).counters.put (((s.link e).counters.get name).advance n) name }) = inputSides s :=
    inputSides_setLink rfl
  unfold advanceCounter
  dsimp only
  split
  · exact put
  · exact put

@[simp] theorem abortTransmitter_inputSides (e : Engine) (s : State) :
    inputSides (abortTransmitter e s) = inputSides s := inputSides_setLink (s := s) rfl

@[simp] theorem muteTaps_inputSides (e : Engine) (p : PeriodCount) (taps : List TapNo) (s : State) :
    inputSides (muteTaps e p taps s) = inputSides s := by
  unfold muteTaps
  rw [handFrame_inputSides]
  exact foldl_keeps inputSides (fun s t => handMuted e p t s) (fun s _ => handFrame_inputSides e p _ s) _ _

@[simp] theorem mutePass_inputSides (s : State) : inputSides (mutePass s) = inputSides s := by
  unfold mutePass
  split
  · rfl
  · next p _ => exact (muteTaps_inputSides p.engine p.period p.taps _).trans (inputSides_of_links (by simp))

@[simp] theorem passOn_inputSides (p : Pass) (s : State) : inputSides (passOn p s) = inputSides s := by
  unfold passOn
  split
  · exact handFrame_inputSides p.engine p.period _ s
  · rfl

@[simp] theorem beginPass_inputSides (e : Engine) (s : State) : inputSides (beginPass e s) = inputSides s := by
  have planned : ∀ n, inputSides (handFrame e s.timer.period (OutFrame.plan n)
      { s with proc := { s.proc with queue := s.proc.queue.tail } }) = inputSides s := fun n =>
    handFrame_inputSides e _ _ _
  unfold beginPass
  dsimp only
  split
  · rw [muteTaps_inputSides, planned]
  · rw [passOn_inputSides, planned]

@[simp] theorem passTakes_inputSides (o : ReadOutcome) (s : State) : inputSides (passTakes o s) = inputSides s := by
  unfold passTakes
  split
  · rfl
  · split
    · dsimp only
      split
      · rw [passOn_inputSides]
        exact handFrame_inputSides _ _ _ s
      · rfl
    · rfl

@[simp] theorem cutPass_inputSides (s : State) : inputSides (cutPass s) = inputSides s := by
  unfold cutPass
  split
  · rfl
  · next p _ => exact (handFrame_inputSides p.engine p.period _ _).trans (inputSides_of_links (by simp))

@[simp] theorem cutAtBoundary_inputSides (p : PeriodCount) (s : State) :
    inputSides (cutAtBoundary p s) = inputSides s := by
  have shorts : inputSides (s.proc.queue.foldl (shortFrame p) (cutPass s)) = inputSides s :=
    (foldl_keeps inputSides _ (fun s e => handFrame_inputSides e p _ s) _ _).trans (cutPass_inputSides s)
  exact (foldl_keeps inputSides countShort (fun s e => advanceCounter_inputSides e .short 1 s) _ _).trans shorts

/-! ### A store fault, and the VERIFY reads (R45, R46, R71, R182, R185) -/

/-- What a store fault keeps, a pass read keeps (R33). -/
theorem readFault_keeps {P : State → Prop} (fault : ∀ s entry full, P s → P (storeFault entry full s)) {s : State}
    (l : LineNo) (e : Engine) (w : Nat) (o : ReadOutcome) (h : P s) : P (readFault l e w o s) := by
  unfold readFault
  split
  · split
    · exact h
    · exact fault _ _ _ h
  · exact h
  · exact h

/-- What looks at timer, links and queue alone, and what store faults and settling keep, a VERIFY read keeps (R45,
R46). -/
theorem completeVerify_keeps {P : State → Prop}
    (same : ∀ s t : State, P s → t.timer = s.timer → t.links = s.links → t.commits = s.commits → P t)
    (fault : ∀ s entry full, P s → P (storeFault entry full s)) (settled : ∀ s, P s → P (settle s)) {s : State}
    (k : Walk) (u : Upset) (h : P s) : P (completeVerify k u s) := by
  have walked : ∀ s, P s → P (walkerTakes s) := fun s hs => same _ _ hs (by simp) (by simp) (by simp)
  have looked : ∀ s, P s → P (lookAtShortage s) := fun s hs => same _ _ hs (by simp) (by simp) (by simp)
  have pooled : ∀ s (p : Pool), P s → P { s with pool := p } := fun s p hs => same _ _ hs rfl rfl rfl
  have read : P (endAccess false (storeRead (wordOf k.page k.pointer) u s)) :=
    same _ _ h (by simp) (by simp) (by simp)
  unfold completeVerify
  refine settled _ ?_
  split
  · exact same _ _ read (by simp) (by simp) (by simp)
  · unfold verifyFails
    split
    · exact read
    · split
      · exact walked _ (looked _ (fault _ _ _ (pooled _ _ read)))
      · exact walked _ (fault _ _ _ (pooled _ _ read))

theorem CommitsLawful.enterSafe {s : State} (h : CommitsLawful s) : CommitsLawful (enterSafe s) := by
  have raised : CommitsLawful (raise .safeEntered { s with faults := { s.faults with mode := .safe } }) := h.same
  have emptied := emptyCommits_commitsLawful raised
  have withdrawn : CommitsLawful (withdrawFills (emptyCommits (raise .safeEntered
      { s with faults := { s.faults with mode := .safe } }))) := emptied.same
  have muted := withdrawn.of_inputSides (by simp) (mutePass_inputSides _)
  unfold Machine.enterSafe
  exact muted.same

theorem CommitsLawful.storeFault {s : State} (h : CommitsLawful s) (entry : FaultEntry) (full : Bool) :
    CommitsLawful (storeFault entry full s) := by
  have recorded : CommitsLawful (raise .storeFault { s with faults := s.faults.record entry full }) := h.same
  unfold Machine.storeFault
  split
  · exact recorded.enterSafe
  · exact recorded

theorem CommitsLawful.readFault {s : State} (h : CommitsLawful s) (l : LineNo) (e : Engine) (w : Nat)
    (o : ReadOutcome) : CommitsLawful (readFault l e w o s) :=
  readFault_keeps (fun _ _ _ lawful => lawful.storeFault _ _) l e w o h

theorem CommitsLawful.completeVerify {s : State} (h : CommitsLawful s) (k : Walk) (u : Upset) :
    CommitsLawful (completeVerify k u s) :=
  completeVerify_keeps (fun _ _ lawful _ links commits => lawful.same commits links)
    (fun _ _ _ lawful => lawful.storeFault _ _) (fun _ lawful => settle_commitsLawful lawful) k u h

/-! ### The head frame -/

/-- The same buffers held in the same order, whatever is left of their blocks. -/
theorem CommitsLawful.of_slots {s t : State} (h : CommitsLawful s)
    (slots : t.commits.map QueuedFrame.slot = s.commits.map QueuedFrame.slot) (links : t.links = s.links) :
    CommitsLawful t := by
  have kept : ∀ f ∈ t.commits, ∃ g ∈ s.commits, g.slot = f.slot := fun f queued =>
    List.mem_map.mp (slots ▸ List.mem_map_of_mem queued)
  have link := State.link_of_links links
  constructor
  · exact slots ▸ h.own
  · intro f queued
    obtain ⟨g, held, slot⟩ := kept f queued
    obtain ⟨engine, buffer⟩ := Prod.ext_iff.mp slot
    simp only [link]
    have marked := h.marked g held
    simp only [show g.engine = f.engine from engine, show g.buffer = f.buffer from buffer] at marked
    exact marked
  · intro e
    simp only [link]
    exact h.gathering e
  · intro e off
    rw [link] at off ⊢
    obtain ⟨quiet, hunts⟩ := h.offQuiet e off
    refine ⟨fun f queued => ?_, hunts⟩
    obtain ⟨g, held, slot⟩ := kept f queued
    rw [← show g.engine = f.engine from congrArg Prod.fst slot]
    exact quiet g held

/-- A commit moves on within its head block (R69). -/
theorem CommitsLawful.advanceCommit {s : State} (h : CommitsLawful s) : CommitsLawful (advanceCommit s) := by
  unfold Machine.advanceCommit
  split
  · exact h
  · next f fs queue =>
    split
    · exact h
    · exact h.of_slots (by rw [queue]; rfl) rfl

/-! ### Receivers (R58 to R60) -/

/-- A buffer that is not queued filled otherwise. -/
theorem Link.Becomes.of_set {k x : Link} {slot : Fin 2} {y : Buffer} (unqueued : k.buffers[slot.val] ≠ .queued)
    (buffers : x.buffers = k.buffers.set slot.val y) (intake : x.Intake) (off : x.state = .off → k.state = .off) :
    k.Becomes x where
  queued b marked := by
    simp only [buffers]
    rw [Vector.getElem_set_ne, marked]
    intro same
    simp only [same] at unqueued
    exact unqueued marked
  intake := intake
  off := off

/-- The buffer that a receiver gathers into is not a queued one. -/
theorem Link.Intake.unqueued {k : Link} (h : k.Intake) {slot : Fin 2} {w : Nat}
    (gathers : k.receiver = .receiving slot w) : k.buffers[slot.val] ≠ .queued := by
  obtain ⟨bytes, overlong, held⟩ := h.gathering slot w gathers
  rw [held]
  exact nofun

/-- A buffer begun: the link is not OFF and gathers into it. -/
theorem Link.Becomes.beginFrame {k x : Link} (on : x.state ≠ .off) {slot : Fin 2}
    (unqueued : k.buffers[slot.val] ≠ .queued) (buffers : x.buffers = k.buffers) (b : Nat) :
    k.Becomes (x.beginFrame b slot) := by
  refine .of_set unqueued (by simp only [Link.beginFrame, buffers]; rfl)
    ⟨fun c w gathers => ?_, fun off => absurd off on⟩ fun off => absurd off on
  cases gathers
  exact ⟨[], false, by simp [Link.beginFrame]⟩

theorem Link.freeSlot_some {k : Link} {slot : Fin 2} (h : k.freeSlot = some slot) : k.buffers[slot.val] = .free := by
  unfold Link.freeSlot at h
  split at h
  · next free => cases h; exact free
  · split at h
    · next free => cases h; exact free
    · cases h

/-- An open mark begins a frame in a buffer that is not queued, or records its status (R58, R59). -/
theorem Link.Intake.opened {k : Link} (h : k.Intake) (on : k.state ≠ .off) (b : Nat) : k.Becomes (k.open b) := by
  unfold Link.open
  split
  · next slot w gathers => exact .beginFrame (x := k.record .badFrame) on (h.unqueued gathers) rfl b
  · split
    · next slot free => exact .beginFrame on (by rw [Link.freeSlot_some free]; exact nofun) rfl b
    · exact h.same rfl rfl id

theorem Buffer.append_receiving (b : Nat) (x : Byte) (bytes : List Byte) (overlong : Bool) :
    ∃ more long, (Buffer.receiving bytes overlong).append b x = .receiving more long := by
  by_cases room : bytes.length < maxInputLength b
  · exact ⟨_, _, if_pos room⟩
  · exact ⟨_, _, if_neg room⟩

/-- A data byte goes on gathering (R59). -/
theorem Link.Intake.append {k : Link} (h : k.Intake) {slot : Fin 2} {w : Nat}
    (gathers : k.receiver = .receiving slot w) (b : Nat) (x : Byte) :
    k.Becomes { k with buffers := k.buffers.set slot.val (k.buffers[slot.val].append b x) } := by
  refine .of_set (h.unqueued gathers) rfl ⟨fun c v receiver => ?_, h.hunts⟩ id
  obtain ⟨rfl, -⟩ := Receiver.receiving.inj (gathers.symm.trans receiver)
  obtain ⟨bytes, overlong, held⟩ := h.gathering slot w gathers
  simpa [held] using Buffer.append_receiving b x bytes overlong

/-- A frame that times out frees the buffer it gathered into (R60). -/
theorem Link.Intake.timeOut {k : Link} (h : k.Intake) : k.Becomes k.timeOut := by
  unfold Link.timeOut
  split
  · exact h.same rfl rfl id
  · next slot w gathers => exact .of_set (h.unqueued gathers) rfl ⟨nofun, fun _ => rfl⟩ id

/-- A sample edge times the frame out or counts its window down (R60). -/
theorem Link.Intake.edge {k : Link} (h : k.Intake) : k.Becomes k.edge := by
  unfold Link.edge
  split
  · exact h.same rfl rfl id
  · next slot w gathers =>
    split
    · exact h.timeOut
    · refine ⟨fun _ => id, ⟨fun c v receiver => ?_, fun off => ?_⟩, id⟩
      · obtain ⟨rfl, -⟩ := Receiver.receiving.inj receiver
        exact h.gathering slot w gathers
      · exact absurd ((h.hunts off).symm.trans gathers) nofun

theorem CommitsLawful.receiverEdge {s : State} (h : CommitsLawful s) : CommitsLawful (receiverEdge s) :=
  h.become rfl fun e => by simpa [Machine.receiverEdge, State.link] using (h.intake e).edge

/-! ### A frame judged (R62 to R68) -/

/-- A buffer that no frame holds freed, the link hunting (R61, R62). -/
theorem CommitsLawful.freeBuffer {s : State} (h : CommitsLawful s) {e : Engine} {b : Fin 2}
    (hunts : (s.link e).receiver = .hunt) (unqueued : (s.link e).buffers[b.val] ≠ .queued) :
    CommitsLawful (freeBuffer e b s) :=
  h.becomeLink (.of_set unqueued rfl ⟨fun _ _ gathers => (nomatch hunts.symm.trans gathers), fun _ => hunts⟩ id)

theorem countRefusal_inputSides (e : Engine) (status : InputStatus) (s : State) :
    inputSides (countRefusal e status s) = inputSides s := by
  unfold countRefusal
  split
  · exact advanceCounter_inputSides e .check 1 s
  · exact advanceCounter_inputSides e .late 1 s
  · rfl

/-- A frame refused frees its buffer and is not queued (R62). -/
theorem CommitsLawful.refuseFrame {s : State} (h : CommitsLawful s) {e : Engine} {b : Fin 2} (status : InputStatus)
    (hunts : (s.link e).receiver = .hunt) (unqueued : (s.link e).buffers[b.val] ≠ .queued) :
    CommitsLawful (refuseFrame e b status s) := by
  have sides : inputSides (countRefusal e status (s.setLink e ((s.link e).record status))) = inputSides s :=
    (countRefusal_inputSides e status _).trans (inputSides_setLink rfl)
  obtain ⟨-, receiver, buffers⟩ := link_of_inputSides sides e
  exact (h.of_inputSides (by simp) sides).freeBuffer (receiver.trans hunts) (by simpa only [buffers] using unqueued)

/-- The blocks of an accepted frame judged: those kept, the number refused, and the state with the flags set. -/
def blocksJudged (e : Engine) (bytes : List Byte) (s : State) : List KeptBlock × Nat × State :=
  judgeBlocks e [] (inputBlocks bytes s.size) (s.setLink e (s.link e).hear)

/-- An accepted frame heard, judged and counted, before it goes on (R64 to R66). -/
def frameCounted (e : Engine) (bytes : List Byte) (s : State) : State :=
  let (kept, refused, t) := blocksJudged e bytes s
  advanceCounter e .refused refused (t.setLink e ((t.link e).tallyFrame kept.length refused))

theorem acceptFrame_eq (e : Engine) (b : Fin 2) (bytes : List Byte) (s : State) :
    acceptFrame e b bytes s = sendOn e b (blocksJudged e bytes s).1 (frameCounted e bytes s) := rfl

theorem frameCounted_inputSides (e : Engine) (bytes : List Byte) (s : State) :
    inputSides (frameCounted e bytes s) = inputSides (s.setLink e (s.link e).hear) := by
  unfold frameCounted
  have tallied : inputSides ((blocksJudged e bytes s).2.2.setLink e (((blocksJudged e bytes s).2.2.link e).tallyFrame
      (blocksJudged e bytes s).1.length (blocksJudged e bytes s).2.1)) = inputSides (blocksJudged e bytes s).2.2 :=
    inputSides_setLink rfl
  exact (advanceCounter_inputSides e .refused _ _).trans (tallied.trans (inputSides_of_links (by simp [blocksJudged])))

@[simp] theorem frameCounted_frame (e : Engine) (bytes : List Byte) (s : State) :
    (frameCounted e bytes s).timer = s.timer ∧ (frameCounted e bytes s).commits = s.commits := by
  simp [frameCounted, blocksJudged]

/-- A frame joins the queue's tail with a buffer that no frame holds (R67, R68). -/
theorem CommitsLawful.enqueue {s : State} (h : CommitsLawful s) {f : QueuedFrame}
    (on : (s.link f.engine).state ≠ .off) (hunts : (s.link f.engine).receiver = .hunt)
    (unqueued : (s.link f.engine).buffers[f.buffer.val] ≠ .queued) :
    CommitsLawful { s.setLink f.engine { s.link f.engine with
      buffers := (s.link f.engine).buffers.set f.buffer.val .queued } with commits := s.commits ++ [f] } := by
  have other : ∀ g ∈ s.commits, g.slot ≠ f.slot := by
    intro g held same
    obtain ⟨engine, buffer⟩ := Prod.mk.inj same
    have marked := h.marked g held
    simp only [engine, buffer] at marked
    exact unqueued marked
  have appended : ∀ g, g ∈ s.commits ++ [f] ↔ g ∈ s.commits ∨ g = f := by simp
  have fill : ∀ c : Fin 2, ((s.link f.engine).buffers.set f.buffer.val .queued)[c.val] =
      if f.buffer = c then .queued else (s.link f.engine).buffers[c.val] := by
    intro c
    rw [Vector.getElem_set]
    simp only [Fin.ext_iff]
  have law : CommitsLawful (s.setLink f.engine { s.link f.engine with
      buffers := (s.link f.engine).buffers.set f.buffer.val .queued }) := by
    refine h.becomeLink ⟨fun c marked => ?_,
      ⟨fun _ _ gathers => (nomatch hunts.symm.trans gathers), fun _ => hunts⟩, id⟩
    rw [fill, marked, ite_self]
  constructor
  · show ((s.commits ++ [f]).map QueuedFrame.slot).Nodup
    rw [List.map_append, List.nodup_append]
    refine ⟨h.own, List.nodup_singleton _, fun p held q last same => ?_⟩
    obtain ⟨g, queued, rfl⟩ := List.mem_map.mp held
    exact other g queued (same.trans (List.mem_singleton.mp last))
  · intro g queued
    rcases (appended g).mp queued with held | rfl
    · exact law.marked g held
    · show ((s.setLink g.engine _).link g.engine).buffers[g.buffer.val] = _
      simp
  · exact law.gathering
  · intro e off
    obtain ⟨quiet, hunting⟩ := law.offQuiet e off
    refine ⟨fun g queued => ?_, hunting⟩
    rcases (appended g).mp queued with held | rfl
    · exact quiet g held
    · rintro rfl
      replace off : ((s.setLink g.engine _).link g.engine).state = .off := off
      rw [State.link_setLink_same] at off
      exact on off

/-- A frame accepted joins the queue, or frees its buffer (R67). -/
theorem CommitsLawful.acceptFrame {s : State} (h : CommitsLawful s) {e : Engine} {b : Fin 2} (bytes : List Byte)
    (hunts : (s.link e).receiver = .hunt) (unqueued : (s.link e).buffers[b.val] ≠ .queued) :
    CommitsLawful (acceptFrame e b bytes s) := by
  have heard : CommitsLawful (s.setLink e (s.link e).hear) :=
    h.becomeLink ((h.intake e).same rfl rfl nofun)
  have sides := frameCounted_inputSides e bytes s
  have counted : CommitsLawful (frameCounted e bytes s) := heard.of_inputSides (by simp) sides
  obtain ⟨state, receiver, buffers⟩ := link_of_inputSides sides e
  rw [State.link_setLink_same] at state receiver buffers
  have free : ((frameCounted e bytes s).link e).buffers[b.val] ≠ .queued := by
    simp only [buffers]
    exact unqueued
  rw [acceptFrame_eq]
  unfold sendOn
  split
  · exact counted.freeBuffer (receiver.trans hunts) free
  · exact counted.enqueue (f := { engine := e, period := _, buffer := b, blocks := _ })
      (by rw [state]; exact nofun) (receiver.trans hunts) free

theorem CommitsLawful.judgeFrame {s : State} (h : CommitsLawful s) {e : Engine} {b : Fin 2} (bytes : List Byte)
    (overlong : Bool) (hunts : (s.link e).receiver = .hunt) (unqueued : (s.link e).buffers[b.val] ≠ .queued) :
    CommitsLawful (judgeFrame e b bytes overlong s) := by
  unfold Machine.judgeFrame
  split
  · exact h.refuseFrame _ hunts unqueued
  · exact settle_commitsLawful (h.acceptFrame bytes hunts unqueued)

/-! ### Boundaries (R56, R72) -/

/-- A boundary leaves receiver and buffers, and switches no link off (R56, R72). -/
theorem Link.Intake.boundary {k : Link} (h : k.Intake) (p : PeriodCount) : k.Becomes (k.countMissed.openFrame p) := by
  have missed : (k.countMissed).receiver = k.receiver ∧ k.countMissed.buffers = k.buffers ∧
      (k.countMissed.state = .off → k.state = .off) := by
    unfold Link.countMissed
    split
    · split
      · exact ⟨rfl, rfl, id⟩
      · refine ⟨rfl, rfl, fun off => ?_⟩
        dsimp only at off
        split at off <;> cases off
    · exact ⟨rfl, rfl, id⟩
    · exact ⟨rfl, rfl, id⟩
    · exact ⟨rfl, rfl, id⟩
  have opened : (k.countMissed.openFrame p).receiver = k.countMissed.receiver ∧
      (k.countMissed.openFrame p).buffers = k.countMissed.buffers ∧
      (k.countMissed.openFrame p).state = k.countMissed.state := by
    unfold Link.openFrame
    split
    · exact ⟨rfl, rfl, rfl⟩
    · exact ⟨rfl, rfl, rfl⟩
  obtain ⟨receiver, buffers, off⟩ := missed
  obtain ⟨receiverStands, buffersStand, state⟩ := opened
  exact h.same (receiverStands.trans receiver) (buffersStand.trans buffers) fun isOff => off (state ▸ isOff)

theorem CommitsLawful.boundaryStart {s : State} (h : CommitsLawful s) (zero : Bool) :
    CommitsLawful (boundaryStart zero s) := by
  have timed : CommitsLawful { s with timer := s.timer.boundary zero (tablesQuiet s) (sizeAfter s) } := h.same
  have cut := timed.of_inputSides (t := cutAtBoundary s.timer.period _) (by simp) (cutAtBoundary_inputSides _ _)
  have linked : CommitsLawful (linksBoundary (cutAtBoundary s.timer.period
      { s with timer := s.timer.boundary zero (tablesQuiet s) (sizeAfter s) })) :=
    cut.become (by simp) fun e => by
      rw [linksBoundary_link]
      exact (cut.intake e).boundary _
  unfold Machine.boundaryStart
  exact linked.same

theorem CommitsLawful.boundaryAround {s : State} (h : CommitsLawful s) (order : EdgeOrder) (zero : Bool) :
    CommitsLawful (boundaryAround order zero s) := by
  have read : CommitsLawful (readersBoundary order (resizes s) (Machine.boundaryStart zero s)) :=
    (h.boundaryStart zero).same
  exact settle_commitsLawful read.same

theorem CommitsLawful.tempoEdge {s : State} (h : CommitsLawful s) : CommitsLawful (tempoEdge s) := h.same

theorem CommitsLawful.countedEdge {s : State} (h : CommitsLawful s) (zero : Bool) (order : EdgeOrder) :
    CommitsLawful (countedEdge zero order s) := by
  have before : CommitsLawful (edgeBefore order (countSample s)) := by
    have sampled : CommitsLawful (countSample s) := h.same
    unfold edgeBefore
    cases order.tempoAfter <;> cases order.receiversAfter
    · exact sampled.tempoEdge.receiverEdge
    · exact sampled.tempoEdge
    · exact sampled.receiverEdge
    · exact sampled
  have counted : CommitsLawful (countEdge zero order (edgeBefore order (countSample s))) := by
    unfold countEdge
    split
    · exact before.boundaryAround order zero
    · exact before.same
  unfold Machine.countedEdge edgeAfter
  cases order.tempoAfter <;> cases order.receiversAfter
  · exact counted
  · exact counted.receiverEdge
  · exact counted.tempoEdge
  · exact counted.tempoEdge.receiverEdge

/-! ### Resets (R78, R79) -/

theorem resetLine_commitsLawful (s : State) : CommitsLawful (resetLine s) := by
  have link : ∀ e, (resetLine s).link e = Link.reset := fun e => by simp [resetLine, State.reset, State.link]
  constructor
  · exact List.nodup_nil
  · exact fun f queued => nomatch queued
  · intro e
    rw [link]
    exact nofun
  · intro e
    rw [link]
    exact nofun

/-- PART_RESET's links: nothing is queued, and every receiver hunts (R79). -/
theorem CommitsLawful.resetLinks {s : State} (h : CommitsLawful s) : CommitsLawful (resetLinks s) := by
  have emptied := emptyCommits_commitsLawful h
  have cleared : CommitsLawful { emptyCommits s with links := (emptyCommits s).links.map Link.partReset } := by
    have link : ∀ e, State.link { emptyCommits s with links := (emptyCommits s).links.map Link.partReset } e =
        ((emptyCommits s).link e).partReset := fun e => by simp [State.link]
    constructor
    · exact List.nodup_nil
    · exact fun f queued => nomatch queued
    · intro e
      rw [link]
      exact nofun
    · intro e _
      rw [link]
      exact ⟨fun f queued => (nomatch queued), rfl⟩
  exact List.foldlRecOn (motive := CommitsLawful) allEngines _ cleared fun u lawful e _ =>
    lawful.of_inputSides (t := abortTransmitter e u) rfl (abortTransmitter_inputSides e u)

theorem CommitsLawful.partReset {s : State} (h : CommitsLawful s) : CommitsLawful (partReset s) := by
  have lines : CommitsLawful (resetLines s) := h.same
  have blocks : CommitsLawful (blocksReset s) :=
    lines.resetLinks.same (blocksReset_tables s).2.2.1 (blocksReset_tables s).2.2.2.1
  unfold Machine.partReset
  rw [resetBlocks_eq]
  have walked : CommitsLawful (walkerTakes (blocksReset s)) := blocks.same
  exact (settle_commitsLawful walked).same

/-! ### Commands -/

/-- All that the two laws of the queue read. -/
def queueView (s : State) : (PeriodCount × Bool) × List QueuedFrame × Vector Link 4 :=
  ((s.timer.period, s.timer.running), s.commits, s.links)

theorem queueView_of_startView {s t : State} (h : startView t = startView s) : queueView t = queueView s := by
  simp only [startView, Prod.mk.injEq] at h
  obtain ⟨⟨timer, -, commits, -⟩, -, links, -⟩ := h
  rw [queueView, timer, commits, links, queueView]

theorem ownSetPeriod_queueView (args : List Byte) (s : State) : queueView (ownSetPeriod args s).2 = queueView s := by
  unfold ownSetPeriod
  split
  · rfl
  · split <;> rfl

theorem ownAllocLine_queueView (args : List Byte) (s : State) : queueView (ownAllocLine args s).2 = queueView s := by
  unfold ownAllocLine allocate refuse
  dsimp only
  (repeat' split) <;> rfl

theorem ownSetWriter_queueView (args : List Byte) (s : State) : queueView (ownSetWriter args s).2 = queueView s := by
  unfold ownSetWriter
  dsimp only
  split
  · rfl
  · split <;> rfl

/-- Every WRITE_COMMAND but FREE_LINE, SET_LINK and READ_COUNTERS leaves all of it. -/
theorem Owner.leaves_queue {code : Byte} {owner : List Byte → State → Reply × State} (owns : Owner code owner)
    (other : code ≠ 0x11 ∧ code ≠ 0x20 ∧ code ≠ 0x22) (args : List Byte) (s : State) :
    queueView (owner args s).2 = queueView s := by
  cases owns with
  | freeLine | setLink | readCounters => exact absurd other (by decide)
  | setPeriod => exact ownSetPeriod_queueView args s
  | allocLine => exact ownAllocLine_queueView args s
  | setWriter => exact ownSetWriter_queueView args s
  | readLine => exact queueView_of_startView (ownReadLine_view args s)
  | readPool => exact queueView_of_startView (ownReadPool_view args s)
  | readLink => exact queueView_of_startView (ownReadLink_view args s)
  | setTap => exact queueView_of_startView (ownSetTap_view args s)
  | clearTap => exact queueView_of_startView (ownClearTap_view args s)
  | readTap | saveTap => exact queueView_of_startView (ownReadTap_view args s)
  | setTempo => exact queueView_of_startView (ownSetTempo_view args s)
  | tapTempo => exact queueView_of_startView (ownTapTempo_view args s)
  | setTempoSource => exact queueView_of_startView (ownSetTempoSource_view args s)
  | setMeter => exact queueView_of_startView (ownSetMeter_view args s)
  | setOsc => exact queueView_of_startView (ownSetOsc_view args s)
  | readOsc => exact queueView_of_startView (ownReadOsc_view args s)
  | popScene => exact queueView_of_startView (ownPopScene_view args s)
  | dropScene => exact queueView_of_startView (ownDropScene_view args s)
  | readClock | resync | readTempo | pushScene | readScenes | ackNotice | setMask | readFault | clearFault => rfl

/-- A WRITE_COMMAND whose owner leaves all of it leaves all of it. -/
theorem Owner.writeCommand_queueView {code : Byte} {owner : List Byte → State → Reply × State}
    (owns : Owner code owner) (other : code ≠ 0x11 ∧ code ≠ 0x20 ∧ code ≠ 0x22) (record : CommandRecord) (s : State) :
    queueView (writeCommand code owner record s) = queueView s :=
  writeCommand_keeps queueView (fun _ _ _ => rfl) (owns.leaves_queue other) record s

/-- FREE_LINE leaves all, or frees a line (R26). -/
theorem ownFreeLine_leaves (args : List Byte) (s : State) :
    (ownFreeLine args s).2 = s ∨ ∃ l, (ownFreeLine args s).2 = freeLine l s := by
  unfold ownFreeLine
  dsimp only
  split
  · exact .inl rfl
  · split
    · exact .inl rfl
    · split
      · exact .inl rfl
      · exact .inr ⟨_, rfl⟩

/-- SET_LINK leaves all, or switches a link off or an OFF one on (R57). -/
theorem ownSetLink_leaves (args : List Byte) (s : State) :
    (ownSetLink args s).2 = s ∨ (∃ e, (ownSetLink args s).2 = linkOff e s) ∨
      ∃ e, (s.link e).state = .off ∧ (ownSetLink args s).2 = s.setLink e (s.link e).switchOn := by
  unfold ownSetLink okBytes
  dsimp only
  split
  · exact .inl rfl
  · split
    · dsimp only
      split
      · exact .inl rfl
      · exact .inr (.inl ⟨_, rfl⟩)
    · dsimp only
      split
      · next off => exact .inr (.inr ⟨_, off, rfl⟩)
      · exact .inl rfl

/-- READ_COUNTERS leaves all but a link's counters (R176). -/
theorem ownReadCounters_leaves (args : List Byte) (s : State) : (ownReadCounters args s).2 = s ∨
    ∃ e c, (ownReadCounters args s).2 = s.setLink e { s.link e with counters := c } := by
  unfold ownReadCounters
  dsimp only
  split
  · exact .inl rfl
  · exact .inr ⟨_, _, rfl⟩

/-- Every WRITE_COMMAND keeps the law. -/
theorem CommitsLawful.owned {s : State} (h : CommitsLawful s) {code : Byte} {owner : List Byte → State → Reply × State}
    (owns : Owner code owner) (record : CommandRecord) : CommitsLawful (writeCommand code owner record s) := by
  have command : ∀ {owner : List Byte → State → Reply × State},
      (∀ args s, CommitsLawful s → CommitsLawful (owner args s).2) → CommitsLawful (writeCommand code owner record s) :=
    fun keeps => writeCommand_preserves (fun _ _ _ lawful => lawful.same) keeps record h
  by_cases other : code ≠ 0x11 ∧ code ≠ 0x20 ∧ code ≠ 0x22
  · obtain ⟨-, commits, links⟩ := by
      simpa only [queueView, Prod.mk.injEq] using owns.writeCommand_queueView other record s
    exact h.same commits links
  · cases owns with
    | freeLine =>
      refine command fun args s lawful => ?_
      rcases ownFreeLine_leaves args s with stands | ⟨l, freed⟩
      · rw [stands]
        exact lawful
      · rw [freed, freeLine_eq]
        exact settle_commitsLawful lawful.same
    | setLink =>
      refine command fun args s lawful => ?_
      rcases ownSetLink_leaves args s with stands | ⟨e, off⟩ | ⟨e, wasOff, on⟩
      · rw [stands]
        exact lawful
      · rw [off]
        exact linkOff_commitsLawful lawful e
      · rw [on]
        exact switchOn_commitsLawful lawful wasOff
    | readCounters =>
      refine command fun args s lawful => ?_
      rcases ownReadCounters_leaves args s with stands | ⟨e, c, counted⟩
      · rw [stands]
        exact lawful
      · rw [counted]
        exact lawful.of_inputSides rfl (inputSides_setLink rfl)
    | _ => exact absurd (by decide) other

/-! ### The order of the queue (R68) -/

/-- The law reads the periods of the queued frames. -/
theorem commitsOrdered_iff (s : State) : CommitsOrdered s ↔
    (s.commits.map QueuedFrame.period).Pairwise (fun p q => age s.timer.period q ≤ age s.timer.period p) ∧
      (s.timer.running = false → s.commits = []) := by
  rw [List.pairwise_map]
  exact ⟨fun ⟨ordered, started⟩ => ⟨ordered, started⟩, fun ⟨ordered, started⟩ => ⟨ordered, started⟩⟩

/-- With no frame queued nothing is out of order. -/
theorem CommitsOrdered.of_empty {s : State} (h : s.commits = []) : CommitsOrdered s :=
  ⟨h ▸ List.Pairwise.nil, fun _ => h⟩

/-- Frames gone leave the order of those that stay. -/
theorem CommitsOrdered.fewer {s t : State} (h : CommitsOrdered s)
    (periods : (t.commits.map QueuedFrame.period).Sublist (s.commits.map QueuedFrame.period))
    (period : t.timer.period = s.timer.period := by simp) (running : t.timer.running = s.timer.running := by simp) :
    CommitsOrdered t := by
  rw [commitsOrdered_iff] at h ⊢
  obtain ⟨ordered, started⟩ := h
  refine ⟨by rw [period]; exact ordered.sublist periods, fun stopped => ?_⟩
  rw [started (running ▸ stopped)] at periods
  exact List.map_eq_nil_iff.mp (List.sublist_nil.mp periods)

theorem CommitsOrdered.same {s t : State} (h : CommitsOrdered s) (commits : t.commits = s.commits := by simp)
    (period : t.timer.period = s.timer.period := by simp) (running : t.timer.running = s.timer.running := by simp) :
    CommitsOrdered t :=
  h.fewer (commits ▸ List.Sublist.refl _) period running

/-- Frames drained leave the queue's head, and the first that stays its period (R69). -/
theorem drainFrames_periods (fs : List QueuedFrame) (s : State) :
    ((drainFrames s fs).commits.map QueuedFrame.period).Sublist (fs.map QueuedFrame.period) := by
  induction fs generalizing s with
  | nil => exact List.Sublist.refl _
  | cons f fs ih =>
    unfold drainFrames
    split
    · exact (ih _).trans (List.sublist_cons_self _ _)
    · exact List.Sublist.refl _

theorem CommitsOrdered.settle {s : State} (h : CommitsOrdered s) : CommitsOrdered (settle s) :=
  h.fewer (by
    have drained : (Machine.settle s).commits = (drainFrames s s.commits).commits := by
      simp [Machine.settle, drainCommits]
    rw [drained]
    exact drainFrames_periods s.commits s)

theorem CommitsOrdered.storeFault {s : State} (h : CommitsOrdered s) (entry : FaultEntry) (full : Bool) :
    CommitsOrdered (storeFault entry full s) := by
  unfold Machine.storeFault
  split
  · exact .of_empty (enterSafe_leaves _).1
  · exact h.same

theorem CommitsOrdered.readFault {s : State} (h : CommitsOrdered s) (l : LineNo) (e : Engine) (w : Nat)
    (o : ReadOutcome) : CommitsOrdered (readFault l e w o s) :=
  readFault_keeps (fun _ _ _ ordered => ordered.storeFault _ _) l e w o h

theorem CommitsOrdered.completeVerify {s : State} (h : CommitsOrdered s) (k : Walk) (u : Upset) :
    CommitsOrdered (completeVerify k u s) :=
  completeVerify_keeps
    (fun _ _ ordered timer _ commits =>
      ordered.same commits (congrArg Timer.period timer) (congrArg Timer.running timer))
    (fun _ _ _ ordered => ordered.storeFault _ _) (fun _ ordered => ordered.settle) k u h

theorem CommitsOrdered.advanceCommit {s : State} (h : CommitsOrdered s) : CommitsOrdered (advanceCommit s) := by
  refine h.fewer ?_
  unfold Machine.advanceCommit
  split
  · exact List.Sublist.refl _
  · next queue =>
    rw [queue]
    split
    · rw [queue]
    · exact List.Sublist.refl _

/-- A frame of the period joins the tail (R67): it is the youngest. -/
theorem CommitsOrdered.enqueue {s t : State} (h : CommitsOrdered s) {f : QueuedFrame}
    (commits : t.commits = s.commits ++ [f]) (current : f.period = s.timer.period)
    (period : t.timer.period = s.timer.period) (running : t.timer.running = true) : CommitsOrdered t where
  ordered := by
    rw [commits, period, List.pairwise_append]
    refine ⟨h.ordered, List.pairwise_singleton _ _, fun g _ last tail => ?_⟩
    rw [List.mem_singleton.mp tail, current]
    simp [age]
  started stopped := nomatch running.symm.trans stopped

theorem sendOn_commits (e : Engine) (b : Fin 2) (kept : List KeptBlock) (s : State) :
    (sendOn e b kept s).commits = s.commits ∨ ∃ f : QueuedFrame, f.period = s.timer.period ∧
      (sendOn e b kept s).commits = s.commits ++ [f] := by
  unfold sendOn
  split
  · exact .inl rfl
  · exact .inr ⟨_, rfl, rfl⟩

theorem CommitsOrdered.judgeFrame {s : State} (h : CommitsOrdered s) (e : Engine) (b : Fin 2) (bytes : List Byte)
    (overlong : Bool) : CommitsOrdered (judgeFrame e b bytes overlong s) := by
  unfold Machine.judgeFrame
  split
  · exact h.same
  · next accepted =>
    refine CommitsOrdered.settle ?_
    rw [acceptFrame_eq]
    rcases sendOn_commits e b (blocksJudged e bytes s).1 (frameCounted e bytes s) with stays | ⟨f, current, joins⟩
    · exact h.same (stays.trans (by simp))
    · exact h.enqueue (joins.trans (by simp)) (current.trans (by simp)) (by simp)
        (by simpa using running_of_frameRefusal_none accepted)

/-- A boundary ages every frame by one, as long as no count comes round (log 12). -/
theorem age_succ {now p : PeriodCount} (young : (now - p).toNat < 2 ^ 32 - 1) : age (now + 1) p = age now p + 1 := by
  unfold age
  bv_omega

theorem CommitsOrdered.periodEnds {s t : State} (h : CommitsOrdered s)
    (young : ∀ f ∈ s.commits, (s.timer.period - f.period).toNat < 2 ^ 32 - 1) (commits : t.commits = s.commits)
    (period : t.timer.period = s.timer.period + 1) (running : t.timer.running = s.timer.running) :
    CommitsOrdered t where
  ordered := by
    rw [commits, period]
    refine h.ordered.imp_of_mem fun {f g} first second older => ?_
    rw [age_succ (young f first), age_succ (young g second)]
    exact Nat.succ_le_succ older
  started stopped := commits.trans (h.started (running ▸ stopped))

/-- A counted edge: boundary 0 comes where none is queued, and a later one ages every frame (R2, R3). -/
theorem CommitsOrdered.countedEdge {s : State} (h : CommitsOrdered s)
    (young : ∀ f ∈ s.commits, (s.timer.period - f.period).toNat < 2 ^ 32 - 1) {zero : Bool}
    (first : zero = true → s.timer.running = false) (order : EdgeOrder) :
    CommitsOrdered (countedEdge zero order s) := by
  have sampled : CommitsOrdered (countSample s) := h.same (period := rfl) (running := rfl)
  have before : CommitsOrdered (edgeBefore order (countSample s)) := sampled.same
  have counted : CommitsOrdered (countEdge zero order (edgeBefore order (countSample s))) := by
    unfold countEdge
    split
    · next ends =>
      unfold boundaryAround
      refine CommitsOrdered.settle ?_
      cases zero with
      | true => exact .of_empty (by simpa using h.started (first rfl))
      | false =>
        exact before.periodEnds (by simpa [countSample] using young) (by simp) (by simp [Timer.boundary])
          (by simp [Timer.boundary])
    · exact before.same
  unfold Machine.countedEdge
  exact counted.same

theorem CommitsOrdered.linkOff {s : State} (h : CommitsOrdered s) (e : Engine) : CommitsOrdered (linkOff e s) := by
  have withdrawn : CommitsOrdered (withdrawFrames e s) :=
    h.fewer (by simpa [withdrawFrames] using List.filter_sublist.map QueuedFrame.period)
  unfold Machine.linkOff
  exact CommitsOrdered.settle withdrawn.same

theorem CommitsOrdered.owned {s : State} (h : CommitsOrdered s) {code : Byte}
    {owner : List Byte → State → Reply × State} (owns : Owner code owner) (record : CommandRecord) :
    CommitsOrdered (writeCommand code owner record s) := by
  have command : ∀ {owner : List Byte → State → Reply × State},
      (∀ args s, CommitsOrdered s → CommitsOrdered (owner args s).2) →
      CommitsOrdered (writeCommand code owner record s) :=
    fun keeps => writeCommand_preserves (fun _ _ _ ordered => ordered.same) keeps record h
  by_cases other : code ≠ 0x11 ∧ code ≠ 0x20 ∧ code ≠ 0x22
  · obtain ⟨⟨period, running⟩, commits, -⟩ := by
      simpa only [queueView, Prod.mk.injEq] using owns.writeCommand_queueView other record s
    exact h.same commits period running
  · cases owns with
    | freeLine =>
      refine command fun args s ordered => ?_
      rcases ownFreeLine_leaves args s with stands | ⟨l, freed⟩
      · rw [stands]
        exact ordered
      · rw [freed, freeLine_eq]
        exact CommitsOrdered.settle ordered.same
    | setLink =>
      refine command fun args s ordered => ?_
      rcases ownSetLink_leaves args s with stands | ⟨e, off⟩ | ⟨e, -, on⟩
      · rw [stands]
        exact ordered
      · rw [off]
        exact ordered.linkOff e
      · rw [on]
        exact ordered.same
    | readCounters =>
      refine command fun args s ordered => ?_
      rcases ownReadCounters_leaves args s with stands | ⟨e, c, counted⟩
      · rw [stands]
        exact ordered
      · rw [counted]
        exact ordered.same
    | _ => exact absurd (by decide) other

theorem CommitsOrdered.partReset {s : State} : CommitsOrdered (partReset s) := by
  have blocks : CommitsOrdered (blocksReset s) := .of_empty (blocksReset_tables s).2.2.1
  unfold Machine.partReset
  rw [resetBlocks_eq]
  have walked : CommitsOrdered (walkerTakes (blocksReset s)) := blocks.same
  exact walked.settle.same

/-- Measuring an edge in UNLOCKED leaves the period count and the running flag (R2). -/
theorem edgeUnlocked_period (reading : Nat) (s : State) :
    (edgeUnlocked reading s).timer.period = s.timer.period ∧
      (edgeUnlocked reading s).timer.running = s.timer.running := by
  unfold edgeUnlocked
  rw [(tempoEdge_frame _).1, Timer.measureOffer_eq]
  cases s.timer.runFull reading <;> exact ⟨rfl, rfl⟩

theorem edgeFlywheel_period (reading : Nat) (s : State) :
    (edgeFlywheel reading s).timer.period = s.timer.period ∧
      (edgeFlywheel reading s).timer.running = s.timer.running := by
  unfold edgeFlywheel
  rw [Timer.measureOffer_eq]
  exact ⟨rfl, rfl⟩

/-- Every case of a command keeps the order, while no queued frame's period lies 2^32 - 1 boundaries back. -/
theorem Leaves.commitsOrdered {s t : State} (h : CommitsOrdered s)
    (young : ∀ f ∈ s.commits, (s.timer.period - f.period).toNat < 2 ^ 32 - 1) (left : Leaves s t) :
    CommitsOrdered t := by
  cases left with
  | stands => exact h
  | reset => exact .of_empty rfl
  | edgeUnlocked reading =>
    obtain ⟨period, running⟩ := edgeUnlocked_period reading s
    exact h.same (period := period) (running := running)
  | edgeLocked reading order =>
    have measured : CommitsOrdered { s with timer := s.timer.measureLocked reading } := h.same rfl rfl rfl
    exact measured.countedEdge young (by simp [Timer.measureLocked]) order
  | edgeFlywheel reading =>
    obtain ⟨period, running⟩ := edgeFlywheel_period reading s
    exact h.same (period := period) (running := running)
  | loseClock reading order =>
    have lost : CommitsOrdered { s with timer := { s.timer with
        wclk := .flywheel, relockRun := [], relockReady := false, lossTimer := none
        flyTimer := some (reading + s.timer.m) } } := h.same rfl rfl rfl
    unfold Machine.loseClock
    exact (lost.countedEdge young (zero := false) nofun order).same
  | turnFlywheel reading order =>
    have armed : CommitsOrdered { s with timer := { s.timer with flyTimer := some (reading + s.timer.m) } } :=
      h.same rfl rfl rfl
    have counted := armed.countedEdge young (zero := false) nofun order
    unfold Machine.turnFlywheel
    dsimp only
    split
    · exact counted.same rfl rfl rfl
    · exact counted
  | link e x => exact h.same
  | judged e buffer bytes overlong =>
    have hunting : CommitsOrdered (s.setLink e { s.link e with receiver := .hunt }) := h.same
    exact hunting.judgeFrame e buffer bytes overlong
  | written w v =>
    have stored : CommitsOrdered (endAccess false (storeWrite w v s)) := h.same
    exact stored.settle
  | commitAdvanced w v =>
    have stored : CommitsOrdered (endAccess false (storeWrite w v s)) := h.same
    exact stored.advanceCommit.settle
  | fillAdvanced w fills => exact CommitsOrdered.settle h.same
  | passStarted e => exact CommitsOrdered.settle h.same
  | passRead l e w u o =>
    have read : CommitsOrdered (endAccess false (storeRead w u s)) := h.same
    exact (read.readFault l e w o).settle
  | passTaken l e w u o =>
    have read : CommitsOrdered (endAccess false (storeRead w u s)) := h.same
    have judged := read.readFault l e w o
    have taken : CommitsOrdered (passTakes o (readFault l e w o (endAccess false (storeRead w u s)))) := judged.same
    exact taken.settle
  | refreshExpired below arbiter => exact CommitsOrdered.settle h.same
  | refreshLate entry => exact (h.storeFault entry false).settle
  | refreshed => exact CommitsOrdered.settle h.same
  | cleared k walks => exact CommitsOrdered.settle h.same
  | verified k u walks => exact h.completeVerify k u
  | pulse => exact h.same
  | pulseLost => exact h.same
  | port p held => exact h.same
  | refused code result n free => exact h.same
  | command owns record => exact h.owned owns record
  | partReset n => exact .partReset

/-! ### Every command -/

/-- Settling after an event that touches neither the queue nor a link. -/
theorem CommitsLawful.settled {s t : State} (h : CommitsLawful s) (commits : t.commits = s.commits := by simp)
    (links : t.links = s.links := by simp) : CommitsLawful (settle t) :=
  settle_commitsLawful (h.same commits links)

/-- Every command keeps the law of the commit queue. -/
theorem exec_commitsLawful (c : Instr) {s : State} (h : CommitsLawful s) :
    ∃ t, exec c s = .next t ∧ CommitsLawful t := by
  cases c with
  | resetLine => exact ⟨_, rfl, resetLine_commitsLawful s⟩
  | realEdge reading order =>
    refine ⟨_, rfl, ?_⟩
    split
    · exact h.same
    · have measured : CommitsLawful { s with timer := s.timer.measureLocked reading } := h.same
      exact measured.countedEdge _ order
    · exact h.same
  | lossTimerExpiry order =>
    refine ⟨_, rfl, ?_⟩
    split
    · next reading _ _ =>
      have lost : CommitsLawful { s with timer := { s.timer with
          wclk := .flywheel, relockRun := [], relockReady := false, lossTimer := none
          flyTimer := some (reading + s.timer.m) } } := h.same
      exact (lost.countedEdge false order).same rfl rfl
    · exact h
  | flywheelEdge order =>
    refine ⟨_, rfl, ?_⟩
    split
    · next reading _ _ =>
      have armed : CommitsLawful { s with timer := { s.timer with flyTimer := some (reading + s.timer.m) } } := h.same
      have counted := armed.countedEdge false order
      unfold turnFlywheel
      dsimp only
      split
      · exact counted.same
      · exact counted
    · exact h
  | openMark e =>
    refine ⟨_, rfl, ?_⟩
    split
    · exact h
    · next on => exact h.becomeLink ((h.intake e).opened on s.size)
  | dataByte e x =>
    refine ⟨_, rfl, ?_⟩
    split
    · exact h
    · next gathers => exact h.becomeLink ((h.intake e).append gathers s.size x)
  | receiveTimeout e =>
    refine ⟨_, rfl, ?_⟩
    split
    · exact h.becomeLink (h.intake e).timeOut
    · exact h
  | inputFrame e =>
    refine ⟨_, rfl, ?_⟩
    split
    · exact h
    · next slot w gathers =>
      have hunting : CommitsLawful (s.setLink e { s.link e with receiver := .hunt }) :=
        h.becomeLink ⟨fun _ => id, ⟨nofun, fun _ => rfl⟩, id⟩
      split
      · exact hunting.judgeFrame _ _ (by rw [State.link_setLink_same])
          (by rw [State.link_setLink_same]; exact (h.intake e).unqueued gathers)
      · exact h
      · exact h
  | closeMarkLeavesLane e =>
    refine ⟨_, rfl, ?_⟩
    split
    · exact h
    · split
      · exact h.of_inputSides rfl (inputSides_setLink rfl)
      · exact h
  | commitWriteComplete =>
    refine ⟨_, rfl, ?_⟩
    split
    · next w v live _ =>
      have stored : CommitsLawful (endAccess false (storeWrite w v s)) := h.same
      refine settle_commitsLawful ?_
      split
      · exact stored.advanceCommit
      · exact stored
    · exact h
  | fillWriteComplete =>
    refine ⟨_, rfl, ?_⟩
    split
    · refine settle_commitsLawful ?_
      split <;> exact h.same
    · exact h
  | passStart =>
    refine ⟨_, rfl, ?_⟩
    split
    · exact settle_commitsLawful (h.of_inputSides (by simp) (beginPass_inputSides _ s))
    · exact h
  | passReadComplete upset =>
    refine ⟨_, rfl, ?_⟩
    split
    · next l e w live _ =>
      have read : CommitsLawful (endAccess false (storeRead w upset s)) := h.same
      have judged := read.readFault l e w (readOutcome w upset s)
      refine settle_commitsLawful ?_
      split
      · exact judged.of_inputSides (by simp) (passTakes_inputSides _ _)
      · exact judged
    · exact h
  | refreshTimerExpiry =>
    refine ⟨_, rfl, ?_⟩
    split
    · exact h
    · split
      · exact h.settled
      · exact settle_commitsLawful (h.storeFault _ false)
  | refreshAccessComplete =>
    refine ⟨_, rfl, ?_⟩
    split
    · exact h.settled
    · exact h
  | scrubClearWriteComplete =>
    refine ⟨_, rfl, ?_⟩
    split
    · exact h.settled
    · exact h
  | scrubVerifyReadComplete upset =>
    refine ⟨_, rfl, ?_⟩
    split
    · exact h.completeVerify _ upset
    · exact h
  | allocComplete upset | allocNoSpace upset =>
    refine ⟨_, rfl, ?_⟩
    split
    · split
      · exact h.completeVerify _ upset
      · exact h
    · exact h
  | tempoPulse => exact ⟨_, rfl, h.same⟩
  | pulseLossTimerExpiry =>
    refine ⟨_, rfl, ?_⟩
    (repeat' split) <;> exact h.same
  | readResult clocked =>
    refine ⟨_, rfl, ?_⟩
    split <;> exact h.same
  | readStatus clocked =>
    refine ⟨_, rfl, ?_⟩
    split <;> exact h.same
  | commandCollision code record =>
    refine ⟨_, rfl, ?_⟩
    (repeat' split) <;> exact h.same
  | badCommand code transaction =>
    refine ⟨_, rfl, ?_⟩
    unfold refuseUnknown
    (repeat' split) <;> exact h.same
  | partReset record =>
    refine ⟨_, rfl, ?_⟩
    split
    · exact h.same
    · have zeros : ∀ n, CommitsLawful (zerosOut n s) := fun _ => h.same
      split
      · exact (zeros _).partReset
      · split <;> exact h.same
  | setPeriod record => exact ⟨_, rfl, h.owned .setPeriod record⟩
  | readClock record => exact ⟨_, rfl, h.owned .readClock record⟩
  | allocLine record => exact ⟨_, rfl, h.owned .allocLine record⟩
  | freeLine record => exact ⟨_, rfl, h.owned .freeLine record⟩
  | setWriter record => exact ⟨_, rfl, h.owned .setWriter record⟩
  | readLine record => exact ⟨_, rfl, h.owned .readLine record⟩
  | readPool record => exact ⟨_, rfl, h.owned .readPool record⟩
  | setLink record => exact ⟨_, rfl, h.owned .setLink record⟩
  | readLink record => exact ⟨_, rfl, h.owned .readLink record⟩
  | readCounters record => exact ⟨_, rfl, h.owned .readCounters record⟩
  | setTap record => exact ⟨_, rfl, h.owned .setTap record⟩
  | clearTap record => exact ⟨_, rfl, h.owned .clearTap record⟩
  | readTap record => exact ⟨_, rfl, h.owned .readTap record⟩
  | saveTap record => exact ⟨_, rfl, h.owned .saveTap record⟩
  | setTempo record => exact ⟨_, rfl, h.owned .setTempo record⟩
  | tapTempo record => exact ⟨_, rfl, h.owned .tapTempo record⟩
  | setTempoSource record => exact ⟨_, rfl, h.owned .setTempoSource record⟩
  | setMeter record => exact ⟨_, rfl, h.owned .setMeter record⟩
  | resync record => exact ⟨_, rfl, h.owned .resync record⟩
  | readTempo record => exact ⟨_, rfl, h.owned .readTempo record⟩
  | setOsc record => exact ⟨_, rfl, h.owned .setOsc record⟩
  | readOsc record => exact ⟨_, rfl, h.owned .readOsc record⟩
  | pushScene record => exact ⟨_, rfl, h.owned .pushScene record⟩
  | popScene record => exact ⟨_, rfl, h.owned .popScene record⟩
  | dropScene record => exact ⟨_, rfl, h.owned .dropScene record⟩
  | readScenes record => exact ⟨_, rfl, h.owned .readScenes record⟩
  | ackNotice record => exact ⟨_, rfl, h.owned .ackNotice record⟩
  | setMask record => exact ⟨_, rfl, h.owned .setMask record⟩
  | readFault record => exact ⟨_, rfl, h.owned .readFault record⟩
  | clearFault record => exact ⟨_, rfl, h.owned .clearFault record⟩

/-! ### Every step -/

/-- A step idles or leaves what its command leaves. -/
theorem step_leaves {s t : State} (run : step s = .next t) :
    t = s ∨ ∃ rest, Leaves { s with pending := rest } t := by
  unfold step at run
  split at run
  · exact .inl (Host.Outcome.next.inj run).symm
  · next c rest _ =>
    obtain ⟨u, ran, left⟩ := exec_leaves c { s with pending := rest }
    exact .inr ⟨rest, Host.Outcome.next.inj (ran.symm.trans run) ▸ left⟩

/-- In the order of ages the counts do not fall while they have not wrapped (R68, log 12). -/
theorem toNat_le_of_age_le {now p q : PeriodCount} (h : age now q ≤ age now p) (begun : p.toNat ≤ now.toNat) :
    p.toNat ≤ q.toNat := by
  unfold age at h
  bv_omega

/-- Buffers held once are at most two of one link (R61, R68). -/
theorem CommitsLawful.ofLink_le {s : State} (h : CommitsLawful s) (e : Engine) :
    (s.commits.filter fun f => f.engine == e).length ≤ 2 := by
  have slots : (s.commits.filter fun f => f.engine == e).map QueuedFrame.slot =
      ((s.commits.filter fun f => f.engine == e).map QueuedFrame.buffer).map (Prod.mk e) := by
    rw [List.map_map]
    refine List.map_congr_left fun f kept => ?_
    simp only [List.mem_filter, beq_iff_eq] at kept
    exact Prod.ext kept.2 rfl
  have once : ((s.commits.filter fun f => f.engine == e).map QueuedFrame.buffer).Nodup :=
    List.Nodup.of_map _ (slots ▸ h.own.sublist (List.filter_sublist.map _))
  simpa using once.length_le_card

theorem CommitsLawful.length_le {s : State} (h : CommitsLawful s) : s.commits.length ≤ 8 := by
  have := h.own.length_le_card
  simpa using this

theorem step_commitsLawful {s t : State} (h : CommitsLawful s) (run : step s = .next t) : CommitsLawful t := by
  unfold step at run
  split at run
  · exact Host.Outcome.next.inj run ▸ h
  · next c rest _ =>
    obtain ⟨u, ran, lawful⟩ := exec_commitsLawful c (h.same : CommitsLawful { s with pending := rest })
    exact Host.Outcome.next.inj (ran.symm.trans run) ▸ lawful

/-- Settles O59: the law command by command, its bounds by counting buffers, and the order case by case. -/
theorem everyStepKeepsTheCommitQueue : Obligations.EveryStepKeepsTheCommitQueue := by
  refine ⟨fun s t h run => step_commitsLawful h run, fun s h => ⟨h.length_le, h.ofLink_le⟩, fun s t h young run => ?_,
    fun s h => h.ordered.imp toNat_le_of_age_le⟩
  rcases step_leaves run with rfl | ⟨rest, left⟩
  · exact h
  · have queued : CommitsOrdered { s with pending := rest } := h.same rfl rfl rfl
    exact left.commitsOrdered queued young

end Sys2Proof.Machine
end

section
/-! O47. The receiver (R58 to R60): what an open mark, a data byte, a sample edge and a timeout do to a link in each of
its receiver's states. -/

namespace Sys2Proof.Machine

/-! ### An open mark (R58, R59) -/

theorem exec_openMark_off {s : State} {e : Engine} (off : (s.link e).state = .off) :
    exec (.openMark e) s = .next s :=
  congrArg Host.Outcome.next (if_pos off)

theorem exec_openMark_on {s : State} {e : Engine} (on : (s.link e).state ≠ .off) :
    exec (.openMark e) s = .next (s.setLink e ((s.link e).open s.size)) :=
  congrArg Host.Outcome.next (if_neg on)

theorem Link.freeSlot_first {k : Link} (first : k.buffers[0] = .free) : k.freeSlot = some 0 := if_pos first

theorem Link.freeSlot_second {k : Link} (first : k.buffers[0] ≠ .free) (second : k.buffers[1] = .free) :
    k.freeSlot = some 1 :=
  (if_neg first).trans (if_pos second)

theorem Link.freeSlot_none {k : Link} (first : k.buffers[0] ≠ .free) (second : k.buffers[1] ≠ .free) :
    k.freeSlot = none :=
  (if_neg first).trans (if_neg second)

theorem Link.open_hunting {k : Link} (hunts : k.receiver = .hunt) {slot : Fin 2} (free : k.freeSlot = some slot)
    (b : Nat) : k.open b = k.beginFrame b slot := by
  unfold Link.open
  rw [hunts, free]

theorem Link.open_full {k : Link} (hunts : k.receiver = .hunt) (full : k.freeSlot = none) (b : Nat) :
    k.open b = k.record .noBuffer := by
  unfold Link.open
  rw [hunts, full]

theorem Link.open_receiving {k : Link} {slot : Fin 2} {w : Nat} (gathers : k.receiver = .receiving slot w) (b : Nat) :
    k.open b = (k.record .badFrame).beginFrame b slot := by
  unfold Link.open
  rw [gathers]

/-! ### A data byte (R58, R59) -/

theorem exec_dataByte_hunting {s : State} {e : Engine} (hunts : (s.link e).receiver = .hunt) (x : Byte) :
    exec (.dataByte e x) s = .next s := by
  show execDataByte e x s = _
  unfold execDataByte
  dsimp only
  rw [hunts]

theorem exec_dataByte_receiving {s : State} {e : Engine} {slot : Fin 2} {w : Nat}
    (gathers : (s.link e).receiver = .receiving slot w) (x : Byte) : exec (.dataByte e x) s =
      .next (s.setLink e { s.link e with
        buffers := (s.link e).buffers.set slot.val ((s.link e).buffers[slot.val].append s.size x) }) := by
  show execDataByte e x s = _
  unfold execDataByte
  dsimp only
  rw [gathers]

theorem Buffer.append_room {b : Nat} {bytes : List Byte} (room : bytes.length < maxInputLength b) (overlong : Bool)
    (x : Byte) : (Buffer.receiving bytes overlong).append b x = .receiving (bytes ++ [x]) overlong :=
  if_pos room

theorem Buffer.append_past {b : Nat} {bytes : List Byte} (past : maxInputLength b ≤ bytes.length) (overlong : Bool)
    (x : Byte) : (Buffer.receiving bytes overlong).append b x = .receiving bytes true :=
  if_neg (Nat.not_lt.mpr past)

/-! ### A sample edge and a timeout (R60) -/

theorem Link.edge_hunting {k : Link} (hunts : k.receiver = .hunt) : k.edge = k := by
  unfold Link.edge
  rw [hunts]

theorem Link.edge_receiving {k : Link} {slot : Fin 2} {w : Nat} (gathers : k.receiver = .receiving slot w) :
    k.edge = if w ≤ 1 then k.timeOut else { k with receiver := .receiving slot (w - 1) } := by
  unfold Link.edge
  rw [gathers]

theorem Link.timeOut_receiving {k : Link} {slot : Fin 2} {w : Nat} (gathers : k.receiver = .receiving slot w) :
    k.timeOut = { k.record .timeout with receiver := .hunt, buffers := k.buffers.set slot.val .free } := by
  unfold Link.timeOut
  rw [gathers]

theorem exec_receiveTimeout_hunting {s : State} {e : Engine} (hunts : (s.link e).receiver = .hunt) :
    exec (.receiveTimeout e) s = .next s := by
  have running : ¬(s.link e).windowOver = true := by simp [Link.windowOver, hunts]
  exact congrArg Host.Outcome.next (if_neg running)

theorem exec_receiveTimeout_over {s : State} {e : Engine} {slot : Fin 2} {w : Nat}
    (gathers : (s.link e).receiver = .receiving slot w) (last : w ≤ 1) :
    exec (.receiveTimeout e) s = .next (s.setLink e (s.link e).timeOut) := by
  have ended : (s.link e).windowOver = true := by simp [Link.windowOver, gathers, last]
  exact congrArg Host.Outcome.next (if_pos ended)

/-- Settles O47: each clause is the receiver's case of that name. -/
theorem receiversGatherFramesAndTimeOut : Obligations.ReceiversGatherFramesAndTimeOut := by
  refine ⟨fun s e => ⟨exec_openMark_off, fun on hunts first => ?_, fun on hunts first second => ?_,
    fun on hunts first second => ?_, fun slot w on gathers => ?_, fun x hunts => exec_dataByte_hunting hunts x,
    fun slot w bytes overlong x gathers held => ⟨fun room => ?_, fun past => ?_⟩⟩,
    fun s e => ⟨fun hunts => ⟨Link.edge_hunting hunts, exec_receiveTimeout_hunting hunts⟩, fun slot w gathers =>
      ⟨fun more => ?_, fun last => ⟨?_, ?_⟩⟩⟩⟩
  · rw [exec_openMark_on on, Link.open_hunting hunts (Link.freeSlot_first first)]
    rfl
  · rw [exec_openMark_on on, Link.open_hunting hunts (Link.freeSlot_second first second)]
    rfl
  · rw [exec_openMark_on on, Link.open_full hunts (Link.freeSlot_none first second)]
    rfl
  · rw [exec_openMark_on on, Link.open_receiving gathers]
    rfl
  · rw [exec_dataByte_receiving gathers, held, Buffer.append_room room]
  · rw [exec_dataByte_receiving gathers, held, Buffer.append_past past]
  · rw [Link.edge_receiving gathers, if_neg (Nat.not_le.mpr more)]
  · rw [Link.edge_receiving gathers, if_pos last, Link.timeOut_receiving gathers]
    rfl
  · rw [exec_receiveTimeout_over gathers last, Link.timeOut_receiving gathers]
    rfl

end Sys2Proof.Machine
end

section
/-! O48. The six tests of a close mark (R62, R63, R190), each with what a frame that fails it is refused with, and the
link that a refusal leaves (R62, R73). -/

namespace Sys2Proof.Machine

/-! ### The tests -/

/-- Test 1: at least the six bytes of a frame with no blocks, and not overlong. -/
def FrameWhole (bytes : List Byte) (overlong : Bool) : Prop := 6 ≤ bytes.length ∧ overlong = false

/-- Test 2: the CRC it carries is that of the bytes before it. -/
def FrameChecks (bytes : List Byte) : Prop :=
  natOfBytes (bytes.drop (bytes.length - 2)) = (crc16 (bytes.take (bytes.length - 2))).toNat

/-- Test 3: the kind, the engine, the block count and the length are legal at this B. -/
def FrameFits (e : Engine) (b : Nat) (bytes : List Byte) : Prop :=
  argByte bytes 0 = 1 ∧ argByte bytes 1 = e.val ∧ argByte bytes 3 ≤ 64 ∧
    bytes.length = 6 + argByte bytes 3 * (2 + 3 * b)

/-- Test 5: the tag is that of the current period. -/
def FrameTimely (now : PeriodCount) (bytes : List Byte) : Prop := argByte bytes 2 = now.toNat % 256

theorem frameWhole_iff (bytes : List Byte) (overlong : Bool) :
    FrameWhole bytes overlong ↔ ¬(bytes.length < 6 ∨ overlong = true) := by
  simp [FrameWhole]

theorem frameChecks_iff (bytes : List Byte) : FrameChecks bytes ↔ ¬(!crcMatches bytes) = true := by
  simp [FrameChecks, crcMatches]

theorem frameFits_iff (e : Engine) (b : Nat) (bytes : List Byte) : FrameFits e b bytes ↔
    ¬(argByte bytes 0 ≠ 1 ∨ argByte bytes 1 ≠ e.val ∨ 64 < argByte bytes 3 ∨
      bytes.length ≠ inputLength b (argByte bytes 3)) := by
  simp [FrameFits, inputLength]

theorem frameTimely_iff (now : PeriodCount) (bytes : List Byte) :
    FrameTimely now bytes ↔ ¬bytes.getD 2 0 ≠ periodTag now := by
  rw [not_not, ← BitVec.toNat_inj, periodTag, BitVec.toNat_setWidth]
  exact Iff.rfl

section
variable {e : Engine} {bytes : List Byte} {overlong : Bool} {s : State}

theorem frameRefusal_unwhole (whole : ¬FrameWhole bytes overlong) :
    frameRefusal e bytes overlong s = some .badFrame :=
  if_pos (not_not.mp (mt (frameWhole_iff _ _).mpr whole))

/-- Past test 1. -/
theorem frameRefusal_unchecked (whole : FrameWhole bytes overlong) (checks : ¬FrameChecks bytes) :
    frameRefusal e bytes overlong s = some .check :=
  (if_neg ((frameWhole_iff _ _).mp whole)).trans (if_pos (not_not.mp (mt (frameChecks_iff _).mpr checks)))

/-- Past tests 1 and 2. -/
theorem frameRefusal_misfit (whole : FrameWhole bytes overlong) (checks : FrameChecks bytes)
    (fits : ¬FrameFits e s.size bytes) : frameRefusal e bytes overlong s = some .badFrame :=
  (if_neg ((frameWhole_iff _ _).mp whole)).trans <| (if_neg ((frameChecks_iff _).mp checks)).trans
    (if_pos (not_not.mp (mt (frameFits_iff _ _ _).mpr fits)))

/-- Past tests 1 to 3 the clock, the tag and the accepted flag are left to judge. -/
theorem frameRefusal_legal (whole : FrameWhole bytes overlong) (checks : FrameChecks bytes)
    (fits : FrameFits e s.size bytes) : frameRefusal e bytes overlong s =
      if !s.timer.running then some .noClock
      else if bytes.getD 2 0 ≠ periodTag s.timer.period then some .late
      else if (s.link e).accepted then some .repeated else none :=
  (if_neg ((frameWhole_iff _ _).mp whole)).trans <| (if_neg ((frameChecks_iff _).mp checks)).trans
    (if_neg ((frameFits_iff _ _ _).mp fits))

theorem frameRefusal_unclocked (whole : FrameWhole bytes overlong) (checks : FrameChecks bytes)
    (fits : FrameFits e s.size bytes) (running : ¬s.timer.running = true) :
    frameRefusal e bytes overlong s = some .noClock := by
  rw [frameRefusal_legal whole checks fits, if_pos (by simpa using running)]

theorem frameRefusal_late (whole : FrameWhole bytes overlong) (checks : FrameChecks bytes)
    (fits : FrameFits e s.size bytes) (running : s.timer.running = true) (timely : ¬FrameTimely s.timer.period bytes) :
    frameRefusal e bytes overlong s = some .late := by
  rw [frameRefusal_legal whole checks fits, running, if_neg (by decide),
    if_pos (not_not.mp (mt (frameTimely_iff _ _).mpr timely))]

/-- Past tests 1 to 5 a second frame of the period is refused, and a first one accepted. -/
theorem frameRefusal_timely (whole : FrameWhole bytes overlong) (checks : FrameChecks bytes)
    (fits : FrameFits e s.size bytes) (running : s.timer.running = true) (timely : FrameTimely s.timer.period bytes) :
    frameRefusal e bytes overlong s = if (s.link e).accepted then some .repeated else none := by
  rw [frameRefusal_legal whole checks fits, running, if_neg (by decide), if_neg ((frameTimely_iff _ _).mp timely)]

end

/-! ### A refusal -/

/-- The part with a link's receiver back in HUNT, as a close mark leaves it before the frame is judged (R59). -/
def hunting (e : Engine) (s : State) : State := s.setLink e { s.link e with receiver := .hunt }

@[simp] theorem hunting_link (e : Engine) (s : State) :
    (hunting e s).link e = { s.link e with receiver := .hunt } := State.link_setLink_same s e _

@[simp] theorem hunting_setLink (e : Engine) (s : State) (x : Link) : (hunting e s).setLink e x = s.setLink e x :=
  State.setLink_setLink s e _ x

/-- One more of a counter that goes round at 65536 (R73). -/
theorem Counter.advance_one (c : Counter) : c.advance 1 =
    { c with count := c.count + 1, overflow := c.overflow || decide (c.count = 0xFFFF) } := by
  have wraps : 65536 ≤ c.count.toNat + 1 ↔ c.count = 0xFFFF := by bv_omega
  simp [Counter.advance, wraps]

theorem Counter.newlyOverflows_one (c : Counter) :
    c.newlyOverflows 1 = true ↔ c.overflow = false ∧ c.count = 0xFFFF := by
  have wraps : 65536 ≤ c.count.toNat + 1 ↔ c.count = 0xFFFF := by bv_omega
  simp [Counter.newlyOverflows, wraps]

/-- The part after a refusal: the link hunts, its buffer is free, and its tally's status and its counters are these. -/
def frameGone (s : State) (e : Engine) (slot : Fin 2) (status : InputStatus) (counters : Counters) : State :=
  s.setLink e { s.link e with
    receiver := .hunt
    buffers := (s.link e).buffers.set slot.val .free
    tally := { (s.link e).tally with status := status }
    counters := counters }

/-- A frame refused with a status that no counter counts (R62). -/
theorem refuseFrame_uncounted (s : State) (e : Engine) (slot : Fin 2) {status : InputStatus}
    (check : status ≠ .check) (late : status ≠ .late) :
    refuseFrame e slot status (hunting e s) =
      frameGone s e slot status (s.link e).counters := by
  have uncounted : ∀ t, countRefusal e status t = t := by
    intro t
    unfold countRefusal
    split
    · exact absurd rfl check
    · exact absurd rfl late
    · rfl
  simp [refuseFrame, uncounted, freeBuffer, frameGone, Link.record]

/-- A buffer freed once a counter has advanced (R61, R73). -/
theorem freeBuffer_advanceCounter (s : State) (e : Engine) (slot : Fin 2) (name : CounterName) (x : Link) :
    freeBuffer e slot (advanceCounter e name 1 (s.setLink e x)) =
      let c := x.counters.get name
      let freed := s.setLink e { x with
        buffers := x.buffers.set slot.val .free, counters := x.counters.put (c.advance 1) name }
      if c.overflow = false ∧ c.count = 0xFFFF then raise .counterOverflow freed else freed := by
  have lift : ∀ t, freeBuffer e slot (raise .counterOverflow t) = raise .counterOverflow (freeBuffer e slot t) :=
    fun _ => rfl
  unfold advanceCounter
  simp only [State.link_setLink_same, State.setLink_setLink, Counter.newlyOverflows_one]
  split
  · rw [lift]
    simp [freeBuffer]
  · simp [freeBuffer]

/-- A frame refused CHECK (R62, R73). -/
theorem refuseFrame_check (s : State) (e : Engine) (slot : Fin 2) :
    refuseFrame e slot .check (hunting e s) =
      let c := (s.link e).counters
      let gone := frameGone s e slot .check { c with check :=
        { c.check with count := c.check.count + 1, overflow := c.check.overflow || decide (c.check.count = 0xFFFF) } }
      if c.check.overflow = false ∧ c.check.count = 0xFFFF then raise .counterOverflow gone else gone := by
  unfold refuseFrame countRefusal
  simp only [hunting_link, hunting_setLink, freeBuffer_advanceCounter, Counter.advance_one]
  rfl

/-- A frame refused LATE (R62, R73). -/
theorem refuseFrame_late (s : State) (e : Engine) (slot : Fin 2) :
    refuseFrame e slot .late (hunting e s) =
      let c := (s.link e).counters
      let gone := frameGone s e slot .late { c with late :=
        { c.late with count := c.late.count + 1, overflow := c.late.overflow || decide (c.late.count = 0xFFFF) } }
      if c.late.overflow = false ∧ c.late.count = 0xFFFF then raise .counterOverflow gone else gone := by
  unfold refuseFrame countRefusal
  simp only [hunting_link, hunting_setLink, freeBuffer_advanceCounter, Counter.advance_one]
  rfl

/-! ### The close mark -/

theorem exec_inputFrame_hunting {s : State} {e : Engine} (hunts : (s.link e).receiver = .hunt) :
    exec (.inputFrame e) s = .next s := by
  show execInputFrame e s = _
  unfold execInputFrame
  dsimp only
  rw [hunts]

/-- In RECEIVING a close mark has the receiver hunt and the frame judged (R59, R62). -/
theorem exec_inputFrame_receiving {s : State} {e : Engine} {slot : Fin 2} {w : Nat} {bytes : List Byte}
    {overlong : Bool} (gathers : (s.link e).receiver = .receiving slot w)
    (held : (s.link e).buffers[slot.val] = .receiving bytes overlong) : exec (.inputFrame e) s =
      .next (judgeFrame e slot bytes overlong (hunting e s)) := by
  show execInputFrame e s = _
  unfold execInputFrame
  dsimp only
  rw [gathers]
  dsimp only
  rw [held]
  rfl

theorem judgeFrame_refused {e : Engine} {slot : Fin 2} {bytes : List Byte} {overlong : Bool} {s : State}
    {status : InputStatus} (refused : frameRefusal e bytes overlong s = some status) :
    judgeFrame e slot bytes overlong s = refuseFrame e slot status s := by
  unfold judgeFrame
  rw [refused]

/-- A close mark whose frame is refused. -/
theorem exec_inputFrame_refused {s : State} {e : Engine} {slot : Fin 2} {w : Nat} {bytes : List Byte}
    {overlong : Bool} (gathers : (s.link e).receiver = .receiving slot w)
    (held : (s.link e).buffers[slot.val] = .receiving bytes overlong) {status : InputStatus}
    (refused : frameRefusal e bytes overlong (hunting e s) = some status) :
    exec (.inputFrame e) s = .next (refuseFrame e slot status (hunting e s)) := by
  rw [exec_inputFrame_receiving gathers held, judgeFrame_refused refused]

/-- A close mark whose frame is refused with a status that no counter counts. -/
theorem exec_inputFrame_uncounted {s : State} {e : Engine} {slot : Fin 2} {w : Nat} {bytes : List Byte}
    {overlong : Bool} (gathers : (s.link e).receiver = .receiving slot w)
    (held : (s.link e).buffers[slot.val] = .receiving bytes overlong) {status : InputStatus}
    (refused : frameRefusal e bytes overlong (hunting e s) = some status)
    (check : status ≠ .check) (late : status ≠ .late) :
    exec (.inputFrame e) s = .next (frameGone s e slot status (s.link e).counters) := by
  rw [exec_inputFrame_refused gathers held refused, refuseFrame_uncounted s e slot check late]

/-- Settles O48: the first test failed names the refusal, and the refusal what it leaves. -/
theorem framesAreRefusedByTheFirstFailingTest : Obligations.FramesAreRefusedByTheFirstFailingTest := by
  intro s e
  refine ⟨exec_inputFrame_hunting, fun slot w bytes overlong gathers held => ?_⟩
  refine ⟨fun unwhole => ?_, fun whole unchecked => ?_, fun whole checks misfit => ?_,
    fun whole checks fits stopped => ?_, fun whole checks fits running late => ?_,
    fun whole checks fits running timely second => ?_⟩
  · exact exec_inputFrame_uncounted gathers held (frameRefusal_unwhole unwhole) nofun nofun
  · rw [exec_inputFrame_refused gathers held (frameRefusal_unchecked whole unchecked), refuseFrame_check]
    rfl
  · exact exec_inputFrame_uncounted gathers held (frameRefusal_misfit whole checks misfit) nofun nofun
  · exact exec_inputFrame_uncounted gathers held (frameRefusal_unclocked whole checks fits stopped) nofun nofun
  · rw [exec_inputFrame_refused gathers held (frameRefusal_late whole checks fits running late), refuseFrame_late]
    rfl
  · have judged := frameRefusal_timely (s := hunting e s) whole checks fits
      running timely
    rw [hunting_link] at judged
    exact exec_inputFrame_uncounted gathers held (judged.trans (if_pos second)) nofun nofun

end Sys2Proof.Machine
end

section
/-! O50. What leaves the lane: the CRC bit by bit (R192), the flags byte (R190), the close mark (R74), and the bytes of
an OUTPUT frame with their number (R190, R191). -/

namespace Sys2Proof.Machine

/-! ### The CRC (R192) -/

/-- One bit into the register, with bit 15 named. -/
theorem crcBit_eq (reg : BitVec 16) (bit : Bool) : crcBit reg bit =
    if (reg.getLsbD 15 ^^ bit) = true then (reg <<< 1) ^^^ 0x8005#16 else reg <<< 1 := by
  rw [crcBit, BitVec.msb_eq_getLsbD_last]
  rfl

/-- One byte into the register, bits 7 to 0. -/
theorem crcByte_eq (reg : BitVec 16) (b : Byte) :
    crcByte reg b = ([7, 6, 5, 4, 3, 2, 1, 0].map b.getLsbD).foldl crcBit reg := rfl

theorem crc16_append (covered : List Byte) (b : Byte) : crc16 (covered ++ [b]) = crcByte (crc16 covered) b := by
  rw [crc16, List.foldl_append]
  rfl

/-! ### The flags byte (R190) -/

theorem BlockFlags.byte_bits (g : BlockFlags) : g.byte.getLsbD 0 = g.clamped ∧ g.byte.getLsbD 1 = g.fading ∧
    g.byte.getLsbD 2 = g.gap ∧ g.byte.getLsbD 3 = g.fault ∧ g.byte.getLsbD 4 = g.muted ∧ g.byte.toNat < 32 := by
  obtain ⟨clamped, fading, gap, fault, muted⟩ := g
  revert clamped fading gap fault muted
  decide

/-! ### The close mark (R74) -/

theorem exec_closeMark_none {s : State} {e : Engine} (none : (s.link e).tx = []) :
    exec (.closeMarkLeavesLane e) s = .next s := by
  show execCloseMarkLeavesLane e s = _
  unfold execCloseMarkLeavesLane
  dsimp only
  rw [none]

theorem exec_closeMark_held {s : State} {e : Engine} {f : OutFrame} {rest : List OutFrame}
    (held : (s.link e).tx = f :: rest) : exec (.closeMarkLeavesLane e) s = .next (if f.state = .ended then
      s.setLink e { s.link e with tx := rest, laneOut := f.bytes e } else s) := by
  show execCloseMarkLeavesLane e s = _
  unfold execCloseMarkLeavesLane
  dsimp only
  rw [held]

/-! ### The bytes of a frame (R190, R191) -/

theorem OutFrame.body_eq {f : OutFrame} {status : EndStatus} (ended : f.endStatus = some status) (e : Engine) :
    f.body e = [0x81, BitVec.ofNat 8 e.val, f.period.setWidth 8, BitVec.ofNat 8 f.report.accepted,
        BitVec.ofNat 8 f.report.refused, BitVec.ofNat 8 f.report.status.code] ++ bytesOf 2 f.planned
      ++ f.blocks.flatMap OutBlock.bytes ++ [BitVec.ofNat 8 status.code] ++ bytesOf 2 f.blocks.length := by
  simp [OutFrame.body, Tally.bytes, bytesOf_one, ended, periodTag]

/-- Three bytes a sample. -/
theorem sampleBytes_length (vs : List Sample) : (vs.flatMap fun v => bytesOf 3 v.toNat).length = 3 * vs.length := by
  simp [List.length_flatMap, Nat.mul_comm]

theorem OutBlock.bytes_length (x : OutBlock) : x.bytes.length = 3 + 3 * x.samples.length := by
  rw [OutBlock.bytes, List.length_append, sampleBytes_length]
  simp

/-- Blocks of b samples each take 3 + 3b bytes each. -/
theorem blocksBytes_length {xs : List OutBlock} {b : Nat} (sized : ∀ x ∈ xs, x.samples.length = b) :
    (xs.flatMap OutBlock.bytes).length = xs.length * (3 + 3 * b) := by
  rw [List.length_flatMap, List.sum_eq_card_nsmul _ (3 + 3 * b)]
  · simp
  · intro n length
    obtain ⟨x, held, rfl⟩ := List.mem_map.mp length
    rw [x.bytes_length, sized x held]

theorem OutFrame.bytes_length {f : OutFrame} {status : EndStatus} (ended : f.endStatus = some status) {b : Nat}
    (sized : ∀ x ∈ f.blocks, x.samples.length = b) (e : Engine) :
    (f.bytes e).length = 13 + f.blocks.length * (3 + 3 * b) := by
  rw [OutFrame.bytes, OutFrame.body_eq ended]
  simp only [List.length_append, bytesOf_length, blocksBytes_length sized, List.length_cons, List.length_nil]
  omega

/-- Settles O50: the CRC, the flags, the close mark and the frame's bytes, each by its own equation. -/
theorem endedFramesLeaveTheLane : Obligations.EndedFramesLeaveTheLane := by
  refine ⟨⟨rfl, fun covered b => ?_⟩, BlockFlags.byte_bits, fun s e => ⟨fun f rest held ended => ?_,
    fun f rest held going => ?_, exec_closeMark_none⟩, fun f e status b ended sized => ?_⟩
  · rw [crc16_append, crcByte_eq]
    exact congrArg (fun shift => List.foldl shift (crc16 covered) _) (funext fun reg => funext (crcBit_eq reg))
  · rw [exec_closeMark_held held, if_pos ended]
  · rw [exec_closeMark_held held, if_neg going]
  · exact ⟨f.body e, rfl, OutFrame.body_eq ended e, OutFrame.bytes_length ended sized e⟩

end Sys2Proof.Machine
end

section
/-! O49. A frame accepted (R64 to R67). Its blocks are judged one after another, while the flags of those kept are set;
as a line that an earlier block names is never kept again, each judgement is the one that the line table as it stood
gives. -/

namespace Sys2Proof.Machine

/-! ### The blocks judged (R65, R66) -/

/-- The blocks that the four tests keep, judged by the line table of one state; earlier holds the lines named before. -/
def keptOf (e : Engine) (s : State) : List Nat → List (Nat × List Sample) → List (Nat × List Sample)
  | _, [] => []
  | earlier, x :: rest =>
    if blockKept e earlier x.1 s then x :: keptOf e s (x.1 :: earlier) rest else keptOf e s (x.1 :: earlier) rest

/-- What is kept of a block: its line's generation and head, and its samples (R66). -/
def keptRecord (s : State) (x : Nat × List Sample) : KeptBlock :=
  let l := s.line (Fin.ofNat 128 x.1)
  { line := Fin.ofNat 128 x.1, generation := l.generation, head := l.head, samples := x.2, written := 0 }

theorem blockKept_iff (e : Engine) (earlier : List Nat) (line : Nat) (s : State) :
    blockKept e earlier line s = true ↔ line ≤ 127 ∧ (s.line (Fin.ofNat 128 line)).state = .active ∧
      (s.line (Fin.ofNat 128 line)).writer = some e ∧ line ∉ earlier ∧ (s.line (Fin.ofNat 128 line)).taken = false := by
  simp [blockKept, and_assoc]

/-- The line table of u is that of s but for lines that an earlier block names. -/
def UntouchedBut (earlier : List Nat) (s u : State) : Prop :=
  ∀ line, line ≤ 127 → line ∉ earlier → u.line (Fin.ofNat 128 line) = s.line (Fin.ofNat 128 line)

/-- So a block is judged alike in both. -/
theorem UntouchedBut.blockKept {earlier : List Nat} {s u : State} (h : UntouchedBut earlier s u) (e : Engine)
    (line : Nat) : blockKept e earlier line u = blockKept e earlier line s := by
  rw [Bool.eq_iff_iff, blockKept_iff, blockKept_iff]
  refine and_congr_right fun named => ?_
  by_cases fresh : line ∈ earlier
  · simp [fresh]
  · rw [h line named fresh]

/-- A block not kept names its line all the same. -/
theorem UntouchedBut.cons {earlier : List Nat} {s u : State} (h : UntouchedBut earlier s u) (line : Nat) :
    UntouchedBut (line :: earlier) s u := fun m named fresh =>
  h m named fun held => fresh (List.mem_cons_of_mem _ held)

/-- A block kept sets the flag of the line it names, and of no other (R16, R66). -/
theorem UntouchedBut.keepBlock {earlier : List Nat} {s u : State} (h : UntouchedBut earlier s u) {line : Nat}
    (legal : line ≤ 127) (samples : List Sample) : UntouchedBut (line :: earlier) s (keepBlock line samples u).2 := by
  intro m named fresh
  have other : m ≠ line := fun same => fresh (same ▸ List.mem_cons_self ..)
  have apart : (Fin.ofNat 128 m : LineNo) ≠ Fin.ofNat 128 line := by
    simp only [Fin.ofNat, ne_eq, Fin.mk.injEq]
    omega
  exact (State.line_setLine_other _ _ apart).trans (h.cons line m named fresh)

theorem judgeBlocks_keeps {e : Engine} {earlier : List Nat} {x : Nat × List Sample} {s : State}
    (kept : blockKept e earlier x.1 s = true) (rest : List (Nat × List Sample)) :
    judgeBlocks e earlier (x :: rest) s =
      let more := judgeBlocks e (x.1 :: earlier) rest (keepBlock x.1 x.2 s).2
      ((keepBlock x.1 x.2 s).1 :: more.1, more.2) :=
  if_pos kept

theorem judgeBlocks_refuses {e : Engine} {earlier : List Nat} {x : Nat × List Sample} {s : State}
    (refused : blockKept e earlier x.1 s = false) (rest : List (Nat × List Sample)) :
    judgeBlocks e earlier (x :: rest) s =
      let more := judgeBlocks e (x.1 :: earlier) rest s
      (more.1, more.2.1 + 1, more.2.2) :=
  if_neg (Bool.eq_false_iff.mp refused)

/-- The blocks judged: those kept and their records, the number refused, and the flags set. -/
theorem judgeBlocks_spec (e : Engine) (s : State) (blocks : List (Nat × List Sample)) {earlier : List Nat} {u : State}
    (h : UntouchedBut earlier s u) :
    (judgeBlocks e earlier blocks u).1 = (keptOf e s earlier blocks).map (keptRecord s) ∧
    (keptOf e s earlier blocks).length + (judgeBlocks e earlier blocks u).2.1 = blocks.length ∧
    ∀ l, (judgeBlocks e earlier blocks u).2.2.line l = { u.line l with
      taken := (u.line l).taken || (keptOf e s earlier blocks).any fun x => Fin.ofNat 128 x.1 == l } := by
  induction blocks generalizing earlier u with
  | nil => exact ⟨rfl, rfl, fun l => by simp [judgeBlocks, keptOf]⟩
  | cons x rest ih =>
    cases stays : blockKept e earlier x.1 s with
    | false =>
      obtain ⟨kept, refused, lines⟩ := ih (h.cons x.1)
      rw [judgeBlocks_refuses ((h.blockKept e x.1).trans stays), keptOf, if_neg (Bool.eq_false_iff.mp stays)]
      exact ⟨kept, congrArg (· + 1) refused, lines⟩
    | true =>
      obtain ⟨legal, -, -, fresh, -⟩ := (blockKept_iff _ _ _ _).mp stays
      obtain ⟨kept, refused, lines⟩ := ih (h.keepBlock legal x.2)
      have record : (keepBlock x.1 x.2 u).1 = keptRecord s x := by
        simp only [keepBlock, keptRecord, h x.1 legal fresh]
      rw [judgeBlocks_keeps ((h.blockKept e x.1).trans stays), keptOf, if_pos stays]
      refine ⟨congrArg₂ List.cons record kept, (Nat.succ_add _ _).trans (congrArg (· + 1) refused), fun l => ?_⟩
      rw [List.any_cons]
      refine (lines l).trans ?_
      simp only [keepBlock, State.line_setLine]
      split
      · next same => simp [same]
      · next other =>
        have apart : ((Fin.ofNat 128 x.1 : LineNo) == l) = false := by simpa using Ne.symm other
        rw [apart, Bool.false_or]

/-- Over numbered blocks: those whose tests hold with the lines of the blocks before them. -/
theorem keptOf_range' (e : Engine) (s : State) (block : Nat → Nat × List Sample) (n j : Nat) {earlier : List Nat}
    (before : ∀ line, line ∈ earlier ↔ ∃ m < j, (block m).1 = line) :
    keptOf e s earlier ((List.range' j n).map block) = ((List.range' j n).filter fun i => decide
      ((block i).1 ≤ 127 ∧ (s.line (Fin.ofNat 128 (block i).1)).state = .active ∧
        (s.line (Fin.ofNat 128 (block i).1)).writer = some e ∧ (∀ m, m < i → (block m).1 ≠ (block i).1) ∧
        (s.line (Fin.ofNat 128 (block i).1)).taken = false)).map block := by
  induction n generalizing j earlier with
  | zero => rfl
  | succ n ih =>
    have named : ∀ line, line ∈ (block j).1 :: earlier ↔ ∃ m < j + 1, (block m).1 = line := by
      intro line
      simp only [List.mem_cons, before, Nat.lt_succ_iff_lt_or_eq, or_and_right, exists_or, exists_eq_left]
      exact or_comm.trans (or_congr_right eq_comm)
    have fresh : (block j).1 ∉ earlier ↔ ∀ m, m < j → (block m).1 ≠ (block j).1 := by
      rw [before]
      push Not
      rfl
    rw [List.range'_succ, List.map_cons, keptOf, ih (j + 1) named, List.filter_cons]
    simp only [blockKept_iff, fresh, decide_eq_true_eq]
    split <;> rfl

/-! ### The samples of a block (R188, R190) -/

theorem argField_three {bs : List Byte} {o : Nat} (within : o + 3 ≤ bs.length) :
    argField bs o 3 = argByte bs o * 65536 + argByte bs (o + 1) * 256 + argByte bs (o + 2) := by
  have byte : ∀ k (inside : k < bs.length), bs[k] = bs.getD k 0 := fun k inside => by simp [inside]
  have three : (bs.drop o).take 3 = [bs.getD o 0, bs.getD (o + 1) 0, bs.getD (o + 2) 0] := by
    rw [List.drop_eq_getElem_cons (by omega), List.drop_eq_getElem_cons (by omega),
      List.drop_eq_getElem_cons (by omega)]
    simp only [byte, List.take_succ_cons, List.take_zero]
  rw [argField, three]
  simp only [natOfBytes, List.foldl_cons, List.foldl_nil, argByte]
  ring

/-! ### A frame gone on (R67) -/

/-- A frame with a block kept is queued in NORMAL. -/
theorem sendOn_queued {e : Engine} {slot : Fin 2} {kept : List KeptBlock} {s : State}
    (queued : kept ≠ [] ∧ s.faults.mode = .normal) : sendOn e slot kept s =
      { s.setLink e { s.link e with buffers := (s.link e).buffers.set slot.val .queued } with
        commits := s.commits ++ [{ engine := e, period := s.timer.period, buffer := slot, blocks := kept }] } := by
  obtain ⟨nonempty, normal⟩ := queued
  exact if_neg (by simp [nonempty, State.inSafe, normal])

theorem sendOn_freed {e : Engine} {slot : Fin 2} {kept : List KeptBlock} {s : State}
    (freed : ¬(kept ≠ [] ∧ s.faults.mode = .normal)) : sendOn e slot kept s = freeBuffer e slot s := by
  refine if_pos ?_
  cases mode : s.faults.mode with
  | normal => simpa [mode, State.inSafe] using freed
  | safe => simp [mode, State.inSafe]

/-- What a frame gone on leaves: its buffer's mark and the queue. -/
theorem sendOn_spec (e : Engine) (slot : Fin 2) (kept : List KeptBlock) (s : State) :
    let queued := kept ≠ [] ∧ s.faults.mode = .normal
    (∀ d, (sendOn e slot kept s).link d = if d = e then
      { s.link e with buffers := (s.link e).buffers.set slot.val (if queued then .queued else .free) } else s.link d) ∧
    (sendOn e slot kept s).commits = s.commits ++ (if queued then
      [{ engine := e, period := s.timer.period, buffer := slot, blocks := kept }] else []) := by
  by_cases queued : kept ≠ [] ∧ s.faults.mode = .normal
  · simp only [sendOn_queued queued, if_pos queued]
    exact ⟨fun d => State.link_setLink s e d _, trivial⟩
  · simp only [sendOn_freed queued, if_neg queued, List.append_nil]
    exact ⟨fun d => freeBuffer_link e slot s d, (freeBuffer_frame e slot s).2.2.2.2.2.2.2.2.1⟩

theorem Counter.newlyOverflows_iff (c : Counter) (n : Nat) :
    c.newlyOverflows n = true ↔ c.overflow = false ∧ 65536 ≤ c.count.toNat + n := by
  simp [Counter.newlyOverflows]

/-- A counter advanced: its link, and the notice of a flag first set (R73). -/
theorem advanceCounter_spec (e : Engine) (name : CounterName) (n : Nat) (s : State) :
    (∀ d, (advanceCounter e name n s).link d = if d = e then { s.link e with
      counters := (s.link e).counters.put (((s.link e).counters.get name).advance n) name } else s.link d) ∧
    (advanceCounter e name n s).notices = if ((s.link e).counters.get name).newlyOverflows n then
      s.notices.raise .counterOverflow else s.notices := by
  have written := fun d => State.link_setLink s e d
    { s.link e with counters := (s.link e).counters.put (((s.link e).counters.get name).advance n) name }
  unfold advanceCounter
  dsimp only
  split
  · exact ⟨written, rfl⟩
  · exact ⟨written, rfl⟩

/-! ### A frame accepted -/

/-- The blocks of a frame that the four tests keep, by their numbers (R65). -/
def keptNumbers (e : Engine) (bytes : List Byte) (s : State) : List Nat :=
  let lineByte := fun j => argByte bytes (4 + j * (2 + 3 * s.size))
  let line := fun j => s.line (Fin.ofNat 128 (lineByte j))
  (List.range (argByte bytes 3)).filter fun j => decide (lineByte j ≤ 127 ∧ (line j).state = .active ∧
    (line j).writer = some e ∧ (∀ m, m < j → lineByte m ≠ lineByte j) ∧ (line j).taken = false)

theorem keptOf_inputBlocks (e : Engine) (bytes : List Byte) (s : State) :
    keptOf e s [] (inputBlocks bytes s.size) = (keptNumbers e bytes s).map (inputBlock bytes s.size) := by
  rw [inputBlocks, List.range_eq_range', keptOf_range' e s _ _ 0 (by simp), keptNumbers, List.range_eq_range']
  rfl

/-- What a frame's blocks come to, judged once the link has heard it. -/
theorem blocksJudged_spec (e : Engine) (bytes : List Byte) (s : State) :
    let kept := keptNumbers e bytes s
    (blocksJudged e bytes s).1 = kept.map (fun j => keptRecord s (inputBlock bytes s.size j)) ∧
    (blocksJudged e bytes s).2.1 = argByte bytes 3 - kept.length ∧
    ∀ l, (blocksJudged e bytes s).2.2.line l = { s.line l with
      taken := (s.line l).taken ||
        kept.any fun j => Fin.ofNat 128 (argByte bytes (4 + j * (2 + 3 * s.size))) == l } := by
  have heard : UntouchedBut [] s (s.setLink e (s.link e).hear) := fun _ _ _ => rfl
  obtain ⟨kept, refused, lines⟩ := judgeBlocks_spec e s (inputBlocks bytes s.size) heard
  have blocks : (inputBlocks bytes s.size).length = argByte bytes 3 := by simp [inputBlocks]
  rw [keptOf_inputBlocks, List.map_map] at kept
  rw [keptOf_inputBlocks, List.length_map, blocks] at refused
  refine ⟨kept, Nat.eq_sub_of_add_eq' refused, fun l => (lines l).trans ?_⟩
  rw [keptOf_inputBlocks, List.any_map]
  rfl

/-- An accepted frame before it goes on: its link and the notices (R55, R64, R73). -/
theorem frameCounted_spec (e : Engine) (bytes : List Byte) (s : State) :
    let kept := (keptNumbers e bytes s).length
    let refused := argByte bytes 3 - kept
    let k := s.link e
    (∀ d, (frameCounted e bytes s).link d = if d = e then { k.hear.tallyFrame kept refused with
      counters := { k.counters with refused := k.counters.refused.advance refused } } else s.link d) ∧
    (frameCounted e bytes s).notices = if k.counters.refused.newlyOverflows refused then
      s.notices.raise .counterOverflow else s.notices := by
  obtain ⟨kept, refused, -⟩ := blocksJudged_spec e bytes s
  have judged : ∀ d, (blocksJudged e bytes s).2.2.link d = if d = e then (s.link e).hear else s.link d := fun d =>
    (State.link_of_links (by simp [blocksJudged]) d).trans (State.link_setLink s e d _)
  have notices : (blocksJudged e bytes s).2.2.notices = s.notices := by simp [blocksJudged]
  have count : (blocksJudged e bytes s).1.length = (keptNumbers e bytes s).length := by simp [kept]
  have counted : frameCounted e bytes s = advanceCounter e .refused (argByte bytes 3 - (keptNumbers e bytes s).length)
      ((blocksJudged e bytes s).2.2.setLink e ((s.link e).hear.tallyFrame (keptNumbers e bytes s).length
        (argByte bytes 3 - (keptNumbers e bytes s).length))) := by
    unfold frameCounted
    dsimp only
    rw [judged, if_pos rfl, count, refused]
  obtain ⟨links, raised⟩ := advanceCounter_spec e .refused (argByte bytes 3 - (keptNumbers e bytes s).length)
    ((blocksJudged e bytes s).2.2.setLink e ((s.link e).hear.tallyFrame (keptNumbers e bytes s).length
      (argByte bytes 3 - (keptNumbers e bytes s).length)))
  rw [State.link_setLink_same] at links raised
  dsimp only
  rw [counted]
  refine ⟨fun d => (links d).trans ?_, raised.trans ?_⟩
  · rw [State.link_setLink, judged]
    split
    · rfl
    · rfl
  · rw [show ∀ x, ((blocksJudged e bytes s).2.2.setLink e x).notices = s.notices from fun _ => notices]
    rfl

/-- A frame accepted: its link, the lines' flags, the queue and the notices (R55, R64 to R67, R73). -/
theorem acceptFrame_spec (e : Engine) (slot : Fin 2) (bytes : List Byte) (s : State) :
    let kept := keptNumbers e bytes s
    let refused := argByte bytes 3 - kept.length
    let queued := kept ≠ [] ∧ s.faults.mode = .normal
    let k := s.link e
    let t := acceptFrame e slot bytes s
    (∀ d, t.link d = if d = e then { k.hear.tallyFrame kept.length refused with
      buffers := k.buffers.set slot.val (if queued then .queued else .free)
      counters := { k.counters with refused := k.counters.refused.advance refused } } else s.link d) ∧
    (∀ l, t.line l = { s.line l with
      taken := (s.line l).taken ||
        kept.any fun j => Fin.ofNat 128 (argByte bytes (4 + j * (2 + 3 * s.size))) == l }) ∧
    t.commits = s.commits ++ (if queued then [{
      engine := e, period := s.timer.period, buffer := slot
      blocks := kept.map fun j => keptRecord s (inputBlock bytes s.size j) }] else []) ∧
    t.notices = if k.counters.refused.newlyOverflows refused then s.notices.raise .counterOverflow else s.notices := by
  obtain ⟨kept, -, lines⟩ := blocksJudged_spec e bytes s
  obtain ⟨links, notices⟩ := frameCounted_spec e bytes s
  obtain ⟨sent, commits⟩ := sendOn_spec e slot (blocksJudged e bytes s).1 (frameCounted e bytes s)
  have counted : (frameCounted e bytes s).faults = s.faults ∧ (frameCounted e bytes s).timer = s.timer ∧
      (frameCounted e bytes s).commits = s.commits ∧
      (frameCounted e bytes s).lines = (blocksJudged e bytes s).2.2.lines := by
    simp [frameCounted, blocksJudged]
  obtain ⟨faults, timer, queue, table⟩ := counted
  have nonempty : (blocksJudged e bytes s).1 ≠ [] ↔ keptNumbers e bytes s ≠ [] := by simp [kept]
  simp only [acceptFrame_eq, faults, timer, queue, nonempty] at sent commits ⊢
  refine ⟨fun d => (sent d).trans ?_, fun l => ?_, commits.trans (by rw [kept]), ?_⟩
  · rw [links, links, if_pos rfl]
    split
    · rfl
    · rfl
  · rw [← lines l]
    exact State.line_of_lines (by simp [table]) l
  · rw [← notices]
    simp

/-- A frame that passes the six tests is accepted. -/
theorem exec_inputFrame_accepted {s : State} {e : Engine} {slot : Fin 2} {w : Nat} {bytes : List Byte}
    {overlong : Bool} (gathers : (s.link e).receiver = .receiving slot w)
    (held : (s.link e).buffers[slot.val] = .receiving bytes overlong)
    (passes : frameRefusal e bytes overlong (hunting e s) = none) :
    exec (.inputFrame e) s =
      .next (settle (acceptFrame e slot bytes (hunting e s))) := by
  rw [exec_inputFrame_receiving gathers held]
  unfold judgeFrame
  rw [passes]

/-- The record kept of a block that lies within the frame, sample by sample (R66, R188, R190). -/
theorem keptRecord_inputBlock {bytes : List Byte} {s : State} {n j : Nat}
    (length : bytes.length = 6 + n * (2 + 3 * s.size)) (within : j < n) :
    let at' := fun m x => argByte bytes (4 + j * (2 + 3 * s.size) + 2 + 3 * m + x)
    let no : LineNo := Fin.ofNat 128 (argByte bytes (4 + j * (2 + 3 * s.size)))
    keptRecord s (inputBlock bytes s.size j) =
      { line := no, generation := (s.line no).generation, head := (s.line no).head
        samples := (List.range s.size).map fun m => BitVec.ofNat 24 (at' m 0 * 65536 + at' m 1 * 256 + at' m 2)
        written := 0 } := by
  have room : (j + 1) * (2 + 3 * s.size) ≤ n * (2 + 3 * s.size) := Nat.mul_le_mul_right _ within
  have samples : ∀ m ∈ List.range s.size, sampleAt bytes (4 + j * (2 + 3 * s.size) + 2 + 3 * m) =
      BitVec.ofNat 24 (argByte bytes (4 + j * (2 + 3 * s.size) + 2 + 3 * m) * 65536
        + argByte bytes (4 + j * (2 + 3 * s.size) + 2 + 3 * m + 1) * 256
        + argByte bytes (4 + j * (2 + 3 * s.size) + 2 + 3 * m + 2)) := by
    intro m inside
    have small := List.mem_range.mp inside
    rw [sampleAt, argField_three (by rw [Nat.add_mul] at room; omega)]
  simp only [keptRecord, inputBlock, List.map_congr_left samples]
  rfl

/-- Settles O49: the frame passes the tests, and each part of what it leaves is that of its acceptance. -/
theorem acceptedFramesKeepTheirBlocks : Obligations.AcceptedFramesKeepTheirBlocks := by
  intro s e slot w bytes k n gathers held length few kind engine checks running tag first lineByte line keeps sample
    kept refused queued
  have passes := frameRefusal_timely (s := hunting e s) (overlong := false) ⟨by omega, rfl⟩ checks
    ⟨kind, engine, few, length⟩ running tag
  rw [hunting_link, if_neg (Bool.eq_false_iff.mp first)] at passes
  obtain ⟨links, lines, commits, notices⟩ := acceptFrame_spec e slot bytes (hunting e s)
  rw [hunting_link] at links notices
  have numbers : keptNumbers e bytes (hunting e s) = kept := rfl
  rw [numbers] at links lines commits notices
  refine ⟨_, exec_inputFrame_accepted gathers held passes, ?_, fun d other => ?_, ?_, fun l => lines l, ?_, ?_⟩
  · apply State.eq_of_fields <;> simp [hunting]
  · rw [links, if_neg other]
    exact State.link_setLink_other _ _ other
  · rw [links, if_pos rfl]
    rfl
  · have records := List.map_congr_left fun j (stays : j ∈ kept) =>
      keptRecord_inputBlock (s := hunting e s) length (List.mem_range.mp (List.mem_of_mem_filter stays))
    rw [commits, records]
    rfl
  · rw [notices]
    simp only [Counter.newlyOverflows_iff]
    rfl

end Sys2Proof.Machine
end

section
/-! O60. The run counts (R85): what one tap counts for, through the five steps of its boundary work and through every staged
edit, and what every other operation leaves of it. -/

namespace Sys2Proof.Machine

/-! ### What a tap counts for -/

/-- The tap is in no state that counts without a staged start (R85). -/
def Tap.silent (t : Tap) : Prop := t.state = .idle ∨ t.state = .stopping

/-- The tap counts toward some engine's run count. -/
def Tap.mayRun (t : Tap) : Prop := ¬t.silent ∨ Edit.isStart t.staged = true

/-- The engine it would count for: that of its current set or, in IDLE, of the set staged for it. -/
def Tap.nextReader (t : Tap) : Engine :=
  if t.state = .idle then ((Edit.set? t.staged).getD t.current).reader else t.current.reader

/-- A start is an edit that carries a set. -/
theorem Edit.isStart_iff (edit : Option Edit) : Edit.isStart edit = true ↔ ∃ p, edit = some (.start p) := by
  unfold Edit.isStart
  split <;> simp

theorem Tap.countsFor_iff (e : Engine) (t : Tap) : t.countsFor e = true ↔ t.mayRun ∧ t.nextReader = e := by
  unfold Tap.countsFor Tap.mayRun Tap.nextReader Tap.silent
  split
  · next idle =>
    rcases hs : t.staged with _ | ⟨p⟩ | ⟨p⟩ | _ <;> simp [idle, Edit.isStart, Edit.set?]
  · next stopping => simp [stopping]
  all_goals next awake => simp [awake]

theorem taps_toList (s : State) : s.taps.toList = allTaps.map s.tap := by
  apply List.ext_getElem
  · simp [allTaps]
  · intro i hi hj
    simp only [Vector.length_toList] at hi
    simp [allTaps, State.tap, Fin.ofNat, Nat.mod_eq_of_lt hi]

theorem runCount_eq (e : Engine) (s : State) : runCount e s = allTaps.countP fun t => (s.tap t).countsFor e := by
  rw [runCount, taps_toList, List.countP_map]
  rfl

/-- Where no tap counts anew no run count grows. -/
theorem runCount_le {s u : State} {e : Engine} (h : ∀ t, (u.tap t).countsFor e = true → (s.tap t).countsFor e = true) :
    runCount e u ≤ runCount e s := by
  rw [runCount_eq, runCount_eq]
  exact List.countP_mono_left fun t _ => h t

/-! ### The law, tap by tap -/

/-- What the law asks of one tap record: an edit staged for it while it is not IDLE, and a pending target, name its current
set's reader, and only a FADING tap holds a pending target. -/
structure Tap.KeepsReader (t : Tap) : Prop where
  staged : ∀ p, t.state ≠ .idle → Edit.set? t.staged = some p → p.reader = t.current.reader
  pending : ∀ p, t.pendingTarget = some p → t.state = .fading ∧ p.reader = t.current.reader

theorem RunsLawful.keepsReader {s : State} (h : RunsLawful s) (t : TapNo) : (s.tap t).KeepsReader :=
  ⟨h.staged t, h.pending t⟩

theorem RunsLawful.of_taps {s : State} (count : ∀ e, runCount e s ≤ 128) (keeps : ∀ t, (s.tap t).KeepsReader) :
    RunsLawful s :=
  ⟨count, fun t => (keeps t).staged, fun t => (keeps t).pending⟩

/-- An operation after which no tap counts anew keeps the law, if each record does. -/
theorem RunsLawful.fewer {s u : State} (h : RunsLawful s)
    (counts : ∀ e t, (u.tap t).countsFor e = true → (s.tap t).countsFor e = true)
    (keeps : ∀ t, (u.tap t).KeepsReader) : RunsLawful u :=
  .of_taps (fun e => (runCount_le (counts e)).trans (h.count e)) keeps

/-- The tap records but for the CLAMPED indicators, which the law does not read. -/
def unclamped (s : State) (t : TapNo) : Tap := { s.tap t with clamped := false }

theorem unclamped_of_taps {s u : State} (taps : u.taps = s.taps) : unclamped u = unclamped s := by
  funext t
  rw [unclamped, State.tap_of_taps taps, unclamped]

theorem Tap.countsFor_unclamped (e : Engine) (t : Tap) : ({ t with clamped := false } : Tap).countsFor e = t.countsFor e :=
  rfl

theorem Tap.keepsReader_unclamped {t : Tap} : ({ t with clamped := false } : Tap).KeepsReader ↔ t.KeepsReader :=
  ⟨fun ⟨staged, pending⟩ => ⟨staged, pending⟩, fun ⟨staged, pending⟩ => ⟨staged, pending⟩⟩

/-- An operation that leaves the tap records but for the CLAMPED indicators keeps the law. -/
theorem RunsLawful.next {s u : State} (h : RunsLawful s) (taps : unclamped u = unclamped s) : RunsLawful u := by
  have tap : ∀ t, { u.tap t with clamped := false } = { s.tap t with clamped := false } := congrFun taps
  refine h.fewer (fun e t counts => ?_) fun t => ?_
  · rwa [← Tap.countsFor_unclamped, tap, Tap.countsFor_unclamped] at counts
  · rw [← Tap.keepsReader_unclamped, tap, Tap.keepsReader_unclamped]
    exact h.keepsReader t

/-- An operation that leaves the tap records keeps the law. -/
theorem RunsLawful.same {s u : State} (h : RunsLawful s) (taps : u.taps = s.taps := by simp) : RunsLawful u :=
  h.next (unclamped_of_taps taps)

/-! ### Step 3 by what is staged and what waits (R112, R120, R121) -/

section
variable {t : Tap} {p : ParamSet} (ib : Nat)

theorem Tap.applyEdit_unstaged (staged : t.staged = none) : t.applyEdit ib = t := by
  unfold Tap.applyEdit
  rw [staged]

theorem Tap.applyEdit_start (staged : t.staged = some (.start p)) (free : t.pendingTarget = none) :
    t.applyEdit ib = ({ t with staged := none } : Tap).applyStart ib p := by
  unfold Tap.applyEdit
  rw [staged]
  exact if_neg (by rw [free]; exact Bool.false_ne_true)

theorem Tap.applyEdit_preset (staged : t.staged = some (.preset p)) (free : t.pendingTarget = none) :
    t.applyEdit ib = ({ t with staged := none } : Tap).applyPreset ib p := by
  unfold Tap.applyEdit
  rw [staged]
  exact if_neg (by rw [free]; exact Bool.false_ne_true)

theorem Tap.applyEdit_stop (staged : t.staged = some .stop) (free : t.pendingTarget = none) :
    t.applyEdit ib = ({ t with staged := none } : Tap).applyStop := by
  unfold Tap.applyEdit
  rw [staged]
  exact if_neg (by rw [free]; exact Bool.false_ne_true)

theorem Tap.applyEdit_start_waiting (staged : t.staged = some (.start p)) (held : t.pendingTarget.isSome = true) :
    t.applyEdit ib = { t with staged := none, pendingTarget := some p } := by
  unfold Tap.applyEdit
  rw [staged]
  exact if_pos held

theorem Tap.applyEdit_preset_waiting (staged : t.staged = some (.preset p)) (held : t.pendingTarget.isSome = true) :
    t.applyEdit ib = { t with staged := none, pendingTarget := some t.stopForm } := by
  unfold Tap.applyEdit
  rw [staged]
  exact if_pos held

theorem Tap.applyEdit_stop_waiting (staged : t.staged = some .stop) (held : t.pendingTarget.isSome = true) :
    t.applyEdit ib = { t with staged := none, pendingTarget := some t.stopForm } := by
  unfold Tap.applyEdit
  rw [staged]
  exact if_pos held

end

/-! ### The boundary work of one tap (R108) -/

/-- Every set that the tap holds, but its old side, names one reader. -/
structure Tap.OneReader (r : Engine) (t : Tap) : Prop where
  current : t.current.reader = r
  pending : ∀ p, t.pendingTarget = some p → p.reader = r
  staged : ∀ p, Edit.set? t.staged = some p → p.reader = r

theorem Tap.OneReader.of_eq {r : Engine} {t u : Tap} (h : t.OneReader r) (current : u.current.reader = t.current.reader)
    (pending : u.pendingTarget = t.pendingTarget) (staged : u.staged = t.staged) : u.OneReader r :=
  ⟨current.trans h.current, by rw [pending]; exact h.pending, by rw [staged]; exact h.staged⟩

/-- Steps 1 and 2 leave every set but the run flag. -/
theorem Tap.moved_sets (b : Nat) (t : Tap) : (t.advance b).completeMove.current.reader = t.current.reader ∧
    (t.advance b).completeMove.pendingTarget = t.pendingTarget ∧ (t.advance b).completeMove.staged = t.staged := by
  have advanced : (t.advance b).current = t.current ∧ (t.advance b).pendingTarget = t.pendingTarget ∧
      (t.advance b).staged = t.staged := by
    unfold Tap.advance
    split <;> exact ⟨rfl, rfl, rfl⟩
  obtain ⟨current, pending, staged⟩ := advanced
  rw [← current, ← pending, ← staged]
  unfold Tap.completeMove
  (repeat' split) <;> exact ⟨rfl, rfl, rfl⟩

/-- A retarget takes the new set and leaves what is staged or waits (R117 to R119). -/
theorem Tap.retarget_sets (ib : Nat) (p : ParamSet) (t : Tap) : (t.retarget ib p).current.reader = p.reader ∧
    (t.retarget ib p).pendingTarget = t.pendingTarget ∧ (t.retarget ib p).staged = t.staged := by
  unfold Tap.retarget
  split
  · exact ⟨rfl, rfl, rfl⟩
  · split <;> exact ⟨rfl, rfl, rfl⟩
  · exact ⟨rfl, rfl, rfl⟩

/-- A stop leaves every set but the run flag (R114). -/
theorem Tap.stop_sets (t : Tap) : t.stop.current.reader = t.current.reader ∧ t.stop.pendingTarget = t.pendingTarget ∧
    t.stop.staged = t.staged := by
  unfold Tap.stop
  dsimp only
  split <;> exact ⟨rfl, rfl, rfl⟩

/-- A start of a set with the tap's reader (R113 to R120). -/
theorem Tap.OneReader.applyStart {r : Engine} {t : Tap} (h : t.OneReader r) {p : ParamSet} (reader : p.reader = r)
    (ib : Nat) : (t.applyStart ib p).OneReader r := by
  have taken : ∀ u : Tap, u.current.reader = p.reader ∧ u.pendingTarget = t.pendingTarget ∧ u.staged = t.staged →
      u.OneReader r := fun u ⟨current, pending, staged⟩ =>
    ⟨current.trans reader, by rw [pending]; exact h.pending, by rw [staged]; exact h.staged⟩
  unfold Tap.applyStart
  split
  · unfold Tap.start
    split <;> exact taken _ ⟨rfl, rfl, rfl⟩
  · exact taken _ ⟨rfl, rfl, rfl⟩
  · exact taken _ (t.retarget_sets ib p)
  · exact taken _ (t.retarget_sets ib p)
  · exact ⟨h.current, fun q hq => Option.some.inj hq ▸ reader, h.staged⟩
  · exact taken _ ⟨rfl, rfl, rfl⟩

/-- A stop in each state (R112 to R120). -/
theorem Tap.OneReader.applyStop {r : Engine} {t : Tap} (h : t.OneReader r) : t.applyStop.OneReader r := by
  have stopped : t.stop.OneReader r := h.of_eq t.stop_sets.1 t.stop_sets.2.1 t.stop_sets.2.2
  unfold Tap.applyStop
  split
  · exact h
  · exact h
  · exact ⟨h.current, h.pending, h.staged⟩
  · exact stopped
  · exact stopped
  · exact ⟨h.current, fun q hq => Option.some.inj hq ▸ h.current, h.staged⟩

/-- A preset of a set with the tap's reader (R112). -/
theorem Tap.OneReader.applyPreset {r : Engine} {t : Tap} (h : t.OneReader r) {p : ParamSet} (reader : p.reader = r)
    (ib : Nat) : (t.applyPreset ib p).OneReader r := by
  unfold Tap.applyPreset
  split
  · exact ⟨reader, h.pending, h.staged⟩
  · exact h.applyStop

/-- Step 3. -/
theorem Tap.OneReader.applyEdit {r : Engine} {t : Tap} (h : t.OneReader r) (ib : Nat) : (t.applyEdit ib).OneReader r := by
  have cleared : ({ t with staged := none } : Tap).OneReader r := ⟨h.current, h.pending, nofun⟩
  have waits : ∀ q : ParamSet, q.reader = r → ({ t with staged := none, pendingTarget := some q } : Tap).OneReader r :=
    fun q hq => ⟨h.current, fun p hp => Option.some.inj hp ▸ hq, nofun⟩
  unfold Tap.applyEdit
  dsimp only
  split
  · exact h
  · next p hs =>
    have reader : p.reader = r := h.staged p (by rw [hs]; rfl)
    split
    · exact waits p reader
    · exact cleared.applyStart reader ib
  · next p hs =>
    split
    · exact waits t.stopForm h.current
    · exact cleared.applyPreset (h.staged p (by rw [hs]; rfl)) ib
  · split
    · exact waits t.stopForm h.current
    · exact cleared.applyStop

/-- Step 4. -/
theorem Tap.OneReader.applyPending {r : Engine} {t : Tap} (h : t.OneReader r) (ib : Nat) :
    (t.applyPending ib).OneReader r := by
  unfold Tap.applyPending
  split
  · exact h
  · exact h
  · next p hp _ =>
    have cleared : ({ t with pendingTarget := none } : Tap).OneReader r := ⟨h.current, nofun, h.staged⟩
    dsimp only
    split
    · obtain ⟨current, pending, staged⟩ := Tap.retarget_sets ib p { t with pendingTarget := none }
      exact cleared.of_eq (current.trans ((h.pending p hp).trans h.current.symm)) pending staged
    · obtain ⟨current, pending, staged⟩ := Tap.stop_sets { t with pendingTarget := none }
      exact cleared.of_eq current pending staged

/-- Step 5 leaves every set but the run flag. -/
theorem Tap.followTempo_sets (ib : Nat) (concerned : Bool) (t : Tap) :
    (t.followTempo ib concerned).current.reader = t.current.reader ∧
    (t.followTempo ib concerned).pendingTarget = t.pendingTarget ∧ (t.followTempo ib concerned).staged = t.staged := by
  unfold Tap.followTempo
  (repeat' split) <;> exact ⟨rfl, rfl, rfl⟩

/-! ### What is staged, and what waits, after the boundary work -/

theorem Tap.applyStart_staged (ib : Nat) (p : ParamSet) (t : Tap) : (t.applyStart ib p).staged = t.staged := by
  unfold Tap.applyStart Tap.start
  split
  · split <;> rfl
  · rfl
  · exact (t.retarget_sets ib p).2.2
  · exact (t.retarget_sets ib p).2.2
  · rfl
  · rfl

theorem Tap.applyStop_staged (t : Tap) : t.applyStop.staged = t.staged := by
  unfold Tap.applyStop
  split
  · rfl
  · rfl
  · rfl
  · exact t.stop_sets.2.2
  · exact t.stop_sets.2.2
  · rfl

/-- Step 3 leaves nothing staged. -/
theorem Tap.applyEdit_staged (ib : Nat) (t : Tap) : (t.applyEdit ib).staged = none := by
  unfold Tap.applyEdit
  dsimp only
  split
  · assumption
  · split
    · rfl
    · exact Tap.applyStart_staged ib _ _
  · split
    · rfl
    · unfold Tap.applyPreset
      split
      · rfl
      · exact Tap.applyStop_staged _
  · split
    · rfl
    · exact Tap.applyStop_staged _

/-- Step 4 stages nothing, and leaves no target waiting but behind a crossfade. -/
theorem Tap.applyPending_leaves (ib : Nat) (t : Tap) :
    (t.applyPending ib).staged = t.staged ∧ (t.applyPending ib).noneWaits := by
  unfold Tap.applyPending
  split
  · next fading => exact ⟨rfl, .inl fading⟩
  · next free _ => exact ⟨rfl, .inr free⟩
  · next p _ _ =>
    dsimp only
    split
    · obtain ⟨-, pending, staged⟩ := Tap.retarget_sets ib p { t with pendingTarget := none }
      exact ⟨staged, .inr pending⟩
    · obtain ⟨-, pending, staged⟩ := Tap.stop_sets { t with pendingTarget := none }
      exact ⟨staged, .inr pending⟩

/-- Step 5 moves no tap behind whose crossfade a target waits. -/
theorem Tap.noneWaits.followTempo {t : Tap} (h : t.noneWaits) (ib : Nat) (concerned : Bool) :
    (t.followTempo ib concerned).noneWaits := by
  rcases h with fading | free
  · have stands : Machine.Tap.followTempo ib concerned t = t :=
      if_neg (by rw [fading]; exact fun follows => Bool.false_ne_true follows.2.1)
    rw [stands]
    exact .inl fading
  · exact .inr ((t.followTempo_sets ib concerned).2.1.trans free)

/-! ### A tap that counts for no engine stays silent -/

/-- Steps 1 and 2 leave an IDLE tap. -/
theorem Tap.moved_idle {t : Tap} (idle : t.state = .idle) (b : Nat) : (t.advance b).completeMove = t := by
  obtain ⟨_, _, _, _, _, _, _, _, _, _⟩ := t
  dsimp only at idle
  subst idle
  rfl

/-- Steps 1 and 2 leave a STOPPING tap there or take it to IDLE. -/
theorem Tap.moved_stopping {t : Tap} (stopping : t.state = .stopping) (b : Nat) :
    (t.advance b).completeMove.silent := by
  have moved : (t.advance b).state = .stopping := by
    unfold Tap.advance
    split <;> exact stopping
  unfold Tap.completeMove
  rw [moved]
  dsimp only
  split
  · exact .inl rfl
  · exact .inr moved

/-- A stop leaves a silent tap (R112). -/
theorem Tap.silent.applyStop {t : Tap} (h : t.silent) : t.applyStop = t := by
  unfold Machine.Tap.applyStop
  rcases h with state | state <;> rw [state]

/-- With no start staged and no target waiting, step 3 leaves a silent tap silent. -/
theorem Tap.silent.applyEdit {t : Tap} (h : t.silent) (unstarted : ¬Edit.isStart t.staged = true)
    (free : t.pendingTarget = none) (ib : Nat) : (t.applyEdit ib).silent ∧ (t.applyEdit ib).pendingTarget = none := by
  have cleared : ({ t with staged := none } : Tap).silent := h
  rcases staged : t.staged with _ | ⟨p⟩ | ⟨p⟩ | _
  · rw [Tap.applyEdit_unstaged ib staged]
    exact ⟨h, free⟩
  · exact absurd ((Edit.isStart_iff _).mpr ⟨p, staged⟩) unstarted
  · rw [Tap.applyEdit_preset ib staged free]
    unfold Tap.applyPreset
    split
    · exact ⟨h, free⟩
    · rw [cleared.applyStop]
      exact ⟨h, free⟩
  · rw [Tap.applyEdit_stop ib staged free, cleared.applyStop]
    exact ⟨h, free⟩

/-- Step 4 leaves a tap behind which no target waits. -/
theorem Tap.applyPending_free {t : Tap} (free : t.pendingTarget = none) (ib : Nat) : t.applyPending ib = t := by
  unfold Tap.applyPending
  split
  · rfl
  · rfl
  · next held _ =>
    rw [free] at held
    cases held

/-- Step 5 leaves a silent tap. -/
theorem Tap.silent.followTempo {t : Tap} (h : t.silent) (ib : Nat) (concerned : Bool) :
    t.followTempo ib concerned = t :=
  if_neg (by rcases h with state | state <;> rw [state] <;> exact fun follows => Bool.false_ne_true follows.2.1)

/-- With no start staged a silent tap stays silent through its boundary work. -/
theorem Tap.KeepsReader.silent_boundary {t : Tap} (h : t.KeepsReader) (silent : t.silent)
    (unstarted : ¬Edit.isStart t.staged = true) (b ib : Nat) (found : Bool) : (t.boundary b ib found).silent := by
  have free : t.pendingTarget = none := Option.eq_none_iff_forall_ne_some.mpr fun p hp => by
    have fading := (h.pending p hp).1
    rcases silent with state | state <;> rw [state] at fading <;> cases fading
  have moved : (t.advance b).completeMove.silent := by
    rcases silent with idle | stopping
    · rw [Tap.moved_idle idle]
      exact .inl idle
    · exact Tap.moved_stopping stopping b
  obtain ⟨-, pending, staged⟩ := t.moved_sets b
  obtain ⟨edited, waits⟩ := moved.applyEdit (by rw [staged]; exact unstarted) (pending.trans free) ib
  unfold Tap.boundary
  dsimp only
  rw [Tap.applyPending_free waits, edited.followTempo]
  exact edited

/-! ### The boundary work together -/

/-- After the boundary work every set of the tap names the engine that it counted for. -/
theorem Tap.KeepsReader.oneReader_boundary {t : Tap} (h : t.KeepsReader) (b ib : Nat) (found : Bool) :
    (t.boundary b ib found).OneReader t.nextReader := by
  have onward : ∀ {u : Tap} (c : Bool), u.OneReader t.nextReader →
      ((u.applyPending ib).followTempo ib c).OneReader t.nextReader := fun c hu => by
    obtain ⟨current, pending, staged⟩ := Tap.followTempo_sets ib c (Tap.applyPending ib _)
    exact (hu.applyPending ib).of_eq current pending staged
  obtain ⟨current, pending, staged⟩ := t.moved_sets b
  refine onward _ ?_
  unfold Tap.nextReader
  split
  · next idle =>
    have free : t.pendingTarget = none := Option.eq_none_iff_forall_ne_some.mpr fun p hp => by
      have fading := (h.pending p hp).1
      rw [idle] at fading
      cases fading
    rw [Tap.moved_idle idle]
    have cleared : ({ t with staged := none } : Tap).OneReader t.current.reader := ⟨rfl, by simp [free], nofun⟩
    rcases staged : t.staged with _ | ⟨p⟩ | ⟨p⟩ | _
    · rw [Tap.applyEdit_unstaged ib staged]
      exact ⟨rfl, by simp [free], by simp [staged, Edit.set?]⟩
    · rw [Tap.applyEdit_start ib staged free]
      unfold Tap.applyStart Tap.start
      simp only [idle]
      split <;> exact ⟨rfl, by simp [free, Tap.take, Tap.toRunning], nofun⟩
    · rw [Tap.applyEdit_preset ib staged free]
      unfold Tap.applyPreset
      simp only [idle]
      exact ⟨rfl, by simp [free], nofun⟩
    · rw [Tap.applyEdit_stop ib staged free]
      exact cleared.applyStop
  · next awake =>
    have before : t.OneReader t.current.reader := ⟨rfl, fun p hp => (h.pending p hp).2, fun p hp => h.staged p awake hp⟩
    exact (before.of_eq current pending staged).applyEdit ib

theorem Tap.boundary_staged (b ib : Nat) (found : Bool) (t : Tap) : (t.boundary b ib found).staged = none := by
  unfold Tap.boundary
  dsimp only
  rw [(Tap.followTempo_sets _ _ _).2.2, (Tap.applyPending_leaves _ _).1, Tap.applyEdit_staged]

/-- A tap counts after its boundary work only for the engine it counted for before. -/
theorem Tap.KeepsReader.countsFor_boundary {t : Tap} (h : t.KeepsReader) (b ib : Nat) (found : Bool) (e : Engine)
    (counts : (t.boundary b ib found).countsFor e = true) : t.countsFor e = true := by
  obtain ⟨runs, reader⟩ := (Tap.countsFor_iff e _).mp counts
  have clear := t.boundary_staged b ib found
  have one := h.oneReader_boundary b ib found
  refine (Tap.countsFor_iff e t).mpr ⟨?_, ?_⟩
  · by_contra unrun
    obtain ⟨quiet, unstarted⟩ := not_or.mp unrun
    have stays := h.silent_boundary (not_not.mp quiet) unstarted b ib found
    rcases runs with awake | started
    · exact awake stays
    · rw [clear] at started
      cases started
  · rw [← reader, ← one.current]
    unfold Tap.nextReader
    rw [clear]
    split <;> rfl

theorem Tap.KeepsReader.boundary {t : Tap} (h : t.KeepsReader) (b ib : Nat) (found : Bool) :
    (t.boundary b ib found).KeepsReader := by
  have one := h.oneReader_boundary b ib found
  have waits : (t.boundary b ib found).noneWaits := (Tap.applyPending_leaves ib _).2.followTempo ib _
  refine ⟨fun p _ hp => ?_, fun p hp => ⟨waits.resolve_right fun none => ?_, ?_⟩⟩
  · rw [t.boundary_staged] at hp
    cases hp
  · rw [hp] at none
    cases none
  · exact (one.pending p hp).trans one.current.symm

theorem RunsLawful.tapBoundary {s : State} (h : RunsLawful s) : RunsLawful (tapBoundary s) := by
  have moved : ∀ t, (Machine.tapBoundary s).tap t = (s.tap t).boundary s.size s.tempo.interval s.tempo.tapSide := fun t => by
    simp [Machine.tapBoundary, State.tap]
  refine h.fewer (fun e t counts => ?_) fun t => ?_
  · rw [moved] at counts
    exact (h.keepsReader t).countsFor_boundary _ _ _ e counts
  · rw [moved]
    exact (h.keepsReader t).boundary _ _ _

end Sys2Proof.Machine
end

section
/-! O60, the commands: what SET_TAP, CLEAR_TAP and POP_SCENE stage keeps the run counts, and every other case of a command
leaves the tap records but for the CLAMPED indicators. -/

namespace Sys2Proof.Machine

/-! ### Staged edits (R82, R84, R86) -/

/-- A stop staged counts for no engine anew (R86). -/
theorem RunsLawful.stageStop {s : State} (h : RunsLawful s) (t : TapNo) : RunsLawful (stageEdit t .stop s) := by
  have staged : ∀ u, (stageEdit t .stop s).tap u = if u = t then { s.tap t with staged := some .stop } else s.tap u :=
    fun u => State.tap_setTap s t u _
  refine h.fewer (fun e u counts => ?_) fun u => ?_
  · rw [staged] at counts
    split at counts
    · next same =>
      subst same
      obtain ⟨runs, reader⟩ := (Tap.countsFor_iff e _).mp counts
      have awake : ¬(s.tap u).silent := runs.resolve_right Bool.false_ne_true
      have reads : (s.tap u).nextReader = e := by
        rw [← reader]
        unfold Tap.nextReader
        rw [if_neg fun idle => awake (.inl idle)]
        exact (if_neg fun idle => awake (.inl idle)).symm
      exact (Tap.countsFor_iff e _).mpr ⟨.inl awake, reads⟩
    · exact counts
  · rw [staged]
    split
    · exact ⟨fun _ _ => nofun, (h.keepsReader t).pending⟩
    · exact h.keepsReader u

/-- An edit staged with a set counts anew for its set's reader alone: where that engine's run count then fits, and the set
names the reader that a tap not IDLE has (checks 7 and 8), the law is kept. -/
theorem RunsLawful.stageSet {s : State} (h : RunsLawful s) (t : TapNo) {edit : Edit} {p : ParamSet}
    (carries : Edit.set? (some edit) = some p) (fits : runCount p.reader (stageEdit t edit s) ≤ 128)
    (reader : (s.tap t).state ≠ .idle → p.reader = (s.tap t).current.reader) : RunsLawful (stageEdit t edit s) := by
  have staged : ∀ u, (stageEdit t edit s).tap u = if u = t then { s.tap t with staged := some edit } else s.tap u :=
    fun u => State.tap_setTap s t u _
  have reads : ({ s.tap t with staged := some edit } : Tap).nextReader = p.reader := by
    unfold Tap.nextReader
    rw [carries]
    split
    · rfl
    · next awake => exact (reader awake).symm
  refine .of_taps (fun e => ?_) fun u => ?_
  · by_cases same : e = p.reader
    · rw [same]
      exact fits
    · refine (runCount_le fun u counts => ?_).trans (h.count e)
      rw [staged] at counts
      split at counts
      · exact absurd (((Tap.countsFor_iff e _).mp counts).2.symm.trans reads) same
      · exact counts
  · rw [staged]
    split
    · refine ⟨fun q awake carried => ?_, (h.keepsReader t).pending⟩
      rw [carries] at carried
      exact Option.some.inj carried ▸ reader awake
    · exact h.keepsReader u

theorem Edit.set?_stagedAs (p : ParamSet) : Edit.set? (some (stagedAs p)) = some p := by
  unfold stagedAs
  split <;> rfl

/-- A set that the checks pass is staged within the law (checks 7 and 8 of R84). -/
theorem RunsLawful.stageChecked {s : State} (h : RunsLawful s) {t : TapNo} {r : RawSet}
    (passes : firstFailing s t r = none) : RunsLawful (stageEdit t (stagedAs r.toSet) s) := by
  have fits : decide (128 < runCount r.toSet.reader (stageEdit t (stagedAs r.toSet) s)) = false :=
    checks_pass passes (n := 7) (by decide)
  have reader : ((s.tap t).state != .idle && (s.tap t).current.reader != r.toSet.reader) = false :=
    checks_pass passes (n := 8) (by decide)
  refine h.stageSet t (Edit.set?_stagedAs _) (Nat.le_of_not_lt (of_decide_eq_false fits)) fun awake => ?_
  rw [bne_iff_ne.mpr awake, Bool.true_and] at reader
  exact (bne_eq_false_iff_eq.mp reader).symm

/-- A kept set is what its fields name. -/
theorem ParamSet.toRaw_toSet (p : ParamSet) : p.toRaw.toSet = p := by
  obtain ⟨reader, line, mode, fixedDelay, noteExp, modifier, gain, inverted, interp, osc, depth, quadrant, method,
    glideRate, fadeLen, edgeFade, run⟩ := p
  have oscillator : (if oscCode osc = 0 then none else some (Fin.ofNat 16 (oscCode osc - 1))) = osc := by
    cases osc with
    | none => rfl
    | some m => simp [oscCode]
  simp only [RawSet.toSet, ParamSet.toRaw, Fin.ofNat_val_eq_self, ParamSet.mk.injEq, true_and]
  refine ⟨?_, ?_, ?_, ?_, oscillator, ?_, ?_⟩
  · cases mode <;> rfl
  · cases modifier <;> rfl
  · cases inverted <;> rfl
  · cases interp <;> rfl
  · cases method <;> rfl
  · cases run <;> rfl

theorem RunsLawful.judge {entry : Scene} {p : PopProgress} (h : RunsLawful p.state) (t : TapNo) :
    RunsLawful (p.judge entry t).state := by
  unfold PopProgress.judge
  dsimp only
  split
  · exact h
  · split
    · exact h.stageStop t
    · next runs =>
      split
      · exact h
      · next passes =>
        have staged := h.stageChecked passes
        rw [ParamSet.toRaw_toSet, stagedAs, if_pos (by simpa using runs)] at staged
        exact staged

theorem RunsLawful.ownPopScene {s : State} (h : RunsLawful s) (args : List Byte) : RunsLawful (ownPopScene args s).2 := by
  unfold Machine.ownPopScene
  split
  · exact h
  · next entry rest _ =>
    have dropped : RunsLawful { s with scenes := rest } := h.same
    have walked : RunsLawful (popTaps entry { s with scenes := rest }).state :=
      List.foldlRecOn (motive := fun p : PopProgress => RunsLawful p.state) allTaps _ dropped fun _ hp t _ => hp.judge t
    exact walked.same

theorem RunsLawful.ownSetTap {s : State} (h : RunsLawful s) (args : List Byte) : RunsLawful (ownSetTap args s).2 := by
  unfold Machine.ownSetTap judgeSet
  dsimp only
  split
  · exact h
  · split
    · exact h
    · next passes => exact h.stageChecked passes

theorem RunsLawful.ownClearTap {s : State} (h : RunsLawful s) (args : List Byte) : RunsLawful (ownClearTap args s).2 := by
  unfold Machine.ownClearTap
  split
  · exact h
  · exact h.stageStop _

/-! ### The commands that stage nothing -/

theorem taps_of_tapsView {s u : State} (h : tapsView u = tapsView s) : u.taps = s.taps := congrArg Prod.fst h

/-- Every WRITE_COMMAND but SET_TAP, CLEAR_TAP and POP_SCENE leaves the tap table. -/
theorem Owner.leaves_taps {code : Byte} {owner : List Byte → State → Reply × State} (owns : Owner code owner)
    (other : code ≠ 0x30 ∧ code ≠ 0x31 ∧ code ≠ 0x61) (args : List Byte) (s : State) : (owner args s).2.taps = s.taps := by
  cases owns with
  | setTap | clearTap | popScene => exact absurd other (by decide)
  | setPeriod => exact taps_of_tapsView (ownSetPeriod_tapsView args s)
  | allocLine =>
    unfold ownAllocLine allocate refuse
    dsimp only
    (repeat' split) <;> rfl
  | freeLine =>
    rcases ownFreeLine_leaves args s with stands | ⟨l, freed⟩
    · rw [stands]
    · simp [freed]
  | setWriter =>
    unfold ownSetWriter
    dsimp only
    (repeat' split) <;> rfl
  | readLine => exact taps_of_tapsView (ownReadLine_tapsView args s)
  | readPool => exact taps_of_tapsView (ownReadPool_tapsView args s)
  | setLink => exact taps_of_tapsView (ownSetLink_tapsView args s)
  | readLink => exact taps_of_tapsView (ownReadLink_tapsView args s)
  | readCounters => exact taps_of_tapsView (ownReadCounters_tapsView args s)
  | readTap | saveTap => exact taps_of_tapsView (ownReadTap_tapsView args s)
  | setTempo => exact taps_of_tapsView (ownSetTempo_tapsView args s)
  | tapTempo => exact taps_of_tapsView (ownTapTempo_tapsView args s)
  | setTempoSource => exact taps_of_tapsView (ownSetTempoSource_tapsView args s)
  | setMeter => exact taps_of_tapsView (ownSetMeter_tapsView args s)
  | setOsc => exact taps_of_tapsView (ownSetOsc_tapsView args s)
  | readOsc => exact taps_of_tapsView (ownReadOsc_tapsView args s)
  | dropScene => unfold ownDropScene; split <;> rfl
  | readClock | resync | readTempo | pushScene | readScenes | ackNotice | setMask | readFault | clearFault => rfl

/-- Every WRITE_COMMAND keeps the law. -/
theorem RunsLawful.owned {s : State} (h : RunsLawful s) {code : Byte} {owner : List Byte → State → Reply × State}
    (owns : Owner code owner) (record : CommandRecord) : RunsLawful (writeCommand code owner record s) := by
  have command : ∀ {owner : List Byte → State → Reply × State},
      (∀ args s, RunsLawful s → RunsLawful (owner args s).2) → RunsLawful (writeCommand code owner record s) :=
    fun keeps => writeCommand_preserves (fun _ _ _ lawful => lawful.same) keeps record h
  by_cases other : code ≠ 0x30 ∧ code ≠ 0x31 ∧ code ≠ 0x61
  · exact command fun args s lawful => lawful.same (owns.leaves_taps other args s)
  · cases owns with
    | setTap => exact command fun args _ lawful => lawful.ownSetTap args
    | clearTap => exact command fun args _ lawful => lawful.ownClearTap args
    | popScene => exact command fun args _ lawful => lawful.ownPopScene args
    | _ => exact absurd (by decide) other

/-! ### Passes, store faults and VERIFY reads -/

@[simp] theorem muteTaps_unclamped (e : Engine) (p : PeriodCount) (ts : List TapNo) (s : State) :
    unclamped (muteTaps e p ts s) = unclamped s := by
  funext t
  show { (ts.foldl (fun s t => handMuted e p t s) s).tap t with clamped := false } = _
  rw [muted_tap]
  rfl

@[simp] theorem mutePass_unclamped (s : State) : unclamped (mutePass s) = unclamped s := by
  unfold mutePass
  split
  · rfl
  · next p _ => exact (muteTaps_unclamped p.engine p.period p.taps _).trans (unclamped_of_taps (by simp))

@[simp] theorem storeFault_unclamped (entry : FaultEntry) (full : Bool) (s : State) :
    unclamped (storeFault entry full s) = unclamped s := by
  have entered : ∀ u, unclamped (enterSafe u) = unclamped u := fun u => by
    rw [enterSafe_eq, unclamped_of_taps (endWaiting_frame _ _).2.2.2.2.2.2.2.2.2.1, mutePass_unclamped]
    exact unclamped_of_taps (by simp [safeWithdrawn])
  unfold storeFault
  split
  · exact (entered _).trans (unclamped_of_taps (by simp))
  · exact unclamped_of_taps (by simp)

theorem beginPass_unclamped (e : Engine) (s : State) : unclamped (beginPass e s) = unclamped s := by
  unfold beginPass
  dsimp only
  split
  · exact (muteTaps_unclamped e _ _ _).trans (unclamped_of_taps (by simp))
  · exact unclamped_of_taps (by simp)

theorem handBlock_unclamped (p : Pass) (t : TapNo) (s : State) : unclamped (handBlock p t s) = unclamped s := by
  funext u
  unfold handBlock unclamped
  dsimp only
  rw [State.tap_setTap]
  split
  · next same => rw [same]
  · rfl

theorem passTakes_unclamped (o : ReadOutcome) (s : State) : unclamped (passTakes o s) = unclamped s := by
  unfold passTakes
  split
  · rfl
  · dsimp only
    split
    · split
      · have handed : ∀ p u, unclamped (passOn p u) = unclamped u := fun p u => unclamped_of_taps (by simp)
        rw [handed, handBlock_unclamped]
      · rfl
    · rfl

theorem RunsLawful.storeFault {s : State} (h : RunsLawful s) (entry : FaultEntry) (full : Bool) :
    RunsLawful (storeFault entry full s) :=
  h.next (storeFault_unclamped entry full s)

theorem RunsLawful.readFault {s : State} (h : RunsLawful s) (l : LineNo) (e : Engine) (w : Nat) (o : ReadOutcome) :
    RunsLawful (readFault l e w o s) :=
  readFault_keeps (fun _ entry full lawful => lawful.storeFault entry full) l e w o h

theorem RunsLawful.completeVerify {s : State} (h : RunsLawful s) (k : Walk) (u : Upset) :
    RunsLawful (completeVerify k u s) := by
  have read : RunsLawful (endAccess false (storeRead (wordOf k.page k.pointer) u s)) := h.same
  have faulted : ∀ {s : State} (p : Pool) (full : Bool), RunsLawful s →
      RunsLawful (Machine.storeFault (verifyFaultEntry k) full { s with pool := p }) := fun p full lawful =>
    RunsLawful.storeFault lawful.same _ full
  unfold Machine.completeVerify verifyFails
  dsimp only
  split
  · exact read.same
  · split
    · exact read.same
    · split
      · exact (faulted { s.pool with retired := insertPage k.page s.pool.retired, walker := none } false read).same
      · exact (faulted { s.pool with dirty := s.pool.dirty ++ [k.page], walker := none } true read).same

/-! ### Counted edges -/

theorem RunsLawful.takeAdoption {s : State} (h : RunsLawful s) (a : Adoption) : RunsLawful (takeAdoption s a) := by
  cases a with
  | setTempo record => exact h.owned .setTempo record
  | tapTempo record => exact h.owned .tapTempo record
  | popScene record => exact h.owned .popScene record
  | tempoPulse => exact RunsLawful.same h (u := takePulse s)

theorem RunsLawful.boundaryAround {s : State} (h : RunsLawful s) (order : EdgeOrder) (zero : Bool) :
    RunsLawful (boundaryAround order zero s) := by
  have started : RunsLawful (boundaryStart zero s) := h.same
  have adopted : ∀ {u : State}, RunsLawful u → RunsLawful (adoptBetween order.between u) := fun lawful =>
    List.foldlRecOn (motive := RunsLawful) order.between _ lawful fun _ lawful a _ => lawful.takeAdoption a
  have read : RunsLawful (readersBoundary order (resizes s) (boundaryStart zero s)) := by
    unfold readersBoundary
    split
    · have bank : RunsLawful (oscBoundary (resizes s) (boundaryStart zero s)) := started.same
      exact (adopted bank).tapBoundary
    · exact (adopted started.tapBoundary).same
  unfold Machine.boundaryAround
  exact read.same

theorem RunsLawful.countedEdge {s : State} (h : RunsLawful s) (zero : Bool) (order : EdgeOrder) :
    RunsLawful (countedEdge zero order s) := by
  have before : RunsLawful (edgeBefore order (countSample s)) := h.same
  have counted : RunsLawful (countEdge zero order (edgeBefore order (countSample s))) := by
    unfold countEdge
    split
    · exact before.boundaryAround order zero
    · exact before.same
  unfold Machine.countedEdge
  exact counted.same

/-! ### Every step -/

/-- A part whose tap records are all as a reset leaves them keeps the law. -/
theorem RunsLawful.of_reset {s : State} (taps : ∀ t, s.tap t = Tap.reset) : RunsLawful s := by
  refine .of_taps (fun e => ?_) fun t => ?_
  · have empty : runCount e s = 0 := by
      rw [runCount_eq]
      exact List.countP_eq_zero.mpr fun t _ => by rw [taps t]; exact Bool.false_ne_true
    rw [empty]
    exact Nat.zero_le _
  · rw [taps t]
    exact ⟨nofun, nofun⟩

/-- Every case of a command keeps the law of the run counts. -/
theorem Leaves.runsLawful {s t : State} (h : RunsLawful s) (left : Leaves s t) : RunsLawful t := by
  cases left with
  | stands => exact h
  | reset => exact .of_reset fun t => by simp [resetLine, State.reset, State.tap]
  | edgeUnlocked reading => exact h.same
  | edgeLocked reading order =>
    have measured : RunsLawful { s with timer := s.timer.measureLocked reading } := h.same
    exact measured.countedEdge _ order
  | edgeFlywheel reading => exact h.same
  | loseClock reading order =>
    have lost : RunsLawful { s with timer := { s.timer with
        wclk := .flywheel, relockRun := [], relockReady := false, lossTimer := none
        flyTimer := some (reading + s.timer.m) } } := h.same
    unfold Machine.loseClock
    exact (lost.countedEdge false order).same
  | turnFlywheel reading order =>
    have armed : RunsLawful { s with timer := { s.timer with flyTimer := some (reading + s.timer.m) } } := h.same
    have counted := armed.countedEdge false order
    unfold Machine.turnFlywheel
    dsimp only
    split
    · exact counted.same
    · exact counted
  | link e x => exact h.same
  | judged e buffer bytes overlong => exact h.same
  | written w v => exact h.same
  | commitAdvanced w v => exact h.same
  | fillAdvanced w fills => exact h.same
  | passStarted e =>
    have begun : RunsLawful (beginPass e s) := h.next (beginPass_unclamped e s)
    exact begun.same
  | passRead l e w u o =>
    have read : RunsLawful (endAccess false (storeRead w u s)) := h.same
    exact (read.readFault l e w o).same
  | passTaken l e w u o =>
    have read : RunsLawful (endAccess false (storeRead w u s)) := h.same
    have taken := (read.readFault l e w o).next (passTakes_unclamped o _)
    exact taken.same
  | refreshExpired below arbiter => exact h.same
  | refreshLate entry => exact (h.storeFault entry false).same
  | refreshed => exact h.same
  | cleared k walks => exact h.same
  | verified k u walks => exact h.completeVerify k u
  | pulse => exact h.same
  | pulseLost => exact h.same
  | port p held => exact h.same
  | refused code result n free => exact h.same
  | command owns record => exact h.owned owns record
  | partReset n => exact .of_reset fun t => by simp [Machine.partReset, resetBlocks, State.tap, resetTaps]

/-- Settles O60: each case of a command keeps the law. -/
theorem everyStepKeepsTheRunCounts : Obligations.EveryStepKeepsTheRunCounts :=
  step_keeps (fun _ _ h => h.same) fun _ _ h left => left.runsLawful h

end Sys2Proof.Machine
end

section
/-! O51. PASS_START (R97, R98, R101, R106): when a pass is ready to begin, and what its engine's frame, the tap table and the
tap processor become. -/

namespace Sys2Proof.Machine

/-! ### When a pass begins (R97) -/

theorem passReady_eq_some {s : State} {e : Engine} {rest : List Engine} (idle : s.proc.pass = none)
    (queue : s.proc.queue = e :: rest) (closed : s.oldestOpen = s.timer.period) (ready : frameReady e s = true) :
    passReady s = some e := by
  unfold passReady
  rw [idle, queue]
  exact if_pos ⟨closed, ready⟩

theorem passReady_eq_none {s : State} {e : Engine} {rest : List Engine} (h : s.proc.pass ≠ none ∨ s.proc.queue = [] ∨
    (s.proc.queue = e :: rest ∧ (s.oldestOpen ≠ s.timer.period ∨ frameReady e s = false))) : passReady s = none := by
  unfold passReady
  split
  · next idle queue =>
    rcases h with busy | empty | ⟨head, unready⟩
    · exact absurd idle busy
    · rw [queue] at empty
      cases empty
    · rw [queue] at head
      obtain ⟨rfl, -⟩ := List.cons.inj head
      refine if_neg fun ⟨closed, ready⟩ => ?_
      rcases unready with unclosed | unframed
      · exact unclosed closed
      · rw [ready] at unframed
        cases unframed
  · rfl

theorem exec_passStart_ready {s : State} {e : Engine} (ready : passReady s = some e) :
    exec .passStart s = .next (settle (beginPass e s)) := by
  show Host.Outcome.next _ = _
  rw [ready]

theorem exec_passStart_unready {s : State} (unready : passReady s = none) : exec .passStart s = .next s := by
  show Host.Outcome.next _ = _
  rw [unready]

/-! ### What is handed to a frame (R74, R75) -/

/-- A frame after something is handed to the frame of a period; one that has ended takes nothing (R75). -/
def OutFrame.handed (p : PeriodCount) (hand : OutFrame → OutFrame) (f : OutFrame) : OutFrame :=
  if f.period = p ∧ f.state ≠ .ended then hand f else f

/-- What is handed after something that leaves the frame of its period open is handed to the same frame. -/
theorem OutFrame.handed_handed {p : PeriodCount} {first : OutFrame → OutFrame} (opens : ∀ f, (first f).state ≠ .ended)
    (period : ∀ f, (first f).period = f.period) (second : OutFrame → OutFrame) (f : OutFrame) :
    (f.handed p first).handed p second = f.handed p (second ∘ first) := by
  unfold OutFrame.handed
  by_cases takes : f.period = p ∧ f.state ≠ .ended
  · rw [if_pos takes, if_pos takes, if_pos ⟨(period f).trans takes.1, opens f⟩]
    rfl
  · rw [if_neg takes, if_neg takes, if_neg takes]

/-- What is handed after the planned count is handed to the same frame. -/
theorem map_planned_handed (p : PeriodCount) (n : Nat) (second : OutFrame → OutFrame) (fs : List OutFrame) :
    (fs.map (OutFrame.handed p (OutFrame.plan n))).map (OutFrame.handed p second) =
      fs.map (OutFrame.handed p (second ∘ OutFrame.plan n)) := by
  rw [List.map_map]
  exact List.map_congr_left fun f _ => OutFrame.handed_handed (first := .plan n) (fun _ => nofun) (fun _ => rfl) second f

/-! ### The beginning, by mode and taps (R98, R101, R106) -/

/-- The part with the engine off the queue's head and the planned count handed to its frame (R98). -/
def passPlanned (e : Engine) (s : State) : State :=
  handFrame e s.timer.period (OutFrame.plan (passTaps e s).length) { s with proc := { s.proc with queue := s.proc.queue.tail } }

theorem passPlanned_link (e : Engine) (s : State) (d : Engine) : (passPlanned e s).link d = if d = e then
    { s.link e with tx := (s.link e).tx.map (OutFrame.handed s.timer.period (OutFrame.plan (passTaps e s).length)) }
    else s.link d :=
  handFrame_link e _ _ { s with proc := { s.proc with queue := s.proc.queue.tail } } d

section
variable {s : State} {e : Engine}

theorem beginPass_first (normal : s.faults.mode = .normal) {first : TapNo} {more : List TapNo}
    (taps : passTaps e s = first :: more) : beginPass e s = { passPlanned e s with proc := { (passPlanned e s).proc with
      pass := some { engine := e, period := s.timer.period, planned := (passTaps e s).length, handed := 0
                     taps := passTaps e s, todo := tapReads s s.timer.period (s.tap first), got := []
                     faulted := false } } } := by
  have reads : tapReads (passPlanned e s) s.timer.period ((passPlanned e s).tap first) =
      tapReads s s.timer.period (s.tap first) := tapReads_congr _ rfl rfl rfl rfl
  unfold beginPass
  dsimp only
  rw [if_neg (by simp [State.inSafe, normal])]
  unfold passOn
  rw [taps]
  dsimp only
  rw [← reads, ← taps]
  rfl

theorem beginPass_empty (normal : s.faults.mode = .normal) (taps : passTaps e s = []) :
    beginPass e s = { handFrame e s.timer.period (OutFrame.finish .complete) (passPlanned e s) with
      proc := { (passPlanned e s).proc with pass := none } } := by
  unfold beginPass
  dsimp only
  rw [if_neg (by simp [State.inSafe, normal])]
  unfold passOn
  simp only [taps]
  rw [← taps]
  rfl

theorem beginPass_safe (safe : s.faults.mode = .safe) :
    beginPass e s = muteTaps e s.timer.period (passTaps e s) (passPlanned e s) :=
  if_pos (by simp [State.inSafe, safe])

/-- No other link changes. -/
theorem beginPass_link_other {d : Engine} (other : d ≠ e) : (beginPass e s).link d = s.link d := by
  have planned : (passPlanned e s).link d = s.link d := by rw [passPlanned_link, if_neg other]
  cases mode : s.faults.mode with
  | safe => rw [beginPass_safe mode, muteTaps_link, if_neg other, planned]
  | normal =>
    cases taps : passTaps e s with
    | nil =>
      rw [beginPass_empty mode taps]
      show (handFrame e _ _ (passPlanned e s)).link d = s.link d
      rw [handFrame_link, if_neg other, planned]
    | cons first more =>
      rw [beginPass_first mode taps]
      exact planned

theorem beginPass_proc (e : Engine) (s : State) :
    (beginPass e s).proc = { s.proc with queue := s.proc.queue.tail, pass := (beginPass e s).proc.pass } := by
  cases mode : s.faults.mode with
  | safe =>
    rw [beginPass_safe mode]
    have stands : (muteTaps e s.timer.period (passTaps e s) (passPlanned e s)).proc = (passPlanned e s).proc := by simp
    rw [stands]
    rfl
  | normal =>
    cases taps : passTaps e s with
    | nil => rw [beginPass_empty mode taps]; rfl
    | cons first more => rw [beginPass_first mode taps]; rfl

/-- An empty pass ends COMPLETE at once (R101). -/
theorem beginPass_empty_link (normal : s.faults.mode = .normal) (taps : passTaps e s = []) :
    (beginPass e s).link e = { s.link e with tx := (s.link e).tx.map (OutFrame.handed s.timer.period fun f =>
      { f with state := .ended, planned := 0, endStatus := some .complete }) } := by
  rw [beginPass_empty normal taps]
  show (handFrame e _ _ (passPlanned e s)).link e = _
  rw [handFrame_link, if_pos rfl, passPlanned_link, if_pos rfl, taps]
  exact congrArg (fun tx => { s.link e with tx := tx })
    (map_planned_handed s.timer.period 0 (OutFrame.finish .complete) (s.link e).tx)

/-- A pass that begins in SAFE hands every tap MUTED and ends MUTED at once (R106, log 35). -/
theorem beginPass_safe_link (safe : s.faults.mode = .safe) :
    (beginPass e s).link e = { s.link e with tx := (s.link e).tx.map (OutFrame.handed s.timer.period fun f =>
      { f with state := .ended, planned := (passTaps e s).length
               blocks := f.blocks ++ (passTaps e s).map (mutedBlock s.size), endStatus := some .muted }) } := by
  have size : (passPlanned e s).size = s.size := rfl
  rw [beginPass_safe safe, muteTaps_link, if_pos rfl, passPlanned_link, if_pos rfl, size]
  generalize passTaps e s = ts
  exact congrArg (fun tx => { s.link e with tx := tx })
    (map_planned_handed s.timer.period ts.length (fun f => { f with
      blocks := f.blocks ++ ts.map (mutedBlock s.size), state := .ended, endStatus := some .muted }) (s.link e).tx)

theorem muteTaps_tap (e : Engine) (p : PeriodCount) (ts : List TapNo) (s : State) (n : TapNo) :
    (muteTaps e p ts s).tap n = { s.tap n with clamped := (s.tap n).clamped && !ts.contains n } :=
  muted_tap e p ts s n

theorem beginPass_safe_tap (safe : s.faults.mode = .safe) (n : TapNo) : (beginPass e s).tap n =
    { s.tap n with clamped := (s.tap n).clamped && !(passTaps e s).contains n } := by
  have tap : (passPlanned e s).tap n = s.tap n := rfl
  rw [beginPass_safe safe, muteTaps_tap, tap]

end

/-- Settles O51: when the pass begins, and what it begins with by mode and taps. -/
theorem passesBeginWithTheirTaps : Obligations.PassesBeginWithTheirTaps := by
  intro s e rest ready taps hand muted
  refine ⟨fun idle queue closed framed => ?_, fun unready => exec_passStart_unready (passReady_eq_none unready)⟩
  have begins := exec_passStart_ready (passReady_eq_some idle queue closed framed)
  have proc := beginPass_proc e s
  refine ⟨beginPass e s, begins, ?_, fun d other => beginPass_link_other other, ?_, ?_, fun normal => ?_,
    fun normal first more held => ?_, fun normal empty => ⟨beginPass_empty_link normal empty, ?_⟩,
    fun safe => ⟨beginPass_safe_link safe, ?_, fun n => ?_⟩⟩
  · apply State.eq_of_fields <;> simp
  · rw [proc, queue]
    rfl
  · rw [proc]
  · cases held : passTaps e s with
    | nil => rw [beginPass_empty normal held]; rfl
    | cons first more => rw [beginPass_first normal held]; rfl
  · rw [beginPass_first normal held]
    have planned := passPlanned_link e s e
    rw [if_pos rfl] at planned
    exact ⟨planned, rfl⟩
  · rw [beginPass_empty normal empty]
  · have stands : (muteTaps e s.timer.period (passTaps e s) (passPlanned e s)).proc = (passPlanned e s).proc := by simp
    rw [beginPass_safe safe, stands]
    exact idle
  · exact beginPass_safe_tap safe n

end Sys2Proof.Machine
end

section
/-! O28. SET_TAP and CLEAR_TAP (R82 to R86): the argument bytes, the screen, the eight checks one by one, and the first that
fails. -/

namespace Sys2Proof.Machine

/-! ### The argument bytes -/

/-- The set behind a tap number is the set alone. -/
theorem RawSet.parse_behind_tap (hi lo : Byte) (set : List Byte) :
    RawSet.parse (hi :: lo :: set) 2 = RawSet.parse set 0 := rfl

theorem argField_tap_above {hi lo : Byte} (h : 2 ≤ hi.toNat) (rest : List Byte) :
    511 < argField (hi :: lo :: rest) 0 2 :=
  argField_above h

theorem RawSet.screened_iff (r : RawSet) : r.screened = true ↔ 65536 < r.gain ∨ 256 < r.glideRate ∨ 64 < r.fadeLen ∨
    64 < r.edgeFade ∨ 16 < r.osc ∨ 1 < r.mode ∨ 1 < r.polarity ∨ 1 < r.interp ∨ 2 < r.method ∨ 1 < r.run := by
  simp only [RawSet.screened, Bool.or_eq_true, decide_eq_true_eq, or_assoc]

/-! ### The first check that fails (R84) -/

section
variable {s : State} {t : TapNo} {r : RawSet}

theorem firstFailing_eq_some {n : Nat} (low : 1 ≤ n) (high : n ≤ 8) (fails : checkFails s t r n = true)
    (passes : ∀ m, 1 ≤ m → m < n → checkFails s t r m = false) : firstFailing s t r = some n := by
  have checks : [1, 2, 3, 4, 5, 6, 7, 8] = List.range' 1 8 := rfl
  rw [firstFailing, checks, List.find?_range'_eq_some]
  exact ⟨fails, List.mem_range'_1.mpr ⟨low, by omega⟩, fun m from_ below => by rw [passes m from_ below]; rfl⟩

theorem firstFailing_eq_none (passes : ∀ n, 1 ≤ n → n ≤ 8 → checkFails s t r n = false) : firstFailing s t r = none := by
  refine List.find?_eq_none.mpr fun n check => Bool.eq_false_iff.mp (passes n ?_ ?_)
  · revert n; decide
  · revert n; decide

/-! ### What the two commands answer -/

/-- A command in progress and the zeros it has shifted out show in no check. -/
theorem firstFailing_hold (code : Byte) (n : Nat) : firstFailing (hold code (wrote n s)) t r = firstFailing s t r := rfl

theorem ownSetTap_names {set : List Byte} (inside : (RawSet.parse set 0).screened = false) :
    ownSetTap (bytesOf 2 t.val ++ set) s = judgeSet t (RawSet.parse set 0) s := by
  have parsed : RawSet.parse (bytesOf 2 t.val ++ set) 2 = RawSet.parse set 0 := by
    rw [bytesOf_two]
    exact RawSet.parse_behind_tap _ _ set
  unfold ownSetTap
  dsimp only
  rw [parsed, argField_tap, argTap_bytes, inside, if_neg]
  exact fun refused => refused.elim (Nat.not_lt.mpr (Nat.le_of_lt_succ t.isLt)) Bool.false_ne_true

theorem ownSetTap_screens {set : List Byte} (outside : (RawSet.parse set 0).screened = true) :
    ownSetTap (bytesOf 2 t.val ++ set) s = refuse .badArg s := by
  rw [bytesOf_two]
  exact if_pos (.inr outside)

theorem judgeSet_fails {n : Nat} (h : firstFailing s t r = some n) : judgeSet t r s = (.done .check n [], s) := by
  unfold judgeSet
  rw [h]

theorem judgeSet_passes (h : firstFailing s t r = none) :
    judgeSet t r s = okBytes [] (stageEdit t (stagedAs r.toSet) s) := by
  unfold judgeSet
  rw [h]

theorem exec_setTap (h : takesCommands s = true) {args : List Byte} (hn : args.length = 26) :
    exec (.setTap (whole args)) s = .next (answer 0x30 (ownSetTap args (hold 0x30 (wrote 26 s)))) := by
  obtain ⟨hf, normal⟩ := (takesCommands_iff s).mp h
  exact congrArg Host.Outcome.next (writeCommand_answers hf (by decide) hn (taken_of_normal normal _) ownSetTap)

theorem exec_clearTap (h : takesCommands s = true) {args : List Byte} (hn : args.length = 2) :
    exec (.clearTap (whole args)) s = .next (answer 0x31 (ownClearTap args (hold 0x31 (wrote 2 s)))) := by
  obtain ⟨hf, normal⟩ := (takesCommands_iff s).mp h
  exact congrArg Host.Outcome.next (writeCommand_answers hf (by decide) hn (taken_of_normal normal _) ownClearTap)

theorem ownClearTap_names : ownClearTap (bytesOf 2 t.val) s = okBytes [] (stageEdit t .stop s) := by
  have number := argField_tap t []
  have tap := argTap_bytes t []
  rw [List.append_nil] at number tap
  unfold ownClearTap
  rw [number, if_neg (Nat.not_lt.mpr (Nat.le_of_lt_succ t.isLt)), tap]

/-! ### The eight checks (R84, R85) -/

theorem checkFails_two : checkFails s t r 2 = true ↔ 3 < r.reader ∨ (s.link (Fin.ofNat 4 r.reader)).state = .off := by
  show (decide (3 < r.reader) || (s.link (Fin.ofNat 4 r.reader)).state == .off) = true ↔ _
  rw [Bool.or_eq_true, decide_eq_true_eq, beq_iff_eq]

theorem checkFails_three :
    checkFails s t r 3 = true ↔ 127 < r.line ∨ (s.line (Fin.ofNat 128 r.line)).state ≠ .active := by
  show (decide (127 < r.line) || (s.line (Fin.ofNat 128 r.line)).state != .active) = true ↔ _
  rw [Bool.or_eq_true, decide_eq_true_eq, bne_iff_ne]

theorem checkDelayFails_iff (b l : Nat) : checkDelayFails b l r = true ↔
    (r.mode = 0 ∧ (r.fixedDelay < (b + 1) * 256 ∨ (l - b - 2) * 256 < r.fixedDelay)) ∨ r.modifier = 3 := by
  simp only [checkDelayFails, Bool.or_eq_true, Bool.and_eq_true, beq_iff_eq, decide_eq_true_eq]

theorem checkDepthFails_iff : checkDepthFails r = true ↔
    (r.osc ≠ 0 ∧ r.depth = 0) ∨ 4095 * 256 + 255 < r.depth ∨ (r.osc = 0 ∧ 0 < r.depth) := by
  simp only [checkDepthFails, Bool.or_eq_true, Bool.and_eq_true, bne_iff_ne, beq_iff_eq, decide_eq_true_eq, or_assoc]

theorem checkMethodFails_iff : checkMethodFails r = true ↔ (r.method = 1 ∧ r.glideRate = 0) ∨
    ((r.method = 1 ∨ r.method = 2) ∧ r.fadeLen = 0) ∨ (r.interp = 0 ∧ 0 < r.depth) ∨
    (r.mode = 1 ∧ r.method = 0 ∧ r.edgeFade = 0) := by
  simp only [checkMethodFails, Bool.or_eq_true, Bool.and_eq_true, beq_iff_eq, decide_eq_true_eq, or_assoc, and_assoc]

/-- The set is staged as a start by its run flag's code (R84). -/
theorem stagedAs_toSet (r : RawSet) : stagedAs r.toSet = if r.run ≠ 0 then .start r.toSet else .preset r.toSet := by
  have run : r.toSet.run = true ↔ r.run ≠ 0 := bne_iff_ne
  unfold stagedAs
  simp only [run]

theorem checkFails_eight : checkFails s t r 8 = true ↔
    (s.tap t).state ≠ .idle ∧ (s.tap t).current.reader ≠ Fin.ofNat 4 r.reader := by
  show ((s.tap t).state != .idle && (s.tap t).current.reader != Fin.ofNat 4 r.reader) = true ↔ _
  rw [Bool.and_eq_true, bne_iff_ne, bne_iff_ne]

end

/-- What a tap counts for, state by state, in the words of R85. -/
theorem Tap.countsFor_by_state (e : Engine) (t : Tap) : t.countsFor e =
    ((t.state == .idle && (match t.staged with | some (.start p) => p.reader == e | _ => false)) ||
     (t.state == .stopping && t.current.reader == e && (match t.staged with | some (.start _) => true | _ => false)) ||
     (t.state != .idle && t.state != .stopping && t.current.reader == e)) := by
  unfold Tap.countsFor
  split
  · next idle => rcases staged : t.staged with _ | ⟨p⟩ | ⟨p⟩ | _ <;> simp [idle, Edit.isStart, Edit.set?]
  · next stopping => rcases staged : t.staged with _ | ⟨p⟩ | ⟨p⟩ | _ <;> simp [stopping, Edit.isStart]
  all_goals next sounds => rw [sounds]; rfl

/-- Settles O28: the answers by the screen and the first check that fails, and each check by its own equation. -/
theorem setTapIsJudgedByTheEightChecks : Obligations.SetTapIsJudgedByTheEightChecks := by
  refine ⟨fun s t taking => ⟨?set, ?setAbove, ?clear, ?clearAbove⟩, fun s t r => ?checks⟩
  case set =>
    intro set length r taken outside
    have answers : taken = _ := exec_setTap taking (args := bytesOf 2 t.val ++ set) (by simp [length])
    have screen : outside ↔ r.screened = true := (RawSet.screened_iff r).symm
    have judged : ¬outside → taken = .next (answer 0x30 (judgeSet t r (hold 0x30 (wrote 26 s)))) := fun inside => by
      rw [answers, ownSetTap_names (Bool.eq_false_iff.mpr fun h => inside (screen.mpr h))]
    refine ⟨fun out => ?_, fun inside n low high fails passes => ?_, fun inside passes => ?_⟩
    · rw [answers, ownSetTap_screens (screen.mp out)]
      rfl
    · rw [judged inside, judgeSet_fails ((firstFailing_hold 0x30 26).trans (firstFailing_eq_some low high fails passes))]
      rfl
    · rw [judged inside, judgeSet_passes ((firstFailing_hold 0x30 26).trans (firstFailing_eq_none passes))]
      rfl
  case setAbove =>
    intro hi lo set above length
    have refused : ownSetTap (hi :: lo :: set) (hold 0x30 (wrote 26 s)) = refuse .badArg (hold 0x30 (wrote 26 s)) :=
      if_pos (.inl (argField_tap_above above set))
    rw [exec_setTap taking (by simp [length]), refused]
    rfl
  case clear =>
    rw [exec_clearTap taking (bytesOf_length 2 t.val), ownClearTap_names]
    rfl
  case clearAbove =>
    intro hi lo above
    have refused : ownClearTap [hi, lo] (hold 0x31 (wrote 2 s)) = refuse .badArg (hold 0x31 (wrote 2 s)) :=
      if_pos (argField_above above)
    rw [exec_clearTap taking rfl, refused]
    rfl
  case checks =>
    intro reader line fails
    refine ⟨Iff.rfl, checkFails_two, checkFails_three, checkDelayFails_iff _ _, checkDepthFails_iff, checkMethodFails_iff,
      ?_, checkFails_eight⟩
    have counted : runCount reader (stageEdit t (stagedAs r.toSet) s) = _ :=
      List.countP_congr fun x _ => iff_of_eq (congrArg (· = true) (Tap.countsFor_by_state reader x))
    rw [stagedAs_toSet] at counted
    show decide (128 < runCount reader (stageEdit t (stagedAs r.toSet) s)) = true ↔ _
    rw [decide_eq_true_eq, stagedAs_toSet, counted]
    rfl

end Sys2Proof.Machine
end

section
/-! O26. Edits behind a crossfade (R120, R121), the tempo's retargets (R122, R123) and base delays (R88, R129). -/

namespace Sys2Proof.Machine

/-! ### Behind a crossfade (R120, R121) -/

section
variable {t : Tap} {p : ParamSet} (ib : Nat)

/-- A start behind a crossfade waits as the pending target. -/
theorem Tap.applyEdit_start_behind (staged : t.staged = some (.start p))
    (behind : t.state = .fading ∨ t.pendingTarget.isSome = true) :
    t.applyEdit ib = { t with staged := none, pendingTarget := some p } := by
  by_cases held : t.pendingTarget.isSome = true
  · exact Tap.applyEdit_start_waiting ib staged held
  · have fading : t.state = .fading := behind.resolve_right held
    rw [Tap.applyEdit_start ib staged (by simpa using held)]
    unfold Tap.applyStart
    rw [fading]

/-- A stop of a FADING tap waits as the stop form. -/
theorem Tap.applyStop_fading (fading : t.state = .fading) : t.applyStop = { t with pendingTarget := some t.stopForm } := by
  unfold Tap.applyStop
  rw [fading]

/-- A preset behind a crossfade waits as the stop form. -/
theorem Tap.applyEdit_preset_behind (staged : t.staged = some (.preset p))
    (behind : t.state = .fading ∨ t.pendingTarget.isSome = true) :
    t.applyEdit ib = { t with staged := none, pendingTarget := some t.stopForm } := by
  by_cases held : t.pendingTarget.isSome = true
  · exact Tap.applyEdit_preset_waiting ib staged held
  · have fading : t.state = .fading := behind.resolve_right held
    rw [Tap.applyEdit_preset ib staged (by simpa using held)]
    unfold Tap.applyPreset
    simp only [fading]
    exact Tap.applyStop_fading rfl

/-- So does a stop. -/
theorem Tap.applyEdit_stop_behind (staged : t.staged = some .stop)
    (behind : t.state = .fading ∨ t.pendingTarget.isSome = true) :
    t.applyEdit ib = { t with staged := none, pendingTarget := some t.stopForm } := by
  by_cases held : t.pendingTarget.isSome = true
  · exact Tap.applyEdit_stop_waiting ib staged held
  · have fading : t.state = .fading := behind.resolve_right held
    rw [Tap.applyEdit_stop ib staged (by simpa using held)]
    exact Tap.applyStop_fading fading

theorem Tap.applyPending_fading (fading : t.state = .fading) : t.applyPending ib = t := by
  unfold Tap.applyPending
  rw [fading]

/-- The pending target of a RUNNING tap is applied as a retarget where it runs, and else as a stop. -/
theorem Tap.applyPending_running (running : t.state = .running) (held : t.pendingTarget = some p) :
    t.applyPending ib = if p.run = true then ({ t with pendingTarget := none } : Tap).applyStart ib p
      else ({ t with pendingTarget := none } : Tap).applyStop := by
  unfold Tap.applyPending Tap.applyStart Tap.applyStop
  simp only [running, held]

/-! ### The tempo (R122, R123) -/

theorem TapState.isSteady_iff (x : TapState) : x.isSteady = true ↔ x = .running ∨ x = .gliding := by
  cases x <;> decide

/-- The tempo moves the tap (R122). -/
def Tap.follows (ib : Nat) (concerned : Bool) (t : Tap) : Prop :=
  t.current.mode = .tempo ∧ (t.state = .running ∨ t.state = .gliding) ∧ concerned = true ∧ baseDelay ib t.current ≠ t.target

/-- A tap that the tempo does not move stands. -/
theorem Tap.followTempo_stands {concerned : Bool} (h : ¬t.follows ib concerned) : t.followTempo ib concerned = t := by
  unfold Tap.follows at h
  rw [← TapState.isSteady_iff] at h
  exact if_neg h

/-- One that it moves takes a retarget by its current set's method. -/
theorem Tap.followTempo_moves {concerned : Bool} (h : t.follows ib concerned) :
    (t.current.method = .glide → t.followTempo ib concerned = t.glideTo (baseDelay ib t.current)) ∧
    (t.current.method = .xfade → t.followTempo ib concerned = t.crossfade ib t.current.fadeLen t.current) ∧
    (t.current.method = .jump → t.followTempo ib concerned = t.crossfade ib t.current.edgeFade t.current) := by
  unfold Tap.follows at h
  rw [← TapState.isSteady_iff] at h
  unfold Tap.followTempo
  rw [if_pos h]
  refine ⟨fun method => ?_, fun method => ?_, fun method => ?_⟩ <;> rw [method]

end

/-- Settles O26: the edits behind a crossfade, the retargets of the tempo by method, and the base delays. -/
theorem pendingEditsWaitAndTapsFollowTheTempo : Obligations.PendingEditsWaitAndTapsFollowTheTempo := by
  refine ⟨fun ib p t => ⟨fun behind => ⟨?_, ?_, ?_⟩, Tap.applyPending_fading ib, fun running held runs => ?_,
    fun running held stops => ?_⟩, fun ib concerned t => ⟨Tap.followTempo_stands ib, fun follows => ?_, fun follows => ?_,
    fun follows => ?_⟩, fun ib p => ⟨?_, fun fixed => ?_, fun tempo => ?_⟩⟩
  · exact Tap.applyEdit_start_behind (t := { t with staged := some (.start p) }) ib rfl behind
  · exact Tap.applyEdit_preset_behind (t := { t with staged := some (.preset p) }) ib rfl behind
  · exact Tap.applyEdit_stop_behind (t := { t with staged := some .stop }) ib rfl behind
  · rw [Tap.applyPending_running ib running held, if_pos runs]
  · rw [Tap.applyPending_running ib running held, if_neg (Bool.eq_false_iff.mp stops)]
  · exact (Tap.followTempo_moves ib follows).1
  · exact (Tap.followTempo_moves ib follows).2.1
  · exact (Tap.followTempo_moves ib follows).2.2
  · rw [noteLength_eq]
    cases p.modifier <;> rfl
  · unfold baseDelay
    rw [fixed]
  · rw [baseDelay_tempo ib tempo]
    cases p.modifier <;> rfl

end Sys2Proof.Machine
end

section
/-! The arithmetic of readings (R90 to R95): rounding and saturation, the clamp to a line's floor and ceiling, the ramp between
the edge delays, and the ring positions. -/

namespace Sys2Proof.Machine

/-! ### Rounding away from zero, and saturation (R95) -/

theorem roundAway_of_nonneg {x : Rat} (h : 0 ≤ x) : roundAway x = ⌊x + 1 / 2⌋ := if_pos h

theorem roundAway_of_neg {x : Rat} (h : x < 0) : roundAway x = -⌊-x + 1 / 2⌋ := if_neg (not_le.mpr h)

/-- A number rounded lies within a half of it, and off by a half only above it. -/
theorem floor_half_near (x : Rat) : (⌊x + 1 / 2⌋ : Rat) - x ≤ 1 / 2 ∧ -(1 / 2) < (⌊x + 1 / 2⌋ : Rat) - x := by
  have low := Int.floor_le (x + 1 / 2)
  have high := Int.lt_floor_add_one (x + 1 / 2)
  constructor <;> linarith

theorem roundAway_near (x : Rat) : |(roundAway x : Rat) - x| ≤ 1 / 2 ∧
    (|(roundAway x : Rat) - x| = 1 / 2 → |x| < |(roundAway x : Rat)|) := by
  have halfway : ∀ d : Rat, d ≤ 1 / 2 → -(1 / 2) < d → |d| = 1 / 2 → d = 1 / 2 := fun d _ below half => by
    rcases abs_choice d with same | opposite <;> linarith
  rcases le_or_gt 0 x with nonneg | neg
  · rw [roundAway_of_nonneg nonneg]
    obtain ⟨high, low⟩ := floor_half_near x
    refine ⟨abs_le.mpr ⟨low.le, high⟩, fun half => ?_⟩
    have above := halfway _ high low half
    rw [abs_of_nonneg nonneg, abs_of_nonneg (by linarith)]
    linarith
  · rw [roundAway_of_neg neg]
    obtain ⟨high, low⟩ := floor_half_near (-x)
    push_cast
    have flip : -(⌊-x + 1 / 2⌋ : Rat) - x = -((⌊-x + 1 / 2⌋ : Rat) - -x) := by ring
    rw [flip, abs_neg]
    refine ⟨abs_le.mpr ⟨low.le, high⟩, fun half => ?_⟩
    have above := halfway _ high low half
    rw [abs_of_neg neg, abs_neg, abs_of_nonneg (by linarith)]
    linarith

/-- A whole number stands. -/
theorem roundAway_intCast (n : Int) : roundAway n = n := by
  have half : ∀ m : Int, ⌊(m : Rat) + 1 / 2⌋ = m := fun m => by
    rw [Int.floor_eq_iff]
    constructor <;> linarith
  rcases le_or_gt 0 (n : Rat) with nonneg | neg
  · rw [roundAway_of_nonneg nonneg, half]
  · have opposite : -(n : Rat) = ((-n : Int) : Rat) := by push_cast; rfl
    rw [roundAway_of_neg neg, opposite, half, neg_neg]

theorem saturate24_toInt (v : Int) : (saturate24 v).toInt = max (-8388608) (min 8388607 v) := by
  unfold saturate24
  rw [BitVec.toInt_ofInt, Int.bmod_eq_of_le] <;> norm_num

/-- A sample is within its own range. -/
theorem saturate24_sample (v : Sample) : saturate24 v.toInt = v := by
  have low := BitVec.le_toInt v
  have high := BitVec.toInt_lt (x := v)
  refine BitVec.eq_of_toInt_eq ?_
  rw [saturate24_toInt]
  norm_num at low high
  omega

/-! ### Rounding a quotient -/

theorem roundUpHalf_spec (n : Nat) {d : Nat} (h : 0 < d) :
    2 * d * roundUpHalf n d ≤ 2 * n + d ∧ 2 * n + d < 2 * d * roundUpHalf n d + 2 * d := by
  have low := Nat.mul_div_le (2 * n + d) (2 * d)
  have high := Nat.lt_mul_div_succ (2 * n + d) (b := 2 * d) (by omega)
  rw [Nat.mul_add, Nat.mul_one] at high
  exact ⟨low, high⟩

/-- A quotient that lies between two whole numbers is rounded between them. -/
theorem roundUpHalf_between {n d low high : Nat} (h : 0 < d) (reaches : low * d ≤ n) (below : n ≤ high * d) :
    low ≤ roundUpHalf n d ∧ roundUpHalf n d ≤ high := by
  obtain ⟨near, near'⟩ := roundUpHalf_spec n h
  constructor
  · by_contra under
    have : roundUpHalf n d + 1 ≤ low := by omega
    have : 2 * d * (roundUpHalf n d + 1) ≤ 2 * d * low := Nat.mul_le_mul_left _ this
    nlinarith
  · by_contra above
    have : high + 1 ≤ roundUpHalf n d := by omega
    have : 2 * d * (high + 1) ≤ 2 * d * roundUpHalf n d := Nat.mul_le_mul_left _ this
    nlinarith

theorem roundUpHalf_mul (n : Nat) {d : Nat} (h : 0 < d) : roundUpHalf (n * d) d = n :=
  have ⟨low, high⟩ := roundUpHalf_between (n := n * d) h (Nat.le_refl _) (Nat.le_refl _)
  Nat.le_antisymm high low

/-! ### The clamp (R91) -/

theorem size_bounds (s : State) : 16 ≤ s.size ∧ s.size ≤ 64 := by
  unfold State.size
  cases s.timer.size <;> decide

/-- A line that holds a page is long enough for its floor to lie below its ceiling. -/
theorem floor_le_ceiling {s : State} {l : Line} (pages : l.pages ≠ []) :
    delayFloor s.size ≤ delayCeiling s.size l.length ∧ s.size + 2 ≤ l.length := by
  have paged : 0 < l.pages.length := List.length_pos_of_ne_nil pages
  have size := (size_bounds s).2
  unfold delayFloor delayCeiling Line.length
  omega

section
variable {b l : Nat} (ordered : delayFloor b ≤ delayCeiling b l) (d : Int)
include ordered

theorem clampEdge_eq : (clampEdge b l d : Int) = max (delayFloor b : Int) (min (delayCeiling b l : Int) d) := by
  unfold clampEdge
  omega

theorem clampEdge_bounds : delayFloor b ≤ clampEdge b l d ∧ clampEdge b l d ≤ delayCeiling b l := by
  unfold clampEdge
  omega

end

theorem clampEdge_inside {b l d : Nat} (low : delayFloor b ≤ d) (high : d ≤ delayCeiling b l) : clampEdge b l d = d := by
  unfold clampEdge
  omega

theorem edgeClamps_iff (b l : Nat) (d : Int) :
    edgeClamps b l d = true ↔ d < delayFloor b ∨ (delayCeiling b l : Int) < d := by
  unfold edgeClamps
  rw [Bool.or_eq_true, decide_eq_true_eq, decide_eq_true_eq]

/-! ### The ramp and the ring (R92) -/

section
variable (r : Reading) {b i : Nat}

/-- The delay at a sample is the ramp's, to the nearest 256th. -/
theorem Reading.delayAt_near (positive : 0 < b) (inside : i ≤ b) :
    2 * ((r.delayAt b i : Int) * b - ((r.startDelay : Int) * b + ((r.endDelay : Int) - r.startDelay) * i)).natAbs ≤ b := by
  obtain ⟨low, high⟩ := roundUpHalf_spec (r.startDelay * (b - i) + r.endDelay * i) positive
  have ramp : (r.startDelay : Int) * b + ((r.endDelay : Int) - r.startDelay) * i =
      ((r.startDelay * (b - i) + r.endDelay * i : Nat) : Int) := by
    push_cast [Nat.cast_sub inside]
    ring
  rw [ramp]
  unfold Reading.delayAt
  generalize r.startDelay * (b - i) + r.endDelay * i = n at low high
  generalize roundUpHalf n b = q at low high
  have shuffled : 2 * b * q = 2 * (q * b) := by ring
  rw [shuffled] at low high
  have cast : (q : Int) * b = ((q * b : Nat) : Int) := by push_cast; rfl
  rw [cast]
  omega

/-- A ramp between two edge delays stays between the bounds that both keep. -/
theorem Reading.delayAt_between (positive : 0 < b) (inside : i ≤ b) {low high : Nat}
    (start : low ≤ r.startDelay ∧ r.startDelay ≤ high) (stop : low ≤ r.endDelay ∧ r.endDelay ≤ high) :
    low ≤ r.delayAt b i ∧ r.delayAt b i ≤ high := by
  have split : ∀ x : Nat, x * b = x * (b - i) + x * i := fun x => by
    rw [← Nat.mul_add, Nat.sub_add_cancel inside]
  refine roundUpHalf_between positive ?_ ?_
  · rw [split]
    exact Nat.add_le_add (Nat.mul_le_mul_right _ start.1) (Nat.mul_le_mul_right _ stop.1)
  · rw [split]
    exact Nat.add_le_add (Nat.mul_le_mul_right _ start.2) (Nat.mul_le_mul_right _ stop.2)

/-- A delay that does not move is the same at every sample. -/
theorem Reading.delayAt_still (positive : 0 < b) (inside : i ≤ b) {d : Nat} (start : r.startDelay = d)
    (stop : r.endDelay = d) : r.delayAt b i = d := by
  obtain ⟨low, high⟩ := r.delayAt_between positive inside (low := d) (high := d) (by omega) (by omega)
  exact Nat.le_antisymm high low

/-- The position lies the delay behind the sample, round the ring. -/
theorem Reading.positionAt_add_delayAt {head l : Nat} (within : r.delayAt b i ≤ l * 256) :
    (r.positionAt b head l i + r.delayAt b i) % (l * 256) = ((head + i) * 256) % (l * 256) := by
  unfold Reading.positionAt
  have room : r.delayAt b i ≤ (head + i) * 256 + l * 256 := within.trans (Nat.le_add_left _ _)
  rw [Nat.mod_add_mod, Nat.sub_add_cancel room, Nat.add_mod_right]

end

end Sys2Proof.Machine
end

section
/-! O10. What a tap sounds (R90 to R95, R100, R124): its readings in every state, the value of a reading at a position, the sum
over the readings, and the flags of the block. -/

namespace Sys2Proof.Machine

/-! ### The value of a reading at a position (R93) -/

theorem gotAt_found {got : List GotSample} {side q : Nat} {x : GotSample}
    (found : got.find? (fun g => g.side == side && g.position == q) = some x) : gotAt got side q = x.v.toInt := by
  unfold gotAt
  rw [found]

theorem position_parts (q : Nat) {f : Nat} (h : f < 256) : (q * 256 + f) / 256 = q ∧ (q * 256 + f) % 256 = f := by
  omega

section
variable {got : List GotSample} {side l q f : Nat} {x y : GotSample} (fraction : f < 256)
  (found : got.find? (fun g => g.side == side && g.position == q) = some x)
  (next : got.find? (fun g => g.side == side && g.position == (q + 1) % l) = some y)
include fraction found

theorem readingValue_none : readingValue got side .none l (q * 256 + f) = x.v.toInt := by
  unfold readingValue
  dsimp only
  rw [(position_parts q fraction).1, gotAt_found found]

include next in
theorem readingValue_linear :
    readingValue got side .linear l (q * 256 + f) = x.v.toInt * (1 - (f : Rat) / 256) + y.v.toInt * ((f : Rat) / 256) := by
  obtain ⟨whole, rest⟩ := position_parts q fraction
  unfold readingValue
  dsimp only
  rw [whole, rest, gotAt_found found, gotAt_found next]
  split
  · next zero => simp [zero]
  · rfl

end

theorem sampleNeeds_none (l q : Nat) {f : Nat} (fraction : f < 256) : sampleNeeds .none l (q * 256 + f) = [q] := by
  unfold sampleNeeds
  dsimp only
  rw [(position_parts q fraction).1]

theorem mem_sampleNeeds_linear (l q p : Nat) {f : Nat} (fraction : f < 256) :
    p ∈ sampleNeeds .linear l (q * 256 + f) ↔ p = q ∨ (f ≠ 0 ∧ p = (q + 1) % l) := by
  obtain ⟨whole, rest⟩ := position_parts q fraction
  unfold sampleNeeds
  dsimp only
  rw [whole, rest]
  split
  · next zero => simp [zero]
  · next some => simp [some]

/-! ### The readings of a tap (R89 to R94, R124) -/

theorem tapReadings_single {t : Tap} (h : t.state ≠ .fading) (s : State) :
    tapReadings s t = [sideReading s t.reading (t.glided s.size) t.newGains] := by
  unfold tapReadings
  dsimp only
  split
  · next fading _ => exact absurd fading h
  · rfl

theorem tapReadings_fading {t : Tap} {old : OldSide} (fading : t.state = .fading) (held : t.oldSide = some old)
    (s : State) : tapReadings s t = [sideReading s old old.delay (fallingGains t.fadeCount t.fadeOf),
      sideReading s t.reading (t.glided s.size) t.newGains] := by
  unfold tapReadings
  rw [fading, held]

/-- The offset that an oscillator gives a side (R90). -/
def sideOffset (s : State) (o : OldSide) (value : Osc → Rat) : Int :=
  match o.osc with
  | none => 0
  | some m => roundAway (value (s.osc m) * o.depth)

theorem modOffset_eq (s : State) (o : OldSide) :
    modOffset (oscValues s o.osc o.quadrant).1 o.depth = sideOffset s o (Osc.startValue o.quadrant) ∧
    modOffset (oscValues s o.osc o.quadrant).2 o.depth = sideOffset s o (Osc.endValue o.quadrant) := by
  have still : ∀ depth : Nat, modOffset 0 depth = 0 := fun depth => by
    unfold modOffset
    rw [zero_mul]
    exact roundAway_intCast 0
  unfold oscValues sideOffset
  cases o.osc with
  | none => exact ⟨still _, still _⟩
  | some m => exact ⟨rfl, rfl⟩

/-- The reading made of a side: its delays with their offsets at the two edges, clamped, and its gains (R90, R91, R94). -/
def SideMade (s : State) (o : OldSide) (endDelay : Nat) (gains : Rat × Rat) (r : Reading) : Prop :=
  let low : Int := (s.size + 1) * 256
  let high : Int := ((s.line o.line).length - s.size - 2 : Nat) * 256
  let first : Int := o.delay + sideOffset s o (Osc.startValue o.quadrant)
  let last : Int := endDelay + sideOffset s o (Osc.endValue o.quadrant)
  r.line = o.line ∧ r.interp = o.interp ∧ r.gain = o.gain ∧ r.inverted = o.inverted ∧
  (r.startDelay : Int) = max low (min high first) ∧ (r.endDelay : Int) = max low (min high last) ∧
  (r.clamped = true ↔ first < low ∨ high < first ∨ last < low ∨ high < last) ∧
  r.startGain = gains.1 ∧ r.endGain = gains.2

theorem sideReading_made {s : State} {o : OldSide} (pages : (s.line o.line).pages ≠ []) (endDelay : Nat)
    (gains : Rat × Rat) : SideMade s o endDelay gains (sideReading s o endDelay gains) := by
  obtain ⟨start, stop⟩ := modOffset_eq s o
  have ordered := (floor_le_ceiling (s := s) pages).1
  have low : (delayFloor s.size : Int) = (s.size + 1) * 256 := by unfold delayFloor; push_cast; rfl
  have high : (delayCeiling s.size (s.line o.line).length : Int) =
      ((s.line o.line).length - s.size - 2 : Nat) * 256 := by unfold delayCeiling; push_cast; rfl
  refine ⟨rfl, rfl, rfl, rfl, ?_, ?_, ?_, rfl, rfl⟩
  · rw [← low, ← high, ← start]
    exact clampEdge_eq ordered _
  · rw [← low, ← high, ← stop]
    exact clampEdge_eq ordered _
  · unfold sideReading
    dsimp only
    rw [Bool.or_eq_true, edgeClamps_iff, edgeClamps_iff, start, stop, low, high, or_assoc]

/-- A glide's delay at the period's end is where step 1 takes it; every other tap's stands (R89, R110). -/
theorem Tap.advance_delay (b : Nat) (t : Tap) : (t.advance b).delay = t.glided b := by
  unfold Tap.advance Tap.glided
  cases t.state <;> rfl

theorem risingGains_eq (k n : Nat) :
    risingGains k n = (equalPowerGain ((k : Rat) / n), equalPowerGain ((k + 1 : Rat) / n)) := by
  unfold risingGains
  rw [Nat.cast_succ]

theorem fallingGains_eq (k n : Nat) :
    fallingGains k n = (equalPowerGain (1 - (k : Rat) / n), equalPowerGain (1 - (k + 1 : Rat) / n)) := by
  unfold fallingGains
  rw [Nat.cast_succ]

/-- A tap that is not FADING makes one reading, with the gains of its state. -/
theorem tapReadings_made {s : State} {t : Tap} (pages : (s.line t.current.line).pages ≠ []) (h : t.state ≠ .fading) :
    ∃ r, tapReadings s t = [r] ∧ SideMade s t.reading (t.advance s.size).delay t.newGains r := by
  rw [Tap.advance_delay]
  exact ⟨_, tapReadings_single h s, sideReading_made (o := t.reading) pages _ _⟩

/-! ### Samples and flags (R95, R100) -/

/-- In the current period a reading adds its value at its position from the head, by its gains (R92, R95). -/
theorem contribution_current (s : State) {p : Pass} (current : p.period = s.timer.period) (side i : Nat) (r : Reading) :
    r.contribution s p side i =
      let line := s.line r.line
      let v := readingValue p.got side r.interp line.length (r.positionAt s.size line.head line.length i)
        * ((r.gain : Rat) / 65536) * (r.startGain + (r.endGain - r.startGain) * i / s.size)
      if r.inverted then -v else v := by
  unfold Reading.contribution headIn
  rw [if_pos current]
  rfl

theorem tapSample_one (s : State) (p : Pass) (r : Reading) (i : Nat) :
    tapSample s p [r] i = saturate24 (roundAway (r.contribution s p 0 i)) := by
  show saturate24 (roundAway (0 + r.contribution s p 0 i)) = _
  rw [zero_add]

theorem tapSample_two (s : State) (p : Pass) (r u : Reading) (i : Nat) :
    tapSample s p [r, u] i = saturate24 (roundAway (r.contribution s p 0 i + u.contribution s p 1 i)) := by
  show saturate24 (roundAway (0 + r.contribution s p 0 i + u.contribution s p 1 i)) = _
  rw [zero_add]

theorem passBlock_sample {s : State} {i : Nat} (inside : i < s.size) (p : Pass) (n : TapNo) :
    (passBlock s p n).samples[i]? = some (tapSample s p (tapReadings s (s.tap n)) i) := by
  simp [passBlock, inside]

theorem TapState.marksFading_iff (x : TapState) :
    x.marksFading = true ↔ x = .starting ∨ x = .gliding ∨ x = .fading ∨ x = .stopping := by
  cases x <;> decide

theorem lineGaps_iff (s : State) (l : LineNo) : lineGaps s l = true ↔
    (s.line l).gapRun ≠ 0 ∨ ∀ e, (s.line l).writer = some e → (s.link e).state ≠ .up := by
  simp [lineGaps, Option.all_eq_true]

/-- Settles O10: the ramp, the value at a position, the readings by state, the samples and flags, and the rounding. -/
theorem tapsSoundTheirReadings : Obligations.TapsSoundTheirReadings := by
  refine ⟨fun r b i head l positive inside => ⟨r.delayAt_near positive inside, r.positionAt_add_delayAt⟩,
    fun got side l q f x y fraction found next => ⟨readingValue_none fraction found,
      readingValue_linear fraction found next, sampleNeeds_none l q fraction, fun p => mem_sampleNeeds_linear l q p fraction⟩,
    fun s t old pages oldPages => ?readings, fun s p n i current inside => ?block, roundAway_near, saturate24_toInt⟩
  case readings =>
    intro made rising falling one
    have single : ∀ gains, t.newGains = gains → t.state ≠ .fading → one gains := fun gains same h => by
      rw [← same]
      exact tapReadings_made pages h
    have rises : risingGains t.fadeCount t.fadeOf = rising := risingGains_eq _ _
    have falls : fallingGains t.fadeCount t.fadeOf = falling := fallingGains_eq _ _
    refine ⟨fun steady => ?_, fun starting => ?_, fun stopping => ?_, fun fading held => ?_⟩
    · unfold Tap.newGains at single
      rcases steady with state | state <;> exact single _ (by rw [state]) (by rw [state]; decide)
    · exact single _ (by rw [Tap.newGains, starting]; exact rises) (by rw [starting]; decide)
    · exact single _ (by rw [Tap.newGains, stopping]; exact falls) (by rw [stopping]; decide)
    · have still : t.glided s.size = t.delay := by rw [Tap.glided, fading]
      have gains : t.newGains = rising := by rw [Tap.newGains, fading]; exact rises
      have both := tapReadings_fading fading held s
      rw [falls, still, gains] at both
      exact ⟨_, _, both, sideReading_made oldPages _ _, sideReading_made (o := t.reading) pages _ _⟩
  case block =>
    intro value readings block
    have adds : ∀ side r, value side r = r.contribution s p side i := fun side r =>
      (contribution_current s current side i r).symm
    refine ⟨fun r only => ?_, fun r u both => ?_, List.any_eq_true, TapState.marksFading_iff _, ?_, rfl, rfl⟩
    · rw [passBlock_sample inside, adds, ← tapSample_one, ← only]
    · rw [passBlock_sample inside, adds, adds, ← tapSample_two, ← both]
    · show (tapReadings s (s.tap n)).any (fun r => lineGaps s r.line) = true ↔ _
      simp only [List.any_eq_true, lineGaps_iff]
      rfl

end Sys2Proof.Machine
end

section
/-! O53. A pass reads behind the head (R91 to R94), and a tap that stands at a whole delay sounds the samples read there (R92,
R93, R95, R100). -/

namespace Sys2Proof.Machine

/-! ### Behind the head (R91) -/

/-- A position that lies k behind the head round the ring, past a block that begins there, is none of the block's. -/
theorem behind_not_in_block {head l k b i : Nat} (positive : 1 ≤ k) (room : k + b ≤ l) (inside : i < b) :
    (head + (l - k)) % l ≠ (head + i) % l := by
  intro same
  have rest : (l - k) % l = i % l := Nat.ModEq.add_left_cancel' head same
  rw [Nat.mod_eq_of_lt (by omega), Nat.mod_eq_of_lt (by omega)] at rest
  omega

theorem sampleNeeds_cases {interp : Interpolation} {l position p : Nat} (need : p ∈ sampleNeeds interp l position) :
    p = position / 256 ∨ (position % 256 ≠ 0 ∧ p = (position / 256 + 1) % l) := by
  unfold sampleNeeds at need
  dsimp only at need
  split at need
  · exact .inl (List.mem_singleton.mp need)
  · split at need
    · exact .inl (List.mem_singleton.mp need)
    · next fraction =>
      rcases List.mem_cons.mp need with here | next
      · exact .inl here
      · exact .inr ⟨fraction, List.mem_singleton.mp next⟩

/-- What sample j of a block needs at a delay from b + 1 to l − b − 2 samples lies 1 to l − b samples behind the head. -/
theorem sampleNeeds_behind {interp : Interpolation} {b l head j d p : Nat} (inside : j < b) (low : (b + 1) * 256 ≤ d)
    (high : d ≤ (l - b - 2) * 256)
    (need : p ∈ sampleNeeds interp l (((head + j) * 256 + l * 256 - d) % (l * 256))) :
    ∃ k, 1 ≤ k ∧ k + b ≤ l ∧ p = (head + (l - k)) % l := by
  have whole : ((head + j) * 256 + l * 256 - d) / 256 = head + (l - ((d + 255) / 256 - j)) := by omega
  rcases sampleNeeds_cases need with here | ⟨fraction, next⟩
  · rw [Nat.mod_mul_left_div_self, whole] at here
    exact ⟨(d + 255) / 256 - j, by omega, by omega, here⟩
  · rw [Nat.mod_mul_left_mod] at fraction
    rw [Nat.mod_mul_left_div_self, Nat.mod_add_mod, whole] at next
    have onward : head + (l - ((d + 255) / 256 - j)) + 1 = head + (l - ((d + 255) / 256 - j - 1)) := by omega
    rw [onward] at next
    exact ⟨(d + 255) / 256 - j - 1, by omega, by omega, next⟩

/-! ### The reads of a tap -/

/-- Every reading of a tap is made of a side. -/
theorem tapReadings_of_side {s : State} {t : Tap} {r : Reading} (h : r ∈ tapReadings s t) :
    ∃ o endDelay gains, r = sideReading s o endDelay gains := by
  by_cases fading : t.state = .fading
  · rcases held : t.oldSide with _ | old
    · unfold tapReadings at h
      simp only [fading, held, List.mem_singleton] at h
      exact ⟨_, _, _, h⟩
    · rw [tapReadings_fading fading held] at h
      rcases List.mem_cons.mp h with old | now
      · exact ⟨_, _, _, old⟩
      · exact ⟨_, _, _, List.mem_singleton.mp now⟩
  · rw [tapReadings_single fading] at h
    exact ⟨_, _, _, List.mem_singleton.mp h⟩

/-- Its edge delays lie between the floor and the ceiling of its line (R91). -/
theorem reading_clamped {s : State} {t : Tap} {r : Reading} (h : r ∈ tapReadings s t)
    (pages : (s.line r.line).pages ≠ []) :
    (delayFloor s.size ≤ r.startDelay ∧ r.startDelay ≤ delayCeiling s.size (s.line r.line).length) ∧
    (delayFloor s.size ≤ r.endDelay ∧ r.endDelay ≤ delayCeiling s.size (s.line r.line).length) := by
  obtain ⟨o, endDelay, gains, rfl⟩ := tapReadings_of_side h
  have ordered := (floor_le_ceiling (s := s) pages).1
  exact ⟨clampEdge_bounds ordered _, clampEdge_bounds ordered _⟩

/-- Every read of a tap is one that a sample of one of its readings needs. -/
theorem tapReads_of_reading {s : State} {t : Tap} {req : ReadReq} (h : req ∈ tapReads s s.timer.period t) :
    ∃ r ∈ tapReadings s t, req.line = r.line ∧ ∃ j, j < s.size ∧ req.position ∈ sampleReadsOf s r j := by
  obtain ⟨⟨r, side⟩, reading, read⟩ := List.mem_flatMap.mp h
  obtain ⟨p, need, rfl⟩ := List.mem_map.mp read
  rw [needs_current] at need
  exact ⟨r, List.fst_mem_of_mem_zipIdx reading, rfl, (mem_firstOnly_samples s r s.size p).mp need⟩

/-- Every position read in the current period lies on its line's ring, outside the current block (R91). -/
theorem tapReads_behind {s : State} {t : Tap} {req : ReadReq} (h : req ∈ tapReads s s.timer.period t)
    (pages : (s.line req.line).pages ≠ []) : req.position < (s.line req.line).length ∧
    ∀ i, i < s.size → req.position ≠ ((s.line req.line).head + i) % (s.line req.line).length := by
  obtain ⟨r, reading, line, j, inside, need⟩ := tapReads_of_reading h
  rw [line] at pages ⊢
  obtain ⟨start, stop⟩ := reading_clamped reading pages
  obtain ⟨low, high⟩ := r.delayAt_between (i := j) (Nat.zero_lt_of_lt inside) inside.le start stop
  obtain ⟨k, positive, room, place⟩ := sampleNeeds_behind inside low high need
  rw [place]
  exact ⟨Nat.mod_lt _ (by omega), fun i block => behind_not_in_block positive room block⟩

/-! ### A tap that stands at a whole delay (R92, R93, R95) -/

/-- The reading of a RUNNING tap at a whole delay that its line allows, with no oscillator. -/
theorem tapReadings_still {s : State} {t : Tap} {d : Nat} (running : t.state = .running) (still : t.current.osc = none)
    (delay : t.delay = d * 256) (low : s.size + 1 ≤ d) (high : d + s.size + 2 ≤ (s.line t.current.line).length) :
    tapReadings s t = [{
      line := t.current.line, startDelay := d * 256, endDelay := d * 256, clamped := false, interp := t.current.interp
      gain := t.current.gain, inverted := t.current.inverted, startGain := 1, endGain := 1 }] := by
  have glided : t.glided s.size = t.delay := by rw [Tap.glided, running]
  have gains : t.newGains = (1, 1) := by rw [Tap.newGains, running]
  have offset : modOffset (oscValues s t.reading.osc t.reading.quadrant).1 t.reading.depth = 0 ∧
      modOffset (oscValues s t.reading.osc t.reading.quadrant).2 t.reading.depth = 0 := by
    obtain ⟨start, stop⟩ := modOffset_eq s t.reading
    have unmoved : ∀ value, sideOffset s t.reading value = 0 := fun value => by
      unfold sideOffset Tap.reading
      rw [still]
    exact ⟨start.trans (unmoved _), stop.trans (unmoved _)⟩
  have floor : delayFloor s.size ≤ d * 256 := by unfold delayFloor; omega
  have ceiling : d * 256 ≤ delayCeiling s.size (s.line t.current.line).length := by unfold delayCeiling; omega
  have unclamped : edgeClamps s.size (s.line t.current.line).length ((d * 256 : Nat) : Int) = false := by
    rw [Bool.eq_false_iff, Ne, edgeClamps_iff]
    omega
  have side : t.reading.delay = d * 256 ∧ t.reading.line = t.current.line := ⟨delay, rfl⟩
  rw [tapReadings_single (by rw [running]; decide), glided, gains, delay]
  unfold sideReading
  dsimp only
  rw [offset.1, offset.2, side.1, side.2, Int.add_zero, clampEdge_inside floor ceiling, unclamped]
  rfl

/-- What lies a whole delay behind a sample lies at a whole position. -/
theorem Reading.positionAt_still (r : Reading) {b head l i d : Nat} (inside : i < b) (start : r.startDelay = d * 256)
    (stop : r.endDelay = d * 256) : r.positionAt b head l i = (head + i + l - d) % l * 256 + 0 := by
  unfold Reading.positionAt
  rw [r.delayAt_still (Nat.zero_lt_of_lt inside) inside.le start stop, ← Nat.add_mul, ← Nat.sub_mul, Nat.mul_mod_mul_right,
    Nat.add_zero]

/-- At a whole position both ways of reading give the sample read there (R93). -/
theorem readingValue_whole {got : List GotSample} {q : Nat} {g : GotSample}
    (found : got.find? (fun x => x.side == 0 && x.position == q) = some g) (interp : Interpolation) (l : Nat) :
    readingValue got 0 interp l (q * 256 + 0) = g.v.toInt := by
  cases interp with
  | none => exact readingValue_none (by decide) found
  | linear =>
    obtain ⟨whole, rest⟩ := position_parts q (f := 0) (by decide)
    unfold readingValue
    dsimp only
    rw [whole, rest, if_pos rfl, gotAt_found found]

/-- The gap mark of a line that an engine writes (R100). -/
theorem lineGaps_writer {s : State} {l : LineNo} {e : Engine} (writer : (s.line l).writer = some e) :
    lineGaps s l = ((s.line l).gapRun != 0 || (s.link e).state != .up) := by
  unfold lineGaps
  dsimp only
  rw [writer]
  rfl

/-- The flags of a RUNNING tap's block when its one reading is not clamped and an engine writes its line (R100). -/
theorem passBlock_flags {s : State} {p : Pass} {t : TapNo} {r : Reading} {e : Engine}
    (reading : tapReadings s (s.tap t) = [r]) (free : r.clamped = false) (running : (s.tap t).state = .running)
    (writer : (s.line r.line).writer = some e) :
    (passBlock s p t).flags = {
      clamped := false, fading := false, gap := (s.line r.line).gapRun != 0 || (s.link e).state != .up
      fault := p.faulted, muted := false } := by
  have marks : (s.tap t).state.marksFading = false := by rw [running]; rfl
  unfold passBlock
  dsimp only
  rw [reading, marks, List.any_cons, List.any_cons, free, lineGaps_writer writer]
  simp

/-- Settles O53: where the reads lie, the clamped edge delays, and the sample of a tap that stands. -/
theorem readingsStayBehindTheHeadAndSound : Obligations.ReadingsStayBehindTheHeadAndSound := by
  refine ⟨fun s t => ⟨?_, fun r reading pages => ?_⟩, fun s p t d i g => ?_⟩
  · rintro req read l rfl pages -
    exact tapReads_behind read pages
  · obtain ⟨⟨low, high⟩, low', high'⟩ := reading_clamped reading pages
    exact ⟨low, high, low', high'⟩
  · intro tap line running still delay low high head current inside found v
    have reading := tapReadings_still running still delay low high
    have sample : (passBlock s p t).samples[i]? =
        some (saturate24 (roundAway (if tap.current.inverted then -v else v))) := by
      rw [passBlock_sample inside, reading, tapSample_one, contribution_current s current]
      dsimp only
      rw [Reading.positionAt_still _ inside rfl rfl, readingValue_whole found, sub_self, zero_mul, zero_div, add_zero,
        mul_one]
    refine ⟨rfl, sample, fun unity upright => ?_, ?_, fun e writer => ?_⟩
    · have same : v = (g.v.toInt : Rat) := by
        show (g.v.toInt : Rat) * ((tap.current.gain : Rat) / 65536) = _
        rw [unity]
        norm_num
      rw [sample, upright, if_neg Bool.false_ne_true, same, roundAway_intCast, saturate24_sample]
    · simp [passBlock]
    · exact passBlock_flags reading rfl running writer

end Sys2Proof.Machine
end

section
/-! O24. Fades and glides in progress (R109 to R111): steps 1 and 2 of a tap's boundary work, by its state. -/

namespace Sys2Proof.Machine

section
variable {b : Nat} {t : Tap}

/-- A RUNNING tap stands at steps 1 and 2. -/
theorem Tap.moved_running (running : t.state = .running) : (t.advance b).completeMove = t := by
  obtain ⟨_, _, _, _, _, _, _, _, _, _⟩ := t
  dsimp only at running
  subst running
  rfl

/-! ### A fade's step (R109, R111) -/

/-- Step 1 moves a fade's count on. -/
theorem Tap.advance_fade (fades : t.state.isFade = true) : t.advance b = { t with fadeCount := t.fadeCount + 1 } :=
  if_pos fades

/-- A fade that has not reached its length goes on. -/
theorem Tap.completeMove_short (fades : t.state.isFade = true) (short : t.fadeCount < t.fadeOf) : t.completeMove = t := by
  have unended : ¬t.fadeOf ≤ t.fadeCount := Nat.not_le.mpr short
  unfold Tap.completeMove
  split
  · exact if_neg unended
  · exact if_neg unended
  · exact if_neg unended
  · next gliding =>
    rw [gliding] at fades
    cases fades
  · rfl
  · rfl

/-- At its length it takes the state it leads to. -/
theorem Tap.completeMove_ended (ended : t.fadeCount = t.fadeOf) :
    (t.state = .starting → t.completeMove = t.toRunning) ∧ (t.state = .stopping → t.completeMove = t.toIdle) ∧
    (t.state = .fading → t.completeMove = { t.toRunning with oldSide := none }) := by
  have reached : t.fadeOf ≤ t.fadeCount := ended.ge
  unfold Tap.completeMove
  refine ⟨fun state => ?_, fun state => ?_, fun state => ?_⟩ <;> rw [state] <;> exact if_pos reached

/-! ### A glide's step (R110) -/

/-- A step that does not reach a target above. -/
theorem moveToward_below {delay target step : Nat} (h : delay + step < target) :
    moveToward delay target step = delay + step := by
  unfold moveToward
  rw [if_pos (by omega)]
  omega

/-- A step that does not reach a target below. -/
theorem moveToward_above {delay target step : Nat} (h : target + step < delay) :
    moveToward delay target step = delay - step := by
  unfold moveToward
  rw [if_neg (by omega)]
  omega

/-- A step that reaches the target, or would pass it, ends there. -/
theorem moveToward_reaches {delay target step : Nat} (low : delay ≤ target + step) (high : target ≤ delay + step) :
    moveToward delay target step = target := by
  unfold moveToward
  split <;> omega

/-- Step 1 moves a glide's delay. -/
theorem Tap.advance_glide (gliding : t.state = .gliding) :
    t.advance b = { t with delay := moveToward t.delay t.target (t.current.glideRate * b) } := by
  unfold Tap.advance Tap.glided
  rw [gliding]
  rfl

/-- Step 2 ends a glide at its target. -/
theorem Tap.completeMove_glide (gliding : t.state = .gliding) :
    t.completeMove = if t.delay = t.target then t.toRunning else t := by
  unfold Tap.completeMove
  rw [gliding]

/-- Steps 1 and 2 of a glide whose step leads to a delay: it goes on from there, or ends at its target. -/
theorem Tap.moved_glide (gliding : t.state = .gliding) {delay : Nat}
    (moved : moveToward t.delay t.target (t.current.glideRate * b) = delay) :
    (t.advance b).completeMove =
      if delay = t.target then { t with delay := delay, state := .running, fadeCount := 0, fadeOf := 0 }
      else { t with delay := delay } := by
  rw [Tap.advance_glide gliding, moved]
  exact Tap.completeMove_glide gliding

end

/-- Settles O24: steps 1 and 2 by the tap's state, a fade by its count and a glide by the way left to its target. -/
theorem fadesAndGlidesMoveOn : Obligations.FadesAndGlidesMoveOn := by
  intro b t
  refine ⟨fun still => ?_, fun fades short => ?_, fun state ended => ?_, fun state ended => ?_, fun state ended => ?_,
    fun gliding => ⟨fun below => ?_, fun above => ?_, fun low high => ?_⟩⟩
  · rcases still with idle | running
    · exact Tap.moved_idle idle b
    · exact Tap.moved_running running
  · rw [Tap.advance_fade fades]
    exact Tap.completeMove_short fades short
  · rw [Tap.advance_fade (by rw [state]; rfl)]
    exact (Tap.completeMove_ended ended).1 state
  · rw [Tap.advance_fade (by rw [state]; rfl)]
    exact (Tap.completeMove_ended ended).2.1 state
  · rw [Tap.advance_fade (by rw [state]; rfl)]
    exact (Tap.completeMove_ended ended).2.2 state
  · rw [Tap.moved_glide gliding (moveToward_below below), if_neg below.ne]
  · rw [Tap.moved_glide gliding (moveToward_above above), if_neg (by omega)]
  · rw [Tap.moved_glide gliding (moveToward_reaches low high), if_pos rfl]

end Sys2Proof.Machine
end

section
/-! O25. Step 3, the staged edit (R112 to R119): a start, a stop and a preset by the tap's state. -/

namespace Sys2Proof.Machine

section
variable {ib : Nat} {t : Tap} {p : ParamSet}

/-! ### A start by state (R113, R115, R116) -/

theorem Tap.applyStart_idle (idle : t.state = .idle) : t.applyStart ib p = if p.edgeFade = 0
    then (t.take ib p).toRunning else { t.take ib p with state := .starting, fadeCount := 0, fadeOf := p.edgeFade } := by
  unfold Tap.applyStart
  rw [idle]
  rfl

theorem Tap.applyStart_starting (starting : t.state = .starting) : t.applyStart ib p = t.take ib p := by
  unfold Tap.applyStart
  rw [starting]

theorem Tap.applyStart_stopping (stopping : t.state = .stopping) :
    t.applyStart ib p = (t.take ib p).mirror .starting := by
  unfold Tap.applyStart
  rw [stopping]

/-- A start of a sounding tap is a retarget (06 section 6.4). -/
theorem Tap.applyStart_sounding (sounds : t.state = .running ∨ t.state = .gliding) :
    t.applyStart ib p = t.retarget ib p := by
  unfold Tap.applyStart
  rcases sounds with running | gliding
  · rw [running]
  · rw [gliding]

/-! ### A retarget by method (R117 to R119) -/

theorem Tap.retarget_jump (method : p.method = .jump) : t.retarget ib p = (t.take ib p).toRunning := by
  unfold Tap.retarget
  rw [method]

theorem Tap.retarget_glide (method : p.method = .glide) : t.retarget ib p = if p.line = t.current.line
    then { t with current := { p with run := true } }.glideTo (baseDelay ib p) else t.crossfade ib p.fadeLen p := by
  unfold Tap.retarget
  rw [method]

theorem Tap.retarget_xfade (method : p.method = .xfade) : t.retarget ib p = t.crossfade ib p.fadeLen p := by
  unfold Tap.retarget
  rw [method]

/-! ### A stop and a preset by state (R112, R114, R115); a silent tap's stop is Tap.silent.applyStop -/

theorem Tap.applyStop_starting (starting : t.state = .starting) :
    t.applyStop = { t with current := { t.current with run := false } }.mirror .stopping := by
  unfold Tap.applyStop
  rw [starting]

theorem Tap.applyStop_sounding (sounds : t.state = .running ∨ t.state = .gliding) : t.applyStop = t.stop := by
  unfold Tap.applyStop
  rcases sounds with running | gliding
  · rw [running]
  · rw [gliding]

theorem Tap.applyPreset_idle (idle : t.state = .idle) :
    t.applyPreset ib p = { t with current := p, delay := baseDelay ib p, target := baseDelay ib p } := by
  unfold Tap.applyPreset
  rw [idle]

theorem Tap.applyPreset_awake (awake : t.state ≠ .idle) : t.applyPreset ib p = t.applyStop := by
  unfold Tap.applyPreset
  split
  · next idle => exact absurd idle awake
  · rfl

end

/-- Settles O25: step 3 by what is staged, an edit by the tap's state, a retarget by the new set's method. -/
theorem stagedEditsAreApplied : Obligations.StagedEditsAreApplied := by
  refine ⟨fun ib p t => ⟨Tap.applyEdit_unstaged ib, fun _ free => ⟨fun staged => ?_, fun staged => ?_, fun staged => ?_,
      Tap.applyEdit_staged ib t⟩⟩,
    fun ib p t => ⟨fun idle step => ?_, fun idle fades => ?_, Tap.applyStart_starting, Tap.applyStart_stopping,
      Tap.silent.applyStop, Tap.applyStop_starting, fun sounds => ⟨fun step => ?_, fun fades => ?_⟩,
      Tap.applyPreset_idle, Tap.applyPreset_awake⟩,
    fun ib p t sounds => ⟨fun method => ?_, fun method same => ?_, fun method other => ?_, fun method => ?_⟩⟩
  · exact Tap.applyEdit_start ib staged free
  · exact Tap.applyEdit_preset ib staged free
  · exact Tap.applyEdit_stop ib staged free
  · rw [Tap.applyStart_idle idle, if_pos step]
    rfl
  · rw [Tap.applyStart_idle idle, if_neg fades]
    rfl
  · rw [Tap.applyStop_sounding sounds]
    exact if_pos step
  · rw [Tap.applyStop_sounding sounds]
    exact if_neg fades
  all_goals rw [Tap.applyStart_sounding sounds]
  · exact Tap.retarget_jump method
  · rw [Tap.retarget_glide method, if_pos same]
    rfl
  · rw [Tap.retarget_glide method, if_neg other]
    rfl
  · exact Tap.retarget_xfade method

end Sys2Proof.Machine
end

section
/-! O27. The equal-power gain (R124, R125): every value it is made of keeps the bound at its fraction, and the running
maximum keeps both the bound and the order. -/

namespace Sys2Proof.Machine

/-! ### The bound of R125 -/

theorem legalGain_iff (x v : Rat) : legalGain x v = true ↔ 0 ≤ v ∧ v ≤ 1 ∧
    (1 - 1 / 2 ^ 12) ^ 2 * x ≤ v ^ 2 ∧ v ^ 2 ≤ (1 + 1 / 2 ^ 12) ^ 2 * x := by
  simp only [legalGain, Bool.and_eq_true, decide_eq_true_eq, sq, and_assoc]

/-- The larger of a legal gain and one of a smaller fraction is legal. -/
theorem legalGain_max {x y v w : Rat} (smaller : y ≤ x) (legal : legalGain x v = true) (before : legalGain y w = true) :
    legalGain x (max v w) = true := by
  obtain ⟨nonneg, unity, low, high⟩ := (legalGain_iff x v).mp legal
  obtain ⟨nonneg', unity', low', high'⟩ := (legalGain_iff y w).mp before
  rcases max_cases v w with ⟨larger, -⟩ | ⟨larger, above⟩
  · rwa [larger]
  · rw [larger]
    refine (legalGain_iff x w).mpr ⟨nonneg', unity', low.trans ?_, high'.trans ?_⟩
    · exact pow_le_pow_left₀ nonneg above.le 2
    · exact mul_le_mul_of_nonneg_left smaller (by norm_num)

/-! ### The root to 32 places -/

/-- A whole root of a quotient rounded down lies within one of the quotient's root. -/
theorem sqrt_div_between (n : Nat) {d : Nat} (positive : 0 < d) :
    ((Nat.sqrt (n / d) : Nat) : Rat) ^ 2 ≤ (n : Rat) / d ∧ (n : Rat) / d ≤ ((Nat.sqrt (n / d) : Nat) + 1 : Rat) ^ 2 := by
  have pos : (0 : Rat) < d := Nat.cast_pos.mpr positive
  have below : Nat.sqrt (n / d) ^ 2 * d ≤ n :=
    (Nat.mul_le_mul_right d (Nat.sqrt_le' _)).trans (Nat.div_mul_le_self n d)
  have above : n ≤ (Nat.sqrt (n / d) + 1) ^ 2 * d :=
    ((Nat.div_lt_iff_lt_mul positive).mp (Nat.lt_succ_sqrt' (n / d))).le
  exact ⟨(le_div_iff₀ pos).mpr (by exact_mod_cast below), (div_le_iff₀ pos).mpr (by exact_mod_cast above)⟩

/-- The root rounded down to 32 places lies within 2^-32 of the root. -/
theorem rootApprox_between {x : Rat} (positive : 0 < x) :
    rootApprox x ^ 2 ≤ x ∧ x ≤ (rootApprox x + 1 / 2 ^ 32) ^ 2 := by
  have num : ((x.num.toNat : Nat) : Rat) = x.num := by
    exact_mod_cast Int.toNat_of_nonneg (Rat.num_nonneg.mpr positive.le)
  have value : ((x.num.toNat * 2 ^ 64 : Nat) : Rat) / x.den = x * 2 ^ 64 := by
    push_cast
    rw [num, mul_div_right_comm, Rat.num_div_den]
    norm_num
  obtain ⟨below, above⟩ := sqrt_div_between (x.num.toNat * 2 ^ 64) x.den_pos
  rw [value] at below above
  unfold rootApprox
  generalize ((x.num.toNat * 2 ^ 64 / x.den).sqrt : Rat) = r at below above ⊢
  constructor
  · rw [div_pow]
    exact (div_le_iff₀ (by norm_num)).mpr (by linarith)
  · rw [← add_div, div_pow]
    exact (le_div_iff₀ (by norm_num)).mpr (by linarith)

/-- From 1/64 on that is well within the bound. -/
theorem rootApprox_legal {x : Rat} (low : 1 / 64 ≤ x) (high : x ≤ 1) : legalGain x (rootApprox x) = true := by
  obtain ⟨below, above⟩ := rootApprox_between (by linarith : 0 < x)
  have nonneg : 0 ≤ rootApprox x := by
    unfold rootApprox
    positivity
  have unity : rootApprox x ≤ 1 := by nlinarith
  have large : 1 / 8 ≤ rootApprox x + 1 / 2 ^ 32 := by nlinarith
  have close : (1 - 1 / 2 ^ 12) * (rootApprox x + 1 / 2 ^ 32) ≤ rootApprox x := by linarith
  refine (legalGain_iff x _).mpr ⟨nonneg, unity, ?_, ?_⟩
  · calc (1 - 1 / 2 ^ 12) ^ 2 * x ≤ (1 - 1 / 2 ^ 12) ^ 2 * (rootApprox x + 1 / 2 ^ 32) ^ 2 :=
          mul_le_mul_of_nonneg_left above (by norm_num)
      _ = ((1 - 1 / 2 ^ 12) * (rootApprox x + 1 / 2 ^ 32)) ^ 2 := by ring
      _ ≤ rootApprox x ^ 2 := pow_le_pow_left₀ (mul_nonneg (by norm_num) (by linarith)) close 2
  · linarith

/-- The value the gain is made of keeps the bound, whatever the free value (log 18). -/
theorem gainAt_legal {x : Rat} (low : 1 / 64 ≤ x) (high : x ≤ 1) : legalGain x (gainAt x) = true := by
  unfold gainAt
  split
  · assumption
  · exact rootApprox_legal low high

/-! ### The fractions of a fade (R124) -/

theorem mem_fadeFractions (y : Rat) : y ∈ fadeFractions ↔ ∃ j n : Nat, j ≤ n ∧ 0 < n ∧ n ≤ 64 ∧ y = (j : Rat) / n := by
  unfold fadeFractions
  simp only [List.mem_flatMap, List.mem_map, List.mem_range, List.bind_eq_flatMap, List.pure_def, List.mem_singleton]
  constructor
  · rintro ⟨i, small, -, ⟨j, within, rfl⟩, rfl⟩
    exact ⟨j, i + 1, by omega, by omega, by omega, rfl⟩
  · rintro ⟨j, n, within, positive, small, rfl⟩
    exact ⟨n - 1, by omega, j, ⟨j, by omega, rfl⟩, by rw [Nat.sub_add_cancel positive]⟩

/-- A fraction of a fade above 0 is 1/64 at least. -/
theorem fadeFraction_low {y : Rat} (used : y ∈ fadeFractions) (positive : 0 < y) : 1 / 64 ≤ y := by
  obtain ⟨j, n, -, hn, small, rfl⟩ := (mem_fadeFractions y).mp used
  have pos : (0 : Rat) < n := Nat.cast_pos.mpr hn
  have one : (1 : Rat) ≤ j := by
    have : (0 : Rat) < j := by simpa [div_pos_iff_of_pos_right pos] using positive
    exact_mod_cast this
  have top : (n : Rat) ≤ 64 := by exact_mod_cast small
  rw [le_div_iff₀ pos]
  linarith

/-! ### The running maximum -/

/-- The fractions before one that the running maximum looks back on. -/
def fractionsBelow (x : Rat) : List Rat := fadeFractions.filter fun y => decide (0 < y) && decide (y < x)

theorem mem_fractionsBelow {x y : Rat} : y ∈ fractionsBelow x ↔ y ∈ fadeFractions ∧ 0 < y ∧ y < x := by
  simp [fractionsBelow]

theorem equalPowerGain_inside {x : Rat} (low : 0 < x) (high : x < 1) :
    equalPowerGain x = (fractionsBelow x).foldl (fun m y => max m (gainAt y)) (gainAt x) := by
  unfold equalPowerGain
  rw [if_neg (not_le.mpr low), if_neg (not_le.mpr high)]
  rfl

/-- A running maximum is at most a bound if its start and every value are. -/
theorem foldl_max_le_iff (f : Rat → Rat) (ys : List Rat) (v w : Rat) :
    ys.foldl (fun m y => max m (f y)) v ≤ w ↔ v ≤ w ∧ ∀ y ∈ ys, f y ≤ w := by
  induction ys generalizing v with
  | nil => simp
  | cons y ys ih => rw [List.foldl_cons, ih, max_le_iff, List.forall_mem_cons, and_assoc]

/-- The gain at a fraction a fade uses keeps the bound. -/
theorem equalPowerGain_legal {x : Rat} (low : 1 / 64 ≤ x) (high : x < 1) : legalGain x (equalPowerGain x) = true := by
  rw [equalPowerGain_inside (by linarith) high]
  refine List.foldlRecOn (motive := fun m => legalGain x m = true) _ _ (gainAt_legal low high.le) fun m legal y below => ?_
  obtain ⟨used, positive, smaller⟩ := mem_fractionsBelow.mp below
  exact legalGain_max smaller.le legal (gainAt_legal (fadeFraction_low used positive) (smaller.le.trans high.le))

theorem equalPowerGain_zero : equalPowerGain 0 = 0 := if_pos le_rfl

theorem equalPowerGain_one : equalPowerGain 1 = 1 := by
  unfold equalPowerGain
  rw [if_neg (by norm_num), if_pos le_rfl]

/-- A fraction that a fade uses is 0, or 1, or one at which the gain keeps the bound. -/
theorem fadeFraction_cases {x : Rat} (used : x ∈ fadeFractions) :
    x = 0 ∨ x = 1 ∨ 0 < x ∧ x < 1 ∧ legalGain x (equalPowerGain x) = true := by
  obtain ⟨j, n, within, positive, -, same⟩ := (mem_fadeFractions x).mp used
  have nonneg : 0 ≤ x := by
    rw [same]
    positivity
  have unity : x ≤ 1 := by
    rw [same]
    exact div_le_one_of_le₀ (by exact_mod_cast within) (Nat.cast_nonneg n)
  rcases nonneg.eq_or_lt with zero | above
  · exact .inl zero.symm
  rcases unity.eq_or_lt with one | below
  · exact .inr (.inl one)
  · exact .inr (.inr ⟨above, below, equalPowerGain_legal (fadeFraction_low used above) below⟩)

/-- The gain never falls from one fraction to a larger. -/
theorem equalPowerGain_le {x y : Rat} (first : x ∈ fadeFractions) (second : y ∈ fadeFractions) (order : x ≤ y) :
    equalPowerGain x ≤ equalPowerGain y := by
  have range : ∀ {z : Rat}, z ∈ fadeFractions → 0 ≤ equalPowerGain z ∧ equalPowerGain z ≤ 1 := fun used => by
    rcases fadeFraction_cases used with rfl | rfl | ⟨-, -, legal⟩
    · simp [equalPowerGain_zero]
    · simp [equalPowerGain_one]
    · obtain ⟨nonneg, unity, -, -⟩ := (legalGain_iff _ _).mp legal
      exact ⟨nonneg, unity⟩
  rcases order.eq_or_lt with rfl | smaller
  · exact le_rfl
  rcases fadeFraction_cases first with rfl | rfl | ⟨above, below, -⟩
  · rw [equalPowerGain_zero]
    exact (range second).1
  · rcases fadeFraction_cases second with rfl | rfl | ⟨-, below, -⟩ <;> linarith
  rcases fadeFraction_cases second with rfl | rfl | ⟨above', below', -⟩
  · linarith
  · rw [equalPowerGain_one]
    exact (range first).2
  · rw [equalPowerGain_inside above below, equalPowerGain_inside above' below', foldl_max_le_iff]
    obtain ⟨-, bounds⟩ := (foldl_max_le_iff gainAt (fractionsBelow y) (gainAt y) _).mp le_rfl
    refine ⟨bounds x (mem_fractionsBelow.mpr ⟨first, above, smaller⟩), fun z before => bounds z ?_⟩
    obtain ⟨used, positive, lower⟩ := mem_fractionsBelow.mp before
    exact mem_fractionsBelow.mpr ⟨used, positive, lower.trans smaller⟩

/-! ### The two gains of a crossfade -/

/-- The squares of two legal gains at fractions that make up 1 sum to within 2^-10 of one. -/
theorem legalGain_power {x v w : Rat} (falling : legalGain (1 - x) v = true) (rising : legalGain x w = true) :
    |v ^ 2 + w ^ 2 - 1| ≤ 1 / 2 ^ 10 := by
  obtain ⟨-, -, low, high⟩ := (legalGain_iff _ v).mp falling
  obtain ⟨-, -, low', high'⟩ := (legalGain_iff _ w).mp rising
  exact abs_le.mpr ⟨by linarith, by linarith⟩

theorem equalPowerGain_power {x : Rat} (used : x ∈ fadeFractions) (mirrored : 1 - x ∈ fadeFractions) :
    |equalPowerGain (1 - x) ^ 2 + equalPowerGain x ^ 2 - 1| ≤ 1 / 2 ^ 10 := by
  rcases fadeFraction_cases used with rfl | rfl | ⟨above, below, rising⟩
  · norm_num [equalPowerGain_zero, equalPowerGain_one]
  · norm_num [equalPowerGain_zero, equalPowerGain_one]
  · exact legalGain_power (equalPowerGain_legal (fadeFraction_low mirrored (by linarith)) (by linarith)) rising

/-- Settles O27: the ends, the bound, the order and the power at every fraction a fade uses. -/
theorem crossfadesKeepTheirPower : Obligations.CrossfadesKeepTheirPower := by
  have used : ∀ {j n : Nat}, j ≤ n → 0 < n → n ≤ 64 → (j : Rat) / n ∈ fadeFractions := fun within positive small =>
    (mem_fadeFractions _).mpr ⟨_, _, within, positive, small, rfl⟩
  refine ⟨equalPowerGain_zero, equalPowerGain_one, fun j n low high small => ?_,
    fun j n k m hj hn small hk hm small' order => equalPowerGain_le (used hj hn small) (used hk hm small') order,
    fun j n within positive small => ?_⟩
  · have pos : (0 : Rat) < n := by exact_mod_cast low.trans high
    have above : (0 : Rat) < (j : Rat) / n := div_pos (by exact_mod_cast low) pos
    have below : (j : Rat) / n < 1 := (div_lt_one pos).mpr (by exact_mod_cast high)
    exact (legalGain_iff _ _).mp (equalPowerGain_legal
      (fadeFraction_low (used high.le (low.trans high) small) above) below)
  · have pos : (n : Rat) ≠ 0 := by exact_mod_cast positive.ne'
    have mirrored : 1 - (j : Rat) / n = ((n - j : Nat) : Rat) / n := by
      rw [Nat.cast_sub within, sub_div, div_self pos]
    refine equalPowerGain_power (used within positive small) ?_
    rw [mirrored]
    exact used (Nat.sub_le n j) positive small

end Sys2Proof.Machine
end

section
/-! O38. The two readers of the tempo at a boundary (R108, R128, R145, R162): their own boundary work, the parts that neither
they nor what is taken between them touch, and what an adoption taken between them leaves to the second. -/

namespace Sys2Proof.Machine

/-! ### Settling stands apart from the readers -/

/-- A state with everything that the readers, and what is taken between them, may write taken from another. -/
def State.withReaders (s u : State) : State :=
  { s with taps := u.taps, oscs := u.oscs, tempo := u.tempo, scenes := u.scenes, port := u.port, notices := u.notices }

@[simp] theorem State.withReaders_tap (s u : State) (n : TapNo) : (s.withReaders u).tap n = u.tap n := rfl
@[simp] theorem State.withReaders_osc (s u : State) (m : OscNo) : (s.withReaders u).osc m = u.osc m := rfl
@[simp] theorem State.withReaders_tempo (s u : State) : (s.withReaders u).tempo = u.tempo := rfl

/-- What an earlier reader left does not show after a later one. -/
theorem State.withReaders_again (s u w x : State) : (s.withReaders u).withReaders (x.withReaders w) = s.withReaders w := rfl

theorem drainFrames_withReaders (fs : List QueuedFrame) (s u : State) :
    drainFrames (s.withReaders u) fs = (drainFrames s fs).withReaders u := by
  induction fs generalizing s with
  | nil => rfl
  | cons f fs ih =>
    have same : blockOver (s.withReaders u) = blockOver s := rfl
    unfold drainFrames
    rw [same]
    split
    · exact ih (freeBuffer f.engine f.buffer s)
    · rfl

theorem serve_withReaders (s u : State) : serve (s.withReaders u) = (serve s).withReaders u := by
  have busy : (s.withReaders u).arbiter.inService = s.arbiter.inService := rfl
  have choice : chooseClaim (s.withReaders u) = chooseClaim s := rfl
  unfold serve
  rw [busy, choice]
  split
  · rfl
  · split <;> rfl

theorem settle_withReaders (s u : State) : settle (s.withReaders u) = (settle s).withReaders u := by
  have drained : drainCommits (s.withReaders u) = (drainCommits s).withReaders u := drainFrames_withReaders s.commits s u
  unfold settle
  rw [drained]
  exact serve_withReaders (updateClosed (drainCommits s)) u

/-- Nothing else is written by the readers or between them. -/
theorem readersBoundary_withReaders (order : EdgeOrder) (resized : Bool) (s : State) :
    readersBoundary order resized s = s.withReaders (readersBoundary order resized s) := by
  apply State.eq_of_fields <;> simp [State.withReaders]

/-- What the readers write does not reach the pass queue or the settling. -/
theorem settle_formQueue_readers {s u : State} (readers : u = s.withReaders u) :
    settle (formQueue u) = (settle (formQueue s)).withReaders u := by
  have formed : formQueue (s.withReaders u) = (formQueue s).withReaders u := rfl
  calc settle (formQueue u) = settle (formQueue (s.withReaders u)) := by rw [← readers]
    _ = (settle (formQueue s)).withReaders u := by rw [formed, settle_withReaders]

/-- The boundary's other work is the same, whatever the readers do and whatever is taken between them. -/
theorem boundaryAround_eq (order : EdgeOrder) (zero : Bool) (s : State) : boundaryAround order zero s =
    (settle (formQueue (boundaryStart zero s))).withReaders
      (readersBoundary order (resizes s) (boundaryStart zero s)) := by
  unfold boundaryAround
  exact settle_formQueue_readers (readersBoundary_withReaders order (resizes s) (boundaryStart zero s))

theorem boundaryAround_other (order : EdgeOrder) (zero : Bool) (s : State) :
    boundaryAround order zero s = (boundary zero s).withReaders (boundaryAround order zero s) := by
  rw [← boundaryAround_plain { order with bankFirst := false, between := [] } rfl rfl, boundaryAround_eq,
    boundaryAround_eq, State.withReaders_again]

/-! ### The readers' own work (R108, R145) -/

theorem Tap.advance_state (b : Nat) (t : Tap) : (t.advance b).state = t.state := by
  unfold Tap.advance
  split <;> rfl

/-- The five steps of a tap's boundary work in their order, with what step 5 is told (R108, R122). -/
theorem Tap.boundary_eq (b ib : Nat) (found : Bool) (t : Tap) : t.boundary b ib found =
    (((t.advance b).completeMove.applyEdit ib).applyPending ib).followTempo ib (found ||
      ((t.state == .starting || t.state == .fading) && (t.advance b).completeMove.state == .running)) := by
  have started : becameRunning (t.advance b).state (t.advance b).completeMove.state =
      ((t.state == .starting || t.state == .fading) && (t.advance b).completeMove.state == .running) := by
    rw [Tap.advance_state]
    rfl
  rw [← started]
  rfl

theorem tapBoundary_tap (s : State) (n : TapNo) :
    (tapBoundary s).tap n = (s.tap n).boundary s.size s.tempo.interval s.tempo.tapSide := by
  simp [tapBoundary, State.tap]

theorem tapBoundary_tempo (s : State) : (tapBoundary s).tempo = { s.tempo with tapSide := false } := rfl

theorem oscBoundary_tempo (resized : Bool) (s : State) :
    (oscBoundary resized s).tempo = { s.tempo with oscSide := false } := rfl

theorem oscBoundary_osc (resized : Bool) (s : State) (m : OscNo) :
    (oscBoundary resized s).osc m = (s.osc m).boundary s.size s.tempo.interval s.tempo.oscSide resized := by
  simp [oscBoundary, State.osc]

/-! ### What a pop stages (R158, R159) -/

/-- What a pop makes of a tap whose entry is a set: its staged edit changed at most, to a stop where the set is unlike the
tap's next set and stops, and not at all where the two are alike. -/
def PopStages (want : ParamSet) (t u : Tap) : Prop :=
  ∃ staged, u = { t with staged := staged } ∧ (want.alike t.nextSet = true → staged = t.staged) ∧
    (want.alike t.nextSet = false → want.run = false → staged = some .stop)

theorem judge_stages (entry : Scene) (p : PopProgress) (n : TapNo) :
    PopStages entry.sets[n.val] (p.state.tap n) ((p.judge entry n).state.tap n) := by
  by_cases alike : entry.sets[n.val].alike (p.state.tap n).nextSet = true
  · have stands : p.judge entry n = p := if_pos alike
    exact ⟨_, by rw [stands], fun _ => rfl, fun unlike => by rw [unlike] at alike; cases alike⟩
  · by_cases run : entry.sets[n.val].run = false
    · have restored : p.judge entry n = p.restore n .stop := by
        unfold PopProgress.judge
        dsimp only
        rw [if_neg alike, if_pos (by rw [run]; rfl)]
      exact ⟨some .stop, by rw [restored]; exact State.tap_setTap_same _ _ _, fun h => absurd h alike, fun _ _ => rfl⟩
    · obtain ⟨staged, judged⟩ := judge_state entry p n
      exact ⟨staged, by rw [judged, State.tap_setTap_same], fun h => absurd h alike, fun _ h => absurd h run⟩

/-- A pop judges each tap as it stood before the pop. -/
theorem popTaps_stages (entry : Scene) (s : State) (n : TapNo) :
    PopStages entry.sets[n.val] (s.tap n) ((popTaps entry s).state.tap n) := by
  have before : (popBefore entry (popStart s) n).state.tap n = s.tap n :=
    judgeAll_other entry _ _ fun earlier => absurd ((mem_take_allTaps n.val n).mp earlier) (lt_irrefl _)
  have judged := judge_stages entry (popBefore entry (popStart s) n) n
  rwa [before, ← pop_tap] at judged

/-! ### An adoption between the readers (R127, R132, R160) -/

/-- An adopted interval above the beat position. -/
theorem adopt_within {v : Nat} {s : State} (within : s.tempo.beatPosition < clampInterval v) : adopt v s =
    { s with tempo := { s.tempo with interval := clampInterval v, tapSide := true, oscSide := true } } := by
  unfold adopt
  exact if_neg (Nat.not_le.mpr within)

/-- What an event that adopts an interval leaves: both parts of the tempo-changed indicator set, and of each tap at most the
staged edit changed. -/
structure Adopted (ib : Nat) (s u : State) : Prop where
  tempo : u.tempo = { s.tempo with interval := ib, tapSide := true, oscSide := true }
  oscs : u.oscs = s.oscs
  tap : ∀ n, ∃ staged, u.tap n = { s.tap n with staged := staged }

section
variable {s : State} {v : Nat}

/-- SET_TEMPO adopts its interval and stages nothing (R132). -/
theorem takeAdoption_setTempo (takes : takesCommands s = true) (internal : s.tempo.source = .internal) (fits : v < 2 ^ 32)
    (within : s.tempo.beatPosition < clampInterval v) :
    Adopted (clampInterval v) s (takeAdoption s (.setTempo (whole (bytesOf 4 v)))) ∧
    (takeAdoption s (.setTempo (whole (bytesOf 4 v)))).taps = s.taps := by
  obtain ⟨free, normal⟩ := (takesCommands_iff s).mp takes
  have owned : ownSetTempo (bytesOf 4 v) (hold 0x40 (wrote 4 s)) = (.done .ok 0 (bytesOf 4 (adopt v
      (hold 0x40 (wrote 4 s))).tempo.interval), adopt v (hold 0x40 (wrote 4 s))) := by
    unfold ownSetTempo
    rw [show (hold 0x40 (wrote 4 s)).tempo.source = .internal from internal, argField_four fits]
  have taken : takeAdoption s (.setTempo (whole (bytesOf 4 v))) =
      answer 0x40 (ownSetTempo (bytesOf 4 v) (hold 0x40 (wrote 4 s))) :=
    writeCommand_answers free (n := 4) (by decide) rfl (taken_of_normal normal _) _
  rw [taken, owned, adopt_within (s := hold 0x40 (wrote 4 s)) within]
  exact ⟨⟨rfl, rfl, fun n => ⟨_, rfl⟩⟩, rfl⟩

/-- The tempo of a popped entry is adopted in INTERNAL (R160). -/
theorem popTempo_within (internal : s.tempo.source = .internal) {entry : Scene} (holds : entry.tempo = some v)
    (within : s.tempo.beatPosition < clampInterval v) : popTempo entry s =
      { s with tempo := { s.tempo with interval := clampInterval v, tapSide := true, oscSide := true } } := by
  have restored : restoredTempo entry s = some v := by
    unfold restoredTempo
    rw [internal]
    exact holds
  unfold popTempo
  rw [restored]
  exact adopt_within within

/-- A pop of an entry with a tempo adopts it behind what it stages (R158 to R160). -/
theorem ownPopScene_adopts (internal : s.tempo.source = .internal) {entry : Scene} {rest : List Scene}
    (top : s.scenes = entry :: rest) (holds : entry.tempo = some v)
    (within : s.tempo.beatPosition < clampInterval v) (args : List Byte) :
    ∃ bytes u, ownPopScene args s = (.done .ok 0 bytes, u) ∧ Adopted (clampInterval v) s u ∧
      ∀ n, PopStages entry.sets[n.val] (s.tap n) (u.tap n) := by
  have stages : ∀ n, PopStages entry.sets[n.val] (s.tap n)
      ((popTaps entry { s with scenes := rest }).state.tap n) := popTaps_stages entry { s with scenes := rest }
  have tempo := popTaps_keeps State.tempo (by intros; rfl) entry { s with scenes := rest }
  have oscs := popTaps_keeps State.oscs (by intros; rfl) entry { s with scenes := rest }
  have answers : ∃ bytes, ownPopScene args s =
      (.done .ok 0 bytes, popTempo entry (popTaps entry { s with scenes := rest }).state) := by
    unfold ownPopScene
    rw [top]
    exact ⟨_, rfl⟩
  obtain ⟨bytes, answered⟩ := answers
  generalize (popTaps entry { s with scenes := rest }).state = popped at stages tempo oscs answered
  dsimp only at tempo oscs
  rw [popTempo_within (by rw [tempo]; exact internal) holds (by rw [tempo]; exact within), tempo] at answered
  refine ⟨bytes, _, answered, ⟨rfl, oscs, fun n => ?_⟩, stages⟩
  obtain ⟨staged, change, -⟩ := stages n
  exact ⟨staged, change⟩

/-- So does POP_SCENE, taken in NORMAL. -/
theorem takeAdoption_popScene (takes : takesCommands s = true) (internal : s.tempo.source = .internal) {entry : Scene}
    {rest : List Scene} (top : s.scenes = entry :: rest) (holds : entry.tempo = some v)
    (within : s.tempo.beatPosition < clampInterval v) :
    Adopted (clampInterval v) s (takeAdoption s (.popScene (whole []))) ∧
    ∀ n, PopStages entry.sets[n.val] (s.tap n) ((takeAdoption s (.popScene (whole []))).tap n) := by
  obtain ⟨free, normal⟩ := (takesCommands_iff s).mp takes
  have taken : takeAdoption s (.popScene (whole [])) = answer 0x61 (ownPopScene [] (hold 0x61 (wrote 0 s))) :=
    writeCommand_answers free (n := 0) (by decide) rfl (taken_of_normal normal _) _
  obtain ⟨bytes, u, owned, adopted, stages⟩ :=
    ownPopScene_adopts (s := hold 0x61 (wrote 0 s)) internal top holds within []
  rw [taken, owned]
  exact ⟨⟨adopted.tempo, adopted.oscs, adopted.tap⟩, stages⟩

end

/-- An event that brings a tempo, as O38 takes it between the readers: a SET_TEMPO of an interval, or a POP_SCENE of an entry
with one. -/
def OffersTempo (v : Nat) (scenes : List Scene) (a : Adoption) : Prop :=
  (a = .setTempo (whole (bytesOf 4 v)) ∧ v < 2 ^ 32) ∨
    (a = .popScene (whole []) ∧ ∃ entry rest, scenes = entry :: rest ∧ entry.tempo = some v)

/-- What it leaves staged on a tap: a SET_TEMPO what was staged, and a pop what its entry asks for. -/
def Stages (a : Adoption) (v : Nat) (scenes : List Scene) (n : TapNo) (t : Tap) (staged : Option Edit) : Prop :=
  (a = .setTempo (whole (bytesOf 4 v)) → staged = t.staged) ∧
  ∀ entry rest, a = .popScene (whole []) → scenes = entry :: rest →
    let want := entry.sets[n.val]
    (want.alike t.nextSet = true → staged = t.staged) ∧
    (want.alike t.nextSet = false → want.run = false → staged = some .stop)

/-- Its interval is adopted behind what it stages. -/
theorem takeAdoption_adopts {s : State} {a : Adoption} {v : Nat} (takes : takesCommands s = true)
    (internal : s.tempo.source = .internal) (offers : OffersTempo v s.scenes a)
    (within : s.tempo.beatPosition < clampInterval v) :
    Adopted (clampInterval v) s (takeAdoption s a) ∧
    ∀ n, ∃ staged, (takeAdoption s a).tap n = { s.tap n with staged := staged } ∧
      Stages a v s.scenes n (s.tap n) staged := by
  rcases offers with ⟨rfl, fits⟩ | ⟨rfl, entry, rest, top, holds⟩
  · obtain ⟨adopted, taps⟩ := takeAdoption_setTempo takes internal fits within
    exact ⟨adopted, fun n => ⟨(s.tap n).staged, State.tap_of_taps taps n, fun _ => rfl, nofun⟩⟩
  · obtain ⟨adopted, stages⟩ := takeAdoption_popScene takes internal top holds within
    refine ⟨adopted, fun n => ?_⟩
    obtain ⟨staged, change, asked⟩ := stages n
    refine ⟨staged, change, nofun, fun entry' rest' _ top' => ?_⟩
    obtain ⟨rfl, -⟩ := List.cons.inj (top.symm.trans top')
    exact asked

/-! ### The two orders (R128, R162) -/

section
variable {s : State} {order : EdgeOrder} {a : Adoption} {v : Nat} (resized : Bool)

/-- The tap table first: it uses the old interval and the bank the new one. -/
theorem readersBoundary_tapsFirst (first : order.bankFirst = false) (between : order.between = [a])
    (takes : takesCommands s = true) (internal : s.tempo.source = .internal) (offers : OffersTempo v s.scenes a)
    (within : s.tempo.beatPosition < clampInterval v) :
    let u := readersBoundary order resized s
    (∀ n, { u.tap n with staged := none } = (s.tap n).boundary s.size s.tempo.interval s.tempo.tapSide) ∧
    (∀ m, u.osc m = (s.osc m).boundary s.size (clampInterval v) true resized) ∧
    u.tempo = { s.tempo with interval := clampInterval v, tapSide := true, oscSide := false } := by
  intro u
  obtain ⟨adopted, -⟩ := takeAdoption_adopts (s := tapBoundary s) takes internal offers within
  have read : u = oscBoundary resized (takeAdoption (tapBoundary s) a) := by
    show readersBoundary order resized s = _
    unfold readersBoundary adoptBetween
    rw [first, between]
    rfl
  have size : (takeAdoption (tapBoundary s) a).size = s.size := by simp [State.size]
  rw [read]
  refine ⟨fun n => ?_, fun m => ?_, ?_⟩
  · obtain ⟨staged, change⟩ := adopted.tap n
    have clear : ((tapBoundary s).tap n).staged = none := by rw [tapBoundary_tap, Tap.boundary_staged]
    have kept : (oscBoundary resized (takeAdoption (tapBoundary s) a)).tap n =
      { (tapBoundary s).tap n with staged := staged } := change
    rw [kept, ← tapBoundary_tap, ← clear]
  · rw [oscBoundary_osc, size, adopted.tempo, State.osc_of_oscs adopted.oscs]
    rfl
  · rw [oscBoundary_tempo, adopted.tempo]
    rfl

/-- The bank first: it uses the old interval and the tap table the new one, with what is staged by then. -/
theorem readersBoundary_bankFirst (first : order.bankFirst = true) (between : order.between = [a])
    (takes : takesCommands s = true) (internal : s.tempo.source = .internal) (offers : OffersTempo v s.scenes a)
    (within : s.tempo.beatPosition < clampInterval v) :
    let u := readersBoundary order resized s
    (∀ m, u.osc m = (s.osc m).boundary s.size s.tempo.interval s.tempo.oscSide resized) ∧
    (∀ n, ∃ staged, u.tap n = ({ s.tap n with staged := staged } : Tap).boundary s.size (clampInterval v) true ∧
      Stages a v s.scenes n (s.tap n) staged) ∧
    u.tempo = { s.tempo with interval := clampInterval v, tapSide := false, oscSide := true } := by
  intro u
  obtain ⟨adopted, stages⟩ := takeAdoption_adopts (s := oscBoundary resized s) takes internal offers within
  have read : u = tapBoundary (takeAdoption (oscBoundary resized s) a) := by
    show readersBoundary order resized s = _
    unfold readersBoundary adoptBetween
    rw [first, between]
    rfl
  have size : (takeAdoption (oscBoundary resized s) a).size = s.size := by simp [State.size]
  rw [read]
  refine ⟨fun m => ?_, fun n => ?_, ?_⟩
  · rw [← oscBoundary_osc]
    exact State.osc_of_oscs adopted.oscs m
  · obtain ⟨staged, change, asked⟩ := stages n
    refine ⟨staged, ?_, asked⟩
    rw [tapBoundary_tap, size, adopted.tempo, change]
    rfl
  · rw [tapBoundary_tempo, adopted.tempo]
    rfl

end

/-! ### The whole boundary -/

section
variable (order : EdgeOrder) (zero : Bool) (s : State)

theorem boundaryAround_tap (n : TapNo) :
    (boundaryAround order zero s).tap n = (readersBoundary order (resizes s) (boundaryStart zero s)).tap n := by
  rw [boundaryAround_eq, State.withReaders_tap]

theorem boundaryAround_osc (m : OscNo) :
    (boundaryAround order zero s).osc m = (readersBoundary order (resizes s) (boundaryStart zero s)).osc m := by
  rw [boundaryAround_eq, State.withReaders_osc]

theorem boundaryAround_tempo :
    (boundaryAround order zero s).tempo = (readersBoundary order (resizes s) (boundaryStart zero s)).tempo := by
  rw [boundaryAround_eq, State.withReaders_tempo]

theorem boundaryAround_timer_size : (boundaryAround order zero s).timer.size = sizeAfter s := by
  rw [boundaryAround_timer, boundary_timer]
  rfl

theorem boundaryAround_size : (boundaryAround order zero s).size = (boundaryStart zero s).size := by
  rw [boundaryStart_size]
  exact congrArg PeriodSize.toNat (boundaryAround_timer_size order zero s)

theorem boundaryAround_resized : ((boundaryAround order zero s).timer.size != s.timer.size) = resizes s := by
  rw [boundaryAround_timer_size]
  rfl

end

/-- Settles O38: the plain boundary reader by reader, and with an adoption between the readers in each order. -/
theorem boundariesMoveTapsAndOscillators : Obligations.BoundariesMoveTapsAndOscillators := by
  refine ⟨fun s order zero => ⟨fun alone => boundaryAround_alone order alone zero s, boundaryAround_other order zero s,
    fun n => ?_, fun m => ?_, boundary_tempo zero s⟩, Tap.boundary_eq, ?_⟩
  · rw [boundary_size, boundary_tap]
  · rw [boundary_size, boundary_timer, boundary_osc]
    rfl
  · intro s order zero a v takes internal between offers ib within t resized
    have started : takesCommands (boundaryStart zero s) = true := by simpa [takesCommands, mailboxFree] using takes
    have taps : ∀ n, s.tap n = (boundaryStart zero s).tap n := fun n => State.tap_of_taps (by simp) n
    have oscs : ∀ m, s.osc m = (boundaryStart zero s).osc m := fun m => State.osc_of_oscs (by simp) m
    have tempo : s.tempo = (boundaryStart zero s).tempo := by simp
    have scenes : s.scenes = (boundaryStart zero s).scenes := by simp
    have size : t.size = (boundaryStart zero s).size := boundaryAround_size order zero s
    have same : resized = resizes s := boundaryAround_resized order zero s
    have tap : ∀ n, t.tap n = (readersBoundary order (resizes s) (boundaryStart zero s)).tap n :=
      boundaryAround_tap order zero s
    have osc : ∀ m, t.osc m = (readersBoundary order (resizes s) (boundaryStart zero s)).osc m :=
      boundaryAround_osc order zero s
    have after : t.tempo = (readersBoundary order (resizes s) (boundaryStart zero s)).tempo :=
      boundaryAround_tempo order zero s
    clear_value t resized
    generalize boundaryStart zero s = u at started taps oscs tempo scenes size tap osc after
    simp only [taps, oscs, tempo, scenes, size, same, tap, osc, after] at internal offers within ⊢
    exact ⟨fun first => readersBoundary_tapsFirst _ first between started internal offers within,
      fun first => readersBoundary_bankFirst _ first between started internal offers within⟩

end Sys2Proof.Machine
end

section
/-! O15, O16, O20. Beats and bars (R130, R131, R147), the adoption of an interval (R127), the pulse loss timer (R139) and
the pulses of the tempo clock line (R137, R138). -/

namespace Sys2Proof.Machine

/-! ### Beats and bars (R130, R131, R147) -/

/-- A bar start marks the oscillators whose present setting restarts on the bar. -/
theorem barStart_osc (s : State) (m : OscNo) : (barStart s).osc m =
    { s.osc m with restartPending := (s.osc m).restartPending || (s.osc m).setting.restartOnBar } := by
  simp [barStart, State.osc]

theorem advanceBeat_within {s : State} (within : s.tempo.beatNumber + 1 ≠ s.tempo.beatsPerBar) : advanceBeat s =
    { s with tempo := { s.tempo with beatNumber := s.tempo.beatNumber + 1 } } := if_neg within

theorem advanceBeat_bar {s : State} (ends : s.tempo.beatNumber + 1 = s.tempo.beatsPerBar) :
    advanceBeat s = barStart { s with tempo := { s.tempo with beatNumber := 0 } } := if_pos ends

/-- At the end of the bar the beat number becomes 0 and the oscillators are marked; nothing else changes. -/
theorem advanceBeat_marks {s : State} (ends : s.tempo.beatNumber + 1 = s.tempo.beatsPerBar) : ∃ oscs : Vector Osc 16,
    advanceBeat s = { s with tempo := { s.tempo with beatNumber := 0 }, oscs := oscs } ∧ ∀ m : OscNo,
      oscs[m.val] =
        { s.osc m with restartPending := (s.osc m).restartPending || (s.osc m).setting.restartOnBar } :=
  ⟨_, advanceBeat_bar ends, barStart_osc _⟩

theorem advanceBeat_tempo (s : State) :
    (advanceBeat s).tempo = { s.tempo with beatNumber := (advanceBeat s).tempo.beatNumber } := by
  by_cases ends : s.tempo.beatNumber + 1 = s.tempo.beatsPerBar
  · rw [advanceBeat_bar ends]
    rfl
  · rw [advanceBeat_within ends]

theorem alignBeat_early {ib : Nat} {s : State} (early : ib ≤ 2 * s.tempo.beatPosition) :
    alignBeat ib s = advanceBeat { s with tempo := { s.tempo with beatPosition := 0 } } := if_pos early

theorem alignBeat_late {ib : Nat} {s : State} (late : 2 * s.tempo.beatPosition < ib) :
    alignBeat ib s = { s with tempo := { s.tempo with beatPosition := 0 } } := if_neg (Nat.not_le.mpr late)

theorem alignBeat_tempo (ib : Nat) (s : State) : (alignBeat ib s).tempo =
    { s.tempo with beatPosition := 0, beatNumber := (alignBeat ib s).tempo.beatNumber } := by
  rcases Nat.lt_or_ge (2 * s.tempo.beatPosition) ib with late | early
  · rw [alignBeat_late late]
  · rw [alignBeat_early early, advanceBeat_tempo]

theorem advancePosition_within {s : State} (within : ¬s.tempo.interval ≤ s.tempo.beatPosition + 256) :
    advancePosition s = { s with tempo := { s.tempo with beatPosition := s.tempo.beatPosition + 256 } } := if_neg within

theorem advancePosition_wraps {s : State} (wraps : s.tempo.interval ≤ s.tempo.beatPosition + 256) : advancePosition s =
    advanceBeat { s with tempo :=
      { s.tempo with beatPosition := s.tempo.beatPosition + 256 - s.tempo.interval } } := if_pos wraps

theorem advancePosition_tempo (s : State) : (advancePosition s).tempo =
    { s.tempo with
      beatPosition := (advancePosition s).tempo.beatPosition, beatNumber := (advancePosition s).tempo.beatNumber } := by
  by_cases wraps : s.tempo.interval ≤ s.tempo.beatPosition + 256
  · rw [advancePosition_wraps wraps, advanceBeat_tempo]
  · rw [advancePosition_within wraps]

/-! ### The pulse loss timer (R139) -/

theorem ExtState.isFollower_iff (x : ExtState) : x.isFollower = true ↔ x = .acquiring ∨ x = .following := by
  cases x <;> decide

theorem countPulseLoss_disarmed {s : State} (disarmed : s.tempo.lossTimer = none) : countPulseLoss s = s := by
  unfold countPulseLoss
  rw [disarmed]

theorem countPulseLoss_counts {s : State} {n : Nat} (armed : s.tempo.lossTimer = some n) (more : 2 ≤ n) :
    countPulseLoss s = { s with tempo := { s.tempo with lossTimer := some (n - 1) } } := by
  unfold countPulseLoss
  rw [armed]
  exact if_neg fun last => absurd last.1 (Nat.not_le.mpr more)

/-- The last count loses the clock in a state that judges the timer. -/
theorem countPulseLoss_loses {s : State} {n : Nat} (armed : s.tempo.lossTimer = some n) (last : n ≤ 1)
    (follows : s.tempo.ext = .acquiring ∨ s.tempo.ext = .following) : countPulseLoss s = loseTempoClock s := by
  unfold countPulseLoss
  rw [armed]
  exact if_pos ⟨last, (ExtState.isFollower_iff _).mpr follows⟩

/-- So does the row of its own (log 14). -/
theorem exec_pulseLossTimerExpiry_loses {s : State} {n : Nat} (armed : s.tempo.lossTimer = some n) (last : n ≤ 1)
    (follows : s.tempo.ext = .acquiring ∨ s.tempo.ext = .following) :
    exec .pulseLossTimerExpiry s = .next (loseTempoClock s) := by
  show execPulseLossTimerExpiry s = _
  unfold execPulseLossTimerExpiry
  rw [armed]
  exact congrArg Host.Outcome.next (if_pos ⟨last, (ExtState.isFollower_iff _).mpr follows⟩)

theorem loseTempoClock_tempo (s : State) :
    (loseTempoClock s).tempo = { s.tempo with ext := .lost, lossTimer := none } := rfl

theorem loseTempoClock_pending (s : State) :
    (loseTempoClock s).notices.pending = s.notices.pending ||| 0x0010#16 := rfl

theorem countPulseLoss_tempo (s : State) : (countPulseLoss s).tempo =
    { s.tempo with ext := (countPulseLoss s).tempo.ext, lossTimer := (countPulseLoss s).tempo.lossTimer } := by
  unfold countPulseLoss
  split
  · rfl
  · split <;> rfl

/-! ### A sample edge (R130, R139) -/

section
variable (s : State)

theorem tempoEdge_eq : tempoEdge s =
    { s with tempo := (tempoEdge s).tempo, oscs := (tempoEdge s).oscs, notices := (tempoEdge s).notices } := by
  apply State.eq_of_fields <;> simp

theorem tempoEdge_oscs : (tempoEdge s).oscs = (advancePosition s).oscs := by simp [tempoEdge]

theorem tempoEdge_osc (m : OscNo) : (tempoEdge s).osc m = (advancePosition s).osc m :=
  State.osc_of_oscs (tempoEdge_oscs s) m

/-- The beat is the advanced position's, whatever the pulse loss timer does. -/
theorem tempoEdge_tempo : (tempoEdge s).tempo =
    { (advancePosition s).tempo with ext := (tempoEdge s).tempo.ext, lossTimer := (tempoEdge s).tempo.lossTimer } :=
  countPulseLoss_tempo (advancePosition s)

theorem tempoEdge_beatPosition : (tempoEdge s).tempo.beatPosition = (advancePosition s).tempo.beatPosition := by
  rw [tempoEdge_tempo]

theorem tempoEdge_beatNumber : (tempoEdge s).tempo.beatNumber = (advancePosition s).tempo.beatNumber := by
  rw [tempoEdge_tempo]

theorem advancePosition_lossTimer : (advancePosition s).tempo.lossTimer = s.tempo.lossTimer := by
  rw [advancePosition_tempo]

theorem advancePosition_ext : (advancePosition s).tempo.ext = s.tempo.ext := by
  rw [advancePosition_tempo]

theorem advancePosition_notices : (advancePosition s).notices = s.notices := by simp

theorem tempoEdge_disarmed {s : State} (disarmed : s.tempo.lossTimer = none) : tempoEdge s = advancePosition s :=
  countPulseLoss_disarmed ((advancePosition_lossTimer s).trans disarmed)

theorem tempoEdge_loses {s : State} {n : Nat} (armed : s.tempo.lossTimer = some n) (last : n ≤ 1)
    (follows : s.tempo.ext = .acquiring ∨ s.tempo.ext = .following) :
    tempoEdge s = loseTempoClock (advancePosition s) :=
  countPulseLoss_loses ((advancePosition_lossTimer s).trans armed) last (by rwa [advancePosition_ext])

theorem tempoEdge_counts {s : State} {n : Nat} (armed : s.tempo.lossTimer = some n) (more : 2 ≤ n) : tempoEdge s =
    { advancePosition s with tempo := { (advancePosition s).tempo with lossTimer := some (n - 1) } } :=
  countPulseLoss_counts ((advancePosition_lossTimer s).trans armed) more

end

/-- Settles O15: the beat through a sample edge, and the pulse loss timer by the counts left. -/
theorem sampleEdgesCountBeatsAndJudgePulseLoss : Obligations.SampleEdgesCountBeatsAndJudgePulseLoss := by
  refine ⟨fun s => ?beat, fun s n armed => ⟨fun follows last => ?lost, fun more => ?counted⟩⟩
  case beat =>
    intro t wraps
    refine ⟨tempoEdge_eq s, ?_, fun within => ?_, fun wrapped => ?_, fun wrapped inside => ?_, fun wrapped ends => ?_,
      fun disarmed => ?_⟩
    · show (tempoEdge s).tempo = { s.tempo with
        beatPosition := (tempoEdge s).tempo.beatPosition, beatNumber := (tempoEdge s).tempo.beatNumber
        ext := (tempoEdge s).tempo.ext, lossTimer := (tempoEdge s).tempo.lossTimer }
      rw [tempoEdge_beatPosition, tempoEdge_beatNumber]
      exact (tempoEdge_tempo s).trans (by rw [advancePosition_tempo])
    · have moved := advancePosition_within within
      exact ⟨by rw [tempoEdge_beatPosition, moved], by rw [tempoEdge_beatNumber, moved], by rw [tempoEdge_oscs, moved]⟩
    · rw [tempoEdge_beatPosition, advancePosition_wraps wrapped, advanceBeat_tempo]
    · have moved := (advancePosition_wraps wrapped).trans (advanceBeat_within inside)
      exact ⟨by rw [tempoEdge_beatNumber, moved], by rw [tempoEdge_oscs, moved]⟩
    · have moved := (advancePosition_wraps wrapped).trans (advanceBeat_bar ends)
      refine ⟨by rw [tempoEdge_beatNumber, moved]; rfl, fun m => ?_⟩
      rw [tempoEdge_osc, moved]
      exact barStart_osc _ m
    · have stood : t = advancePosition s := tempoEdge_disarmed disarmed
      rw [stood, advancePosition_ext, advancePosition_lossTimer, advancePosition_notices]
      exact ⟨rfl, disarmed, rfl⟩
  case lost =>
    refine ⟨exec_pulseLossTimerExpiry_loses armed last follows, ?_⟩
    rw [tempoEdge_loses armed last follows, loseTempoClock_tempo, advancePosition_tempo, loseTempoClock_pending,
      advancePosition_notices]
    exact ⟨rfl, rfl, rfl, rfl, rfl, rfl, rfl⟩
  case counted =>
    rw [tempoEdge_counts armed more]
    exact ⟨rfl, advancePosition_ext s, advancePosition_notices s⟩

/-! ### The adoption of an interval (R127) -/

theorem adopt_wraps {v : Nat} {s : State} (wraps : clampInterval v ≤ s.tempo.beatPosition) : adopt v s =
    advanceBeat { s with tempo := { s.tempo with
      interval := clampInterval v, tapSide := true, oscSide := true
      beatPosition := s.tempo.beatPosition % clampInterval v } } := by
  unfold adopt
  exact if_pos wraps

theorem adopt_tempo (v : Nat) (s : State) : (adopt v s).tempo =
    { s.tempo with
      interval := clampInterval v, tapSide := true, oscSide := true
      beatPosition := (adopt v s).tempo.beatPosition, beatNumber := (adopt v s).tempo.beatNumber } := by
  rcases Nat.lt_or_ge s.tempo.beatPosition (clampInterval v) with within | wraps
  · rw [adopt_within within]
  · rw [adopt_wraps wraps, advanceBeat_tempo]

/-- The margin of an offer, by the distance of the two intervals. -/
theorem passesHysteresis_iff (ib v : Nat) :
    passesHysteresis ib v = true ↔ 256 * ((clampInterval v : Int) - ib).natAbs > ib := by
  have distance : (clampInterval v - ib) + (ib - clampInterval v) = ((clampInterval v : Int) - ib).natAbs := by omega
  unfold passesHysteresis
  rw [decide_eq_true_iff, distance]

theorem offer_adopts {v : Nat} {s : State} (passes : passesHysteresis s.tempo.interval v = true) :
    offer v s = adopt v s := if_pos passes

theorem offer_stands {v : Nat} {s : State} (fails : ¬passesHysteresis s.tempo.interval v = true) : offer v s = s :=
  if_neg fails

/-- What the taps and the follower have gathered, no offer changes. -/
theorem offer_gathered (v : Nat) (s : State) :
    (offer v s).tempo.tapList = s.tempo.tapList ∧ (offer v s).tempo.phase = s.tempo.phase := by
  by_cases passes : passesHysteresis s.tempo.interval v = true
  · rw [offer_adopts passes, adopt_tempo]
    exact ⟨rfl, rfl⟩
  · rw [offer_stands passes]
    exact ⟨rfl, rfl⟩

/-- Settles O16: an adoption by the beat position and the beat number, and an offer by the margin. -/
theorem adoptionClampsAndHolds : Obligations.AdoptionClampsAndHolds := by
  refine fun v s => ⟨adopt_within, fun wraps => ⟨fun inside => ?_, fun ends => ?_⟩,
    fun differs => offer_adopts ((passesHysteresis_iff _ v).mpr differs),
    fun close => offer_stands fun passes => ?_⟩
  · exact (adopt_wraps wraps).trans (advanceBeat_within inside)
  · rw [adopt_wraps wraps]
    exact advanceBeat_marks ends
  · exact absurd ((passesHysteresis_iff _ v).mp passes) (Nat.not_lt.mpr close)

/-! ### Pulses (R137 to R139) -/

theorem joinTail_eq (n : Nat) (xs : List Nat) (x : Nat) :
    joinTail n xs x = (if n ≤ xs.length then xs.tail else xs) ++ [x] := by
  rw [joinTail, List.drop_one]

theorem offerWindow_eq (s : State) : offerWindow s = offer (s.tempo.window.sum * 256) s := by
  rw [offerWindow, foldl_add_eq_sum]

theorem takePulse_idle {s : State} (idle : s.tempo.ext = .idle) : takePulse s = s := by
  unfold takePulse
  rw [idle]

theorem takePulse_lost {s : State} (lost : s.tempo.ext = .lost) : takePulse s = { s with tempo :=
    { s.tempo with ext := .acquiring, window := [], phase := 0, lastPulse := some s.timer.samples } } := by
  unfold takePulse
  rw [lost]

theorem takePulse_acquiring {s : State} (acquires : s.tempo.ext = .acquiring) :
    takePulse s = measurePulse acquirePulse s := by
  unfold takePulse
  rw [acquires]

theorem takePulse_following {s : State} (follows : s.tempo.ext = .following) :
    takePulse s = measurePulse followPulse s := by
  unfold takePulse
  rw [follows]

/-- In either of the two states a pulse is measured. -/
theorem takePulse_measures {s : State} (listens : s.tempo.ext = .acquiring ∨ s.tempo.ext = .following) :
    ∃ take, takePulse s = measurePulse take s := by
  rcases listens with acquires | follows
  · exact ⟨_, takePulse_acquiring acquires⟩
  · exact ⟨_, takePulse_following follows⟩

section
variable {s : State} {t : SampleCount} (take : Nat → State → State)

theorem measurePulse_first (first : s.tempo.lastPulse = none) :
    measurePulse take s = { s with tempo := { s.tempo with lastPulse := some s.timer.samples } } := by
  unfold measurePulse
  rw [first]

theorem measurePulse_unspaced (held : s.tempo.lastPulse = some t) (unspaced : (s.timer.samples - t).toNat = 0) :
    measurePulse take s = s := by
  unfold measurePulse
  rw [held]
  exact if_pos unspaced

theorem measurePulse_spaced (held : s.tempo.lastPulse = some t) (spaced : 0 < (s.timer.samples - t).toNat) :
    measurePulse take s = take (s.timer.samples - t).toNat s := by
  unfold measurePulse
  rw [held]
  exact if_neg spaced.ne'

end

section
variable {s : State} {spacing : Nat}

theorem acquirePulse_gathers (few : (joinTail 24 s.tempo.window spacing).length ≠ 24) :
    acquirePulse spacing s = { s with tempo := s.tempo.takeSpacing s.timer.samples spacing } := if_neg few

/-- The 24th spacing begins FOLLOWING, with the window's sum offered before the beat is aligned (log 19). -/
theorem acquirePulse_follows (full : (joinTail 24 s.tempo.window spacing).length = 24) : ∃ a,
    a = offer ((joinTail 24 s.tempo.window spacing).sum * 256)
      { s with tempo := { s.tempo.takeSpacing s.timer.samples spacing with ext := .following } } ∧
    acquirePulse spacing s = alignBeat s.tempo.interval { a with tempo := { a.tempo with phase := 0 } } := by
  refine ⟨offerWindow { s with tempo := { s.tempo.takeSpacing s.timer.samples spacing with ext := .following } },
    offerWindow_eq _, ?_⟩
  unfold acquirePulse
  dsimp only
  exact if_pos full

/-- Each pulse in FOLLOWING offers the window's sum; every 24th then aligns the beat (log 19). -/
theorem followPulse_offers : ∃ a,
    a = offer ((joinTail 24 s.tempo.window spacing).sum * 256)
      { s with tempo := s.tempo.takeSpacing s.timer.samples spacing } ∧
    (s.tempo.phase ≠ 23 →
      followPulse spacing s = { a with tempo := { a.tempo with phase := s.tempo.phase + 1 } }) ∧
    (s.tempo.phase = 23 → followPulse spacing s =
      alignBeat s.tempo.interval { a with tempo := { a.tempo with phase := 0 } }) := by
  have phase : (offerWindow { s with tempo := s.tempo.takeSpacing s.timer.samples spacing }).tempo.phase =
      s.tempo.phase := (offer_gathered _ _).2
  refine ⟨offerWindow { s with tempo := s.tempo.takeSpacing s.timer.samples spacing }, offerWindow_eq _, ?_⟩
  unfold followPulse
  dsimp only
  rw [phase]
  exact ⟨fun within => if_neg fun ends => within (Nat.succ.inj ends), fun ends => if_pos (congrArg Nat.succ ends)⟩

end

/-- Settles O20: the alignment by the beat position and the beat number, and a pulse by the external state. -/
theorem tempoPulsesAreMeasured : Obligations.TempoPulsesAreMeasured := by
  have taken : ∀ {s t : State}, takePulse s = t → exec .tempoPulse s = .next t := fun same =>
    congrArg Host.Outcome.next same
  refine ⟨fun ib s => ⟨alignBeat_late, fun early inside => ?_, fun early ends => ?_⟩, fun s => ⟨fun idle =>
    taken (takePulse_idle idle), fun lost => taken (takePulse_lost lost), fun listens => ⟨fun first => ?_, ?_⟩⟩⟩
  · exact (alignBeat_early early).trans (advanceBeat_within inside)
  · rw [alignBeat_early early]
    exact advanceBeat_marks ends
  · obtain ⟨take, measures⟩ := takePulse_measures listens
    exact taken (measures.trans (measurePulse_first take first))
  · intro t held spacing
    rw [← joinTail_eq]
    intro window measured
    have acquiring : 0 < spacing → s.tempo.ext = .acquiring → takePulse s = acquirePulse spacing s :=
      fun spaced acquires => (takePulse_acquiring acquires).trans (measurePulse_spaced _ held spaced)
    have following : 0 < spacing → s.tempo.ext = .following → takePulse s = followPulse spacing s :=
      fun spaced follows => (takePulse_following follows).trans (measurePulse_spaced _ held spaced)
    refine ⟨fun unspaced => ?_, fun spaced acquires few => ?_, fun spaced acquires full => ?_, fun spaced follows => ?_⟩
    · obtain ⟨take, measures⟩ := takePulse_measures listens
      exact taken (measures.trans (measurePulse_unspaced take held unspaced))
    · exact taken ((acquiring spaced acquires).trans (acquirePulse_gathers few))
    · obtain ⟨a, offered, aligned⟩ := acquirePulse_follows full
      exact ⟨a, offered, taken ((acquiring spaced acquires).trans aligned)⟩
    · obtain ⟨a, offered, counted, aligned⟩ := followPulse_offers (s := s) (spacing := spacing)
      exact ⟨a, offered, fun within => taken ((following spaced follows).trans (counted within)),
        fun ends => taken ((following spaced follows).trans (aligned ends))⟩

end Sys2Proof.Machine
end

section
/-! O17, O19. The tempo commands (R132 to R136): what each of their owners does beside the mailbox, and a counted tap
(R131, R133). -/

namespace Sys2Proof.Machine

/-! ### Beside the mailbox -/

/-- A command taken in NORMAL completes with its owner's answer, which leaves the part as the owner leaves it. -/
theorem command_completes {s t : State} (h : takesCommands s = true) {code : Byte} {n : Nat}
    (row : (code, n) ∈ commandTable) {args : List Byte} (hn : args.length = n)
    {owner : List Byte → State → Reply × State}
    {result : ResultCode} {check : Nat} {bytes : List Byte}
    (owned : owner args (hold code (wrote n s)) = (.done result check bytes, hold code t)) :
    (.next (writeCommand code owner (whole args) s) : Host.Outcome State Fault Refusal) =
      .next (complete code result check bytes t) := by
  obtain ⟨free, normal⟩ := (takesCommands_iff s).mp h
  rw [writeCommand_answers free row hn (taken_of_normal normal code), owned]
  rfl

theorem advanceBeat_hold (code : Byte) (s : State) : advanceBeat (hold code s) = hold code (advanceBeat s) := by
  by_cases ends : s.tempo.beatNumber + 1 = s.tempo.beatsPerBar
  · rw [advanceBeat_bar ends, advanceBeat_bar (s := hold code s) ends]
    rfl
  · rw [advanceBeat_within ends, advanceBeat_within (s := hold code s) ends]
    rfl

theorem alignBeat_hold (ib : Nat) (code : Byte) (s : State) :
    alignBeat ib (hold code s) = hold code (alignBeat ib s) := by
  rcases Nat.lt_or_ge (2 * s.tempo.beatPosition) ib with late | early
  · rw [alignBeat_late late, alignBeat_late (s := hold code s) late]
    rfl
  · rw [alignBeat_early early, alignBeat_early (s := hold code s) early, ← advanceBeat_hold]
    rfl

theorem adopt_hold (v : Nat) (code : Byte) (s : State) : adopt v (hold code s) = hold code (adopt v s) := by
  rcases Nat.lt_or_ge s.tempo.beatPosition (clampInterval v) with within | wraps
  · rw [adopt_within within, adopt_within (s := hold code s) within]
    rfl
  · rw [adopt_wraps wraps, adopt_wraps (s := hold code s) wraps, ← advanceBeat_hold]
    rfl

theorem offer_hold (v : Nat) (code : Byte) (s : State) : offer v (hold code s) = hold code (offer v s) := by
  by_cases passes : passesHysteresis s.tempo.interval v = true
  · rw [offer_adopts passes, offer_adopts (s := hold code s) passes, adopt_hold]
  · rw [offer_stands passes, offer_stands (s := hold code s) passes]

/-! ### SET_TEMPO and TAP_TEMPO by source and span (R132, R133) -/

section
variable {s : State}

theorem ownSetTempo_adopts (internal : s.tempo.source = .internal) {v : Nat} (fits : v < 2 ^ 32) :
    ownSetTempo (bytesOf 4 v) s = (.done .ok 0 (bytesOf 4 (clampInterval v)), adopt v s) := by
  unfold ownSetTempo
  rw [internal, argField_four fits]
  dsimp only
  rw [adopt_tempo]

theorem ownSetTempo_external (external : s.tempo.source = .external) (args : List Byte) :
    ownSetTempo args s = refuse .source s := by
  unfold ownSetTempo
  rw [external]

theorem ownTapTempo_external (external : s.tempo.source = .external) (args : List Byte) :
    ownTapTempo args s = refuse .source s := by
  unfold ownTapTempo
  rw [external]

/-- A tap far behind the last, or with none held, begins a new sequence. -/
theorem ownTapTempo_restarts (internal : s.tempo.source = .internal)
    (far : ∀ t, s.tempo.lastTap = some t → 524288 < (s.timer.samples - t).toNat) (args : List Byte) :
    ownTapTempo args s = restartTaps s := by
  unfold ownTapTempo
  rw [internal]
  cases held : s.tempo.lastTap with
  | none => rfl
  | some t =>
    have span : 524288 < sampleSpan s.timer.samples t := far t held
    dsimp only
    rw [if_neg (by omega), if_pos span]

theorem ownTapTempo_ignores (internal : s.tempo.source = .internal) {t : SampleCount} (held : s.tempo.lastTap = some t)
    (near : (s.timer.samples - t).toNat < 4096) (args : List Byte) :
    ownTapTempo args s = (.done .ok 0 (tapResult 0 none false s), s) := by
  unfold ownTapTempo
  rw [internal, held]
  exact if_pos near

theorem ownTapTempo_counts (internal : s.tempo.source = .internal) {t : SampleCount} (held : s.tempo.lastTap = some t)
    (near : 4096 ≤ (s.timer.samples - t).toNat) (far : (s.timer.samples - t).toNat ≤ 524288) (args : List Byte) :
    ownTapTempo args s = countTap (s.timer.samples - t).toNat s := by
  unfold ownTapTempo
  rw [internal, held]
  exact (if_neg (Nat.not_lt.mpr near)).trans (if_neg (Nat.not_lt.mpr far))

/-! ### A tap that restarts, and a tap not counted (R133) -/

/-- The beat restarted makes a bar start. -/
theorem restartBeat_osc (m : OscNo) : (restartBeat s).osc m =
    { s.osc m with restartPending := (s.osc m).restartPending || (s.osc m).setting.restartOnBar } := barStart_osc _ m

/-- A tap not counted sends its outcome, the taps held and no mean (log 32). -/
theorem tapResult_uncounted (outcome : Nat) : tapResult outcome none false s =
    [BitVec.ofNat 8 outcome, BitVec.ofNat 8 s.tempo.tapList.length, 0xFF, 0xFF, 0xFF, 0xFF, 0] := by
  rw [tapResult, bytesOf_one, bytesOf_one]
  rfl

theorem restartTaps_eq : restartTaps s = (.done .ok 0 [1, 0, 0xFF, 0xFF, 0xFF, 0xFF, 0],
    restartBeat { s with tempo := { s.tempo with tapList := [], lastTap := some s.timer.samples } }) := by
  unfold restartTaps
  dsimp only
  rw [tapResult_uncounted]
  rfl

/-! ### A tap counted (R131, R133) -/

/-- The mean of the taps, rounded to the nearest 256th. -/
theorem tapMean_eq {taps : List Nat} (nonempty : taps ≠ []) :
    tapMean taps = ⌊(taps.sum * 256 : Rat) / taps.length + 1 / 2⌋₊ := by
  rw [tapMean, foldl_add_eq_sum, roundUpHalf_eq _ (List.length_pos_iff.mpr nonempty)]
  push_cast
  rfl

/-- The part with a counted tap in its list. -/
def tapJoined (span : Nat) (s : State) : State := { s with tempo :=
  { s.tempo with tapList := joinTail 4 s.tempo.tapList span, lastTap := some s.timer.samples } }

/-- The part after a counted tap, up to the offer: its interval joined to the list, and the beat aligned. -/
def tapAligned (span : Nat) (s : State) : State := alignBeat s.tempo.interval (tapJoined span s)

/-- A counted tap offers the mean behind the alignment. -/
theorem countTap_eq (span : Nat) : countTap span s =
    let taps := joinTail 4 s.tempo.tapList span
    (.done .ok 0 ([2, BitVec.ofNat 8 taps.length] ++ bytesOf 4 (tapMean taps) ++
      flagByte (passesHysteresis s.tempo.interval (tapMean taps))), offer (tapMean taps) (tapAligned span s)) := by
  have interval : (tapAligned span s).tempo.interval = s.tempo.interval := by
    rw [tapAligned, alignBeat_tempo]
    rfl
  have list : (offer (tapMean (joinTail 4 s.tempo.tapList span)) (tapAligned span s)).tempo.tapList =
      joinTail 4 s.tempo.tapList span := by
    rw [(offer_gathered _ _).1, tapAligned, alignBeat_tempo]
    rfl
  show (Reply.done .ok 0 (tapResult 2 (some (tapMean (joinTail 4 s.tempo.tapList span)))
    (passesHysteresis (tapAligned span s).tempo.interval (tapMean (joinTail 4 s.tempo.tapList span)))
    (offer (tapMean (joinTail 4 s.tempo.tapList span)) (tapAligned span s))),
    offer (tapMean (joinTail 4 s.tempo.tapList span)) (tapAligned span s)) = _
  rw [tapResult, list, interval, bytesOf_one, bytesOf_one]
  rfl

theorem tapAligned_hold (span : Nat) (code : Byte) : tapAligned span (hold code s) = hold code (tapAligned span s) :=
  alignBeat_hold _ code (tapJoined span s)

/-- From half of Ib on the tap is early, and the beat advances. -/
theorem tapAligned_inside (span : Nat) (early : s.tempo.interval ≤ 2 * s.tempo.beatPosition)
    (inside : s.tempo.beatNumber + 1 ≠ s.tempo.beatsPerBar) : tapAligned span s = { s with tempo := { s.tempo with
      tapList := joinTail 4 s.tempo.tapList span, lastTap := some s.timer.samples, beatPosition := 0
      beatNumber := s.tempo.beatNumber + 1 } } :=
  (alignBeat_early (s := tapJoined span s) early).trans (advanceBeat_within inside)

/-- At the end of the bar an early tap makes a bar start. -/
theorem tapAligned_bar (span : Nat) (early : s.tempo.interval ≤ 2 * s.tempo.beatPosition)
    (ends : s.tempo.beatNumber + 1 = s.tempo.beatsPerBar) :
    tapAligned span s = barStart { s with tempo := { s.tempo with
      tapList := joinTail 4 s.tempo.tapList span, lastTap := some s.timer.samples, beatPosition := 0
      beatNumber := 0 } } :=
  (alignBeat_early (s := tapJoined span s) early).trans (advanceBeat_bar ends)

theorem tapAligned_late (span : Nat) (late : 2 * s.tempo.beatPosition < s.tempo.interval) :
    tapAligned span s = { s with tempo := { s.tempo with
      tapList := joinTail 4 s.tempo.tapList span, lastTap := some s.timer.samples, beatPosition := 0 } } :=
  alignBeat_late (s := tapJoined span s) late

/-- The alignment writes the beat and the marks of the oscillators alone. -/
theorem tapAligned_frame (span : Nat) :
    tapAligned span s = { s with tempo := (tapAligned span s).tempo, oscs := (tapAligned span s).oscs } := by
  apply State.eq_of_fields <;> simp [tapAligned, tapJoined]

/-! ### SET_TEMPO_SOURCE and SET_METER (R134, R135) -/

theorem ownSetTempoSource_refuses {x : Byte} (above : 1 < x.toNat) : ownSetTempoSource [x] s = refuse .badArg s :=
  if_pos above

theorem ownSetTempoSource_present {x : Byte} (present : x.toNat = s.tempo.source.code) :
    ownSetTempoSource [x] s = okBytes [] s := by
  have small : ¬1 < x.toNat := by
    rw [present]
    cases s.tempo.source <;> decide
  exact (if_neg small).trans (if_pos present)

/-- A change of source clears what the follower and the taps had gathered. -/
theorem ownSetTempoSource_internal (external : s.tempo.source = .external) : ownSetTempoSource [0] s =
    okBytes [] { s with tempo := { s.tempo with
      source := .internal, ext := .idle, window := [], phase := 0, lastPulse := none, lossTimer := none
      tapList := [], lastTap := none } } := by
  unfold ownSetTempoSource
  rw [external]
  rfl

theorem ownSetTempoSource_external (internal : s.tempo.source = .internal) : ownSetTempoSource [1] s =
    okBytes [] { s with tempo := { s.tempo with
      source := .external, ext := .acquiring, window := [], phase := 0, lastPulse := none, lossTimer := none
      tapList := [], lastTap := none } } := by
  unfold ownSetTempoSource
  rw [internal]
  rfl

theorem ownSetMeter_refuses {n : Byte} (outside : n.toNat < 1 ∨ 16 < n.toNat) :
    ownSetMeter [n] s = refuse .badArg s := if_pos outside

theorem ownSetMeter_sets {n : Byte} (low : 1 ≤ n.toNat) (high : n.toNat ≤ 16) : ownSetMeter [n] s =
    okBytes [] { s with tempo := { s.tempo with
      beatsPerBar := n.toNat, beatNumber := s.tempo.beatNumber % n.toNat } } :=
  if_neg (not_or.mpr ⟨Nat.not_lt.mpr low, Nat.not_lt.mpr high⟩)

end

/-- Settles O19: the value refused, or become beats per bar. -/
theorem setMeterSetsBeatsPerBar : Obligations.SetMeterSetsBeatsPerBar := fun _ _ takes =>
  ⟨fun outside => command_completes takes (n := 1) (by decide) rfl (ownSetMeter_refuses outside),
    fun low high => command_completes takes (n := 1) (by decide) rfl (ownSetMeter_sets low high)⟩

/-- A tap counted, by what the alignment leaves (R131, R133). -/
theorem exec_tapTempo_counts {s : State} (takes : takesCommands s = true) (internal : s.tempo.source = .internal)
    {t : SampleCount} (held : s.tempo.lastTap = some t) (near : 4096 ≤ (s.timer.samples - t).toNat)
    (far : (s.timer.samples - t).toNat ≤ 524288) :
    let taps := joinTail 4 s.tempo.tapList (s.timer.samples - t).toNat
    exec (.tapTempo (whole [])) s = .next (complete 0x41 .ok 0
      ([2, BitVec.ofNat 8 taps.length] ++ bytesOf 4 (tapMean taps)
        ++ flagByte (passesHysteresis s.tempo.interval (tapMean taps)))
      (offer (tapMean taps) (tapAligned (s.timer.samples - t).toNat (wrote 0 s)))) := by
  refine command_completes takes (n := 0) (by decide) rfl ?_
  rw [ownTapTempo_counts (s := hold 0x41 (wrote 0 s)) internal held near far, countTap_eq, tapAligned_hold]
  dsimp only
  rw [offer_hold]
  rfl

/-- Settles O17: SET_TEMPO and the taps by their source and span, the counted tap, the change of source, and RESYNC. -/
theorem tempoCommandsSetTapSourceAndResync : Obligations.TempoCommandsSetTapSourceAndResync := by
  refine ⟨fun s takes => ⟨fun internal v fits => ?set, fun external => ⟨fun v => ?setExternal, ?tapExternal⟩,
    fun internal => ⟨fun far => ?restart, fun t held near => ?ignored⟩⟩,
    fun s t takes internal held near far => ?counted, fun s takes => ⟨fun external => ?toInternal,
      fun internal => ?toExternal, fun internal => ?same, fun external => ?same', fun x above => ?above, ?resync⟩⟩
  case set =>
    refine command_completes takes (n := 4) (by decide) rfl ?_
    rw [ownSetTempo_adopts (s := hold 0x40 (wrote 4 s)) internal fits, adopt_hold, adopt_tempo]
  case setExternal =>
    exact command_completes takes (n := 4) (by decide) rfl
      (ownSetTempo_external (s := hold 0x40 (wrote 4 s)) external _)
  case tapExternal =>
    exact command_completes takes (n := 0) (by decide) rfl
      (ownTapTempo_external (s := hold 0x41 (wrote 0 s)) external _)
  case restart =>
    refine ⟨restartBeat { wrote 0 s with tempo := { s.tempo with tapList := [], lastTap := some s.timer.samples } },
      command_completes takes (n := 0) (by decide) rfl ?_, rfl, restartBeat_osc⟩
    exact (ownTapTempo_restarts (s := hold 0x41 (wrote 0 s)) internal far []).trans restartTaps_eq
  case ignored =>
    refine command_completes takes (n := 0) (by decide) rfl ?_
    rw [ownTapTempo_ignores (s := hold 0x41 (wrote 0 s)) internal held near, tapResult_uncounted]
    rfl
  case counted =>
    rw [← joinTail_eq]
    intro taps mean ib adopted
    have nonempty : taps ≠ [] := List.append_ne_nil_of_right_ne_nil _ (List.cons_ne_nil _ _)
    have same : mean = tapMean taps := (tapMean_eq nonempty).symm
    have margin : adopted = passesHysteresis s.tempo.interval mean := by
      rw [Bool.eq_iff_iff, passesHysteresis_iff]
      exact decide_eq_true_iff
    refine ⟨tapAligned (s.timer.samples - t).toNat (wrote 0 s), ?_, fun early => ?_,
      tapAligned_late (s := wrote 0 s) _, tapAligned_frame _⟩
    · rw [margin, same]
      exact exec_tapTempo_counts takes internal held near far
    · by_cases ends : s.tempo.beatNumber + 1 = s.tempo.beatsPerBar
      · have aligned := tapAligned_bar (s := wrote 0 s) (s.timer.samples - t).toNat early ends
        rw [aligned, if_pos ends]
        exact ⟨rfl, fun inside => absurd ends inside, fun _ => barStart_osc _⟩
      · have aligned := tapAligned_inside (s := wrote 0 s) (s.timer.samples - t).toNat early ends
        rw [aligned, if_neg ends]
        exact ⟨rfl, fun _ => rfl, fun bar => absurd bar ends⟩
  case toInternal =>
    exact command_completes takes (n := 1) (by decide) rfl (ownSetTempoSource_internal external)
  case toExternal =>
    exact command_completes takes (n := 1) (by decide) rfl (ownSetTempoSource_external internal)
  case same =>
    exact command_completes takes (n := 1) (by decide) rfl
      (ownSetTempoSource_present (congrArg TempoSource.code internal).symm)
  case same' =>
    exact command_completes takes (n := 1) (by decide) rfl
      (ownSetTempoSource_present (congrArg TempoSource.code external).symm)
  case above =>
    exact command_completes takes (n := 1) (by decide) rfl (ownSetTempoSource_refuses above)
  case resync =>
    exact ⟨restartBeat { wrote 0 s with tempo := { s.tempo with phase := 0 } },
      command_completes takes (n := 0) (by decide) rfl rfl, rfl, restartBeat_osc⟩

end Sys2Proof.Machine
end

section
/-! O21. The oscillator bank (R143 to R146): the five steps of an oscillator's boundary work, the register's 32 steps, and
the legal cycle lengths. -/

namespace Sys2Proof.Machine

/-! ### The register (R146) -/

/-- A step shifts the register one place up and enters the exclusive-or of bits 31, 21, 1 and 0. -/
theorem lfsrStep_eq (r : BitVec 32) : lfsrStep r =
    r <<< 1 ||| (if r.getLsbD 31 ^^ r.getLsbD 21 ^^ r.getLsbD 1 ^^ r.getLsbD 0 then 1#32 else 0#32) := by
  have entered : ∀ b : Bool, (BitVec.ofBool b).setWidth 32 = if b then 1#32 else 0#32 := by decide
  unfold lfsrStep
  dsimp only
  rw [entered, ← Bool.xor_assoc]

theorem lfsrStep_bit (r : BitVec 32) {i : Nat} (inside : i < 32) : (lfsrStep r).getLsbD i =
    if i = 0 then r.getLsbD 31 ^^ r.getLsbD 21 ^^ r.getLsbD 1 ^^ r.getLsbD 0 else r.getLsbD (i - 1) := by
  have entered : ∀ b : Bool, (if b then 1#32 else 0#32).getLsbD i = (decide (i = 0) && b) := fun b => by
    cases b <;> simp [BitVec.getLsbD_one]
  rw [lfsrStep_eq, BitVec.getLsbD_or, BitVec.getLsbD_shiftLeft, entered, decide_eq_true inside]
  cases i with
  | zero => simp
  | succ i => simp

/-- A step that left nothing had bit 31 alone to shift out, and that bit it would have entered again. -/
theorem eq_zero_of_lfsrStep {r : BitVec 32} (nothing : lfsrStep r = 0) : r = 0 := by
  have low : ∀ i, i + 1 < 32 → r.getLsbD i = false := fun i inside => by
    have moved := lfsrStep_bit r inside
    rw [nothing, if_neg (Nat.succ_ne_zero i)] at moved
    exact moved.symm.trans BitVec.getLsbD_zero
  have entered := lfsrStep_bit r (i := 0) (by decide)
  rw [nothing, if_pos rfl, low 21 (by decide), low 1 (by decide), low 0 (by decide)] at entered
  have high : r.getLsbD 31 = false := by simpa using entered.symm
  refine BitVec.eq_of_getLsbD_eq fun i inside => ?_
  show _ = (0#32).getLsbD i
  rw [BitVec.getLsbD_zero]
  rcases Nat.lt_succ_iff_lt_or_eq.mp inside with below | rfl
  · exact low i (Nat.succ_lt_succ below)
  · exact high

theorem lfsrRenew_eq (r : BitVec 32) : lfsrRenew r = lfsrStep^[32] r := by
  rw [lfsrRenew, List.foldl_const, List.length_range]

theorem lfsrRenew_ne_zero {r : BitVec 32} (h : r ≠ 0) : lfsrRenew r ≠ 0 := by
  rw [lfsrRenew_eq]
  exact Function.Iterate.rec (fun r => r ≠ 0) h (fun _ nonzero => mt eq_zero_of_lfsrStep nonzero) 32

/-! ### The five steps (R145) -/

section
variable (o : Osc)

theorem Osc.applySetting_eq : o.applySetting = { o with
    setting := (o.staged.map (·.setting)).getD o.setting
    restartPending := o.restartPending || o.staged.any (·.restart), staged := none } := by
  unfold Osc.applySetting
  cases staged : o.staged with
  | none =>
    dsimp only [Option.map_none, Option.getD_none, Option.any_none]
    rw [Bool.or_false, ← staged]
  | some x => rfl

theorem Osc.recompute_eq (b ib : Nat) (recomputes : Bool) : (if recomputes then o.recompute b ib else o) = { o with
    effective := if recomputes then effectiveLength b ib o.setting else o.effective
    increment := if recomputes then approxReciprocal (effectiveLength b ib o.setting) else o.increment } := by
  cases recomputes <;> rfl

theorem Osc.renew_eq : o.renew = { o with
    lfsr := lfsrRenew o.lfsr
    held := if o.setting.shape == .random then randomValue (lfsrRenew o.lfsr) else o.held } := by
  unfold Osc.renew
  cases o.setting.shape <;> rfl

/-- A restart, and an end wrap, take a new value; a restart begins the cycle at phase 0. -/
theorem Osc.move_eq : o.move = { o with
    phase := if o.restartPending then 0 else o.endPhase
    lfsr := if o.restartPending || o.endWrap then lfsrRenew o.lfsr else o.lfsr
    held := if (o.restartPending || o.endWrap) && o.setting.shape == .random then randomValue (lfsrRenew o.lfsr)
      else o.held
    restartPending := false } := by
  unfold Osc.move
  rw [Osc.renew_eq, Osc.renew_eq]
  cases pending : o.restartPending with
  | true => rfl
  | false => cases wrapped : o.endWrap <;> rfl

end

/-- An oscillator's boundary work together: the setting, the recomputation and the move, then the end phase. -/
theorem Osc.boundary_eq (b ib : Nat) (found resized : Bool) (o : Osc) :
    let restart := o.restartPending || o.staged.any (·.restart)
    let setting := (o.staged.map (·.setting)).getD o.setting
    let recompute := o.staged.isSome || (setting.mode == .sync && found) || resized
    o.boundary b ib found resized = Osc.aim b { o with
      setting := setting, staged := none, restartPending := false
      effective := if recompute then effectiveLength b ib setting else o.effective
      increment := if recompute then approxReciprocal (effectiveLength b ib setting) else o.increment
      phase := if restart then 0 else o.endPhase
      lfsr := if restart || o.endWrap then lfsrRenew o.lfsr else o.lfsr
      held := if (restart || o.endWrap) && setting.shape == .random then randomValue (lfsrRenew o.lfsr)
        else o.held } := by
  unfold Osc.boundary
  dsimp only
  rw [Osc.recompute_eq, Osc.move_eq, Osc.applySetting_eq]

theorem Osc.aim_endPhase (b : Nat) (o : Osc) : (o.aim b).endPhase.toNat = (o.phase.toNat + b * o.increment) % 2 ^ 32 :=
  BitVec.toNat_ofNat _ _

theorem Osc.aim_endWrap (b : Nat) (o : Osc) : (o.aim b).endWrap = true ↔ 2 ^ 32 ≤ o.phase.toNat + b * o.increment :=
  decide_eq_true_iff

/-! ### Cycle lengths (R143) -/

section
variable {o : OscSetting} (b ib : Nat)

theorem effectiveLength_still (free : o.mode = .free) (still : o.cycle = 0) : effectiveLength b ib o = 0 := by
  unfold effectiveLength
  rw [free]
  exact if_pos still

theorem effectiveLength_free (free : o.mode = .free) (turns : o.cycle ≠ 0) :
    effectiveLength b ib o = min (2 ^ 24) (max (2 * b) o.cycle) := by
  unfold effectiveLength
  rw [free]
  exact if_neg turns

end

/-- Settles O21: the boundary work in one equation, the register's steps, the cycle lengths by mode, and the
increments. -/
theorem oscillatorsTurnWithinLegalCycles : Obligations.OscillatorsTurnWithinLegalCycles := by
  refine ⟨fun b ib found resized o => ?work, fun r => ⟨?steps, lfsrRenew_ne_zero⟩, fun o => rfl, fun size ib o =>
    ⟨effectiveLength_still _ ib, effectiveLength_free _ ib, fun sync => ?sync⟩, rfl, fun j => approxReciprocal_pow,
    fun lc => approxReciprocal_near⟩
  case work =>
    dsimp only
    rw [Osc.boundary_eq]
    exact ⟨rfl, rfl, rfl, rfl, rfl, rfl, rfl, rfl, Osc.aim_endPhase b _, Osc.aim_endWrap b _⟩
  case steps =>
    rw [lfsrRenew_eq, funext lfsrStep_eq]
  case sync =>
    rw [effectiveLength_sync _ ib sync]
    cases o.modifier <;> rfl

end Sys2Proof.Machine
end

section
/-! O22. What an oscillator gives (R148, R149): the SINE shape's bound over the first quarter carried to the whole cycle by
the symmetry of the shape and of the sine, the exact quarters, and the curve that each shape's values follow. -/

namespace Sys2Proof.Machine

/-! ### The true sine by phase -/

/-- The sine of a phase's angle. -/
noncomputable def trueSine (p : Nat) : ℝ := Real.sin (2 * Real.pi * p / 2 ^ 32)

theorem trueSine_reflect {p : Nat} (inside : p ≤ 2 ^ 31) : trueSine (2 ^ 31 - p) = trueSine p := by
  have angle : 2 * Real.pi * ((2 ^ 31 - p : Nat) : ℝ) / 2 ^ 32 = Real.pi - 2 * Real.pi * p / 2 ^ 32 := by
    rw [Nat.cast_sub inside]
    push_cast
    ring
  rw [trueSine, angle, Real.sin_pi_sub, trueSine]

theorem trueSine_half (p : Nat) : trueSine (p + 2 ^ 31) = -trueSine p := by
  have angle : 2 * Real.pi * ((p + 2 ^ 31 : Nat) : ℝ) / 2 ^ 32 = 2 * Real.pi * p / 2 ^ 32 + Real.pi := by
    push_cast
    ring
  rw [trueSine, angle, Real.sin_add_pi, trueSine]

theorem trueSine_nonneg {p : Nat} (inside : p ≤ 2 ^ 31) : 0 ≤ trueSine p := by
  have below : (p : ℝ) ≤ 2 ^ 31 := by exact_mod_cast inside
  refine Real.sin_nonneg_of_nonneg_of_le_pi (by positivity) ?_
  nlinarith [Real.pi_pos]

/-! ### The first quarter (R148, log 17) -/

theorem clampRat_between {low high : Rat} (ordered : low ≤ high) (v : Rat) :
    low ≤ clampRat low high v ∧ clampRat low high v ≤ high :=
  ⟨le_min ordered (le_max_left _ _), min_le_left _ _⟩

/-- The series comes within its own error of the range from 0 to 1, so that the bounds about it leave room for a value. -/
theorem sineNear_between {p : Nat} (quarter : p ≤ 2 ^ 30) :
    -(1 / 2 ^ 60) ≤ sineNear p ∧ sineNear p ≤ 1 + 1 / 2 ^ 60 := by
  obtain ⟨low, high⟩ := abs_le.mp (sineNear_close p quarter)
  have nonneg := trueSine_nonneg (p := p) (by omega)
  have unity := Real.sin_le_one (2 * Real.pi * p / 2 ^ 32)
  unfold trueSine at nonneg
  constructor
  · rw [← Rat.cast_le (K := ℝ)]
    push_cast
    linarith
  · rw [← Rat.cast_le (K := ℝ)]
    push_cast
    linarith

/-- Whatever the free value, the value taken is within the margin of the series. -/
theorem clampSine_close {p : Nat} (quarter : p ≤ 2 ^ 30) (free : Rat) :
    |clampRat (max 0 (sineNear p - sineMargin)) (min 1 (sineNear p + sineMargin)) free - sineNear p| ≤ sineMargin := by
  obtain ⟨low, high⟩ := sineNear_between quarter
  have ordered : max 0 (sineNear p - sineMargin) ≤ min 1 (sineNear p + sineMargin) := by
    unfold sineMargin
    refine max_le (le_min ?_ ?_) (le_min ?_ ?_) <;> linarith
  obtain ⟨above, below⟩ := clampRat_between ordered free
  have lower := (le_max_right _ _).trans above
  have upper := below.trans (min_le_right _ _)
  exact abs_le.mpr ⟨by linarith, by linarith⟩

theorem sineQuarter_zero : sineQuarter 0 = 0 := if_pos rfl

theorem sineQuarter_end : sineQuarter (2 ^ 30) = 1 := (if_neg (by decide)).trans (if_pos rfl)

theorem trueSine_zero : trueSine 0 = 0 := by simp [trueSine]

theorem trueSine_end : trueSine (2 ^ 30) = 1 := by
  have angle : 2 * Real.pi * ((2 ^ 30 : Nat) : ℝ) / 2 ^ 32 = Real.pi / 2 := by
    push_cast
    ring
  rw [trueSine, angle, Real.sin_pi_div_two]

theorem sineQuarter_close {p : Nat} (quarter : p ≤ 2 ^ 30) : |(sineQuarter p : ℝ) - trueSine p| ≤ 1 / 2 ^ 16 := by
  by_cases first : p = 0
  · rw [first, sineQuarter_zero, trueSine_zero]
    norm_num
  by_cases last : p = 2 ^ 30
  · rw [last, sineQuarter_end, trueSine_end]
    norm_num
  have value : sineQuarter p = clampRat _ _ (Config.sine p) := (if_neg first).trans (if_neg last)
  have near := (Rat.cast_le (K := ℝ)).mpr (clampSine_close quarter (Config.sine p))
  rw [← value, Rat.cast_abs, Rat.cast_sub] at near
  calc |(sineQuarter p : ℝ) - trueSine p|
      ≤ |(sineQuarter p : ℝ) - sineNear p| + |(sineNear p : ℝ) - trueSine p| := abs_sub_le _ _ _
    _ ≤ (sineMargin : ℝ) + 1 / 2 ^ 60 := add_le_add near (sineNear_close p quarter)
    _ = 1 / 2 ^ 16 := by
      unfold sineMargin
      push_cast
      ring

/-! ### The whole cycle by symmetry (R148) -/

theorem sineHalf_reflect {p : Nat} (inside : p ≤ 2 ^ 31) : sineHalf (2 ^ 31 - p) = sineHalf p := by
  unfold sineHalf
  rcases Nat.lt_trichotomy p (2 ^ 30) with first | rfl | second
  · rw [if_neg (by omega), if_pos first.le, Nat.sub_sub_self inside]
  · rfl
  · rw [if_pos (by omega), if_neg (by omega)]

theorem sineHalf_close {p : Nat} (inside : p ≤ 2 ^ 31) : |(sineHalf p : ℝ) - trueSine p| ≤ 1 / 2 ^ 16 := by
  unfold sineHalf
  split
  · next first => exact sineQuarter_close first
  · next second =>
    rw [← trueSine_reflect inside]
    exact sineQuarter_close (by omega)

theorem sineValue_first {p : BitVec 32} (first : p.toNat < 2 ^ 31) : sineValue p = sineHalf p.toNat := if_pos first

theorem sineValue_second {p : BitVec 32} (second : 2 ^ 31 ≤ p.toNat) : sineValue p = -sineHalf (p.toNat - 2 ^ 31) :=
  if_neg (Nat.not_lt.mpr second)

theorem sineValue_close (p : BitVec 32) : |(sineValue p : ℝ) - trueSine p.toNat| ≤ 1 / 2 ^ 16 := by
  rcases Nat.lt_or_ge p.toNat (2 ^ 31) with first | second
  · rw [sineValue_first first]
    exact sineHalf_close first.le
  · have turned := trueSine_half (p.toNat - 2 ^ 31)
    rw [Nat.sub_add_cancel second] at turned
    rw [sineValue_second second, turned, Rat.cast_neg, neg_sub_neg, abs_sub_comm]
    exact sineHalf_close (by omega)

theorem sineValue_half (p : BitVec 32) : sineValue (p + 0x80000000#32) = -sineValue p := by
  rcases Nat.lt_or_ge p.toNat (2 ^ 31) with first | second
  · have sum : (p + 0x80000000#32).toNat = p.toNat + 2 ^ 31 := by bv_omega
    rw [sineValue_first first, sineValue_second (by omega), sum, Nat.add_sub_cancel]
  · have sum : (p + 0x80000000#32).toNat = p.toNat - 2 ^ 31 := by bv_omega
    rw [sineValue_second second, sineValue_first (by omega), sum, neg_neg]

theorem sineValue_zero : sineValue 0#32 = 0 :=
  (sineValue_first (by decide)).trans ((if_pos (by decide)).trans sineQuarter_zero)

theorem sineValue_quarter : sineValue 0x40000000#32 = 1 :=
  (sineValue_first (by decide)).trans ((if_pos (by decide)).trans sineQuarter_end)

theorem sineValue_middle : sineValue 0x80000000#32 = 0 := by
  have turned := sineValue_half 0#32
  rwa [BitVec.zero_add, sineValue_zero, neg_zero] at turned

theorem sineValue_threeQuarters : sineValue 0xC0000000#32 = -1 := by
  have turned := sineValue_half 0x40000000#32
  rwa [sineValue_quarter] at turned

theorem sineValue_reflect {p : BitVec 32} (inside : p.toNat ≤ 2 ^ 31) :
    sineValue (0x80000000#32 - p) = sineValue p := by
  have difference : (0x80000000#32 - p).toNat = 2 ^ 31 - p.toNat := by bv_omega
  rcases Nat.eq_zero_or_pos p.toNat with zero | positive
  · rw [BitVec.eq_of_toNat_eq (y := 0#32) zero, BitVec.sub_zero, sineValue_middle, sineValue_zero]
  rcases inside.lt_or_eq with first | middle
  · rw [sineValue_first (by omega), sineValue_first first, difference, sineHalf_reflect inside]
  · rw [BitVec.eq_of_toNat_eq (y := 0x80000000#32) middle, BitVec.sub_self, sineValue_middle]
    exact sineValue_zero

/-! ### The TRIANGLE shape (R148) -/

section
variable {p : BitVec 32}

theorem triangleValue_rises (first : p.toNat ≤ 2 ^ 30) : triangleValue p = 4 * (p.toNat : Rat) / 2 ^ 32 := by
  rw [mul_div_assoc]
  exact if_pos first

theorem triangleValue_falls (peak : 2 ^ 30 ≤ p.toNat) (trough : p.toNat ≤ 3 * 2 ^ 30) :
    triangleValue p = 2 - 4 * (p.toNat : Rat) / 2 ^ 32 := by
  rcases peak.eq_or_lt with meets | beyond
  · rw [triangleValue_rises meets.ge, ← meets]
    norm_num
  · rw [mul_div_assoc]
    exact (if_neg (Nat.not_le.mpr beyond)).trans (if_pos trough)

theorem triangleValue_returns (trough : 3 * 2 ^ 30 ≤ p.toNat) :
    triangleValue p = 4 * (p.toNat : Rat) / 2 ^ 32 - 4 := by
  rcases trough.eq_or_lt with meets | beyond
  · rw [triangleValue_falls (by omega) meets.ge, ← meets]
    norm_num
  · rw [mul_div_assoc]
    exact (if_neg (by omega)).trans (if_neg (Nat.not_le.mpr beyond))

end

/-! ### The values of a tap (R149) -/

theorem quadrantPhase_eq (p : BitVec 32) (q : Nat) : quadrantPhase p q = BitVec.ofNat 32 (p.toNat + q * 2 ^ 30) := by
  rw [quadrantPhase, BitVec.ofNat_add, BitVec.ofNat_toNat, BitVec.setWidth_eq]

section
variable {o : Osc} (q : Nat)

theorem Osc.startValue_sine (shape : o.setting.shape = .sine) :
    o.startValue q = sineValue (BitVec.ofNat 32 (o.phase.toNat + q * 2 ^ 30)) := by
  rw [Osc.startValue, shape, ← quadrantPhase_eq]

theorem Osc.endValue_sine (shape : o.setting.shape = .sine) :
    o.endValue q = sineValue (BitVec.ofNat 32 (o.endPhase.toNat + q * 2 ^ 30)) := by
  rw [Osc.endValue, shape, ← quadrantPhase_eq]

theorem Osc.startValue_triangle (shape : o.setting.shape = .triangle) :
    o.startValue q = triangleValue (BitVec.ofNat 32 (o.phase.toNat + q * 2 ^ 30)) := by
  rw [Osc.startValue, shape, ← quadrantPhase_eq]

theorem Osc.endValue_triangle (shape : o.setting.shape = .triangle) :
    o.endValue q = triangleValue (BitVec.ofNat 32 (o.endPhase.toNat + q * 2 ^ 30)) := by
  rw [Osc.endValue, shape, ← quadrantPhase_eq]

theorem Osc.startValue_random (shape : o.setting.shape = .random) : o.startValue q = (o.held : Rat) / 2 ^ 31 := by
  rw [Osc.startValue, shape]

theorem Osc.endValue_random (shape : o.setting.shape = .random) :
    o.endValue q = ((if o.endWrap then o.nextValue else o.held : Int) : Rat) / 2 ^ 31 := by
  rw [Osc.endValue, shape]

end

/-- Settles O22: the TRIANGLE shape piece by piece, the SINE shape by its first quarter and its symmetry, and a tap's two
values by the shape. -/
theorem oscillatorValuesFollowTheirCurves : Obligations.OscillatorValuesFollowTheirCurves := by
  refine ⟨fun p => ⟨triangleValue_rises, triangleValue_falls, triangleValue_returns, ?close, sineValue_half p,
      sineValue_reflect⟩, sineValue_zero, sineValue_quarter, sineValue_middle, sineValue_threeQuarters, fun o q =>
    ⟨fun sine => ⟨Osc.startValue_sine q sine, Osc.endValue_sine q sine⟩,
      fun triangle => ⟨Osc.startValue_triangle q triangle, Osc.endValue_triangle q triangle⟩,
      fun random => ⟨Osc.startValue_random q random, fun stands => ?stands, fun wraps => ?wraps⟩⟩⟩
  case close =>
    rw [← mul_div_assoc]
    exact sineValue_close p
  case stands => rw [Osc.endValue_random q random, stands, if_neg Bool.false_ne_true]
  case wraps => rw [Osc.endValue_random q random, wraps, if_pos rfl]

end Sys2Proof.Machine
end

section
/-! O23. SET_OSC (R151, R194): the codes its layout does not define, and the setting read back from its bytes. -/

namespace Sys2Proof.Machine

theorem oscArgsIllegal_iff (args : List Byte) : oscArgsIllegal args = true ↔
    15 < argByte args 0 ∨ 2 < argByte args 1 ∨ 1 < argByte args 2 ∨ 15 < argByte args 7 ∨ 2 < argByte args 8 ∨
      1 < argByte args 9 ∨ 1 < argByte args 10 := by
  simp only [oscArgsIllegal, Bool.or_eq_true, decide_eq_true_eq, or_assoc]

theorem ownSetOsc_refuses {args : List Byte} (illegal : oscArgsIllegal args = true) (s : State) :
    ownSetOsc args s = refuse .badArg s := if_pos illegal

/-! ### The setting's bytes -/

/-- SET_OSC's arguments: the oscillator's number, and the setting with its restart request. -/
def StagedOsc.args (m : OscNo) (x : StagedOsc) : List Byte := bytesOf 1 m.val ++ (x.setting.bytes ++ flagByte x.restart)

section
variable (m : OscNo) {x : StagedOsc}

theorem StagedOsc.args_eq (x : StagedOsc) : x.args m =
    BitVec.ofNat 8 m.val :: BitVec.ofNat 8 x.setting.shape.code :: BitVec.ofNat 8 x.setting.mode.code ::
      (bytesOf 4 x.setting.cycle ++ [BitVec.ofNat 8 x.setting.noteExp, BitVec.ofNat 8 x.setting.modifier.code,
        BitVec.ofNat 8 x.setting.restartOnBar.toNat, BitVec.ofNat 8 x.restart.toNat]) := by
  simp only [StagedOsc.args, OscSetting.bytes, flagByte, bytesOf_one, List.append_assoc, List.cons_append,
    List.nil_append]

/-- The same in the order of SET_OSC's layout. -/
theorem StagedOsc.args_flat (x : StagedOsc) : x.args m =
    bytesOf 1 m.val ++ bytesOf 1 x.setting.shape.code ++ bytesOf 1 x.setting.mode.code ++ bytesOf 4 x.setting.cycle
      ++ bytesOf 1 x.setting.noteExp ++ bytesOf 1 x.setting.modifier.code ++ flagByte x.setting.restartOnBar
      ++ flagByte x.restart := by
  simp only [StagedOsc.args, OscSetting.bytes, List.append_assoc]

theorem StagedOsc.args_length (x : StagedOsc) : (x.args m).length = 11 := by
  rw [StagedOsc.args_eq]
  rfl

theorem StagedOsc.args_osc (x : StagedOsc) : argByte (x.args m) 0 = m.val := by
  rw [StagedOsc.args_eq]
  exact argByte_ofNat (Nat.lt_trans m.isLt (by decide)) _

theorem StagedOsc.args_shape (x : StagedOsc) : argByte (x.args m) 1 = x.setting.shape.code := by
  rw [StagedOsc.args_eq]
  cases x.setting.shape <;> rfl

theorem StagedOsc.args_mode (x : StagedOsc) : argByte (x.args m) 2 = x.setting.mode.code := by
  rw [StagedOsc.args_eq]
  cases x.setting.mode <;> rfl

theorem StagedOsc.args_cycle (fits : x.setting.cycle < 2 ^ 32) : argField (x.args m) 3 4 = x.setting.cycle := by
  rw [StagedOsc.args_eq]
  exact (natOfBytes_bytesOf 4 _).trans (Nat.mod_eq_of_lt fits)

theorem StagedOsc.args_noteExp (small : x.setting.noteExp < 16) : argByte (x.args m) 7 = x.setting.noteExp := by
  rw [StagedOsc.args_eq]
  exact Nat.mod_eq_of_lt (Nat.lt_trans small (by decide))

theorem StagedOsc.args_modifier (x : StagedOsc) : argByte (x.args m) 8 = x.setting.modifier.code := by
  rw [StagedOsc.args_eq]
  cases x.setting.modifier <;> rfl

theorem StagedOsc.args_restartOnBar (x : StagedOsc) : argByte (x.args m) 9 = x.setting.restartOnBar.toNat := by
  rw [StagedOsc.args_eq]
  cases x.setting.restartOnBar <;> rfl

theorem StagedOsc.args_restart (x : StagedOsc) : argByte (x.args m) 10 = x.restart.toNat := by
  rw [StagedOsc.args_eq]
  cases x.restart <;> rfl

/-- The codes a setting is sent as are the ones the layout defines. -/
theorem StagedOsc.args_legal (small : x.setting.noteExp < 16) : oscArgsIllegal (x.args m) = false := by
  have shape : x.setting.shape.code ≤ 2 := by cases x.setting.shape <;> decide
  have mode : x.setting.mode.code ≤ 1 := by cases x.setting.mode <;> decide
  have modifier : x.setting.modifier.code ≤ 2 := by cases x.setting.modifier <;> decide
  have bar := Bool.toNat_le x.setting.restartOnBar
  have restart := Bool.toNat_le x.restart
  rw [Bool.eq_false_iff, Ne, oscArgsIllegal_iff, StagedOsc.args_osc, StagedOsc.args_shape, StagedOsc.args_mode,
    StagedOsc.args_noteExp m small, StagedOsc.args_modifier, StagedOsc.args_restartOnBar, StagedOsc.args_restart]
  omega

/-- A setting sent reads back. -/
theorem StagedOsc.parse_args (fits : x.setting.cycle < 2 ^ 32) (small : x.setting.noteExp < 16) :
    StagedOsc.parse (x.args m) = x := by
  rw [StagedOsc.parse, StagedOsc.args_shape, StagedOsc.args_mode, StagedOsc.args_cycle m fits,
    StagedOsc.args_noteExp m small, StagedOsc.args_modifier, StagedOsc.args_restartOnBar, StagedOsc.args_restart]
  obtain ⟨⟨shape, mode, cycle, noteExp, modifier, bar⟩, restart⟩ := x
  simp only [StagedOsc.mk.injEq, OscSetting.mk.injEq, true_and]
  refine ⟨⟨?_, ?_, ?_, ?_⟩, ?_⟩
  · cases shape <;> rfl
  · cases mode <;> rfl
  · cases modifier <;> rfl
  · cases bar <;> rfl
  · cases restart <;> rfl

/-! ### The command -/

theorem ownSetOsc_stages (fits : x.setting.cycle < 2 ^ 32) (small : x.setting.noteExp < 16) (s : State) :
    ownSetOsc (x.args m) s = okBytes [] (s.setOsc m { s.osc m with staged := some x }) := by
  unfold ownSetOsc
  rw [StagedOsc.args_legal m small, StagedOsc.args_osc, Fin.ofNat_val_eq_self, StagedOsc.parse_args m fits small]
  exact if_neg Bool.false_ne_true

end

/-- Settles O23: a setting within its ranges read back and staged, and each code that is not defined refused. -/
theorem setOscStagesItsSetting : Obligations.SetOscStagesItsSetting := by
  intro s takes
  refine ⟨fun m x fits small => ?stages, fun m shape mode c3 c2 c1 c0 k modifier bar restart undefined => ?refuses⟩
  case stages =>
    rw [← StagedOsc.args_flat]
    exact command_completes takes (n := 11) (by decide) (x.args_length m)
      (ownSetOsc_stages m fits small (hold 0x50 (wrote 11 s)))
  case refuses =>
    have illegal : oscArgsIllegal [m, shape, mode, c3, c2, c1, c0, k, modifier, bar, restart] = true :=
      (oscArgsIllegal_iff _).mpr undefined
    exact command_completes takes (n := 11) (by decide) rfl (ownSetOsc_refuses illegal (hold 0x50 (wrote 11 s)))

end Sys2Proof.Machine
end

section
/-! O29 to O31. The scene stack (R155 to R163): a tap's next set and when two are alike, a push and a drop on the stack,
and a pop tap by tap, with the edit it stages, the check it skips a tap at, and the counts of its result. -/

namespace Sys2Proof.Machine

/-! ### The next set (R156) -/

theorem ParamSet.alike_iff (p q : ParamSet) :
    p.alike q = true ↔ (p.run = false ∧ q.run = false) ∨ (p.run = true ∧ q.run = true ∧ p = q) := by
  simp only [ParamSet.alike, Bool.or_eq_true, Bool.and_eq_true, Bool.not_eq_true', beq_iff_eq, and_assoc]

section
variable {t : Tap} {p : ParamSet}

theorem Tap.nextSet_start (staged : t.staged = some (.start p)) : t.nextSet = { p with run := true } := by
  rw [Tap.nextSet, staged]

theorem Tap.nextSet_presetIdle (staged : t.staged = some (.preset p)) (idle : t.state = .idle) :
    t.nextSet = p.stopped := by
  rw [Tap.nextSet, staged]
  exact if_pos idle

theorem Tap.nextSet_presetAwake (staged : t.staged = some (.preset p)) (awake : t.state ≠ .idle) :
    t.nextSet = t.current.stopped := by
  rw [Tap.nextSet, staged]
  exact if_neg awake

theorem Tap.nextSet_stop (staged : t.staged = some .stop) : t.nextSet = t.current.stopped := by
  rw [Tap.nextSet, staged]

theorem Tap.nextSet_unstaged (staged : t.staged = none) : t.nextSet = t.current := by
  rw [Tap.nextSet, staged]

end

/-! ### A push and a drop (R157, R163) -/

section
variable {s : State}

theorem sceneOf_set (s : State) (t : TapNo) : (sceneOf s).sets[t.val] = (s.tap t).nextSet :=
  Vector.getElem_map Tap.nextSet t.isLt

theorem sceneTempo_eq (t : Tempo) : sceneTempo t = if t.source = .internal then some t.interval else none := by
  cases source : t.source <;> rw [sceneTempo, source] <;> rfl

theorem ownPushScene_fits (fits : s.scenes.length < 4) (args : List Byte) : ownPushScene args s =
    (.done .ok 0 (bytesOf 1 (s.scenes.length + 1) ++ flagByte (sceneOf s).tempo.isSome),
      { s with scenes := sceneOf s :: s.scenes }) := by
  have all : (sceneOf s :: s.scenes).take 4 = sceneOf s :: s.scenes := List.take_of_length_le fits
  unfold ownPushScene
  rw [all, if_neg (Nat.not_le.mpr fits)]
  rfl

theorem ownPushScene_full (full : s.scenes.length = 4) (args : List Byte) : ownPushScene args s =
    (.done .discarded 0 (bytesOf 1 4 ++ flagByte (sceneOf s).tempo.isSome),
      { s with scenes := sceneOf s :: s.scenes.take 3 }) := by
  have depth : ((sceneOf s :: s.scenes).take 4).length = 4 := by
    rw [List.length_take, List.length_cons, full]
    rfl
  unfold ownPushScene
  dsimp only
  rw [depth, if_pos (Nat.le_of_eq full.symm)]
  rfl

theorem ownDropScene_drops {e : Scene} {rest : List Scene} (top : s.scenes = e :: rest) (args : List Byte) :
    ownDropScene args s = okBytes (bytesOf 1 rest.length) { s with scenes := rest } := by
  rw [ownDropScene, top]

theorem ownDropScene_empty (empty : s.scenes = []) (args : List Byte) : ownDropScene args s = refuse .empty s := by
  rw [ownDropScene, empty]

end

/-- Settles O29: the next set by what is staged, likeness, and the push by the depth of the stack. -/
theorem pushScenePutsTheNextSetsOnTop : Obligations.PushScenePutsTheNextSetsOnTop := by
  refine ⟨fun t => ⟨fun p => Tap.nextSet_start, fun p => Tap.nextSet_presetIdle, fun p => Tap.nextSet_presetAwake,
    Tap.nextSet_stop, Tap.nextSet_unstaged⟩, ParamSet.alike_iff, fun s takes =>
    ⟨sceneOf s, sceneOf_set s, sceneTempo_eq s.tempo, fun fits => ?fits, fun full => ?full⟩⟩
  case fits =>
    exact command_completes takes (n := 0) (by decide) rfl
      (ownPushScene_fits (s := hold 0x60 (wrote 0 s)) fits [])
  case full =>
    exact command_completes takes (n := 0) (by decide) rfl
      (ownPushScene_full (s := hold 0x60 (wrote 0 s)) full [])

/-- Settles O30: a drop by the top of the stack. -/
theorem dropSceneDiscardsTheTop : Obligations.DropSceneDiscardsTheTop := fun s takes =>
  ⟨fun _ _ top => command_completes takes (n := 0) (by decide) rfl
      (ownDropScene_drops (s := hold 0x62 (wrote 0 s)) top []),
    fun empty => command_completes takes (n := 0) (by decide) rfl
      (ownDropScene_empty (s := hold 0x62 (wrote 0 s)) empty [])⟩

/-! ### One tap of a pop (R159) -/

theorem firstFailing_ne_none {s : State} {t : TapNo} {r : RawSet}
    (failed : ¬∀ n, 1 ≤ n → n ≤ 8 → checkFails s t r n = false) : firstFailing s t r ≠ none :=
  fun passed => failed fun n low high => checks_pass passed (by simp only [List.mem_cons]; omega)

theorem firstFailing_isSome (s : State) (t : TapNo) (r : RawSet) :
    (firstFailing s t r).isSome = [1, 2, 3, 4, 5, 6, 7, 8].any (checkFails s t r) := List.isSome_find? ..

section
variable {entry : Scene} {p : PopProgress} {t : TapNo}

theorem judge_alike (alike : entry.sets[t.val].alike (p.state.tap t).nextSet = true) : p.judge entry t = p :=
  if_pos alike

theorem judge_stops (unlike : entry.sets[t.val].alike (p.state.tap t).nextSet = false)
    (stops : entry.sets[t.val].run = false) : p.judge entry t = p.restore t .stop := by
  unfold PopProgress.judge
  dsimp only
  rw [unlike, stops]
  rfl

theorem judge_starts (unlike : entry.sets[t.val].alike (p.state.tap t).nextSet = false)
    (runs : entry.sets[t.val].run = true) (passes : firstFailing p.state t entry.sets[t.val].toRaw = none) :
    p.judge entry t = p.restore t (.start entry.sets[t.val]) := by
  unfold PopProgress.judge
  dsimp only
  rw [unlike, runs, passes]
  rfl

theorem judge_skips (unlike : entry.sets[t.val].alike (p.state.tap t).nextSet = false)
    (runs : entry.sets[t.val].run = true) {n : Nat} (fails : firstFailing p.state t entry.sets[t.val].toRaw = some n) :
    p.judge entry t = p.skip t n := by
  unfold PopProgress.judge
  dsimp only
  rw [unlike, runs, fails]
  rfl

theorem PopProgress.tap_restore (edit : Edit) :
    (p.restore t edit).state.tap t = { p.state.tap t with staged := some edit } := State.tap_setTap_same _ _ _

/-- The check that a tap is skipped at, where its set runs and is unlike its next set. -/
def skipCheck (want : ParamSet) (t : TapNo) (s : State) : Option Nat :=
  if !want.alike (s.tap t).nextSet && want.run then firstFailing s t want.toRaw else none

/-- A tap judged is restored, or skipped at the check it fails, or left. -/
theorem judge_counts (entry : Scene) (p : PopProgress) (t : TapNo) :
    let skip := skipCheck entry.sets[t.val] t p.state
    let q := p.judge entry t
    q.restored = p.restored + (!entry.sets[t.val].alike (p.state.tap t).nextSet && !skip.isSome).toNat ∧
    q.skipped = p.skipped + skip.isSome.toNat ∧ q.firstSkipped = p.firstSkipped.or (skip.map (t, ·)) := by
  unfold skipCheck
  cases alike : entry.sets[t.val].alike (p.state.tap t).nextSet with
  | true =>
    rw [judge_alike alike]
    exact ⟨rfl, rfl, Option.or_none.symm⟩
  | false =>
    cases run : entry.sets[t.val].run with
    | false =>
      rw [judge_stops alike run]
      exact ⟨rfl, rfl, Option.or_none.symm⟩
    | true =>
      cases check : firstFailing p.state t entry.sets[t.val].toRaw with
      | none =>
        rw [judge_starts alike run check]
        exact ⟨rfl, rfl, Option.or_none.symm⟩
      | some n =>
        rw [judge_skips alike run check]
        refine ⟨rfl, rfl, ?_⟩
        show some (p.firstSkipped.getD (t, n)) = p.firstSkipped.or (some (t, n))
        exact (Option.or_some ..).symm

end

/-! ### The walk (R158) -/

section
variable {entry : Scene} {s : State} {t : TapNo}

theorem popTaps_eq (entry : Scene) (s : State) :
    popTaps entry s = allTaps.foldl (PopProgress.judge entry) (popStart s) := rfl

/-- The part as a pop finds it at a tap: the taps below it as the pop leaves them, and the rest as they stood. -/
def popFound (entry : Scene) (s : State) (t : TapNo) : State :=
  { (popTaps entry s).state with
    taps := Vector.ofFn fun i : TapNo => if i < t then (popTaps entry s).state.tap i else s.tap i }

theorem popBefore_found (entry : Scene) (s : State) (t : TapNo) :
    (popBefore entry (popStart s) t).state = popFound entry s t := popBefore_state entry s t

/-- A pop finds each tap as it stood before the pop. -/
theorem popBefore_tap (entry : Scene) (s : State) (t : TapNo) :
    (popBefore entry (popStart s) t).state.tap t = s.tap t :=
  judgeAll_other entry _ _ fun earlier => absurd ((mem_take_allTaps t.val t).mp earlier) (lt_irrefl _)

theorem popTaps_alike (alike : entry.sets[t.val].alike (s.tap t).nextSet = true) :
    (popTaps entry s).state.tap t = s.tap t := by
  rw [← popBefore_tap entry s t] at alike
  rw [pop_tap, judge_alike alike, popBefore_tap]

theorem popTaps_stops (unlike : entry.sets[t.val].alike (s.tap t).nextSet = false)
    (stops : entry.sets[t.val].run = false) :
    (popTaps entry s).state.tap t = { s.tap t with staged := some .stop } := by
  rw [← popBefore_tap entry s t] at unlike
  rw [pop_tap, judge_stops unlike stops, PopProgress.tap_restore, popBefore_tap]

theorem popTaps_starts (unlike : entry.sets[t.val].alike (s.tap t).nextSet = false)
    (runs : entry.sets[t.val].run = true)
    (passes : firstFailing (popFound entry s t) t entry.sets[t.val].toRaw = none) :
    (popTaps entry s).state.tap t = { s.tap t with staged := some (.start entry.sets[t.val]) } := by
  rw [← popBefore_tap entry s t] at unlike
  rw [← popBefore_found] at passes
  rw [pop_tap, judge_starts unlike runs passes, PopProgress.tap_restore, popBefore_tap]

theorem popTaps_skips (unlike : entry.sets[t.val].alike (s.tap t).nextSet = false)
    (runs : entry.sets[t.val].run = true)
    (fails : firstFailing (popFound entry s t) t entry.sets[t.val].toRaw ≠ none) :
    (popTaps entry s).state.tap t = s.tap t := by
  obtain ⟨n, check⟩ := Option.ne_none_iff_exists'.mp fails
  rw [← popBefore_tap entry s t] at unlike
  rw [← popBefore_found] at check
  rw [pop_tap, judge_skips unlike runs check]
  exact popBefore_tap entry s t

/-- A pop whose part has a command in progress in its mailbox. -/
def PopProgress.hold (code : Byte) (p : PopProgress) : PopProgress := { p with state := Machine.hold code p.state }

/-- The command in progress shows in nothing that a pop judges. -/
theorem judge_hold (entry : Scene) (code : Byte) (p : PopProgress) (t : TapNo) :
    (p.hold code).judge entry t = (p.judge entry t).hold code := by
  cases alike : entry.sets[t.val].alike (p.state.tap t).nextSet with
  | true => rw [judge_alike alike, judge_alike (p := p.hold code) alike]
  | false =>
    cases run : entry.sets[t.val].run with
    | false =>
      rw [judge_stops alike run, judge_stops (p := p.hold code) alike run]
      rfl
    | true =>
      cases check : firstFailing p.state t entry.sets[t.val].toRaw with
      | none =>
        rw [judge_starts alike run check, judge_starts (p := p.hold code) alike run check]
        rfl
      | some n =>
        rw [judge_skips alike run check, judge_skips (p := p.hold code) alike run check]
        rfl

theorem popTaps_hold (entry : Scene) (code : Byte) (s : State) :
    popTaps entry (hold code s) = (popTaps entry s).hold code := by
  rw [popTaps_eq, popTaps_eq]
  exact List.foldl_hom (init := popStart s) (PopProgress.hold code) (judge_hold entry code)

/-- The walk changes the taps alone. -/
theorem popTaps_state (entry : Scene) (s : State) :
    (popTaps entry s).state = { s with taps := (popTaps entry s).state.taps } := by
  rw [popTaps_eq]
  exact judgeAll_state entry allTaps (popStart s)

end

/-! ### The counts of the result (R161) -/

/-- The check that a pop skips a tap at. -/
def popSkip (entry : Scene) (s : State) (t : TapNo) : Option Nat :=
  skipCheck entry.sets[t.val] t (popFound entry s t)

theorem popSkip_isSome (entry : Scene) (s : State) (t : TapNo) : (popSkip entry s t).isSome =
    (!entry.sets[t.val].alike (s.tap t).nextSet && entry.sets[t.val].run &&
      [1, 2, 3, 4, 5, 6, 7, 8].any (checkFails (popFound entry s t) t entry.sets[t.val].toRaw)) := by
  rw [← firstFailing_isSome, popSkip, skipCheck, ← popBefore_found, popBefore_tap]
  cases !entry.sets[t.val].alike (s.tap t).nextSet && entry.sets[t.val].run <;> rfl

theorem firstFailing_of_popSkip {entry : Scene} {s : State} {t : TapNo} {n : Nat} (skips : popSkip entry s t = some n) :
    firstFailing (popFound entry s t) t entry.sets[t.val].toRaw = some n :=
  (Option.ite_none_right_eq_some.mp skips).2

/-- The bytes that name the first tap skipped, with the check it failed (log 20). -/
def firstSkippedBytes : Option (TapNo × Nat) → List Byte
  | some (t, n) => bytesOf 2 t.val ++ bytesOf 1 n
  | none => [0xFF, 0xFF]

/-- The bytes that say whether a tempo was restored, and which. -/
def restoredBytes : Option Nat → List Byte
  | some v => [1] ++ bytesOf 4 v
  | none => [0]

theorem popResult_eq (p : PopProgress) (tempo : Option Nat) (s : State) : popResult p tempo s =
    bytesOf 2 p.restored ++ bytesOf 2 p.skipped ++ firstSkippedBytes p.firstSkipped
      ++ restoredBytes (tempo.map fun _ => s.tempo.interval) ++ bytesOf 1 s.scenes.length := by
  cases first : p.firstSkipped <;> cases tempo <;>
    simp [popResult, first, firstSkippedBytes, restoredBytes, bytesOfOption, flagByte]

/-- The interval after a pop that restores a tempo (R127, R160). -/
theorem popTempo_interval (entry : Scene) (s : State) :
    (restoredTempo entry s).map (fun _ => (popTempo entry s).tempo.interval) =
      (restoredTempo entry s).map clampInterval := by
  unfold popTempo
  cases restoredTempo entry s with
  | none => rfl
  | some v =>
    dsimp only [Option.map_some]
    rw [adopt_tempo]

/-- A pop counts the taps tap by tap, each by the check it is skipped at. -/
theorem popTaps_counts (entry : Scene) (s : State) :
    let skips := fun t : TapNo => (popSkip entry s t).isSome
    let p := popTaps entry s
    p.restored = (allTaps.filter fun t => !entry.sets[t.val].alike (s.tap t).nextSet && !skips t).length ∧
    p.skipped = (allTaps.filter skips).length ∧
    p.firstSkipped = (allTaps.filter skips).head?.bind fun t => (popSkip entry s t).map (t, ·) :=
  pop_counts entry s _ (popSkip entry s) fun t => by
    have counts := judge_counts entry (popBefore entry (popStart s) t) t
    rwa [popBefore_tap, popBefore_found] at counts

theorem firstSkippedBytes_eq (entry : Scene) (s : State) :
    firstSkippedBytes (popTaps entry s).firstSkipped =
      (match allTaps.filter fun t => (popSkip entry s t).isSome with
        | [] => [0xFF, 0xFF]
        | t :: _ => bytesOf 2 t.val ++
          bytesOf 1 ((firstFailing (popFound entry s t) t entry.sets[t.val].toRaw).getD 0)) := by
  obtain ⟨-, -, first⟩ := popTaps_counts entry s
  rw [first]
  cases filtered : allTaps.filter fun t => (popSkip entry s t).isSome with
  | nil => rfl
  | cons t _ =>
    have member : t ∈ allTaps.filter fun t => (popSkip entry s t).isSome := by
      rw [filtered]
      exact List.mem_cons_self
    obtain ⟨n, check⟩ := Option.isSome_iff_exists.mp (List.mem_filter.mp member).2
    dsimp only [List.head?_cons, Option.bind_some]
    rw [check, firstFailing_of_popSkip check]
    rfl

/-! ### The pop (R158 to R161) -/

theorem popTempo_hold (entry : Scene) (code : Byte) (s : State) :
    popTempo entry (hold code s) = hold code (popTempo entry s) := by
  have same : restoredTempo entry (hold code s) = restoredTempo entry s := rfl
  unfold popTempo
  rw [same]
  cases restoredTempo entry s with
  | none => rfl
  | some v => exact adopt_hold v code s

theorem ownPopScene_empty {s : State} (empty : s.scenes = []) (args : List Byte) :
    ownPopScene args s = refuse .empty s := by
  rw [ownPopScene, empty]

/-- A pop in progress leaves the part as it leaves it beside the mailbox. -/
theorem ownPopScene_pops {s : State} {entry : Scene} {rest : List Scene} (top : s.scenes = entry :: rest) (code : Byte)
    (args : List Byte) :
    let p := popTaps entry { s with scenes := rest }
    ownPopScene args (hold code s) =
      (.done .ok 0 (popResult p (restoredTempo entry p.state) (popTempo entry p.state)),
        hold code (popTempo entry p.state)) := by
  have walked : popTaps entry { hold code s with scenes := rest } =
      (popTaps entry { s with scenes := rest }).hold code :=
    popTaps_hold entry code { s with scenes := rest }
  unfold ownPopScene
  rw [show (hold code s).scenes = entry :: rest from top]
  dsimp only
  rw [walked]
  generalize popTaps entry { s with scenes := rest } = p
  have adopted : popTempo entry (p.hold code).state = hold code (popTempo entry p.state) :=
    popTempo_hold entry code p.state
  rw [adopted]
  rfl

/-- The tempo restored is that of the part before the walk (R160). -/
theorem restoredTempo_popTaps (entry : Scene) (s : State) :
    restoredTempo entry (popTaps entry s).state = restoredTempo entry s := by
  unfold restoredTempo
  rw [popTaps_keeps State.tempo (by intros; rfl) entry s]

/-- What a pop's result carries, by the part whose top entry is off (R161). -/
def popBytes (entry : Scene) (s : State) : List Byte :=
  bytesOf 2 (popTaps entry s).restored ++ bytesOf 2 (popTaps entry s).skipped
    ++ firstSkippedBytes (popTaps entry s).firstSkipped ++ restoredBytes ((restoredTempo entry s).map clampInterval)
    ++ bytesOf 1 s.scenes.length

theorem popResult_popTaps (entry : Scene) (s : State) :
    popResult (popTaps entry s) (restoredTempo entry (popTaps entry s).state)
      (popTempo entry (popTaps entry s).state) = popBytes entry s := by
  have adopted : ∀ u, (popTempo entry u).scenes = u.scenes := by simp
  have walked := popTaps_keeps State.scenes (by intros; rfl) entry s
  rw [popResult_eq, popTempo_interval, restoredTempo_popTaps, adopted, walked, popBytes]

/-- The part as POP_SCENE has left it before the walk: its zeros shifted out, and the top entry off. -/
def topTaken (rest : List Scene) (s : State) : State := { wrote 0 s with scenes := rest }

theorem restoredTempo_topTaken (entry : Scene) (rest : List Scene) (s : State) :
    restoredTempo entry (topTaken rest s) = restoredTempo entry s := rfl

theorem exec_popScene {s : State} (takes : takesCommands s = true) {entry : Scene} {rest : List Scene}
    (top : s.scenes = entry :: rest) :
    exec (.popScene (whole [])) s = .next (complete 0x61 .ok 0 (popBytes entry (topTaken rest s))
      (popTempo entry (popTaps entry (topTaken rest s)).state)) := by
  rw [← popResult_popTaps]
  exact command_completes takes (n := 0) (by decide) rfl (ownPopScene_pops (s := wrote 0 s) top 0x61 [])

/-- Settles O31: the walk tap by tap, its counts, the tempo by its source, and the empty stack. -/
theorem popScenesRestoreTaps : Obligations.PopScenesRestoreTaps := by
  refine ⟨fun s entry rest takes top => ⟨popBytes entry (topTaken rest s), (popTaps entry (topTaken rest s)).state,
    ?adopts, popTaps_state entry (topTaken rest s), ?walk⟩, fun s takes empty => ?empty⟩
  case empty =>
    exact command_completes takes (n := 0) (by decide) rfl
      (ownPopScene_empty (s := hold 0x61 (wrote 0 s)) empty [])
  case adopts =>
    rw [exec_popScene takes top, popTempo, restoredTempo_popTaps, restoredTempo_topTaken,
      restoredTempo]
    cases s.tempo.source <;> cases entry.tempo <;> rfl
  case walk =>
    intro want before next alike fails passes skips
    refine ⟨fun t => ⟨popTaps_alike (s := topTaken rest s), popTaps_stops (s := topTaken rest s),
      fun unlike runs passed => ?starts, fun unlike runs failed => ?skips⟩, ?bytes⟩
    case starts => exact popTaps_starts (s := topTaken rest s) unlike runs (firstFailing_eq_none passed)
    case skips => exact popTaps_skips (s := topTaken rest s) unlike runs (firstFailing_ne_none failed)
    case bytes =>
      have skipped : (fun t => (popSkip entry (topTaken rest s) t).isSome) = skips :=
        funext (popSkip_isSome entry (topTaken rest s))
      obtain ⟨restores, skipCount, -⟩ := popTaps_counts entry (topTaken rest s)
      rw [popBytes, restores, skipCount, firstSkippedBytes_eq, skipped, restoredTempo_topTaken, restoredTempo]
      cases s.tempo.source <;> cases entry.tempo <;> cases allTaps.filter skips <;> rfl

end Sys2Proof.Machine
end

section
/-! O6. The reading transactions (R166, R171, R175, R193, R194): the bytes shifted out behind the transaction code, the
result record taken away with the whole reply, and the status word field by field. -/

namespace Sys2Proof.Machine

/-! ### The bytes shifted out (R193, R194) -/

theorem shiftOut_length (reply : List Byte) (n : Nat) : (shiftOut reply n).length = n := by
  simp only [shiftOut, List.length_take, List.length_append, List.length_replicate]
  omega

/-- Each byte clocked is the reply's, and a zero behind it. -/
theorem shiftOut_getElem? (reply : List Byte) {n i : Nat} (clocked : i < n) :
    (shiftOut reply n)[i]? = some (reply.getD i 0) := by
  rw [shiftOut, List.getElem?_take_of_lt clocked]
  rcases Nat.lt_or_ge i reply.length with inside | behind
  · rw [List.getElem?_append_left inside, List.getElem?_eq_getElem inside, List.getD_eq_getElem _ _ inside]
  · rw [List.getElem?_append_right behind, List.getElem?_replicate_of_lt (by omega),
      List.getD_eq_default _ _ behind]

/-! ### READ_RESULT (R171) -/

section
variable {s : State}

theorem resultReply_done {r : ResultRecord} (done : s.port.mailbox = .done r) :
    resultReply s = bytesOf 1 2 ++ r.wire := by
  rw [resultReply, done]

theorem resultReply_empty (empty : s.port.mailbox = .empty) : resultReply s = [0] := by
  rw [resultReply, empty]
  rfl

theorem resultReply_held {c : Byte} (held : s.port.mailbox = .held c) : resultReply s = [1] := by
  rw [resultReply, held]
  exact bytesOf_one 1

/-- The reply in DONE is the mailbox state, the record's five bytes and the result bytes. -/
theorem doneReply_length (r : ResultRecord) : (bytesOf 1 2 ++ r.wire).length = 6 + r.bytes.length := by
  simp only [ResultRecord.wire, List.length_append, List.length_singleton, bytesOf_length]
  omega

/-- With no result in the mailbox there is none to take away. -/
theorem collect_of_no_result (resultless : ∀ r, s.port.mailbox ≠ .done r) : collect s = s := by
  unfold collect
  split
  · next r done => exact absurd done (resultless r)
  · rfl

theorem collect_done {r : ResultRecord} (done : s.port.mailbox = .done r) :
    collect s = { s with port := { s.port with mailbox := .empty } } := by
  rw [collect, done]

theorem exec_readResult (n : Nat) (s : State) : exec (.readResult n) s =
    .next (if (resultReply s).length ≤ n then collect (shifted (resultReply s) n s) else shifted (resultReply s) n s) :=
  rfl

theorem exec_readResult_of_no_result (resultless : ∀ r, s.port.mailbox ≠ .done r) (n : Nat) :
    exec (.readResult n) s = .next (shifted (resultReply s) n s) := by
  have stands : collect (shifted (resultReply s) n s) = shifted (resultReply s) n s := collect_of_no_result resultless
  rw [exec_readResult, stands, ite_self]

theorem exec_readResult_done {r : ResultRecord} (done : s.port.mailbox = .done r) (n : Nat) :
    exec (.readResult n) s = .next { s with port := { s.port with
      mailbox := if 6 + r.bytes.length ≤ n then .empty else .done r
      dataOut := 0 :: shiftOut (bytesOf 1 2 ++ r.wire) n } } := by
  rw [exec_readResult, resultReply_done done, doneReply_length]
  by_cases whole : 6 + r.bytes.length ≤ n
  · rw [if_pos whole, if_pos whole, collect_done (s := shifted _ n s) done]
    rfl
  · rw [if_neg whole, if_neg whole, ← done]
    rfl

end

/-! ### READ_STATUS (R175) -/

theorem exec_readStatus (n : Nat) (s : State) : exec (.readStatus n) s = .next { s with port := { s.port with
    collide := s.port.collide && decide (n < 3), dataOut := 0 :: shiftOut (statusWord s) n } } := by
  show Host.Outcome.next (if 3 ≤ n then _ else _) = _
  by_cases whole : 3 ≤ n
  · rw [if_pos whole, decide_eq_false (Nat.not_lt.mpr whole), Bool.and_false]
    rfl
  · rw [if_neg whole, decide_eq_true (Nat.not_le.mp whole), Bool.and_true]
    rfl

/-- A bit of a byte that carries a number is the number's binary digit. -/
theorem getLsbD_ofNat_of_digit {v i : Nat} {b : Bool} (low : i < 8) (digit : v / 2 ^ i % 2 = b.toNat) :
    (BitVec.ofNat 8 v).getLsbD i = b := by
  rw [BitVec.getLsbD_ofNat, decide_eq_true low, Bool.true_and, Nat.testBit_eq_decide_div_mod_eq, digit]
  cases b <;> rfl

/-- The first byte of the status word carries its five fields apart (R193). -/
theorem statusByte_fields {mailbox wclk : Nat} (mailboxFits : mailbox < 4) (wclkFits : wclk < 8)
    (collide line safe : Bool) :
    let b := BitVec.ofNat 8 (mailbox + 4 * collide.toNat + 8 * line.toNat + 16 * safe.toNat + 32 * wclk)
    b.toNat % 4 = mailbox ∧ b.getLsbD 2 = collide ∧ b.getLsbD 3 = line ∧ b.getLsbD 4 = safe ∧ b.toNat / 32 = wclk := by
  have := collide.toNat_lt
  have := line.toNat_lt
  have := safe.toNat_lt
  have value : (BitVec.ofNat 8 (mailbox + 4 * collide.toNat + 8 * line.toNat + 16 * safe.toNat + 32 * wclk)).toNat =
      mailbox + 4 * collide.toNat + 8 * line.toNat + 16 * safe.toNat + 32 * wclk :=
    Nat.mod_eq_of_lt (by omega)
  dsimp only
  rw [value]
  exact ⟨by omega, getLsbD_ofNat_of_digit (by decide) (by omega), getLsbD_ofNat_of_digit (by decide) (by omega),
    getLsbD_ofNat_of_digit (by decide) (by omega), by omega⟩

theorem Mode.code_eq (m : Mode) : m.code = (m == .safe).toNat := by cases m <;> rfl

theorem Mailbox.code_lt (m : Mailbox) : m.code < 4 := by
  unfold Mailbox.code
  split <;> decide

theorem WclkState.code_lt (w : WclkState) : w.code < 8 := by cases w <;> decide

theorem ExtState.code_byte (x : ExtState) : (BitVec.ofNat 8 x.code).toNat = x.code := by cases x <;> rfl

theorem periodTag_toNat (p : PeriodCount) : (periodTag p).toNat = p.toNat % 256 := BitVec.toNat_setWidth 8 p

/-- Settles O6: the bytes clocked, READ_RESULT by the mailbox state, and the status word by its three bytes. -/
theorem transactionsThatReadShowTheMailboxAndTheStatus : Obligations.TransactionsThatReadShowTheMailboxAndTheStatus := by
  refine ⟨fun reply n => ⟨shiftOut_length reply n, fun i => shiftOut_getElem? reply⟩,
    fun s n => ⟨fun r done => exec_readResult_done done n, fun empty => ?empty, fun c held => ?held⟩,
    fun s n => ⟨exec_readStatus n s, _, _, _, rfl, ?word⟩⟩
  case empty =>
    rw [exec_readResult_of_no_result (fun r done => nomatch empty.symm.trans done), resultReply_empty empty]
    rfl
  case held =>
    rw [exec_readResult_of_no_result (fun r done => nomatch held.symm.trans done), resultReply_held held]
    rfl
  case word =>
    rw [Mode.code_eq]
    obtain ⟨mailbox, collide, line, safe, wclk⟩ := statusByte_fields s.port.mailbox.code_lt s.timer.wclk.code_lt
      s.port.collide s.notices.line (s.faults.mode == .safe)
    refine ⟨mailbox.trans ?_, collide, line, safe, wclk, ExtState.code_byte _, periodTag_toNat _⟩
    cases s.port.mailbox <;> rfl

end Sys2Proof.Machine
end

section
/-! O8. WRITE_COMMAND and the transactions that the port ignores (R166 to R170, R172): the row that each command code is,
what each does in a HELD mailbox, and the tests that judge a record in a free one. -/

namespace Sys2Proof.Machine

/-! ### The row of a command code (R169, R194) -/

/-- Every code of the command table but PART_RESET's has an owner. -/
theorem owner_of_commandTable : ∀ row ∈ commandTable, row.1 = 0x7F ∨ ∃ owner, Owner row.1 owner := by
  have owned {code : Byte} {owner} (owns : Owner code owner) : code = 0x7F ∨ ∃ owner, Owner code owner :=
    .inr ⟨owner, owns⟩
  simp only [commandTable, List.cons_append, List.nil_append, List.forall_mem_cons]
  exact ⟨owned .setPeriod, owned .readClock, owned .allocLine, owned .freeLine, owned .setWriter, owned .readLine,
    owned .readPool, owned .setLink, owned .readLink, owned .readCounters, owned .setTap, owned .clearTap,
    owned .readTap, owned .saveTap, owned .setTempo, owned .tapTempo, owned .setTempoSource, owned .setMeter,
    owned .resync, owned .readTempo, owned .setOsc, owned .readOsc, owned .pushScene, owned .popScene,
    owned .dropScene, owned .readScenes, owned .ackNotice, owned .setMask, owned .readFault, owned .clearFault,
    .inl trivial, List.forall_mem_nil _⟩

/-- A command code has an owner, is PART_RESET's, or is outside the table. -/
theorem commandCode_cases (code : Byte) :
    (∃ owner, Owner code owner) ∨ code = 0x7F ∨ ∀ row ∈ commandTable, row.1 ≠ code := by
  by_cases outside : ∀ row ∈ commandTable, row.1 ≠ code
  · exact .inr (.inr outside)
  · push Not at outside
    obtain ⟨row, inTable, rfl⟩ := outside
    exact (owner_of_commandTable row inTable).elim (fun reset => .inr (.inl reset)) .inl

/-- The row of a code with an owner hands its record to that owner. -/
theorem exec_decodeCommand_owned {code : Byte} {owner : List Byte → State → Reply × State} (owns : Owner code owner)
    (record : CommandRecord) (s : State) :
    exec (decodeCommand code record) s = .next (writeCommand code owner record s) := by
  cases owns <;> rfl

theorem decodeCommand_outside {code : Byte} (outside : ∀ row ∈ commandTable, row.1 ≠ code) (record : CommandRecord) :
    decodeCommand code record = .badCommand code (.command record) := by
  have differs : ∀ n ∈ commandTable.map fun row => row.1.toNat, code.toNat ≠ n := by
    intro n listed same
    obtain ⟨row, inTable, rfl⟩ := List.mem_map.mp listed
    exact outside row inTable (BitVec.eq_of_toNat_eq same.symm)
  unfold decodeCommand
  split
  case h_32 => rfl
  all_goals next same => exact absurd same (differs _ (by decide))

theorem exec_badCommand_outside {code : Byte} (outside : ∀ row ∈ commandTable, row.1 ≠ code) (record : CommandRecord)
    (s : State) : exec (.badCommand code (.command record)) s = .next (refuseUnknown code record s) := by
  have bad : (BadTransaction.command record).isBad code = true :=
    List.all_eq_true.mpr fun row inTable => bne_iff_ne.mpr (outside row inTable)
  exact congrArg Host.Outcome.next (if_pos bad)

/-! ### A record released before its argument length (R166) -/

theorem exec_decodeCommand_cut (code : Byte) (s : State) :
    exec (decodeCommand code .cut) s = .next (zerosOut 2 s) := by
  obtain ⟨owner, owns⟩ | rfl | outside := commandCode_cases code
  · rw [exec_decodeCommand_owned owns, writeCommand_cut]
  · rfl
  · rw [decodeCommand_outside outside, exec_badCommand_outside outside]
    rfl

/-! ### A transaction that the port ignores (R166) -/

theorem decodeTransaction_ignored {code : Byte} {after : List Byte}
    (ignored : (code ≠ 0xC1 ∧ code ≠ 0xC2 ∧ code ≠ 0xC3) ∨ (code = 0xC1 ∧ after = [])) :
    decodeTransaction (code :: after) = some (.badCommand code (.ignored after.length)) := by
  obtain ⟨notWrite, notResult, notStatus⟩ | ⟨rfl, rfl⟩ := ignored
  · unfold decodeTransaction
    dsimp only
    rw [if_neg notWrite, if_neg notResult, if_neg notStatus]
  · rfl

theorem ignoredTransaction_of {code : Byte} {after : List Byte}
    (ignored : (code ≠ 0xC1 ∧ code ≠ 0xC2 ∧ code ≠ 0xC3) ∨ (code = 0xC1 ∧ after = [])) :
    ignoredTransaction code after.length = true := by
  obtain ⟨notWrite, notResult, notStatus⟩ | ⟨rfl, rfl⟩ := ignored
  · rw [ignoredTransaction, if_neg notWrite, bne_iff_ne.mpr notResult, bne_iff_ne.mpr notStatus, Bool.and_true]
  · rfl

theorem exec_badCommand_ignored {code : Byte} {clocked : Nat} (ignored : ignoredTransaction code clocked = true)
    (s : State) : exec (.badCommand code (.ignored clocked)) s = .next (zerosOut (1 + clocked) s) :=
  congrArg Host.Outcome.next (if_pos ignored)

/-! ### A mailbox that takes a command (R167) -/

theorem mailbox_of_free {s : State} (free : mailboxFree s = true) :
    s.port.mailbox = .empty ∨ ∃ r, s.port.mailbox = .done r := by
  unfold mailboxFree at free
  split at free
  · cases free
  · next empty => exact .inl empty
  · next r done => exact .inr ⟨r, done⟩

/-! ### A record of PART_RESET that is not its own (R168) -/

theorem lengthFits_partReset (length : Byte) (args : List Byte) :
    lengthFits 0x7F length args = true ↔ length = 0 ∧ args = [] := by
  rw [lengthFits_iff (n := 0) (by decide), List.length_eq_zero_iff]
  exact and_congr_left' (BitVec.toNat_eq (y := 0#8)).symm

section
variable {s : State} {length : Byte} {args : List Byte} (misfits : ¬(length = 0 ∧ args = []))
include misfits

theorem exec_partReset_held {held : Byte} (holds : s.port.mailbox = .held held) :
    exec (.partReset (.sent length args)) s = .next (collide (wrote args.length s)) := by
  have fails := mt (lengthFits_partReset length args).mp misfits
  show Host.Outcome.next (if _ then _ else _) = _
  rw [if_neg fails, holds]
  rfl

theorem exec_partReset_badLength (free : mailboxFree s = true) :
    exec (.partReset (.sent length args)) s = .next (complete 0x7F .badLength 0 [] (wrote args.length s)) := by
  have fails := mt (lengthFits_partReset length args).mp misfits
  show Host.Outcome.next (if _ then _ else _) = _
  rw [if_neg fails]
  obtain empty | ⟨r, done⟩ := mailbox_of_free free
  · rw [empty]
    rfl
  · rw [done]
    rfl

end

/-! ### A HELD mailbox (R168) -/

section
variable {s : State} {held : Byte} (holds : s.port.mailbox = .held held)
include holds

theorem exec_commandCollision_held {code length : Byte} {args : List Byte}
    (collision : collides code (.sent length args) = true) :
    exec (.commandCollision code (.sent length args)) s = .next (collide (wrote args.length s)) := by
  change execCommandCollision code (.sent length args) s = _
  rw [execCommandCollision, holds]
  exact congrArg Host.Outcome.next (if_pos collision)

theorem refuseUnknown_held (code length : Byte) (args : List Byte) :
    refuseUnknown code (.sent length args) s = collide (wrote args.length s) := by
  unfold refuseUnknown
  dsimp only
  rw [holds]
  rfl

theorem exec_decodeCommand_held {code : Byte} (other : code ≠ 0x7F) (length : Byte) (args : List Byte) :
    exec (decodeCommand code (.sent length args)) s = .next (collide (wrote args.length s)) := by
  obtain ⟨owner, owns⟩ | reset | outside := commandCode_cases code
  · rw [exec_decodeCommand_owned owns, writeCommand_held holds]
  · exact absurd reset other
  · rw [decodeCommand_outside outside, exec_badCommand_outside outside, refuseUnknown_held holds]

end

/-! ### A free mailbox: the tests of R169 in their order -/

section
variable {s : State} (free : mailboxFree s = true)
include free

/-- Test 1: the code is outside the command table. -/
theorem refuseUnknown_free (code length : Byte) (args : List Byte) :
    refuseUnknown code (.sent length args) s = complete code .badCommand 0 [] (wrote args.length s) := by
  unfold refuseUnknown
  dsimp only
  obtain empty | ⟨r, done⟩ := mailbox_of_free free
  · rw [empty]
    rfl
  · rw [done]
    rfl

/-- Test 2: the length or the number of bytes is not the table's. -/
theorem exec_decodeCommand_badLength {code : Byte} {n : Nat} (inTable : (code, n) ∈ commandTable) {length : Byte}
    {args : List Byte} (misfits : ¬(length.toNat = n ∧ args.length = n)) :
    exec (decodeCommand code (.sent length args)) s =
      .next (complete code .badLength 0 [] (wrote args.length s)) := by
  obtain ⟨owner, owns⟩ | rfl | outside := commandCode_cases code
  · rw [exec_decodeCommand_owned owns, writeCommand_badLength free inTable misfits]
  · exact exec_partReset_badLength
      (fun own => misfits ((lengthFits_iff inTable _ _).mp ((lengthFits_partReset _ _).mpr own))) free
  · exact absurd rfl (outside _ inTable)

/-- Test 3: the part is in SAFE, which does not take the command. -/
theorem writeCommand_safe (safe : s.faults.mode = .safe) {code : Byte} (notTaken : takenInSafe code = false) {n : Nat}
    (inTable : (code, n) ∈ commandTable) {args : List Byte} (fits : args.length = n)
    (owner : List Byte → State → Reply × State) :
    writeCommand code owner (whole args) s = complete code .safe 0 [] (wrote args.length s) := by
  have inSafe : (wrote args.length s).inSafe = true := beq_iff_eq.mpr safe
  rw [whole, writeCommand_free free, takeCommand, lengthFits_whole inTable fits, inSafe, notTaken]
  rfl

theorem exec_decodeCommand_safe (safe : s.faults.mode = .safe) {code : Byte} (notTaken : takenInSafe code = false)
    {n : Nat} (inTable : (code, n) ∈ commandTable) {args : List Byte} (fits : args.length = n) :
    exec (decodeCommand code (whole args)) s = .next (complete code .safe 0 [] (wrote args.length s)) := by
  obtain ⟨owner, owns⟩ | rfl | outside := commandCode_cases code
  · rw [exec_decodeCommand_owned owns, writeCommand_safe free safe notTaken inTable fits]
  · exact absurd notTaken (by decide)
  · exact absurd rfl (outside _ inTable)

end

/-- Settles O8: a record in HELD, a transaction cut short or ignored, the completion, and the tests of R169 in order. -/
theorem commandsAreJudgedInOrderAndCompleted : Obligations.CommandsAreJudgedInOrderAndCompleted :=
  ⟨fun _ _ => rfl,
    fun _ _ holds => ⟨fun _ _ _ collision => exec_commandCollision_held holds collision,
      fun _ length args other => exec_decodeCommand_held holds other length args,
      fun _ _ misfits => exec_partReset_held misfits holds⟩,
    fun s code => exec_decodeCommand_cut code s,
    fun s _ _ ignored => ⟨_, decodeTransaction_ignored ignored,
      exec_badCommand_ignored (ignoredTransaction_of ignored) s⟩,
    fun _ _ _ _ _ => rfl,
    fun s free =>
      ⟨fun code length args outside => (exec_badCommand_outside outside _ s).trans
          (congrArg Host.Outcome.next (refuseUnknown_free free code length args)),
        fun _ _ _ _ inTable misfits => exec_decodeCommand_badLength free inTable misfits,
        fun safe _ _ _ inTable fits notListed => exec_decodeCommand_safe free safe
          (Bool.eq_false_iff.mpr (mt List.contains_iff_mem.mp notListed)) inTable fits⟩⟩

end Sys2Proof.Machine
end

section
/-! O11, O12 and O13. The commands of the notice and fault unit (R180, R181, R184): the sources that are pending and
unmasked, what each owner answers, and the fault that finds an emptied record. -/

namespace Sys2Proof.Machine

/-! ### The sources that are pending and unmasked (R179, R180) -/

section
variable {n : NoticeUnit}

/-- A flag pending behind no mask. -/
theorem NoticeUnit.unmasked_bit {i : Nat} : (n.pending &&& ~~~n.mask).getLsbD i = true ↔
    n.pending.getLsbD i = true ∧ n.mask.getLsbD i = false := by
  rw [BitVec.getLsbD_and, BitVec.getLsbD_not, Bool.and_eq_true]
  refine and_congr_right fun isPending => ?_
  rw [decide_eq_true (BitVec.lt_of_getLsbD isPending), Bool.true_and, Bool.not_eq_true']

theorem NoticeUnit.line_iff :
    n.line = true ↔ ∃ i, n.pending.getLsbD i = true ∧ n.mask.getLsbD i = false := by
  simp only [← unmasked_bit]
  constructor
  · intro asserted
    by_contra released
    refine bne_iff_ne.mp asserted (BitVec.eq_of_getLsbD_eq fun i _ => ?_)
    rw [Bool.eq_false_iff.mpr fun set => released ⟨i, set⟩]
    exact BitVec.getLsbD_zero.symm
  · rintro ⟨i, set⟩
    refine bne_iff_ne.mpr fun zero => ?_
    rw [zero] at set
    exact Bool.noConfusion (BitVec.getLsbD_zero.symm.trans set)

theorem NoticeUnit.first_eq_succ {i : Nat} (isPending : n.pending.getLsbD i = true) (unmasked : n.mask.getLsbD i = false)
    (lowest : ∀ j < i, n.pending.getLsbD j = false ∨ n.mask.getLsbD j = true) : n.first = i + 1 := by
  have found : ((List.range 16).find? fun i => (n.pending &&& ~~~n.mask).getLsbD i) = some i := by
    refine List.find?_range_eq_some.mpr ⟨unmasked_bit.mpr ⟨isPending, unmasked⟩,
      List.mem_range.mpr (BitVec.lt_of_getLsbD isPending), fun j below => ?_⟩
    rw [Bool.not_eq_true', Bool.eq_false_iff, Ne, unmasked_bit]
    rintro ⟨jPending, jUnmasked⟩
    obtain clear | masked := lowest j below
    · exact Bool.noConfusion (clear.symm.trans jPending)
    · exact Bool.noConfusion (jUnmasked.symm.trans masked)
  rw [first, found]
  rfl

theorem NoticeUnit.first_eq_zero (released : n.pending &&& ~~~n.mask = 0) : n.first = 0 := by
  have notFound : ((List.range 16).find? fun i => (n.pending &&& ~~~n.mask).getLsbD i) = none := by
    refine List.find?_range_eq_none.mpr fun i _ => ?_
    rw [released, Bool.not_eq_true']
    exact BitVec.getLsbD_zero
  rw [first, notFound]
  rfl

theorem NoticeUnit.acknowledge_succ (i : Nat) :
    n.acknowledge (i + 1) = { n with pending := n.pending &&& ~~~sourceBit (i + 1) } :=
  if_neg (Nat.succ_ne_zero i)

end

/-! ### The three commands, in NORMAL and SAFE (R172) -/

/-- A number of as many bytes as the argument has reads back. -/
theorem argField_bytesOf (n v : Nat) : argField (bytesOf n v) 0 n = v % 256 ^ n := by
  rw [argField, List.drop_zero, List.take_of_length_le (bytesOf_length n v).le, natOfBytes_bytesOf]

theorem ownSetMask_mask (m : BitVec 16) (s : State) :
    ownSetMask (bytesOf 2 m.toNat) s = okBytes [] { s with notices := { s.notices with mask := m } } := by
  have fits : m.toNat % 256 ^ 2 = m.toNat := Nat.mod_eq_of_lt m.isLt
  rw [ownSetMask, argField_bytesOf, fits, BitVec.ofNat_toNat, BitVec.setWidth_eq]

section
variable {s : State} (free : mailboxFree s = true)
include free

theorem exec_ackNotice : exec (.ackNotice (whole [])) s =
    let notices := s.notices.acknowledge s.notices.first
    .next (complete 0x70 .ok 0 (bytesOf 1 s.notices.first ++ bytesOf 2 notices.pending.toNat)
      { wrote 0 s with notices := notices }) :=
  congrArg Host.Outcome.next
    (writeCommand_answers (n := 0) free (by decide) rfl (taken_of_safe s rfl) ownAckNotice)

theorem exec_setMask (m : BitVec 16) : exec (.setMask (whole (bytesOf 2 m.toNat))) s =
    .next (complete 0x71 .ok 0 [] { wrote 2 s with notices := { s.notices with mask := m } }) := by
  refine congrArg Host.Outcome.next ?_
  rw [writeCommand_answers (n := 2) free (by decide) (bytesOf_length 2 _) (taken_of_safe s rfl), ownSetMask_mask]
  rfl

theorem exec_clearFault : exec (.clearFault (whole [])) s =
    .next (complete 0x73 .ok 0 [] { wrote 0 s with faults := s.faults.clear }) :=
  congrArg Host.Outcome.next
    (writeCommand_answers (n := 0) free (by decide) rfl (taken_of_safe s rfl) ownClearFault)

end

/-! ### A fault on an emptied record (R182, R184) -/

theorem FaultUnit.record_clear (u : FaultUnit) (entry : FaultEntry) (full : Bool) : u.clear.record entry full =
    { first := some entry, later := 0, retireFull := full, level := 1, mode := u.mode } := by
  rw [record, clear, Bool.false_or]
  rfl

/-- The record was emptied, so the fault is far from the fourth and enters no SAFE. -/
theorem storeFault_on_clear {s : State} {u : FaultUnit} (emptied : s.faults = u.clear) (entry : FaultEntry)
    (full : Bool) : storeFault entry full s = raise .storeFault { s with faults :=
      { first := some entry, later := 0, retireFull := full, level := 1, mode := u.mode } } := by
  have below : ¬(s.faults.mode = .normal ∧ 3 ≤ s.faults.level) := by
    rw [emptied]
    rintro ⟨-, fourth⟩
    exact absurd fourth (by decide : ¬3 ≤ 0)
  rw [storeFault_records below, emptied, FaultUnit.record_clear]

/-! ### The statements -/

/-- Settles O11: the source is bit c - 1 of the flags, and ACK_NOTICE acknowledges the first. -/
theorem ackNoticeClearsTheFirstSource : Obligations.AckNoticeClearsTheFirstSource := by
  refine fun s free => ⟨?found, fun released => ?noneFound⟩
  case found =>
    intro c positive _ isPending unmasked lowest
    obtain ⟨i, rfl⟩ : ∃ i, c = i + 1 := ⟨c - 1, by omega⟩
    have first : s.notices.first = i + 1 := NoticeUnit.first_eq_succ isPending unmasked fun j below =>
      lowest (j + 1) (by omega) (by omega)
    rw [exec_ackNotice free, first, NoticeUnit.acknowledge_succ]
    rfl
  case noneFound =>
    rw [exec_ackNotice free, NoticeUnit.first_eq_zero released]
    rfl

/-- Settles O12: the mask's two bytes read back as the mask, and the line is the flags pending behind none. -/
theorem setMaskReplacesTheMask : Obligations.SetMaskReplacesTheMask :=
  fun _ m free => ⟨exec_setMask free m, fun _ => NoticeUnit.line_iff⟩

/-- Settles O13: the clear, and the fault that finds the record emptied. -/
theorem clearFaultEmptiesTheRecord : Obligations.ClearFaultEmptiesTheRecord :=
  fun _ free => ⟨exec_clearFault free, fun entry full => storeFault_on_clear rfl entry full⟩

end Sys2Proof.Machine
end

section
/-! O1 and O2. One step and the queue of waiting commands: the front command is taken by the step alone, and what each
command leaves of the part (`Leaves`) holds the queue it found. -/

namespace Sys2Proof.Machine

/-- No owner touches the queue of waiting commands. -/
theorem Owner.keeps_queue {code : Byte} {owner : List Byte → State → Reply × State} (owns : Owner code owner)
    (args : List Byte) (s : State) : (owner args s).2.pending = s.pending := by
  cases owns with
  | readClock | resync | readTempo | pushScene | readScenes | ackNotice | setMask | readFault | clearFault => rfl
  | setPeriod =>
    unfold ownSetPeriod
    split
    · rfl
    · split <;> rfl
  | allocLine =>
    unfold ownAllocLine allocate
    dsimp only
    (repeat' split) <;> simp
  | freeLine =>
    unfold ownFreeLine
    dsimp only
    (repeat' split) <;> simp
  | setWriter =>
    unfold ownSetWriter
    dsimp only
    (repeat' split) <;> rfl
  | setLink =>
    unfold ownSetLink
    dsimp only
    (repeat' split) <;> simp
  | setTap =>
    unfold ownSetTap judgeSet
    dsimp only
    (repeat' split) <;> rfl
  | setTempo => exact ownSetTempo_keeps State.pending (by simp) args s
  | tapTempo => exact ownTapTempo_keeps State.pending (fun _ _ _ => rfl) (by simp) (by simp) (by simp) args s
  | setTempoSource =>
    unfold ownSetTempoSource
    (repeat' split) <;> rfl
  | setMeter =>
    unfold ownSetMeter
    dsimp only
    split <;> rfl
  | popScene => exact ownPopScene_keeps State.pending (fun _ _ _ => rfl) (by simp) (fun _ _ => rfl) args s
  | readCounters =>
    unfold ownReadCounters
    dsimp only
    split <;> rfl
  | readLine => unfold ownReadLine; split <;> rfl
  | readPool => unfold ownReadPool; split <;> rfl
  | readLink => unfold ownReadLink; split <;> rfl
  | clearTap => unfold ownClearTap; split <;> rfl
  | readTap | saveTap => unfold ownReadTap; split <;> rfl
  | setOsc => unfold ownSetOsc; split <;> rfl
  | readOsc => unfold ownReadOsc; split <;> rfl
  | dropScene => unfold ownDropScene; split <;> rfl

@[simp] theorem partReset_queue (s : State) : (partReset s).pending = s.pending := by
  simp [partReset, resetBlocks]

/-- Whatever a command leaves of the part, the queue of waiting commands is as it was. -/
theorem Leaves.keeps_queue {s t : State} (left : Leaves s t) : t.pending = s.pending := by
  cases left with
  | stands | reset | port => rfl
  | command owns record => exact writeCommand_keeps State.pending (fun _ _ _ => rfl) owns.keeps_queue record s
  | edgeUnlocked | edgeLocked | edgeFlywheel | loseClock | turnFlywheel | pulse | pulseLost => simp
  | link | judged | passStarted | passRead | passTaken => simp
  | written | commitAdvanced | fillAdvanced | refreshExpired | refreshLate | refreshed | cleared | verified => simp
  | refused | partReset => simp

/-- Settles O1: the step takes the front command off the queue and runs it, and idles on an empty queue. -/
theorem stepRunsTheFrontCommand : Obligations.StepRunsTheFrontCommand := by
  refine ⟨fun c s rest => rfl, fun s idle => ?_⟩
  rw [step, idle]

/-- Settles O2: a command answers what one of the cases of `Leaves` leaves, and none of them touches the queue. -/
theorem everyCommandAnswersAndKeepsTheQueue : Obligations.EveryCommandAnswersAndKeepsTheQueue := by
  intro c s
  obtain ⟨t, ran, left⟩ := exec_leaves c s
  exact ⟨t, ran, left.keeps_queue⟩

end Sys2Proof.Machine
end

section
/-! O4. Transactions and their bytes (R166, R193, R194): the row of a command code, the bytes of that row, and the row read
back from the bytes. -/

namespace Sys2Proof.Machine

/-! ### WRITE_COMMAND -/

theorem decodeTransaction_encodeCommand (code : Byte) (record : CommandRecord) :
    decodeTransaction (encodeCommand code record) = some (decodeCommand code record) := by
  cases record <;> rfl

/-- The row that a command code names is sent with that code, be it in the command table or outside. -/
theorem encodeTransaction_decodeCommand (code : Byte) (record : CommandRecord) :
    encodeTransaction (decodeCommand code record) = some (encodeCommand code record) := by
  obtain ⟨owner, owns⟩ | rfl | outside := commandCode_cases code
  · cases owns <;> rfl
  · rfl
  · rw [decodeCommand_outside outside]
    rfl

/-! ### A transaction that names no command -/

theorem outside_of_isBad {code : Byte} {record : CommandRecord}
    (bad : (BadTransaction.command record).isBad code = true) : ∀ row ∈ commandTable, row.1 ≠ code :=
  fun row inTable => bne_iff_ne.mp (List.all_eq_true.mp bad row inTable)

/-- An ignored transaction is one of another code, or a WRITE_COMMAND with no byte behind its code. -/
theorem ignored_of_ignoredTransaction {code : Byte} {clocked : Nat} (ignored : ignoredTransaction code clocked = true) :
    (code ≠ 0xC1 ∧ code ≠ 0xC2 ∧ code ≠ 0xC3) ∨ (code = 0xC1 ∧ List.replicate clocked (0 : Byte) = []) := by
  unfold ignoredTransaction at ignored
  split at ignored
  · next write => exact .inr ⟨write, by rw [beq_iff_eq.mp ignored, List.replicate_zero]⟩
  · next other =>
    obtain ⟨notResult, notStatus⟩ := Bool.and_eq_true_iff.mp ignored
    exact .inl ⟨other, bne_iff_ne.mp notResult, bne_iff_ne.mp notStatus⟩

theorem decodeTransaction_ignored_zeros {code : Byte} {clocked : Nat}
    (ignored : ignoredTransaction code clocked = true) :
    decodeTransaction (code :: List.replicate clocked 0) = some (.badCommand code (.ignored clocked)) := by
  rw [decodeTransaction_ignored (ignored_of_ignoredTransaction ignored), List.length_replicate]

/-! ### Every row -/

theorem decodeTransaction_of_encodeTransaction {c : Instr} {bytes : List Byte} (formed : c.wellFormed = true)
    (encoded : encodeTransaction c = some bytes) : decodeTransaction bytes = some c := by
  cases c with
  | readResult clocked | readStatus clocked =>
    obtain rfl := Option.some.inj encoded
    simp [decodeTransaction]
  | badCommand code transaction =>
    cases transaction with
    | command record =>
      obtain rfl := Option.some.inj encoded
      rw [decodeTransaction_encodeCommand, decodeCommand_outside (outside_of_isBad (record := record) formed)]
    | ignored clocked =>
      obtain rfl := Option.some.inj encoded
      exact decodeTransaction_ignored_zeros formed
  | setPeriod record | readClock record | allocLine record | freeLine record | setWriter record | readLine record
  | readPool record | setLink record | readLink record | readCounters record | setTap record | clearTap record
  | readTap record | saveTap record | setTempo record | tapTempo record | setTempoSource record | setMeter record
  | resync record | readTempo record | setOsc record | readOsc record | pushScene record | popScene record
  | dropScene record | readScenes record | ackNotice record | setMask record | readFault record | clearFault record
  | partReset record =>
    obtain rfl := Option.some.inj encoded
    exact decodeTransaction_encodeCommand _ record
  | resetLine | realEdge | lossTimerExpiry | flywheelEdge | openMark | inputFrame | receiveTimeout
  | closeMarkLeavesLane | commitWriteComplete | fillWriteComplete | passStart | passReadComplete
  | refreshTimerExpiry | refreshAccessComplete | scrubClearWriteComplete | scrubVerifyReadComplete | allocComplete
  | allocNoSpace | tempoPulse | pulseLossTimerExpiry | commandCollision | dataByte => cases encoded

/-- Settles O4: a row read back from its bytes, and the table of R194, each of whose codes names its row. -/
theorem transactionsDecodeAsEncoded : Obligations.TransactionsDecodeAsEncoded := by
  refine ⟨fun c bytes => decodeTransaction_of_encodeTransaction, fun record => ⟨rfl, fun row listed => ?_⟩⟩
  have names : decodeCommand row.1 record = row.2.2 := by
    revert row
    simp only [List.cons_append, List.nil_append, List.forall_mem_cons, List.not_mem_nil, false_implies,
      implies_true, and_true]
    and_intros <;> rfl
  exact ⟨names, (congrArg encodeTransaction names.symm).trans (encodeTransaction_decodeCommand row.1 record)⟩

end Sys2Proof.Machine
end

section
/-! O5. The parameter set (12, "The parameter set"; R188, R194): its 24 bytes one by one, a set read at its offset, and the
two together. -/

namespace Sys2Proof.Machine

/-! ### Argument bytes behind others -/

theorem argByte_append (before set : List Byte) (i : Nat) : argByte (before ++ set) (before.length + i) = argByte set i := by
  rw [argByte, List.getD_append_right _ _ _ _ (Nat.le_add_right _ _), Nat.add_sub_cancel_left, argByte]

theorem argField_append (before set : List Byte) (i n : Nat) :
    argField (before ++ set) (before.length + i) n = argField set i n := by
  rw [argField, List.drop_length_add_append, argField]

/-- A set reads the same behind any bytes. -/
theorem RawSet.parse_append (before set : List Byte) :
    RawSet.parse (before ++ set) before.length = RawSet.parse set 0 := by
  have first : argByte (before ++ set) before.length = argByte set 0 := argByte_append before set 0
  simp only [RawSet.parse, first, argByte_append, argField_append, Nat.zero_add]

/-! ### Fields of two and three bytes -/

theorem argByte_lt (args : List Byte) (i : Nat) : argByte args i < 256 := (args.getD i 0).isLt

/-- A field's first byte stands above the rest of the field. -/
theorem argField_succ {bs : List Byte} {o n : Nat} (within : o + n < bs.length) :
    argField bs o (n + 1) = argByte bs o * 256 ^ n + argField bs (o + 1) n := by
  have first : o < bs.length := by omega
  have rest : n ≤ (bs.drop (o + 1)).length := by rw [List.length_drop]; omega
  rw [argField, List.drop_eq_getElem_cons first, List.take_succ_cons, natOfBytes_cons, List.length_take_of_le rest,
    argByte, List.getD_eq_getElem bs 0 first, argField]

theorem argField_pair {bs : List Byte} {o : Nat} (within : o + 2 ≤ bs.length) :
    argField bs o 2 = argByte bs o * 256 + argByte bs (o + 1) := by
  rw [argField_succ (by omega), argField_succ (n := 0) (by omega), pow_zero, Nat.mul_one]
  rfl

/-! ### A set read -/

/-- The fields of a set by its bytes: each number at its offset, without the reserved bits. -/
theorem RawSet.parse_of_bytes {set : List Byte} (sized : set.length = 24) :
    let b := argByte set
    RawSet.parse set 0 =
      { reader := b 0, line := b 1, mode := b 2
        fixedDelay := (b 3 % 16 * 65536 + b 4 * 256 + b 5) * 256 + b 6
        noteExp := b 7 % 16, modifier := b 7 / 16 % 4, gain := b 8 * 65536 + b 9 * 256 + b 10, polarity := b 11
        interp := b 12, osc := b 13, depth := b 14 * 65536 + b 15 * 256 + b 16, quadrant := b 17 % 4, method := b 18
        glideRate := b 19 * 256 + b 20, fadeLen := b 21, edgeFade := b 22, run := b 23
        reserved := decide (16 ≤ b 3 ∨ 64 ≤ b 7 ∨ 4 ≤ b 17) } := by
  intro b
  have delay : argField set 3 3 % 2 ^ 20 = b 3 % 16 * 65536 + b 4 * 256 + b 5 := by
    have high : b 4 < 256 := argByte_lt set 4
    have low : b 5 < 256 := argByte_lt set 5
    rw [argField_three (by omega)]
    show (b 3 * 65536 + b 4 * 256 + b 5) % 2 ^ 20 = _
    omega
  have bits : (b 3 / 16 != 0 || b 7 / 64 != 0 || b 17 / 4 != 0) = decide (16 ≤ b 3 ∨ 64 ≤ b 7 ∨ 4 ≤ b 17) := by
    rw [Bool.eq_iff_iff]
    simp only [Bool.or_eq_true, bne_iff_ne, decide_eq_true_eq]
    omega
  have gain : argField set 8 3 = b 8 * 65536 + b 9 * 256 + b 10 := argField_three (by omega)
  have depth : argField set 14 3 = b 14 * 65536 + b 15 * 256 + b 16 := argField_three (by omega)
  have glide : argField set 19 2 = b 19 * 256 + b 20 := argField_pair (by omega)
  simp only [RawSet.parse, Nat.zero_add, delay, gain, depth, glide]
  rw [← bits]

/-! ### A set written -/

/-- The numbers that the 24 bytes of a set carry, one by one, each to be cut to its low eight bits. -/
def ParamSet.layout (p : ParamSet) : List Nat :=
  [p.reader.val, p.line.val, p.mode.code, p.fixedDelay / 16777216, p.fixedDelay / 65536, p.fixedDelay / 256,
    p.fixedDelay, p.noteExp + 16 * p.modifier.code, p.gain / 65536, p.gain / 256, p.gain, p.inverted.toNat,
    p.interp.code, oscCode p.osc, p.depth / 65536, p.depth / 256, p.depth, p.quadrant, p.method.code,
    p.glideRate / 256, p.glideRate, p.fadeLen, p.edgeFade, p.run.toNat]

theorem ParamSet.bytes_eq_layout (p : ParamSet) : p.bytes = p.layout.map (BitVec.ofNat 8) := by
  simp only [ParamSet.bytes, bytesOf_one, bytesOf_two, bytesOf_three, bytesOf_four, flagByte, List.cons_append,
    List.nil_append, ParamSet.layout, List.map_cons, List.map_nil]

theorem ParamSet.bytes_length (p : ParamSet) : p.bytes.length = 24 := by
  rw [bytes_eq_layout, List.length_map]
  rfl

theorem ParamSet.argByte_bytes (p : ParamSet) (i : Nat) : argByte p.bytes i = p.layout.getD i 0 % 256 := by
  rw [argByte, bytes_eq_layout]
  exact (congrArg BitVec.toNat (List.getD_map (n := i) (l := p.layout) (d := 0) (BitVec.ofNat 8))).trans
    (BitVec.toNat_ofNat _ _)

/-- The ranges that fit in the bytes of a set's numbers (12, "The parameter set"). -/
structure ParamSet.Fits (p : ParamSet) : Prop where
  fixedDelay : p.fixedDelay < 2 ^ 28
  noteExp : p.noteExp < 16
  gain : p.gain < 2 ^ 24
  depth : p.depth < 2 ^ 24
  quadrant : p.quadrant < 4
  glideRate : p.glideRate < 2 ^ 16
  fadeLen : p.fadeLen < 256
  edgeFade : p.edgeFade < 256

theorem Modifier.code_le (m : Modifier) : m.code ≤ 2 := by cases m <;> decide

theorem oscCode_le (o : Option OscNo) : oscCode o ≤ 16 := by
  cases o with
  | none => exact Nat.zero_le 16
  | some m => exact m.isLt

/-- Each field of a set lies at its offset. -/
theorem ParamSet.Fits.bytes_layout {p : ParamSet} (fits : p.Fits) :
    let b := argByte p.bytes
    b 0 = p.reader.val ∧ b 1 = p.line.val ∧ b 2 = p.mode.code ∧
    b 3 * 65536 + b 4 * 256 + b 5 = p.fixedDelay / 256 ∧ b 6 = p.fixedDelay % 256 ∧
    b 7 = p.noteExp + 16 * p.modifier.code ∧ b 8 * 65536 + b 9 * 256 + b 10 = p.gain ∧
    b 11 = p.inverted.toNat ∧ b 12 = p.interp.code ∧ b 13 = oscCode p.osc ∧
    b 14 * 65536 + b 15 * 256 + b 16 = p.depth ∧ b 17 = p.quadrant ∧ b 18 = p.method.code ∧
    b 19 * 256 + b 20 = p.glideRate ∧ b 21 = p.fadeLen ∧ b 22 = p.edgeFade ∧ b 23 = p.run.toNat := by
  obtain ⟨fixedDelay, noteExp, gain, depth, quadrant, glideRate, fadeLen, edgeFade⟩ := fits
  have mode : p.mode.code < 256 := by cases p.mode <;> decide
  have interp : p.interp.code < 256 := by cases p.interp <;> decide
  have method : p.method.code < 256 := by cases p.method <;> decide
  have reader := p.reader.isLt
  have line := p.line.isLt
  have inverted := p.inverted.toNat_lt
  have run := p.run.toNat_lt
  have modifier := p.modifier.code_le
  have osc := oscCode_le p.osc
  simp only [argByte_bytes, layout, List.getD_cons_succ, List.getD_cons_zero, true_and]
  and_intros <;> omega

/-- A set read from its own bytes has the fields it was written from. -/
theorem ParamSet.Fits.parse_bytes {p : ParamSet} (fits : p.Fits) : RawSet.parse p.bytes 0 = p.toRaw := by
  obtain ⟨reader, line, mode, delayHigh, delayLow, note, gain, inverted, interp, osc, depth, quadrant, method,
    glideRate, fadeLen, edgeFade, run⟩ := fits.bytes_layout
  obtain ⟨delayFits, noteFits, -, -, quadrantFits, -, -, -⟩ := fits
  have modifier := p.modifier.code_le
  rw [RawSet.parse_of_bytes p.bytes_length]
  simp only [toRaw, RawSet.mk.injEq, decide_eq_false_iff_not]
  have high : argByte p.bytes 3 < 16 := by omega
  have delay : (argByte p.bytes 3 % 16 * 65536 + argByte p.bytes 4 * 256 + argByte p.bytes 5) * 256
      + argByte p.bytes 6 = p.fixedDelay := by
    rw [Nat.mod_eq_of_lt high, delayHigh, delayLow, Nat.div_add_mod']
  exact ⟨reader, line, mode, delay, by omega, by omega, gain, inverted, interp, osc, depth, by omega, method,
    glideRate, fadeLen, edgeFade, run, by omega⟩

/-- Settles O5: a set is read from its bytes alone, each field at its offset, as written and as read. -/
theorem parameterSetsReadAsWritten : Obligations.ParameterSetsReadAsWritten := by
  refine ⟨fun before p fixedDelay noteExp gain depth quadrant glideRate fadeLen edgeFade => ?written,
    fun set sized => ?read⟩
  case written =>
    have fits : p.Fits := ⟨fixedDelay, noteExp, gain, depth, quadrant, glideRate, fadeLen, edgeFade⟩
    have flag : ∀ b : Bool, b.toNat = if b then 1 else 0 := fun b => by cases b <;> rfl
    have layout := fits.bytes_layout
    rw [flag, flag] at layout
    exact ⟨(RawSet.parse_append before p.bytes).trans fits.parse_bytes, p.toRaw_toSet, p.bytes_length, layout⟩
  case read =>
    rw [RawSet.parse_of_bytes sized]
    exact ⟨rfl, rfl, rfl, rfl, rfl, rfl, rfl, rfl, rfl, rfl, rfl, rfl, rfl, rfl, rfl, rfl, rfl, decide_eq_true_iff⟩

end Sys2Proof.Machine
end

section
/-! O46. SET_LINK (R57, R70, R75, R104): what its arguments read as, and the part a link switched off leaves before
the claims are settled. -/

namespace Sys2Proof.Machine

/-! ### A link switched off -/

/-- The part after SET_LINK off, before the claims are settled (R57, R70, R75, R104). -/
def linkWithdrawn (e : Engine) (s : State) : State :=
  withdrawPass e (abortTransmitter e ((withdrawFrames e s).setLink e ((withdrawFrames e s).link e).switchOff))

theorem linkOff_eq (e : Engine) (s : State) : linkOff e s = settle (linkWithdrawn e s) := rfl

/-- Switching a link off touches its link, the commit queue, the fills, the tap processor and the access in service
alone. -/
@[simp] theorem linkWithdrawn_frame (e : Engine) (s : State) :
    (linkWithdrawn e s).timer = s.timer ∧ (linkWithdrawn e s).store = s.store ∧
    (linkWithdrawn e s).refresh = s.refresh ∧ (linkWithdrawn e s).pool = s.pool ∧
    (linkWithdrawn e s).lines = s.lines ∧ (linkWithdrawn e s).oldestOpen = s.oldestOpen ∧
    (linkWithdrawn e s).taps = s.taps ∧ (linkWithdrawn e s).tempo = s.tempo ∧ (linkWithdrawn e s).oscs = s.oscs ∧
    (linkWithdrawn e s).scenes = s.scenes ∧ (linkWithdrawn e s).port = s.port ∧
    (linkWithdrawn e s).notices = s.notices ∧ (linkWithdrawn e s).faults = s.faults ∧
    (linkWithdrawn e s).pending = s.pending := by
  simp [linkWithdrawn]

@[simp] theorem linkWithdrawn_commits (e : Engine) (s : State) :
    (linkWithdrawn e s).commits = s.commits.filter (·.engine != e) := by
  simp [linkWithdrawn, withdrawFrames]

@[simp] theorem linkWithdrawn_fills (e : Engine) (s : State) : (linkWithdrawn e s).fills =
    (owedForFrames e s).foldl (fun fs f => oweFill s.timer.period f fs) s.fills := by
  simp [linkWithdrawn, withdrawFrames]

/-- The link is OFF with its frames aborted, and the others stand (R57, R75). -/
theorem linkWithdrawn_link (e : Engine) (s : State) (d : Engine) : (linkWithdrawn e s).link d =
    if d = e then
      { (s.link d).switchOff with tx := abortFrames (Config.laneProgress s.freeIx) (s.link d).tx }
    else s.link d := by
  have withdrawn : ∀ c, (withdrawFrames e s).link c = s.link c := fun c => State.link_of_links (by simp) c
  have index : ∀ x, ((withdrawFrames e s).setLink e x).freeIx = s.freeIx := fun x => by simp
  have passed : ∀ u, (withdrawPass e u).link d = u.link d := fun u => State.link_of_links (by simp) d
  unfold linkWithdrawn
  rw [passed, abortTransmitter_link, index, State.link_setLink, withdrawn, withdrawn]
  split
  · next same => rw [same]; rfl
  · rfl

/-- The access in service is no commit's of the link, no fill's that is owed no longer, and no pass's of its engine
(R34). -/
theorem linkWithdrawn_arbiter (e : Engine) (s : State) : (linkWithdrawn e s).arbiter = { s.arbiter with
    inService := s.arbiter.inService.map (Access.heldBy (fun d _ => d != e) (owesFill (linkWithdrawn e s).fills)
      ((s.proc.pass.map (·.engine)) != some e)) } := by
  have frames : (withdrawFrames e s).arbiter = { s.arbiter with
      inService := s.arbiter.inService.map
        (Access.heldBy (fun d _ => d != e) (owesFill (linkWithdrawn e s).fills) true) } := by
    rw [linkWithdrawn_fills]
    unfold withdrawFrames
    dsimp only
    rw [orphanFills_arbiter]
    simp [orphanCommit_arbiter, Function.comp_def]
    rfl
  have pass : ∀ u : State, u.proc = s.proc → (withdrawPass e u).arbiter = { u.arbiter with
      inService := u.arbiter.inService.map (Access.heldBy (fun _ _ => true) (fun _ _ => true)
        ((s.proc.pass.map (·.engine)) != some e)) } := by
    intro u proc
    unfold withdrawPass
    rw [proc]
    cases s.proc.pass with
    | none =>
      have apart : (none != some e) = true := bne_iff_ne.mpr nofun
      simp [apart]
    | some p =>
      by_cases own : p.engine = e
      · simp [own, orphanPassRead_arbiter]
      · have apart : (some p.engine != some e) = true := bne_iff_ne.mpr fun same => own (Option.some.inj same)
        simp [own, apart]
  unfold linkWithdrawn at frames ⊢
  rw [pass _ (by simp)]
  simp [frames, Function.comp_def]

/-- The engine leaves the pass queue, and its pass ends (R104). -/
theorem linkWithdrawn_proc (e : Engine) (s : State) : (linkWithdrawn e s).proc = { s.proc with
    queue := s.proc.queue.filter (· != e)
    pass := if (s.proc.pass.map (·.engine)) = some e then none else s.proc.pass } := by
  have pass : ∀ u : State, u.proc = s.proc → (withdrawPass e u).proc = { s.proc with
      queue := s.proc.queue.filter (· != e)
      pass := if (s.proc.pass.map (·.engine)) = some e then none else s.proc.pass } := by
    intro u proc
    unfold withdrawPass
    rw [proc]
    cases runs : s.proc.pass with
    | none => simp [runs]
    | some p =>
      by_cases own : p.engine = e
      · simp [own]
      · simp [own, runs]
  exact pass _ (by simp)

/-- What a link's withdrawn frames are owed (R23, R29, R70). -/
theorem mem_owedForFrames (e : Engine) (s : State) (x : Fill) :
    x ∈ owedForFrames e s ↔ s.faults.mode = .normal ∧ ∃ f ∈ s.commits, f.engine = e ∧ ∃ k ∈ f.blocks,
      (s.line k.line).state = .active ∧ (s.line k.line).generation = k.generation ∧ k.written < s.size ∧
      x = { period := f.period, line := k.line, position := k.head, written := 0 } := by
  have owed : ∀ p k, owedForBlock s p k = some x ↔ s.faults.mode = .normal ∧
      (s.line k.line).state = .active ∧ (s.line k.line).generation = k.generation ∧ k.written < s.size ∧
      x = { period := p, line := k.line, position := k.head, written := 0 } := by
    intro p k
    have safe : s.inSafe = true ↔ ¬s.faults.mode = .normal := by
      unfold State.inSafe
      cases s.faults.mode <;> decide
    unfold owedForBlock
    simp only [Bool.or_eq_true, blockOver_iff, safe, ite_eq_iff, reduceCtorEq, and_false, false_or, Option.some.injEq,
      eq_comm (b := x)]
    grind
  simp only [owedForFrames, List.mem_flatMap, List.mem_filter, List.mem_filterMap, owed, beq_iff_eq]
  constructor
  · rintro ⟨f, ⟨queued, own⟩, k, block, normal, stands⟩
    exact ⟨normal, f, queued, own, k, block, stands⟩
  · rintro ⟨normal, f, queued, own, k, block, stands⟩
    exact ⟨f, ⟨queued, own⟩, k, block, normal, stands⟩

/-! ### The command -/

theorem exec_setLink {s : State} (h : takesCommands s = true) (x y : Byte) :
    exec (.setLink (whole [x, y])) s = .next (answer 0x20 (ownSetLink [x, y] (hold 0x20 (wrote 2 s)))) := by
  obtain ⟨free, normal⟩ := (takesCommands_iff s).mp h
  exact congrArg Host.Outcome.next (writeCommand_answers (n := 2) free (by decide) rfl (taken_of_normal normal _) _)

theorem ownSetLink_refuses {x y : Byte} (out : 3 < x.toNat ∨ 1 < y.toNat) (s : State) :
    ownSetLink [x, y] s = refuse .badArg s := if_pos out

/-- SET_LINK off and on for an engine (R57). -/
theorem ownSetLink_names (e : Engine) (s : State) :
    ownSetLink [BitVec.ofNat 8 e.val, 0] s = okBytes [] (if (s.link e).state = .off then s else linkOff e s) ∧
    ownSetLink [BitVec.ofNat 8 e.val, 1] s =
      okBytes [] (if (s.link e).state = .off then s.setLink e (s.link e).switchOn else s) := by
  have engine : ∀ y : Byte, argByte [BitVec.ofNat 8 e.val, y] 0 = e.val := fun y =>
    argByte_ofNat (Nat.lt_trans e.isLt (by decide)) _
  have setting : ∀ y : Byte, argByte [BitVec.ofNat 8 e.val, y] 1 = y.toNat := fun _ => rfl
  have inRange : ∀ y : Byte, y.toNat ≤ 1 → ¬(3 < e.val ∨ 1 < y.toNat) := by omega
  constructor
  · unfold ownSetLink
    rw [engine, setting, if_neg (inRange 0 (by decide)), Fin.ofNat_val_eq_self]
    exact if_pos rfl
  · unfold ownSetLink
    rw [engine, setting, if_neg (inRange 1 (by decide)), Fin.ofNat_val_eq_self]
    exact if_neg (by decide)

/-- Settles O46: the cases that withdraw nothing, and a link switched off. -/
theorem setLinkSwitchesALink : Obligations.SetLinkSwitchesALink := by
  refine ⟨fun s takes => ⟨fun x y out => ?_, fun e => ⟨fun off => ?_, fun on => ?_, fun off => ?_⟩⟩,
    fun s e takes on => ?_⟩
  · rw [exec_setLink takes, ownSetLink_refuses out]
    rfl
  · refine (exec_setLink takes _ 0).trans ?_
    rw [(ownSetLink_names e _).1, if_pos (show ((hold 0x20 (wrote 2 s)).link e).state = .off from off)]
    rfl
  · refine (exec_setLink takes _ 1).trans ?_
    rw [(ownSetLink_names e _).2, if_neg (show ¬((hold 0x20 (wrote 2 s)).link e).state = .off from on)]
    rfl
  · refine (exec_setLink takes _ 1).trans ?_
    rw [(ownSetLink_names e _).2, if_pos (show ((hold 0x20 (wrote 2 s)).link e).state = .off from off)]
    rfl
  · let v := hold 0x20 (wrote 2 s)
    have port : (linkWithdrawn e v).port = v.port := by simp
    have link : (linkWithdrawn e v).link e = _ := (linkWithdrawn_link e v e).trans (if_pos rfl)
    have tx : ((linkWithdrawn e v).link e).tx = abortFrames (Config.laneProgress s.freeIx) (s.link e).tx := by
      rw [link]; rfl
    have proc := linkWithdrawn_proc e v
    refine ⟨linkWithdrawn e v, Config.laneProgress s.freeIx, ?run, linkWithdrawn_arbiter e v, ?whole,
      (congrArg Port.collide port).trans rfl, (congrArg Port.dataOut port).trans rfl, fun d other => ?_, ?own, ?_,
      fun i f held => ?frames, (congrArg TapProc.queue proc).trans rfl, (congrArg TapProc.lead proc).trans rfl,
      (congrArg TapProc.pass proc).trans rfl, linkWithdrawn_fills e v, fun x => mem_owedForFrames e s x⟩
    case run =>
      rw [exec_setLink takes, (ownSetLink_names e _).1, if_neg (show ¬(v.link e).state = .off from on)]
      rfl
    case whole => apply State.eq_of_fields <;> simp [v, wrote]
    case own => rw [tx, link]; rfl
    case frames =>
      rw [tx, abortFrames_getElem?, held, Option.map_some]
      obtain ⟨ended, opened, sending⟩ := OutFrame.abort_cases (if i = 0 then Config.laneProgress s.freeIx else 0) f
      exact ⟨fun h => congrArg some (ended h), fun h => congrArg some (opened h), fun h => congrArg some (sending h)⟩
    · exact (linkWithdrawn_link e v d).trans (if_neg other)
    · rw [tx, abortFrames_length]

end Sys2Proof.Machine
end

section
/-! O57. The ranges of the spec's tables: the law taken apart block by block, and what each operation keeps of a block's
ranges. -/

namespace Sys2Proof.Machine

/-! ### The law, block by block -/

/-- The ranges of the period timer (01 section 1.1). -/
structure Timer.InRange (t : Timer) : Prop where
  edge : t.edge < t.size.toNat
  spacings : t.window.length ≤ 64
  relockRun : t.relockRun.length ≤ 64

/-- The ranges of a line record under a period size (02 section 2.1, R12, R14). -/
structure Line.InRange (b : Nat) (l : Line) : Prop where
  pages : l.state = .active → 1 ≤ l.pages.length ∧ l.pages.length ≤ 256
  headOnRing : l.state = .active → l.head < l.length
  headOfFree : l.state = .free → l.head = 0
  headByBlocks : l.head % b = 0
  gapRun : l.gapRun ≤ 65535

/-- The ranges of a link's missed count (R56). -/
structure Link.InRange (k : Link) : Prop where
  missedUp : k.state = .up → k.missed < 8
  missedLost : k.state = .lost → k.missed = 8
  missedNone : k.state = .off ∨ k.state = .down → k.missed = 0

/-- The ranges of the tempo unit (07 section 7.1). -/
structure Tempo.InRange (t : Tempo) : Prop where
  beat : t.beatNumber < t.beatsPerBar
  meter : t.beatsPerBar ≤ 16
  interval : 4096 * 256 ≤ t.interval ∧ t.interval ≤ 524288 * 256
  beatPosition : t.beatPosition < t.interval
  tapList : t.tapList.length ≤ 4
  window : t.window.length ≤ 24
  phase : t.phase < 24

/-- The ranges of the refresh walker (R39). -/
def Refresh.InRange (r : Refresh) : Prop := r.row < 8192 ∧ r.backlog ≤ 8

/-- The ranges of the fault unit (11 section 11.2). -/
def FaultUnit.InRange (u : FaultUnit) : Prop := u.level ≤ 3 ∧ u.later ≤ 255

/-- The range of the count of a waiting allocation (R14). -/
def WaitingInRange (x : Option Waiting) : Prop := ∀ w, x = some w → 1 ≤ w.count ∧ w.count ≤ 256

/-- Every entry of the line table is in range. -/
def LinesInRange (b : Nat) (lines : Vector Line 128) : Prop := ∀ l : LineNo, lines[l.val].InRange b

/-- Every link's missed count is in range. -/
def LinksInRange (links : Vector Link 4) : Prop := ∀ e : Engine, links[e.val].InRange

/-- The law of the ranges, block by block. -/
structure BlocksInRange (s : State) : Prop where
  timer : s.timer.InRange
  lines : LinesInRange s.size s.lines
  links : LinksInRange s.links
  waiting : WaitingInRange s.pool.waiting
  refresh : s.refresh.InRange
  corrected : s.store.corrected ≤ 65535
  faults : s.faults.InRange
  scenes : s.scenes.length ≤ 4
  tempo : s.tempo.InRange

theorem rangesLawful_iff (s : State) : RangesLawful s ↔ BlocksInRange s := by
  constructor
  · intro h
    exact
      { timer := ⟨h.edge, h.spacings, h.relockRun⟩
        lines := fun l => ⟨h.pages l, h.headOnRing l, h.headOfFree l, h.headByBlocks l, h.gapRun l⟩
        links := fun e => ⟨h.missedUp e, h.missedLost e, h.missedNone e⟩
        waiting := h.waiting, refresh := ⟨h.row, h.backlog⟩, corrected := h.corrected
        faults := ⟨h.level, h.later⟩, scenes := h.scenes
        tempo := ⟨h.beat, h.meter, h.interval, h.beatPosition, h.tapList, h.window, h.phase⟩ }
  · intro h
    obtain ⟨edge, spacings, relockRun⟩ := h.timer
    obtain ⟨beat, meter, interval, beatPosition, tapList, window, phase⟩ := h.tempo
    exact
      { edge, spacings, relockRun, beat, meter, interval, beatPosition, tapList, window, phase
        pages := fun l => (h.lines l).pages, headOnRing := fun l => (h.lines l).headOnRing
        headOfFree := fun l => (h.lines l).headOfFree, headByBlocks := fun l => (h.lines l).headByBlocks
        gapRun := fun l => (h.lines l).gapRun, waiting := h.waiting
        missedUp := fun e => (h.links e).missedUp, missedLost := fun e => (h.links e).missedLost
        missedNone := fun e => (h.links e).missedNone
        row := h.refresh.1, backlog := h.refresh.2, corrected := h.corrected
        level := h.faults.1, later := h.faults.2, scenes := h.scenes }

/-- All that the law reads; of the links, whether they are in range. -/
def blocksView (s : State) :
    Timer × Vector Line 128 × Prop × Option Waiting × Refresh × Nat × FaultUnit × List Scene × Tempo :=
  (s.timer, s.lines, LinksInRange s.links, s.pool.waiting, s.refresh, s.store.corrected, s.faults, s.scenes, s.tempo)

theorem BlocksInRange.same {s t : State} (h : BlocksInRange s) (view : blocksView t = blocksView s) :
    BlocksInRange t := by
  simp only [blocksView, Prod.mk.injEq] at view
  obtain ⟨timer, lines, links, waiting, refresh, corrected, faults, scenes, tempo⟩ := view
  exact
    { timer := timer ▸ h.timer, lines := by rw [State.size, timer, lines]; exact h.lines, links := links ▸ h.links
      waiting := waiting ▸ h.waiting, refresh := refresh ▸ h.refresh, corrected := corrected ▸ h.corrected
      faults := faults ▸ h.faults, scenes := scenes ▸ h.scenes, tempo := tempo ▸ h.tempo }

theorem RangesLawful.blocks {s : State} (h : RangesLawful s) : BlocksInRange s := (rangesLawful_iff s).mp h

theorem BlocksInRange.lawful {s : State} (h : BlocksInRange s) : RangesLawful s := (rangesLawful_iff s).mpr h

theorem RangesLawful.same {s t : State} (h : RangesLawful s) (view : blocksView t = blocksView s) : RangesLawful t :=
  (h.blocks.same view).lawful

/-! An operation on one block keeps the law when it keeps that block in range. -/

section
variable {s t : State} (h : RangesLawful s)
include h

theorem RangesLawful.keepTimer (others : blocksView { t with timer := s.timer } = blocksView s)
    (size : t.timer.size = s.timer.size) (timer : s.timer.InRange → t.timer.InRange) : RangesLawful t := by
  have rest : BlocksInRange { t with timer := s.timer } := h.blocks.same others
  have lines : LinesInRange t.size t.lines := by
    rw [State.size, size]
    exact rest.lines
  exact BlocksInRange.lawful { rest with timer := timer h.blocks.timer, lines := lines }

theorem RangesLawful.keepLines (others : blocksView { t with lines := s.lines } = blocksView s)
    (lines : LinesInRange s.size s.lines → LinesInRange t.size t.lines) : RangesLawful t :=
  have rest : BlocksInRange { t with lines := s.lines } := h.blocks.same others
  BlocksInRange.lawful { rest with lines := lines h.blocks.lines }

theorem RangesLawful.keepLinks (others : blocksView { t with links := s.links } = blocksView s)
    (links : LinksInRange s.links → LinksInRange t.links) : RangesLawful t :=
  have rest : BlocksInRange { t with links := s.links } := h.blocks.same others
  BlocksInRange.lawful { rest with links := links h.blocks.links }

theorem RangesLawful.keepPool (others : blocksView { t with pool := s.pool } = blocksView s)
    (waiting : WaitingInRange s.pool.waiting → WaitingInRange t.pool.waiting) : RangesLawful t :=
  have rest : BlocksInRange { t with pool := s.pool } := h.blocks.same others
  BlocksInRange.lawful { rest with waiting := waiting h.blocks.waiting }

theorem RangesLawful.keepRefresh (others : blocksView { t with refresh := s.refresh } = blocksView s)
    (refresh : s.refresh.InRange → t.refresh.InRange) : RangesLawful t :=
  have rest : BlocksInRange { t with refresh := s.refresh } := h.blocks.same others
  BlocksInRange.lawful { rest with refresh := refresh h.blocks.refresh }

theorem RangesLawful.keepStore (others : blocksView { t with store := s.store } = blocksView s)
    (corrected : s.store.corrected ≤ 65535 → t.store.corrected ≤ 65535) : RangesLawful t :=
  have rest : BlocksInRange { t with store := s.store } := h.blocks.same others
  BlocksInRange.lawful { rest with corrected := corrected h.blocks.corrected }

theorem RangesLawful.keepFaults (others : blocksView { t with faults := s.faults } = blocksView s)
    (faults : s.faults.InRange → t.faults.InRange) : RangesLawful t :=
  have rest : BlocksInRange { t with faults := s.faults } := h.blocks.same others
  BlocksInRange.lawful { rest with faults := faults h.blocks.faults }

theorem RangesLawful.keepScenes (others : blocksView { t with scenes := s.scenes } = blocksView s)
    (scenes : s.scenes.length ≤ 4 → t.scenes.length ≤ 4) : RangesLawful t :=
  have rest : BlocksInRange { t with scenes := s.scenes } := h.blocks.same others
  BlocksInRange.lawful { rest with scenes := scenes h.blocks.scenes }

theorem RangesLawful.keepTempo (others : blocksView { t with tempo := s.tempo } = blocksView s)
    (tempo : s.tempo.InRange → t.tempo.InRange) : RangesLawful t :=
  have rest : BlocksInRange { t with tempo := s.tempo } := h.blocks.same others
  BlocksInRange.lawful { rest with tempo := tempo h.blocks.tempo }

end

/-! ### The period timer (R1, R3) -/

theorem joinTail_length_le {n : Nat} (pos : 0 < n) {xs : List Nat} (h : xs.length ≤ n) (x : Nat) :
    (joinTail n xs x).length ≤ n := by
  unfold joinTail
  split
  · simp; omega
  · simp; omega

theorem Timer.InRange.measureOffer {t : Timer} (h : t.InRange) (reading : Nat) : (t.measureOffer reading).InRange := by
  unfold Timer.measureOffer Timer.offered
  split
  · exact { h with }
  · exact { h with }
  · refine { h with relockRun := ?_ }
    dsimp only
    split
    · exact joinTail_length_le (by decide) h.relockRun _
    · simp

theorem Timer.InRange.measureLocked {t : Timer} (h : t.InRange) (reading : Nat) :
    (t.measureLocked reading).InRange := by
  refine { h with spacings := ?_ }
  unfold Timer.measureLocked
  dsimp only
  split
  · exact h.spacings
  · exact h.spacings
  · exact joinTail_length_le (by decide) h.spacings _

theorem Timer.InRange.lock {t : Timer} (h : t.InRange) (reading : Nat) : (t.lock reading).InRange :=
  { h with spacings := h.relockRun, relockRun := Nat.zero_le _ }

theorem PeriodSize.toNat_pos (b : PeriodSize) : 0 < b.toNat := by cases b <;> decide

/-! ### Lines (R12 to R19) -/

theorem LinesInRange.setLine {s : State} {b : Nat} (h : LinesInRange b s.lines) (l : LineNo) {x : Line}
    (line : x.InRange b) : LinesInRange b (s.setLine l x).lines := fun m => by
  have written := State.line_setLine s l m x
  unfold State.line at written
  rw [written]
  split
  · exact line
  · exact h m

/-- A FREE record with its head at 0 is in range. -/
theorem Line.InRange.of_free {b : Nat} {l : Line} (free : l.state = .free) (head : l.head = 0)
    (gap : l.gapRun ≤ 65535) :
    l.InRange b where
  pages active := nomatch free.symm.trans active
  headOnRing active := nomatch free.symm.trans active
  headOfFree _ := head
  headByBlocks := by rw [head, Nat.zero_mod]
  gapRun := gap

/-- An ACTIVE line's boundary moves its head on by a block, round the ring (R18). -/
theorem Line.InRange.close {b : Nat} {l : Line} (h : l.InRange b) (blocks : 4096 % b = 0) (active : l.state = .active)
    (first : Bool) : (l.close first b).InRange b := by
  obtain ⟨some, most⟩ := h.pages active
  have ring : 0 < l.length := Nat.mul_pos some (by decide)
  have whole : l.length % b = 0 := by
    rw [Line.length, Nat.mul_mod, blocks, Nat.mul_zero, Nat.zero_mod]
  unfold Line.close
  split
  · exact h
  · refine
      { pages := h.pages, headOnRing := fun _ => Nat.mod_lt _ ring
        headOfFree := fun free => (nomatch active.symm.trans free), headByBlocks := ?_, gapRun := ?_ }
    · dsimp only
      rw [Nat.mod_mod_of_dvd _ (Nat.dvd_of_mod_eq_zero whole), Nat.add_mod_right]
      exact h.headByBlocks
    · dsimp only
      split
      · exact Nat.zero_le _
      · exact Nat.min_le_left _ _

/-- At a boundary the period size changes only where every line is FREE, so that every head stays a multiple of it. -/
theorem LinesInRange.boundary {s : State} (h : LinesInRange s.size s.lines) (zero : Bool) (l : LineNo) :
    ((s.line l).boundary zero (sizeAfter s).toNat).InRange (sizeAfter s).toNat := by
  have line : (s.line l).InRange s.size := h l
  cases state : (s.line l).state with
  | free =>
    rw [Line.boundary_free state]
    exact .of_free state (line.headOfFree state) line.gapRun
  | active =>
    have blocks : 4096 % s.size = 0 := by unfold State.size; cases s.timer.size <;> decide
    rw [sizeAfter_of_active state, Line.boundary_active state]
    exact { line.close blocks state zero with }

/-! ### Links (R55, R56) -/

theorem linksInRange_congr {s t : State} (same : ∀ e, (t.link e).state = (s.link e).state ∧
    (t.link e).missed = (s.link e).missed) : LinksInRange t.links ↔ LinksInRange s.links := by
  have inRange : ∀ k : Link, k.InRange ↔ (k.state = .up → k.missed < 8) ∧ (k.state = .lost → k.missed = 8) ∧
      (k.state = .off ∨ k.state = .down → k.missed = 0) := fun k =>
    ⟨fun ⟨up, lost, off⟩ => ⟨up, lost, off⟩, fun ⟨up, lost, off⟩ => ⟨up, lost, off⟩⟩
  have link : ∀ e, (t.link e).InRange ↔ (s.link e).InRange := fun e => by
    obtain ⟨state, missed⟩ := same e
    rw [inRange, inRange, state, missed]
  exact forall_congr' link

theorem LinksInRange.setLink {s : State} (h : LinksInRange s.links) (e : Engine) {x : Link} (link : x.InRange) :
    LinksInRange (s.setLink e x).links := fun d => by
  have written := State.link_setLink s e d x
  unfold State.link at written
  rw [written]
  split
  · exact link
  · exact h d

end Sys2Proof.Machine
end

section
/-! O57. What the links' and the tempo unit's operations keep of their ranges. -/

namespace Sys2Proof.Machine

/-! ### The operations on links -/

@[simp] theorem setLink_linksInRange (s : State) (e : Engine) {x : Link} (state : x.state = (s.link e).state)
    (missed : x.missed = (s.link e).missed) : LinksInRange (s.setLink e x).links ↔ LinksInRange s.links :=
  linksInRange_congr fun d => by
    rw [State.link_setLink]
    split
    · next same => rw [same]; exact ⟨state, missed⟩
    · exact ⟨rfl, rfl⟩

@[simp] theorem settle_linksInRange (s : State) : LinksInRange (settle s).links ↔ LinksInRange s.links := by
  obtain ⟨_, _, _, _, _, drained⟩ := drainFrames_spec s.commits s
  have settled : ∀ e, (settle s).link e = (drainFrames s s.commits).link e := fun e =>
    State.link_of_links (by simp [settle, drainCommits]) e
  refine linksInRange_congr fun e => ?_
  rw [settled, (drained e).1]
  exact ⟨rfl, rfl⟩

@[simp] theorem handFrame_linksInRange (e : Engine) (p : PeriodCount) (hand : OutFrame → OutFrame) (s : State) :
    LinksInRange (handFrame e p hand s).links ↔ LinksInRange s.links := setLink_linksInRange s e rfl rfl

@[simp] theorem freeBuffer_linksInRange (e : Engine) (b : Fin 2) (s : State) :
    LinksInRange (freeBuffer e b s).links ↔ LinksInRange s.links := setLink_linksInRange s e rfl rfl

@[simp] theorem advanceCounter_linksInRange (e : Engine) (name : CounterName) (n : Nat) (s : State) :
    LinksInRange (advanceCounter e name n s).links ↔ LinksInRange s.links := by
  unfold advanceCounter
  dsimp only
  split
  · exact setLink_linksInRange s e rfl rfl
  · exact setLink_linksInRange s e rfl rfl

@[simp] theorem storeFault_linksInRange (entry : FaultEntry) (full : Bool) (s : State) :
    LinksInRange (storeFault entry full s).links ↔ LinksInRange s.links := by
  unfold storeFault
  dsimp only
  split
  · refine linksInRange_congr fun e => ?_
    rw [enterSafe_link]
    exact ⟨rfl, rfl⟩
  · rfl

@[simp] theorem passOn_linksInRange (p : Pass) (s : State) :
    LinksInRange (passOn p s).links ↔ LinksInRange s.links := by
  unfold passOn
  split
  · exact handFrame_linksInRange p.engine p.period _ s
  · rfl

@[simp] theorem beginPass_linksInRange (e : Engine) (s : State) :
    LinksInRange (beginPass e s).links ↔ LinksInRange s.links := by
  have muted : ∀ p ts u, LinksInRange (muteTaps e p ts u).links ↔ LinksInRange u.links := fun p ts u =>
    linksInRange_congr fun d => by
      rw [muteTaps_link]
      split
      · next same => rw [same]; exact ⟨rfl, rfl⟩
      · exact ⟨rfl, rfl⟩
  unfold beginPass
  dsimp only
  split
  · simp [muted]
  · simp

@[simp] theorem passTakes_linksInRange (o : ReadOutcome) (s : State) :
    LinksInRange (passTakes o s).links ↔ LinksInRange s.links := by
  unfold passTakes
  split
  · rfl
  · split
    · dsimp only
      split
      · simp [handBlock]
      · rfl
    · rfl

/-- A missed period keeps the count of a link that stays UP below 8, and that of a link become LOST at 8 (R56). -/
theorem Link.InRange.countMissed {k : Link} (h : k.InRange) : k.countMissed.InRange := by
  unfold Link.countMissed
  split
  · next up =>
    split
    · exact { missedUp := fun _ => Nat.zero_lt_succ 7, missedLost := fun lost => (nomatch up.symm.trans lost)
              missedNone := fun _ => rfl }
    · have below := h.missedUp up
      by_cases eighth : k.missed + 1 = 8
      · exact ⟨by simp [eighth], by simp [eighth], by simp [eighth]⟩
      · exact ⟨fun _ => by dsimp only; omega, by simp [eighth], by simp [eighth]⟩
  · exact { h with }
  · exact { h with }
  · exact { h with }

theorem Link.InRange.openFrame {k : Link} (h : k.InRange) (p : PeriodCount) : (k.openFrame p).InRange := by
  unfold Link.openFrame
  split
  · exact h
  · exact { h with }

theorem LinksInRange.boundaryStart {s : State} (h : LinksInRange s.links) (zero : Bool) :
    LinksInRange (Machine.boundaryStart zero s).links := fun e => by
  have cut : ({ s.link e with
      counters := { (s.link e).counters with short := (s.link e).counters.short.advance ((shortEngines s).count e) }
      tx := (s.link e).tx.map fun f => givenFrame s.timer.period s e (cutFrame s e f) } : Link).InRange :=
    { (show (s.link e).InRange from h e) with }
  show ((Machine.boundaryStart zero s).link e).InRange
  rw [boundaryStart_link]
  exact cut.countMissed.openFrame _

/-- The receivers' own work leaves the missed counts (R60). -/
@[simp] theorem receiverEdge_linksInRange (s : State) :
    LinksInRange (receiverEdge s).links ↔ LinksInRange s.links := by
  have edge : ∀ k : Link, k.edge.state = k.state ∧ k.edge.missed = k.missed := fun k => by
    unfold Link.edge
    split
    · exact ⟨rfl, rfl⟩
    · split
      · exact k.timeOut_state
      · exact ⟨rfl, rfl⟩
  refine linksInRange_congr fun e => ?_
  have link : (receiverEdge s).link e = (s.link e).edge := by simp [receiverEdge, State.link]
  rw [link]
  exact edge _

/-! ### The tempo unit (07) -/

theorem Tempo.InRange.advanceBeat {s : State} (h : s.tempo.InRange) : (advanceBeat s).tempo.InRange := by
  have beat := h.beat
  by_cases ends : s.tempo.beatNumber + 1 = s.tempo.beatsPerBar
  · rw [advanceBeat_bar ends]
    exact { h with beat := Nat.zero_lt_of_lt beat }
  · rw [advanceBeat_within ends]
    exact { h with beat := by dsimp only; omega }

theorem Tempo.InRange.advancePosition {s : State} (h : s.tempo.InRange) : (advancePosition s).tempo.InRange := by
  have long := h.interval.1
  have position := h.beatPosition
  by_cases wraps : s.tempo.interval ≤ s.tempo.beatPosition + 256
  · rw [advancePosition_wraps wraps]
    exact Tempo.InRange.advanceBeat { h with beatPosition := by dsimp only; omega }
  · rw [advancePosition_within wraps]
    exact { h with beatPosition := by dsimp only; omega }

theorem Tempo.InRange.tempoEdge {s : State} (h : s.tempo.InRange) : (tempoEdge s).tempo.InRange := by
  rw [tempoEdge_tempo]
  exact { h.advancePosition with }

theorem Tempo.InRange.alignBeat {s : State} (h : s.tempo.InRange) (ib : Nat) : (alignBeat ib s).tempo.InRange := by
  have aligned : ({ s.tempo with beatPosition := 0 } : Tempo).InRange :=
    { h with beatPosition := Nat.zero_lt_of_lt h.beatPosition }
  rcases Nat.lt_or_ge (2 * s.tempo.beatPosition) ib with late | early
  · rw [alignBeat_late late]
    exact aligned
  · rw [alignBeat_early early]
    exact Tempo.InRange.advanceBeat aligned

theorem Tempo.InRange.adopt {s : State} (h : s.tempo.InRange) (v : Nat) : (adopt v s).tempo.InRange := by
  have clamped : 4096 * 256 ≤ clampInterval v ∧ clampInterval v ≤ 524288 * 256 := by
    unfold clampInterval minInterval maxInterval
    omega
  rcases Nat.lt_or_ge s.tempo.beatPosition (clampInterval v) with within | wraps
  · rw [adopt_within within]
    exact { h with interval := clamped, beatPosition := within }
  · rw [adopt_wraps wraps]
    exact Tempo.InRange.advanceBeat { h with interval := clamped, beatPosition := Nat.mod_lt _ (by omega) }

theorem Tempo.InRange.offer {s : State} (h : s.tempo.InRange) (v : Nat) : (offer v s).tempo.InRange := by
  unfold Machine.offer
  split
  · exact h.adopt v
  · exact h

theorem Tempo.InRange.takeSpacing {t : Tempo} (h : t.InRange) (now : SampleCount) (spacing : Nat) :
    (t.takeSpacing now spacing).InRange :=
  { h with window := joinTail_length_le (by decide) h.window spacing }

theorem Tempo.InRange.unphased {t : Tempo} (h : t.InRange) : ({ t with phase := 0 } : Tempo).InRange :=
  { h with phase := Nat.zero_lt_succ 23 }

theorem Tempo.InRange.acquirePulse {s : State} (h : s.tempo.InRange) (spacing : Nat) :
    (acquirePulse spacing s).tempo.InRange := by
  have taken := h.takeSpacing s.timer.samples spacing
  have following : ({ s.tempo.takeSpacing s.timer.samples spacing with ext := .following } : Tempo).InRange :=
    { taken with }
  by_cases full : (joinTail 24 s.tempo.window spacing).length = 24
  · obtain ⟨a, offered, aligned⟩ := acquirePulse_follows full
    have follows : a.tempo.InRange := offered ▸ Tempo.InRange.offer following _
    rw [aligned]
    exact Tempo.InRange.alignBeat follows.unphased _
  · rw [acquirePulse_gathers full]
    exact taken

theorem Tempo.InRange.followPulse {s : State} (h : s.tempo.InRange) (spacing : Nat) :
    (followPulse spacing s).tempo.InRange := by
  obtain ⟨a, offered, counted, aligned⟩ := followPulse_offers (s := s) (spacing := spacing)
  have follows : a.tempo.InRange := offered ▸ Tempo.InRange.offer (h.takeSpacing s.timer.samples spacing) _
  by_cases last : s.tempo.phase = 23
  · rw [aligned last]
    exact Tempo.InRange.alignBeat follows.unphased _
  · have phase := h.phase
    rw [counted last]
    exact { follows with phase := by dsimp only; omega }

theorem Tempo.InRange.measurePulse {s : State} (h : s.tempo.InRange) {take : Nat → State → State}
    (takes : ∀ spacing, (take spacing s).tempo.InRange) : (measurePulse take s).tempo.InRange := by
  unfold Machine.measurePulse
  split
  · exact { h with }
  · split
    · exact h
    · exact takes _

theorem Tempo.InRange.takePulse {s : State} (h : s.tempo.InRange) : (takePulse s).tempo.InRange := by
  unfold Machine.takePulse
  split
  · exact h
  · exact h.measurePulse h.acquirePulse
  · exact h.measurePulse h.followPulse
  · exact { h with window := Nat.zero_le _, phase := Nat.zero_lt_succ 23 }

theorem Tempo.InRange.clearFollower {t : Tempo} (h : t.InRange) (ext : ExtState) : (t.clearFollower ext).InRange :=
  { h with window := Nat.zero_le _, phase := Nat.zero_lt_succ 23 }

theorem Tempo.InRange.restartBeat {s : State} (h : s.tempo.InRange) : (restartBeat s).tempo.InRange :=
  { h with beat := Nat.zero_lt_of_lt h.beat, beatPosition := Nat.zero_lt_of_lt h.beatPosition }

theorem Tempo.InRange.partReset {t : Tempo} (h : t.InRange) : t.partReset.InRange := by
  have emptied : ({ t with tapList := [], lastTap := none, tapSide := false, oscSide := false } : Tempo).InRange :=
    { h with tapList := Nat.zero_le _ }
  unfold Tempo.partReset
  split
  · exact emptied.clearFollower _
  · exact emptied

end Sys2Proof.Machine
end

section
/-! O57. The ranges across a frame judged, a store fault, and the walker's and the passes' reads. -/

namespace Sys2Proof.Machine

/-! ### A frame judged (R55, R56, R64 to R67) -/

/-- A frame judged keeps the missed counts in range: an accepted frame's link is UP with none missed (R55, R56). -/
theorem LinksInRange.judgeFrame {s : State} (h : LinksInRange s.links) (e : Engine) (buffer : Fin 2)
    (bytes : List Byte) (overlong : Bool) : LinksInRange (judgeFrame e buffer bytes overlong s).links := by
  unfold Machine.judgeFrame
  split
  · next status _ =>
    have recorded : LinksInRange (s.setLink e ((s.link e).record status)).links :=
      (setLink_linksInRange s e (x := (s.link e).record status) rfl rfl).mpr h
    unfold refuseFrame countRefusal
    rw [freeBuffer_linksInRange]
    split
    · exact (advanceCounter_linksInRange ..).mpr recorded
    · exact (advanceCounter_linksInRange ..).mpr recorded
    · exact recorded
  · rw [settle_linksInRange]
    obtain ⟨links, -⟩ := acceptFrame_spec e buffer bytes s
    refine fun d => ?_
    show ((acceptFrame e buffer bytes s).link d).InRange
    rw [links]
    split
    · exact { missedUp := fun _ => Nat.zero_lt_succ 7, missedLost := nofun
              missedNone := fun _ => rfl }
    · exact h d

/-- A frame judged. -/
theorem RangesLawful.judgeFrame {s : State} (h : RangesLawful s) (e : Engine) (buffer : Fin 2) (bytes : List Byte)
    (overlong : Bool) : RangesLawful (judgeFrame e buffer bytes overlong s) := by
  have lines : LinesInRange s.size (Machine.judgeFrame e buffer bytes overlong s).lines := fun l => by
    obtain ⟨taken, line⟩ := judgeFrame_line e buffer bytes overlong s l
    show ((Machine.judgeFrame e buffer bytes overlong s).line l).InRange _
    rw [line]
    exact { h.blocks.lines l with }
  have others : BlocksInRange { Machine.judgeFrame e buffer bytes overlong s with lines := s.lines, links := s.links } :=
    h.blocks.same (by simp [blocksView])
  exact BlocksInRange.lawful
    { others with lines := by simpa [State.size] using lines, links := h.blocks.links.judgeFrame e buffer bytes overlong }

/-! ### Store faults and the page pool (R14, R46, R48 to R50, R182) -/

theorem RangesLawful.settle {s : State} (h : RangesLawful s) : RangesLawful (settle s) :=
  h.same (by simp [blocksView])

theorem RangesLawful.walkerTakes {s : State} (h : RangesLawful s) : RangesLawful (walkerTakes s) :=
  h.same (by simp [blocksView])

theorem FaultUnit.InRange.record {u : FaultUnit} (h : u.InRange) (entry : FaultEntry) (full : Bool) :
    (u.record entry full).InRange := by
  obtain ⟨level, later⟩ := h
  refine ⟨Nat.min_le_left _ _, ?_⟩
  unfold FaultUnit.record
  dsimp only
  split
  · exact Nat.min_le_left _ _
  · exact later

theorem RangesLawful.storeFault {s : State} (h : RangesLawful s) (entry : FaultEntry) (full : Bool) :
    RangesLawful (storeFault entry full s) := by
  have others : BlocksInRange { Machine.storeFault entry full s with pool := s.pool, faults := s.faults } :=
    h.blocks.same (by simp [blocksView])
  refine BlocksInRange.lawful { others with waiting := fun w waits => ?_, faults := ?_ }
  · unfold Machine.storeFault at waits
    split at waits
    · obtain ⟨-, -, -, pool, -⟩ :=
        enterSafe_leaves (raise .storeFault { s with faults := s.faults.record entry full })
      rw [pool] at waits
      cases waits
    · exact h.waiting w waits
  · rw [storeFault_faults]
    exact h.blocks.faults.record entry full

theorem RangesLawful.storeRead {s : State} (h : RangesLawful s) (w : Nat) (u : Upset) :
    RangesLawful (storeRead w u s) := by
  refine h.keepStore rfl fun corrected => ?_
  unfold Machine.storeRead
  dsimp only
  split
  · exact Nat.min_le_left _ _
  · exact corrected

/-- A line that takes a page list of 1 to 256 pages is in range (R15). -/
theorem RangesLawful.takePages {s : State} (h : RangesLawful s) (l : LineNo) (writer : Engine) {n : Nat}
    (count : 1 ≤ n ∧ n ≤ 256) (enough : n ≤ s.pool.free.length) : RangesLawful (takePages l writer n s) := by
  obtain ⟨some, most⟩ := count
  have taken : (s.pool.free.take n).length = n := List.length_take_of_le enough
  refine h.keepLines rfl fun lines => lines.setLine l ?_
  exact
    { pages := fun _ => by dsimp only; omega
      headOnRing := fun _ => by dsimp only [Line.length]; omega
      headOfFree := fun _ => rfl, headByBlocks := Nat.zero_mod _, gapRun := Nat.zero_le _ }

/-- The pages may change places: the law looks at the waiting allocation alone. -/
theorem RangesLawful.pool {s : State} (h : RangesLawful s) {p : Pool}
    (waiting : p.waiting = s.pool.waiting ∨ p.waiting = none) : RangesLawful { s with pool := p } := by
  refine h.keepPool rfl fun range w waits => ?_
  rcases waiting with same | none
  · exact range w (same.symm.trans waits)
  · exact nomatch none.symm.trans waits

theorem RangesLawful.lookAtWaiting {s : State} (h : RangesLawful s) : RangesLawful (lookAtWaiting s) := by
  unfold Machine.lookAtWaiting
  split
  · exact h
  · next w waits =>
    split
    · next enough =>
      have unwaiting : RangesLawful { s with pool := { s.pool with waiting := none } } := h.pool (.inr rfl)
      exact (unwaiting.takePages w.line w.writer (h.waiting w waits) enough).same rfl
    · exact h

theorem RangesLawful.lookAtShortage {s : State} (h : RangesLawful s) : RangesLawful (lookAtShortage s) := by
  have ended : ∀ {s : State} (code : ResultCode), RangesLawful s → RangesLawful (endWaiting code s) := fun code h =>
    h.keepPool (by simp [blocksView]) fun _ _ waits => by simp at waits
  unfold Machine.lookAtShortage
  split
  · exact h
  · split
    · refine ended .noSpace ?_
      split
      · exact h
      · exact h.same rfl
    · exact h

theorem RangesLawful.verifyPasses {s : State} (h : RangesLawful s) (k : Walk) : RangesLawful (verifyPasses k s) := by
  unfold Machine.verifyPasses
  split
  · exact h.pool (.inl rfl)
  · have freed : RangesLawful { s with pool := { s.pool with free := s.pool.free ++ [k.page], walker := none } } :=
      h.pool (.inl rfl)
    exact freed.lookAtWaiting.walkerTakes

theorem RangesLawful.verifyFails {s : State} (h : RangesLawful s) (k : Walk) : RangesLawful (verifyFails k s) := by
  unfold Machine.verifyFails
  split
  · exact h
  · split
    · have retired : RangesLawful { s with pool :=
          { s.pool with retired := insertPage k.page s.pool.retired, walker := none } } := h.pool (.inl rfl)
      exact (retired.storeFault _ false).lookAtShortage.walkerTakes
    · have returned : RangesLawful { s with pool :=
          { s.pool with dirty := s.pool.dirty ++ [k.page], walker := none } } := h.pool (.inl rfl)
      exact (returned.storeFault _ true).walkerTakes

theorem RangesLawful.completeVerify {s : State} (h : RangesLawful s) (k : Walk) (u : Upset) :
    RangesLawful (completeVerify k u s) := by
  have read : RangesLawful (endAccess false (Machine.storeRead (wordOf k.page k.pointer) u s)) :=
    (h.storeRead (wordOf k.page k.pointer) u).same rfl
  unfold Machine.completeVerify
  dsimp only
  split
  · exact (read.verifyPasses k).settle
  · exact (read.verifyFails k).settle

theorem RangesLawful.readFault {s : State} (h : RangesLawful s) (l : LineNo) (e : Engine) (w : Nat) (o : ReadOutcome) :
    RangesLawful (readFault l e w o s) :=
  readFault_keeps (fun _ entry full lawful => lawful.storeFault entry full) l e w o h

end Sys2Proof.Machine
end

section
/-! O57. The ranges across the commands, the counted edges and the resets, and so across every step. -/

namespace Sys2Proof.Machine

/-! ### The commands -/

theorem RangesLawful.ownAllocLine {s : State} (h : RangesLawful s) (args : List Byte) :
    RangesLawful (ownAllocLine args s).2 := by
  unfold Machine.ownAllocLine
  dsimp only
  split
  · exact h
  · next inRange =>
    split
    · exact h
    · unfold allocate
      split
      · next enough => exact h.takePages _ _ (by omega) enough
      · split
        · cases s.pool.dirty.isEmpty && s.pool.walker.isNone with
          | false => exact h.same (t := raise .poolExhausted s) rfl
          | true => exact h
        · refine h.keepPool rfl fun _ w waits => ?_
          obtain rfl := Option.some.inj waits
          dsimp only
          omega

theorem RangesLawful.freeLine {s : State} (h : RangesLawful s) (l : LineNo) : RangesLawful (freeLine l s) := by
  rw [freeLine_eq]
  have released : RangesLawful (lineReleased l s) := by
    refine h.keepLines (by simp [blocksView, lineReleased, lineWithdrawn]) fun lines m => ?_
    show ((lineReleased l s).line m).InRange _
    rw [lineReleased_line, State.size, (lineReleased_frame l s).1]
    split
    · exact .of_free rfl rfl (Nat.zero_le _)
    · exact lines m
  exact released.settle

theorem RangesLawful.ownSetWriter {s : State} (h : RangesLawful s) (args : List Byte) :
    RangesLawful (ownSetWriter args s).2 := by
  unfold Machine.ownSetWriter
  dsimp only
  split
  · exact h
  · split
    · exact h
    · exact h.keepLines rfl fun lines => lines.setLine _ { lines _ with }

/-- A link off or newly on has missed nothing (R56, R57). -/
theorem RangesLawful.ownSetLink {s : State} (h : RangesLawful s) (args : List Byte) :
    RangesLawful (ownSetLink args s).2 := by
  rcases ownSetLink_leaves args s with stands | ⟨e, off⟩ | ⟨e, -, on⟩
  · rw [stands]
    exact h
  · rw [off, linkOff_eq]
    have withdrawn : RangesLawful (linkWithdrawn e s) := by
      refine h.keepLinks (by simp [blocksView]) fun links d => ?_
      show ((linkWithdrawn e s).link d).InRange
      rw [linkWithdrawn_link]
      split
      · exact { missedUp := nofun, missedLost := nofun, missedNone := fun _ => rfl }
      · exact links d
    exact withdrawn.settle
  · rw [on]
    exact h.keepLinks rfl fun links => links.setLink e
      { missedUp := nofun, missedLost := nofun, missedNone := fun _ => rfl }

theorem RangesLawful.ownReadCounters {s : State} (h : RangesLawful s) (args : List Byte) :
    RangesLawful (ownReadCounters args s).2 := by
  rcases ownReadCounters_leaves args s with stands | ⟨e, c, counted⟩
  · rw [stands]
    exact h
  · rw [counted]
    exact h.keepLinks rfl (setLink_linksInRange s e (x := { s.link e with counters := c }) rfl rfl).mpr

theorem RangesLawful.ownSetPeriod {s : State} (h : RangesLawful s) (args : List Byte) :
    RangesLawful (ownSetPeriod args s).2 := by
  unfold Machine.ownSetPeriod
  split
  · exact h
  · split
    · exact h.keepTimer rfl rfl fun timer => { timer with }
    · exact h.keepTimer rfl rfl fun timer => { timer with }

/-! ### The commands of the tempo unit (R126, R131, R133, R145, R152) -/

theorem RangesLawful.ownSetTempo {s : State} (h : RangesLawful s) (args : List Byte) :
    RangesLawful (ownSetTempo args s).2 := by
  unfold Machine.ownSetTempo
  split
  · exact h
  · exact h.keepTempo (by simp [blocksView]) fun tempo => tempo.adopt _

theorem RangesLawful.ownTapTempo {s : State} (h : RangesLawful s) (args : List Byte) :
    RangesLawful (ownTapTempo args s).2 := by
  have restarted : RangesLawful (restartTaps s).2 := by
    unfold restartTaps
    refine h.keepTempo rfl fun tempo => Tempo.InRange.restartBeat ?_
    exact { tempo with tapList := Nat.zero_le _ }
  have counted : ∀ span, RangesLawful (countTap span s).2 := fun span => by
    unfold countTap
    refine h.keepTempo (by simp [blocksView]) fun tempo => Tempo.InRange.offer (Tempo.InRange.alignBeat ?_ _) _
    exact { tempo with tapList := joinTail_length_le (by decide) tempo.tapList span }
  unfold Machine.ownTapTempo
  split
  · exact h
  · split
    · exact restarted
    · dsimp only
      split
      · exact h
      · split
        · exact restarted
        · exact counted _

theorem RangesLawful.ownSetTempoSource {s : State} (h : RangesLawful s) (args : List Byte) :
    RangesLawful (ownSetTempoSource args s).2 := by
  have sourced : ∀ source ext, RangesLawful { s with tempo :=
      { s.tempo.clearFollower ext with source := source, tapList := [], lastTap := none } } := fun _ ext =>
    h.keepTempo rfl fun tempo => { tempo.clearFollower ext with tapList := Nat.zero_le _ }
  unfold Machine.ownSetTempoSource
  split
  · exact h
  · split
    · exact h
    · split
      · exact sourced _ _
      · exact sourced _ _

theorem RangesLawful.ownSetMeter {s : State} (h : RangesLawful s) (args : List Byte) :
    RangesLawful (ownSetMeter args s).2 := by
  unfold Machine.ownSetMeter
  dsimp only
  split
  · exact h
  · next inRange =>
    have meter : 0 < argByte args 0 ∧ argByte args 0 ≤ 16 := by omega
    exact h.keepTempo rfl fun tempo => { tempo with beat := Nat.mod_lt _ meter.1, meter := meter.2 }

theorem RangesLawful.ownPopScene {s : State} (h : RangesLawful s) (args : List Byte) :
    RangesLawful (ownPopScene args s).2 := by
  unfold Machine.ownPopScene
  split
  · exact h
  · next entry rest stack =>
    have dropped : RangesLawful { s with scenes := rest } := h.keepScenes rfl fun depth => by
      rw [stack, List.length_cons] at depth
      exact Nat.le_of_succ_le depth
    have judged : ∀ (p : PopProgress) (t : TapNo), RangesLawful p.state → RangesLawful (p.judge entry t).state :=
      fun p t lawful => by
        unfold PopProgress.judge
        dsimp only
        split
        · exact lawful
        · split
          · exact lawful.same (t := stageEdit t .stop p.state) rfl
          · split
            · exact lawful
            · exact lawful.same (t := stageEdit t _ p.state) rfl
    have walked : RangesLawful (popTaps entry { s with scenes := rest }).state :=
      List.foldlRecOn (motive := fun p : PopProgress => RangesLawful p.state) allTaps _ dropped fun p hp t _ =>
        judged p t hp
    unfold popTempo
    dsimp only
    split
    · exact walked.keepTempo (by simp [blocksView]) fun tempo => tempo.adopt _
    · exact walked

/-- Every owner keeps the ranges. -/
theorem Owner.rangesLawful {code : Byte} {owner : List Byte → State → Reply × State} (owns : Owner code owner)
    (args : List Byte) (s : State) (h : RangesLawful s) : RangesLawful (owner args s).2 := by
  cases owns with
  | setPeriod => exact h.ownSetPeriod args
  | allocLine => exact h.ownAllocLine args
  | freeLine =>
    rcases ownFreeLine_leaves args s with stands | ⟨l, freed⟩
    · rw [stands]
      exact h
    · rw [freed]
      exact h.freeLine l
  | setWriter => exact h.ownSetWriter args
  | readLine => unfold ownReadLine; split <;> exact h
  | readPool => unfold ownReadPool; split <;> exact h
  | setLink => exact h.ownSetLink args
  | readLink => unfold ownReadLink; split <;> exact h
  | readCounters => exact h.ownReadCounters args
  | setTap =>
    unfold ownSetTap judgeSet
    dsimp only
    split
    · exact h
    · split
      · exact h
      · exact h.same rfl
  | clearTap =>
    unfold ownClearTap
    split
    · exact h
    · exact h.same rfl
  | readTap | saveTap => unfold ownReadTap; split <;> exact h
  | setTempo => exact h.ownSetTempo args
  | tapTempo => exact h.ownTapTempo args
  | setTempoSource => exact h.ownSetTempoSource args
  | setMeter => exact h.ownSetMeter args
  | resync =>
    unfold ownResync
    exact h.keepTempo rfl fun tempo => Tempo.InRange.restartBeat tempo.unphased
  | setOsc =>
    unfold ownSetOsc
    split
    · exact h
    · exact h.same rfl
  | readOsc => unfold ownReadOsc; split <;> exact h
  | pushScene =>
    unfold ownPushScene
    exact h.keepScenes rfl fun _ => List.length_take_le 4 _
  | popScene => exact h.ownPopScene args
  | dropScene =>
    unfold ownDropScene
    split
    · exact h
    · next stack => exact h.keepScenes rfl fun depth => by rw [stack] at depth; exact Nat.le_of_succ_le depth
  | ackNotice =>
    unfold ownAckNotice
    exact h.same rfl
  | setMask =>
    unfold ownSetMask
    exact h.same rfl
  | clearFault =>
    unfold ownClearFault
    exact h.keepFaults rfl fun _ => ⟨Nat.zero_le _, Nat.zero_le _⟩
  | readClock | readTempo | readScenes | readFault => exact h

theorem RangesLawful.owned {s : State} (h : RangesLawful s) {code : Byte}
    {owner : List Byte → State → Reply × State} (owns : Owner code owner) (record : CommandRecord) :
    RangesLawful (writeCommand code owner record s) :=
  writeCommand_preserves (fun _ _ _ lawful => lawful.same rfl) owns.rangesLawful record h

@[simp] theorem storeWrite_corrected (w : Nat) (v : Sample) (s : State) :
    (storeWrite w v s).store.corrected = s.store.corrected := rfl

/-! ### Counted edges (R1, R3, R9) -/

theorem RangesLawful.takePulse {s : State} (h : RangesLawful s) : RangesLawful (takePulse s) :=
  h.keepTempo (by simp [blocksView]) Tempo.InRange.takePulse

theorem RangesLawful.takeAdoption {s : State} (h : RangesLawful s) (a : Adoption) : RangesLawful (takeAdoption s a) := by
  cases a with
  | setTempo record => exact h.owned .setTempo record
  | tapTempo record => exact h.owned .tapTempo record
  | popScene record => exact h.owned .popScene record
  | tempoPulse => exact h.takePulse

theorem RangesLawful.boundaryStart {s : State} (h : RangesLawful s) (zero : Bool) :
    RangesLawful (boundaryStart zero s) := by
  obtain ⟨timer, lines, links, waiting, refresh, corrected, faults, scenes, tempo⟩ := h.blocks
  refine BlocksInRange.lawful
    { timer := ?_, lines := fun l => ?_, links := links.boundaryStart zero, waiting := by simpa using waiting
      refresh := by simpa using refresh, corrected := by simpa using corrected, faults := by simpa using faults
      scenes := by simpa using scenes, tempo := by simpa using tempo }
  · rw [boundaryStart_timer]
    exact { timer with edge := (sizeAfter s).toNat_pos }
  · rw [boundaryStart_size]
    show ((Machine.boundaryStart zero s).line l).InRange _
    rw [boundaryStart_line]
    exact lines.boundary zero l

theorem RangesLawful.readersBoundary {s : State} (h : RangesLawful s) (order : EdgeOrder) (resized : Bool) :
    RangesLawful (readersBoundary order resized s) := by
  have adopted : ∀ {u : State}, RangesLawful u → RangesLawful (adoptBetween order.between u) := fun lawful =>
    List.foldlRecOn (motive := RangesLawful) order.between _ lawful fun _ lawful a _ => lawful.takeAdoption a
  have bank : ∀ {u : State}, RangesLawful u → RangesLawful (oscBoundary resized u) := fun lawful =>
    lawful.keepTempo (by simp [blocksView]) fun tempo => { tempo with }
  have taps : ∀ {u : State}, RangesLawful u → RangesLawful (tapBoundary u) := fun lawful =>
    lawful.keepTempo (by simp [blocksView]) fun tempo => { tempo with }
  unfold Machine.readersBoundary
  split
  · exact taps (adopted (bank h))
  · exact bank (adopted (taps h))

theorem RangesLawful.boundaryAround {s : State} (h : RangesLawful s) (order : EdgeOrder) (zero : Bool) :
    RangesLawful (boundaryAround order zero s) := by
  have read := (h.boundaryStart zero).readersBoundary order (resizes s)
  unfold Machine.boundaryAround
  exact read.same (by simp [blocksView])

theorem RangesLawful.tempoEdge {s : State} (h : RangesLawful s) : RangesLawful (tempoEdge s) :=
  h.keepTempo (by simp [blocksView]) Tempo.InRange.tempoEdge

theorem RangesLawful.receiverEdge {s : State} (h : RangesLawful s) : RangesLawful (receiverEdge s) :=
  h.same (by simp [blocksView])

/-- A timer of the same period size (R9). -/
theorem RangesLawful.clock {s : State} (h : RangesLawful s) {t : Timer} (timer : t.InRange)
    (size : t.size = s.timer.size) : RangesLawful { s with timer := t } :=
  h.keepTimer rfl size fun _ => timer

theorem Timer.measureOffer_size (t : Timer) (reading : Nat) : (t.measureOffer reading).size = t.size := by
  rw [Timer.measureOffer_eq]

theorem RangesLawful.relock {s : State} (h : RangesLawful s) (reading : Nat) : RangesLawful (relock reading s) := by
  have locked : RangesLawful { s with timer := s.timer.lock reading } := h.clock (h.blocks.timer.lock reading) rfl
  unfold Machine.relock
  exact locked.same rfl

theorem RangesLawful.countSample {s : State} (h : RangesLawful s) : RangesLawful (countSample s) :=
  h.clock { h.blocks.timer with } rfl

theorem RangesLawful.countEdge {s : State} (h : RangesLawful s) (zero : Bool) (order : EdgeOrder) :
    RangesLawful (countEdge zero order s) := by
  unfold Machine.countEdge
  split
  · exact h.boundaryAround order zero
  · refine h.keepTimer rfl rfl fun timer => { timer with edge := ?_ }
    have size := s.timer.size.toNat_pos
    unfold edgeEnds State.size
    dsimp only
    split
    · exact size
    · next within =>
      rw [decide_eq_true_iff] at within
      omega

theorem RangesLawful.countedEdge {s : State} (h : RangesLawful s) (zero : Bool) (order : EdgeOrder) :
    RangesLawful (countedEdge zero order s) := by
  unfold Machine.countedEdge edgeAfter edgeBefore
  cases order.tempoAfter <;> cases order.receiversAfter
  · exact h.countSample.tempoEdge.receiverEdge.countEdge zero order
  · exact (h.countSample.tempoEdge.countEdge zero order).receiverEdge
  · exact (h.countSample.receiverEdge.countEdge zero order).tempoEdge
  · exact (h.countSample.countEdge zero order).tempoEdge.receiverEdge

/-! ### Resets (R8, R30, R79) -/

theorem resetLine_rangesLawful (s : State) : RangesLawful (resetLine s) := by
  have timer : Timer.reset.InRange := ⟨by decide, by decide, by decide⟩
  have tempo : Tempo.reset.InRange :=
    ⟨by decide, by decide, by decide, by decide, by decide, by decide, by decide⟩
  refine (rangesLawful_iff _).mpr
    { timer, tempo, lines := fun l => ?_, links := fun e => ?_, waiting := fun _ waits => (nomatch waits)
      refresh := ⟨Nat.zero_lt_succ _, Nat.zero_le _⟩, corrected := Nat.zero_le _
      faults := ⟨Nat.zero_le _, Nat.zero_le _⟩, scenes := Nat.zero_le _ }
  · have reset : (resetLine s).lines[l.val] = Line.reset := by simp [resetLine, State.reset]
    rw [reset]
    exact .of_free rfl rfl (Nat.zero_le _)
  · have reset : (resetLine s).links[e.val] = Link.reset := by simp [resetLine, State.reset]
    rw [reset]
    exact { missedUp := nofun, missedLost := nofun, missedNone := fun _ => rfl }

theorem Link.InRange.partReset (k : Link) : k.partReset.InRange where
  missedUp up := by
    unfold Link.partReset at up
    split at up <;> cases up
  missedLost lost := by
    unfold Link.partReset at lost
    split at lost <;> cases lost
  missedNone _ := rfl

/-- The output frames are not looked at. -/
theorem Link.InRange.resent {k : Link} (h : k.InRange) (tx : List OutFrame) : ({ k with tx := tx } : Link).InRange :=
  { h with }

theorem RangesLawful.partReset {s : State} (h : RangesLawful s) : RangesLawful (partReset s) := by
  have blocks : RangesLawful (blocksReset s) := by
    obtain ⟨timer, store, refresh, -⟩ := blocksReset_stands s
    obtain ⟨-, -, -, links, -, -, -, scenes⟩ := blocksReset_tables s
    obtain ⟨tempo, faults, -, pool⟩ := blocksReset_units s
    refine BlocksInRange.lawful
      { timer := ?_, lines := fun l => ?_, links := fun e => ?_, waiting := ?_, refresh := ?_, corrected := ?_
        faults := ?_, scenes := ?_, tempo := ?_ }
    · rw [timer]
      exact h.blocks.timer
    · have line : (blocksReset s).lines[l.val] = (s.line l).partReset := by simp [State.line]
      rw [line]
      exact .of_free rfl rfl (Nat.zero_le _)
    · show ((blocksReset s).link e).InRange
      obtain ⟨onLane, link⟩ := resetLinks_link (resetLines s) e
      rw [State.link_of_links links, link]
      exact (Link.InRange.partReset _).resent _
    · rw [pool]
      exact fun _ waits => nomatch waits
    · rw [refresh]
      exact h.blocks.refresh
    · rw [store]
      exact h.blocks.corrected
    · rw [faults]
      exact ⟨Nat.zero_le _, Nat.zero_le _⟩
    · rw [scenes]
      exact Nat.zero_le _
    · rw [tempo]
      exact h.blocks.tempo.partReset
  unfold Machine.partReset
  rw [resetBlocks_eq]
  exact blocks.walkerTakes.settle.same rfl

/-! ### Every step -/

theorem Leaves.rangesLawful {s t : State} (h : RangesLawful s) (left : Leaves s t) : RangesLawful t := by
  cases left with
  | stands => exact h
  | reset => exact resetLine_rangesLawful s
  | edgeUnlocked reading =>
    have offered := h.blocks.timer.measureOffer reading
    have size := s.timer.measureOffer_size reading
    refine RangesLawful.tempoEdge (RangesLawful.countSample ?_)
    split
    · exact h.clock (offered.lock reading) size
    · exact h.clock offered size
  | edgeLocked reading order =>
    have measured : RangesLawful { s with timer := s.timer.measureLocked reading } :=
      h.clock (h.blocks.timer.measureLocked reading) rfl
    exact measured.countedEdge _ order
  | edgeFlywheel reading =>
    exact h.clock { h.blocks.timer.measureOffer reading with } (s.timer.measureOffer_size reading)
  | loseClock reading order =>
    have lost : RangesLawful { s with timer := { s.timer with
        wclk := .flywheel, relockRun := [], relockReady := false, lossTimer := none
        flyTimer := some (reading + s.timer.m) } } :=
      h.clock { h.blocks.timer with relockRun := Nat.zero_le _ } rfl
    unfold Machine.loseClock
    exact (lost.countedEdge false order).same rfl
  | turnFlywheel reading order =>
    have armed : RangesLawful { s with timer := { s.timer with flyTimer := some (reading + s.timer.m) } } :=
      h.clock { h.blocks.timer with } rfl
    have counted := armed.countedEdge false order
    unfold Machine.turnFlywheel
    dsimp only
    split
    · exact counted.relock reading
    · exact counted
  | link e x state missed => exact h.keepLinks rfl (setLink_linksInRange s e state missed).mpr
  | judged e buffer bytes overlong =>
    have hunting : RangesLawful (s.setLink e { s.link e with receiver := .hunt }) :=
      h.keepLinks rfl (setLink_linksInRange s e (x := { s.link e with receiver := .hunt }) rfl rfl).mpr
    exact hunting.judgeFrame e buffer bytes overlong
  | written w v => exact h.same (by simp [blocksView])
  | commitAdvanced w v => exact h.same (by simp [blocksView])
  | fillAdvanced w fills => exact h.same (by simp [blocksView])
  | passStarted e => exact h.same (by simp [blocksView])
  | passRead l e w u o =>
    have read : RangesLawful (endAccess false (Machine.storeRead w u s)) := (h.storeRead w u).same rfl
    exact (read.readFault l e w o).settle
  | passTaken l e w u o =>
    have read : RangesLawful (endAccess false (Machine.storeRead w u s)) := (h.storeRead w u).same rfl
    exact (read.readFault l e w o).same (by simp [blocksView])
  | refreshExpired below arbiter =>
    have expired : RangesLawful { s with refresh := s.refresh.expire, arbiter := arbiter } :=
      h.keepRefresh rfl fun refresh => ⟨refresh.1, below⟩
    exact expired.settle
  | refreshLate entry => exact (h.storeFault entry false).settle
  | refreshed =>
    have completed : RangesLawful { s with refresh := s.refresh.complete } :=
      h.keepRefresh rfl fun refresh => ⟨Nat.mod_lt _ (by decide), Nat.le_trans (Nat.sub_le _ _) refresh.2⟩
    exact completed.same (by simp [blocksView])
  | cleared k walks =>
    have stored : RangesLawful (endAccess false (storeWrite (wordOf k.page k.pointer) 0 s)) := h.same rfl
    have walked : RangesLawful (setWalker (some k.cleared)
        (endAccess false (storeWrite (wordOf k.page k.pointer) 0 s))) := stored.pool (.inl rfl)
    exact walked.settle
  | verified k u walks => exact h.completeVerify k u
  | pulse => exact h.takePulse
  | pulseLost => exact h.keepTempo (t := loseTempoClock s) rfl fun tempo => { tempo with }
  | port p held => exact h.same rfl
  | refused code result n free => exact h.same rfl
  | command owns record => exact h.owned owns record
  | partReset n =>
    have zeros : RangesLawful (zerosOut n s) := h.same rfl
    exact zeros.partReset

end Sys2Proof.Machine
end

section
/-! O55 and O57. The store's own law, and what both statements come to. -/

namespace Sys2Proof.Machine

/-! ### The store (R31 to R36) -/

theorem StoreLawful.same {s t : State} (h : StoreLawful s) (cells : t.store.cells = s.store.cells := by simp) :
    StoreLawful t := by
  unfold StoreLawful
  rw [cells]
  exact h

/-- Every WRITE_COMMAND leaves the store. -/
theorem Owner.leaves_store {code : Byte} {owner : List Byte → State → Reply × State} (owns : Owner code owner)
    (args : List Byte) (s : State) : (owner args s).2.store = s.store := by
  by_cases other : code ≠ 0x10 ∧ code ≠ 0x11 ∧ code ≠ 0x12
  · exact congrArg Prod.fst (owns.leaves_core other args s)
  · cases owns with
    | allocLine =>
      unfold ownAllocLine allocate refuse
      dsimp only
      (repeat' split) <;> rfl
    | freeLine =>
      rcases ownFreeLine_leaves args s with stands | ⟨l, freed⟩
      · rw [stands]
      · simp [freed]
    | setWriter =>
      unfold ownSetWriter
      dsimp only
      (repeat' split) <;> rfl
    | _ => exact absurd (by decide) other

theorem partReset_store (s : State) : (partReset s).store = s.store := by
  unfold partReset
  rw [resetBlocks_eq]
  simp

theorem Leaves.storeLawful {s t : State} (h : StoreLawful s) (left : Leaves s t) : StoreLawful t := by
  have stored : ∀ w v, StoreLawful (storeWrite w v s) := fun _ _ => storeWrite_wf h
  have read : ∀ w u, StoreLawful (storeRead w u s) := fun _ _ => storeRead_wf h
  cases left with
  | reset => exact h
  | written w v => exact (stored w v).same
  | commitAdvanced w v => exact (stored w v).same
  | fillAdvanced w fills => exact (stored w 0).same
  | passRead l e w u o => exact (read w u).same
  | passTaken l e w u o => exact (read w u).same
  | cleared k walks => exact (stored (wordOf k.page k.pointer) 0).same
  | verified k u walks =>
    refine (read (wordOf k.page k.pointer) u).same ?_
    unfold completeVerify
    dsimp only
    split
    · simp
    · simp
  | command owns record =>
    exact h.same (congrArg Store.cells (writeCommand_keeps State.store (fun _ _ _ => rfl) owns.leaves_store record s))
  | partReset n => exact h.same (congrArg Store.cells (partReset_store _))
  | _ => exact h.same

/-! ### What is settled -/

/-- Settles O55: the reset line's laws, at the reset state, where the reset line changes nothing. -/
theorem resetKeepsTheLaws : Obligations.ResetKeepsTheLaws := by
  have again : resetLine State.reset = State.reset := rfl
  have tap : ∀ t, State.reset.tap t = Tap.reset := fun t => by simp [State.reset, State.tap]
  exact ⟨again ▸ resetLine_pagesLawful State.reset, reset_store_wf, again ▸ resetLine_rangesLawful State.reset,
    again ▸ resetLine_tapsLawful State.reset, again ▸ resetLine_commitsLawful State.reset, .of_empty rfl,
    .of_reset tap, again ▸ resetLine_startLawful State.reset⟩

/-- Settles O57: each case of a command keeps both laws. -/
theorem everyStepKeepsTheStoreAndTheRanges : Obligations.EveryStepKeepsTheStoreAndTheRanges :=
  ⟨step_keeps (fun _ _ h => h) fun _ _ h left => left.storeLawful h,
    step_keeps (fun _ _ h => h.same rfl) fun _ _ h left => left.rangesLawful h⟩

end Sys2Proof.Machine
end

section
/-! O42. Refresh (R36, R39 to R41): what the timer's expiry and an access's completion come to. -/

namespace Sys2Proof.Machine

/-- Below 8 the armed timer's expiry adds one to the backlog, and one that becomes urgent goes first next (R36, R39). -/
theorem exec_refreshTimerExpiry_below {s : State} (armed : s.refresh.timerArmed = true)
    (below : s.refresh.backlog < 8) : exec .refreshTimerExpiry s = .next (settle { s with
      refresh := s.refresh.expire
      arbiter := { s.arbiter with
        urgentFirst := s.arbiter.urgentFirst || (!s.refresh.urgent && s.refresh.expire.urgent) } }) := by
  show execRefreshTimerExpiry s = _
  unfold execRefreshTimerExpiry
  rw [if_neg (by simp [armed]), if_pos below]

/-- At 8 it is a REFRESH fault (R41). -/
theorem exec_refreshTimerExpiry_late {s : State} (armed : s.refresh.timerArmed = true)
    (late : 8 ≤ s.refresh.backlog) :
    exec .refreshTimerExpiry s = .next (settle (storeFault (refreshFaultEntry s) false s)) := by
  show execRefreshTimerExpiry s = _
  unfold execRefreshTimerExpiry
  rw [if_neg (by simp [armed]), if_neg (Nat.not_lt.mpr late)]

theorem exec_refreshAccessComplete {s : State} (access : s.arbiter.inService = some .refresh) :
    exec .refreshAccessComplete s = .next (settle (endAccess true { s with refresh := s.refresh.complete })) := by
  show execRefreshAccessComplete s = _
  rw [execRefreshAccessComplete, access]

/-- A row is half a page: an even row its first half, an odd row its second (R41). -/
theorem refreshFaultEntry_offset (s : State) : (refreshFaultEntry s).offset = s.refresh.row % 2 * 2048 := by
  unfold refreshFaultEntry
  rcases Nat.mod_two_eq_zero_or_one s.refresh.row with even | odd
  · simp [even]
  · simp [odd]

/-- A backlog that becomes urgent was not urgent and has reached 4 (R36). -/
theorem Refresh.expire_becomes (r : Refresh) :
    (!r.urgent && r.expire.urgent) = (!r.urgent && decide (4 ≤ r.backlog + 1)) := by
  unfold Refresh.expire
  cases r.urgent
  · rfl
  · rfl

/-- Settles O42: the expiry below 8 and at 8, and the access. -/
theorem refreshKeepsItsBacklog : Obligations.RefreshKeepsItsBacklog := by
  refine fun s => ⟨fun armed below => ?_, fun armed late => ?_, fun access => exec_refreshAccessComplete access⟩
  · rw [exec_refreshTimerExpiry_below armed below, Refresh.expire_becomes]
    exact ⟨_, rfl, rfl⟩
  · exact ⟨_, exec_refreshTimerExpiry_late armed late, rfl, rfl, refreshFaultEntry_offset s, rfl, rfl⟩

end Sys2Proof.Machine
end

section
/-! O43. The scrub walker (R31, R44 to R46): a CLEAR write, and a VERIFY read that passes, fails and is counted, or
enters SAFE. -/

namespace Sys2Proof.Machine

/-! ### What the pool does not look for -/

/-- In SAFE the walker takes no page (R47). -/
theorem walkerTakes_safe {s : State} (safe : s.faults.mode = .safe) : walkerTakes s = s :=
  if_pos (by simp [State.inSafe, safe])

theorem lookAtWaiting_stands {s : State} (short : ∀ x, s.pool.waiting = some x → s.pool.free.length < x.count) :
    lookAtWaiting s = s := by
  unfold lookAtWaiting
  split
  · rfl
  · next w waits => exact if_neg (Nat.not_le.mpr (short w waits))

theorem lookAtShortage_stands {s : State} (reach : ∀ x, s.pool.waiting = some x → x.count ≤ s.pool.reachable) :
    lookAtShortage s = s := by
  unfold lookAtShortage
  split
  · rfl
  · next w waits => exact if_neg (Nat.not_lt.mpr (reach w waits))

/-- After the fourth fault the part is in SAFE and no allocation waits (R185). -/
theorem storeFault_enters_idle {s : State} (enters : s.faults.mode = .normal ∧ 3 ≤ s.faults.level) (entry : FaultEntry)
    (full : Bool) : (storeFault entry full s).faults.mode = .safe ∧ (storeFault entry full s).pool.waiting = none := by
  refine ⟨?_, ?_⟩
  · rw [storeFault_faults, if_pos enters]
  · obtain ⟨-, -, -, pool, -⟩ :=
      enterSafe_leaves (raise .storeFault { s with faults := s.faults.record entry full })
    rw [storeFault_enters enters, pool]

/-! ### A word passed (R43, R45) -/

section
variable {s : State} {k : Walk}

/-- The page of a passed last word joins the free list, and an allocation it does not serve goes on waiting (R49). -/
theorem verifyPasses_last (last : 4096 ≤ k.pointer + 1)
    (short : ∀ x, s.pool.waiting = some x → s.pool.free.length + 1 < x.count) : verifyPasses k s =
      walkerTakes { s with pool := { s.pool with free := s.pool.free ++ [k.page], walker := none } } := by
  unfold verifyPasses
  rw [if_neg (Nat.not_lt.mpr last)]
  refine congrArg walkerTakes (lookAtWaiting_stands fun x waits => ?_)
  simpa using short x waits

/-! ### A word failed (R45, R46) -/

theorem verifyFails_safe (safe : s.faults.mode = .safe) : verifyFails k s = s := if_pos (by simp [State.inSafe, safe])

/-- With room the page is retired: a store fault, after which the pool looks at the waiting allocation (R46, R50). -/
theorem verifyFails_retires (normal : s.faults.mode = .normal) (room : s.pool.retired.length < 64) :
    verifyFails k s = walkerTakes (lookAtShortage (storeFault (verifyFaultEntry k) false { s with pool :=
      { s.pool with
        retired := s.pool.retired.takeWhile (· < k.page) ++ k.page :: s.pool.retired.dropWhile (· < k.page)
        walker := none } })) := by
  unfold verifyFails
  rw [if_neg (by simp [State.inSafe, normal]), if_pos room, insertPage_eq]

/-- With none it goes back to the dirty queue's tail with the RETIRE_FULL note (R46). -/
theorem verifyFails_returns (normal : s.faults.mode = .normal) (full : 64 ≤ s.pool.retired.length) :
    verifyFails k s = walkerTakes (storeFault (verifyFaultEntry k) true { s with pool :=
      { s.pool with dirty := s.pool.dirty ++ [k.page], walker := none } }) := by
  unfold verifyFails
  rw [if_neg (by simp [State.inSafe, normal]), if_neg (Nat.not_lt.mpr full)]

end

/-! ### The CLEAR write (R31, R44) -/

theorem exec_clearWrite {s : State} {k : Walk} (clears : scrubInService .clear s = some k) :
    exec .scrubClearWriteComplete s =
      .next (settle (setWalker (some k.cleared) (endAccess false (storeWrite (wordOf k.page k.pointer) 0 s)))) := by
  show execScrubClearWriteComplete s = _
  rw [execScrubClearWriteComplete, clears]

/-- Settles O43: the CLEAR write, then the VERIFY read by what it finds. -/
theorem scrubClearsAndVerifiesWordByWord : Obligations.ScrubClearsAndVerifiesWordByWord := by
  refine ⟨fun s k wf access walker phase => ?clear, fun s k upset access walker phase => ?verify⟩
  case clear =>
    intro next
    have cleared : next = k.cleared := rfl
    obtain ⟨zero, others⟩ := storeWrite_cells wf (wordOf k.page k.pointer) 0
    exact ⟨_, exec_clearWrite (scrubInService_eq access walker phase), cleared ▸ rfl, zero, others, rfl⟩
  case verify =>
    intro w passes read completed entry retiring returning onward faulted
    have run : completed = .next (completeVerify k upset s) :=
      (exec_verifyRead upset (scrubInService_eq access walker phase)).1
    have passed : (readOutcome w upset s).passes = true ↔ passes := ReadOutcome.passes_iff _
    have ofPass : passes → completed = .next (settle (verifyPasses k read)) := fun pass =>
      run.trans (congrArg _ (completeVerify_passes (passed.mpr pass)))
    have ofFail : ¬passes → completed = .next (settle (verifyFails k read)) := fun fail =>
      run.trans (congrArg _ (completeVerify_fails (mt passed.mp fail)))
    have counts : s.faults.level < 3 → ¬(s.faults.mode = .normal ∧ 3 ≤ s.faults.level) := fun below fourth =>
      absurd fourth.2 (Nat.not_le.mpr below)
    refine ⟨fun pass more => ?more, fun pass last short => ?last, fun fail safe => ?safe,
      fun fail normal below room reach => ?retired, fun fail normal below full => ?returned,
      fun fail normal fourth room => ?fourthRetired, fun fail normal fourth full => ?fourthReturned⟩
    case more =>
      rw [ofPass pass, verifyPasses, if_pos more]
      rfl
    case last =>
      have freed := verifyPasses_last (s := read) last short
      refine ⟨fun normal => ?_, fun safe => ?_⟩
      · rw [ofPass pass, freed, walkerTakes_normal (by exact normal) (by rfl)]
      · rw [ofPass pass, freed, walkerTakes_safe (by exact safe)]
    case safe => rw [ofFail fail, verifyFails_safe (s := read) safe]
    case retired =>
      rw [ofFail fail, verifyFails_retires (s := read) normal room, storeFault_records (by exact counts below),
        lookAtShortage_stands (by exact reach), walkerTakes_normal (by exact normal) (by rfl)]
      rfl
    case returned =>
      rw [ofFail fail, verifyFails_returns (s := read) normal full, storeFault_records (by exact counts below),
        walkerTakes_normal (by exact normal) (by rfl)]
      rfl
    case fourthRetired =>
      obtain ⟨safe, idle⟩ := storeFault_enters_idle (s := { read with pool := retiring }) ⟨normal, fourth⟩ entry false
      have stands := lookAtShortage_stands fun x waits => nomatch idle.symm.trans waits
      rw [ofFail fail, verifyFails_retires (s := read) normal room]
      exact congrArg (fun t => Host.Outcome.next (settle t))
        ((congrArg walkerTakes stands).trans (walkerTakes_safe safe))
    case fourthReturned =>
      obtain ⟨safe, -⟩ := storeFault_enters_idle (s := { read with pool := returning }) ⟨normal, fourth⟩ entry true
      rw [ofFail fail, verifyFails_returns (s := read) normal full]
      exact congrArg (fun t => Host.Outcome.next (settle t)) (walkerTakes_safe safe)

end Sys2Proof.Machine
end

section
/-! O52. PASS_READ_COMPLETE (R31, R33, R99, R101, R105): what a read judged leaves, and what a pass does with the
sample. -/

namespace Sys2Proof.Machine

/-! ### A read judged (R33, R186) -/

/-- An uncorrectable pass read in NORMAL is a READ fault, and no other pass read is a fault. -/
theorem readFault_eq (l : LineNo) (e : Engine) (w : Nat) (o : ReadOutcome) (s : State) : readFault l e w o s =
    if o = .uncorrectable ∧ s.faults.mode = .normal then
      storeFault { kind := .read, page := pageOfWord w, offset := w % 4096, line := some l, engine := some e } false s
    else s := by
  cases o with
  | uncorrectable =>
    unfold readFault State.inSafe
    cases s.faults.mode with
    | normal => rfl
    | safe => rfl
  | clean v => exact (if_neg (fun bad => nomatch bad.1)).symm
  | corrected v => exact (if_neg (fun bad => nomatch bad.1)).symm

/-- A read that does not enter SAFE is recorded, if at all, in the fault unit and the notices alone. -/
theorem readFault_records {l : LineNo} {e : Engine} {w : Nat} {o : ReadOutcome} {s : State}
    (stays : ¬(o = .uncorrectable ∧ s.faults.mode = .normal ∧ 3 ≤ s.faults.level)) :
    ∃ faults notices, readFault l e w o s = { s with faults := faults, notices := notices } := by
  rw [readFault_eq]
  split
  · next bad => exact ⟨_, _, storeFault_records (fun enters => stays ⟨bad.1, enters⟩) _ _⟩
  · exact ⟨_, _, rfl⟩

/-! ### The sample taken (R99, R105) -/

section
variable {s : State} {p : Pass} {r : ReadReq} {reads : List ReadReq} {t : TapNo} {taps : List TapNo} {o : ReadOutcome}

/-- The pass with the sample of its next read. -/
theorem Pass.take_next (todo : p.todo = r :: reads) (o : ReadOutcome) : p.take o.sample (o == .uncorrectable) r =
    { p with
      todo := reads, got := p.got ++ [{ side := r.side, position := r.position, v := o.sample }]
      faulted := p.faulted || decide (o = .uncorrectable) } := by
  unfold Pass.take
  rw [todo]
  rfl

theorem passTakes_idle (idle : s.proc.pass = none) (o : ReadOutcome) : passTakes o s = s := by
  unfold passTakes
  rw [idle]

/-- With reads left of the tap the pass goes to the next. -/
theorem passTakes_more (runs : s.proc.pass = some p) (todo : p.todo = r :: reads) (tapsLeft : p.taps = t :: taps)
    (more : reads ≠ []) : passTakes o s =
      { s with proc := { s.proc with pass := some (p.take o.sample (o == .uncorrectable) r) } } := by
  unfold passTakes
  rw [runs]
  simp only [todo, tapsLeft]
  exact if_neg (mt List.isEmpty_iff.mp more)

/-- With the tap's last read the block is handed. -/
theorem passTakes_last (runs : s.proc.pass = some p) (todo : p.todo = [r]) (tapsLeft : p.taps = t :: taps) :
    passTakes o s = passOn { p.take o.sample (o == .uncorrectable) r with handed := p.handed + 1, taps := taps }
      (handBlock (p.take o.sample (o == .uncorrectable) r) t s) := by
  unfold passTakes
  rw [runs]
  simp only [todo, tapsLeft]
  rfl

end

/-! ### The block handed, and the pass's end (R99, R101) -/

/-- What leaves state and period of the frames is handed to the frames that take what is handed after it. -/
theorem OutFrame.handed_keeps {p : PeriodCount} {first : OutFrame → OutFrame} (state : ∀ f, (first f).state = f.state)
    (period : ∀ f, (first f).period = f.period) (second : OutFrame → OutFrame) (f : OutFrame) :
    (f.handed p first).handed p second = f.handed p (second ∘ first) := by
  unfold OutFrame.handed
  by_cases takes : f.period = p ∧ f.state ≠ .ended
  · have after : (first f).period = p ∧ (first f).state ≠ .ended := by rwa [period, state]
    rw [if_pos takes, if_pos after, if_pos takes]
    rfl
  · rw [if_neg takes, if_neg takes, if_neg takes]

theorem handFrame_handFrame {p : PeriodCount} {first : OutFrame → OutFrame} (state : ∀ f, (first f).state = f.state)
    (period : ∀ f, (first f).period = f.period) (second : OutFrame → OutFrame) (e : Engine) (s : State) :
    handFrame e p second (handFrame e p first s) = handFrame e p (second ∘ first) s := by
  unfold handFrame
  rw [State.setLink_setLink, State.link_setLink_same, List.map_map]
  refine congrArg (fun tx => s.setLink e { s.link e with tx := tx }) (List.map_congr_left fun f _ => ?_)
  exact OutFrame.handed_keeps state period second f

/-- The pass goes on with the next tap's reads. -/
theorem passOn_next {p : Pass} {next : TapNo} {more : List TapNo} (taps : p.taps = next :: more) (s : State) :
    passOn p s = { s with proc := { s.proc with
      pass := some { p with todo := tapReads s p.period (s.tap next), got := [], faulted := false } } } := by
  unfold passOn
  rw [taps]

/-- With its last tap's block handed the pass's frame ends COMPLETE. -/
theorem passOn_handBlock_last {p q : Pass} (taps : p.taps = []) (engine : p.engine = q.engine)
    (period : p.period = q.period) (t : TapNo) (s : State) : passOn p (handBlock q t s) =
      { ((handFrame q.engine q.period (OutFrame.finish .complete ∘ OutFrame.addBlock (passBlock s q t)) s).setTap t
          { s.tap t with clamped := (passBlock s q t).flags.clamped }) with
        proc := { s.proc with pass := none } } := by
  rw [← handFrame_handFrame (first := OutFrame.addBlock _) (fun _ => rfl) (fun _ => rfl)]
  unfold passOn
  rw [taps, engine, period]
  rfl

/-- The block handed changes no reads: a tap's CLAMPED indicator is not read. -/
theorem tapReads_handBlock (q : Pass) (t : TapNo) (s : State) (period : PeriodCount) (n : TapNo) :
    tapReads (handBlock q t s) period ((handBlock q t s).tap n) = tapReads s period (s.tap n) := by
  refine tapReads_congr period (by simp) (by simp) (by simp) ?_
  exact congrFun (handBlock_unclamped q t s) n

/-- Settles O52: the read its pass has lost, the read that enters SAFE, and the sample taken. -/
theorem passReadsComposeBlocks : Obligations.PassReadsComposeBlocks := by
  intro s u l e w live access o bad entry read judged entersSafe
  have run : exec (.passReadComplete u) s = .next (settle (if live then passTakes o judged else judged)) := by
    have fault : judged = readFault l e w o read := (readFault_eq l e w o read).symm
    rw [fault]
    show execPassReadComplete u s = _
    rw [execPassReadComplete, access]
    rfl
  refine ⟨fun lost => ?lost, fun enters => ?enters, fun lives stays p r reads t taps runs todo tapsLeft => ?takes⟩
  case lost => rw [run, lost]; rfl
  case enters =>
    obtain ⟨isBad, normal, fourth⟩ := enters
    have judgedEnters : judged = storeFault entry false read := if_pos ⟨isBad, normal⟩
    have ended : judged.proc.pass = none := by
      rw [judgedEnters, storeFault_enters (by exact ⟨normal, fourth⟩), enterSafe_proc]
    refine ⟨?_, ended⟩
    rw [run, passTakes_idle ended, ite_self]
  case takes =>
    intro p'
    have take : p.take o.sample (o == .uncorrectable) r = p' := Pass.take_next todo o
    obtain ⟨faults, notices, stands⟩ := readFault_records (l := l) (e := e) (w := w) (o := o) (s := read) stays
    have fault : judged = { read with faults := faults, notices := notices } :=
      (readFault_eq l e w o read).symm.trans stands
    clear_value judged
    subst fault
    have judgedRuns : ({ read with faults := faults, notices := notices } : State).proc.pass = some p := runs
    rw [run, if_pos lives]
    refine ⟨fun more => ?_, fun last => ?_⟩
    · rw [passTakes_more judgedRuns todo tapsLeft more, take]
    · intro block hand sounded
      have sounds : passBlock { read with faults := faults, notices := notices } p' t = block :=
        passBlock_congr p' t rfl rfl rfl rfl rfl
      rw [passTakes_last judgedRuns (last ▸ todo) tapsLeft, take]
      refine ⟨fun next more left => ?_, fun left => ?_⟩
      · intro handed onward
        have onTaps : ({ p' with handed := p.handed + 1, taps := taps } : Pass).taps = next :: more := left
        have reads : tapReads { read with faults := faults, notices := notices } p.period (s.tap next) =
            tapReads s p.period (s.tap next) := tapReads_congr p.period rfl rfl rfl rfl
        rw [passOn_next onTaps, tapReads_handBlock, handBlock, sounds]
        dsimp only [State.tap] at reads ⊢
        rw [reads]
        rfl
      · intro handed
        rw [passOn_handBlock_last (by exact left) (by rfl) (by rfl), sounds]
        rfl

end Sys2Proof.Machine
end

section
/-! O37. A boundary (R56, R72 to R76, R96, R102, R103): the part it leaves before the claims are settled, its links, its
pass queue and its notices. -/

namespace Sys2Proof.Machine

/-- The part at a boundary with the queue formed, before the claims are settled. -/
def boundaryQueued (zero : Bool) (s : State) : State :=
  formQueue (oscBoundary (resizes s) (tapBoundary (boundaryStart zero s)))

theorem boundary_eq (zero : Bool) (s : State) : boundary zero s = settle (boundaryQueued zero s) := rfl

/-- The readers and the queue leave the links, the arbiter and the notices of the boundary up to them. -/
@[simp] theorem boundaryQueued_frame (zero : Bool) (s : State) :
    (boundaryQueued zero s).store = s.store ∧ (boundaryQueued zero s).refresh = s.refresh ∧
    (boundaryQueued zero s).pool = s.pool ∧ (boundaryQueued zero s).oldestOpen = s.oldestOpen ∧
    (boundaryQueued zero s).commits = s.commits ∧ (boundaryQueued zero s).scenes = s.scenes ∧
    (boundaryQueued zero s).port = s.port ∧ (boundaryQueued zero s).faults = s.faults ∧
    (boundaryQueued zero s).freeIx = s.freeIx ∧ (boundaryQueued zero s).pending = s.pending ∧
    (boundaryQueued zero s).links = (boundaryStart zero s).links ∧
    (boundaryQueued zero s).notices = (boundaryStart zero s).notices ∧
    (boundaryQueued zero s).fills = (boundaryStart zero s).fills ∧
    (boundaryQueued zero s).arbiter = (boundaryStart zero s).arbiter := by
  simp [boundaryQueued]

/-! ### A link at a boundary (R56, R72, R74, R76) -/

/-- The boundary's work on a link: the count of missed periods, the report and the frame opened. -/
theorem Link.countMissed_openFrame (k : Link) (p : PeriodCount) : k.countMissed.openFrame p = { k with
    state := if k.state = .up ∧ k.accepted = false ∧ k.missed + 1 = 8 then .lost else k.state
    missed := if k.state = .up then (if k.accepted then 0 else k.missed + 1) else k.missed
    accepted := false
    tally := if k.state = .off then k.tally else Tally.empty
    report := if k.state = .off then k.report else k.tally
    tx := k.tx ++ (if k.state = .off then [] else
      [{ period := p, report := k.tally, state := .opened, planned := 0, blocks := [], endStatus := none }]) } := by
  obtain ⟨state, missed, accepted⟩ := k
  cases state with
  | off => simp [Link.countMissed, Link.openFrame]
  | down | lost => simp [Link.countMissed, Link.openFrame]
  | up =>
    cases accepted with
    | true => simp [Link.countMissed, Link.openFrame]
    | false =>
      by_cases eighth : missed + 1 = 8
      · simp [Link.countMissed, Link.openFrame, eighth]
      · simp [Link.countMissed, Link.openFrame, eighth]

theorem Link.becomesLost_iff (k : Link) :
    k.becomesLost = true ↔ k.state = .up ∧ k.accepted = false ∧ k.missed + 1 = 8 := by
  simp [Link.becomesLost, and_assoc]

/-- A frame planned and ended SHORT at once (R103). -/
theorem OutFrame.plan_finish (n : Nat) (f : OutFrame) :
    (f.plan n).finish .short = { f with state := .ended, planned := n, endStatus := some .short } := rfl

theorem givenFrame_eq (period : PeriodCount) (s : State) (e : Engine) (f : OutFrame) : givenFrame period s e f =
    if e ∈ s.proc.queue ∧ f.period = period ∧ f.state ≠ .ended then
      { f with state := .ended, planned := (passTaps e s).length, endStatus := some .short } else f := by
  unfold givenFrame
  rw [OutFrame.plan_finish]

/-- No boundary switches a link off or on. -/
theorem boundaryStart_off (zero : Bool) (s : State) (e : Engine) :
    ((boundaryStart zero s).link e).state = .off ↔ (s.link e).state = .off := by
  rw [boundaryStart_link, Link.countMissed_openFrame]
  dsimp only
  split
  · next lost => simp [lost.1]
  · rfl

/-! ### The tap processor (R96, R102, R103) -/

theorem boundaryStart_proc (zero : Bool) (s : State) :
    (boundaryStart zero s).proc = { s.proc with queue := [], pass := none } := by
  have counted : ∀ es u, (List.foldl countShort u es).proc = u.proc := fun es u =>
    foldl_keeps State.proc _ (by simp) es u
  have shorts : ∀ p es u, (List.foldl (shortFrame p) u es).proc = u.proc := fun p es u =>
    foldl_keeps State.proc _ (by simp) es u
  have cut : ∀ u : State, (cutPass u).proc = { u.proc with pass := none } := fun u => by
    unfold cutPass
    split
    · next idle => rw [← idle]
    · simp
  simp [boundaryStart, cutAtBoundary, counted, shorts, cut]

/-- The queue is formed round from the engine after the lead, and its first engine leads (R96). -/
theorem boundaryQueued_proc (zero : Bool) (s : State) : (boundaryQueued zero s).proc =
    (let queue := (roundFrom s.proc.lead).filter fun e => (s.link e).state != .off
    { queue := queue, lead := queue.head?.getD s.proc.lead, pass := none }) := by
  let started := oscBoundary (resizes s) (tapBoundary (boundaryStart zero s))
  have proc : started.proc = { s.proc with queue := [], pass := none } :=
    Eq.trans (by simp [started]) (boundaryStart_proc zero s)
  have off : ∀ e, ((started.link e).state != .off) = ((s.link e).state != .off) := fun e => by
    rw [State.link_of_links (t := boundaryStart zero s) (by simp [started]) e, Bool.eq_iff_iff, bne_iff_ne, bne_iff_ne]
    exact not_congr (boundaryStart_off zero s e)
  show (formQueue started).proc = _
  simp only [formQueue, proc, off, List.headD_eq_head?_getD]

/-- Settles O37, part by part. -/
theorem boundariesReportCutAndQueue : Obligations.BoundariesReportCutAndQueue := by
  intro s zero short cut given opened loses wraps round queue
  have links : (boundaryQueued zero s).links = (boundaryStart zero s).links := by simp
  have notices : (boundaryQueued zero s).notices = (boundaryStart zero s).notices := by simp
  refine ⟨boundaryQueued zero s, rfl, ?whole, fun e => ?link, ?mask, fun i below => ?bits⟩
  case whole =>
    have proc : (boundaryQueued zero s).proc =
        { queue := queue, lead := queue.head?.getD s.proc.lead, pass := none } :=
      boundaryQueued_proc zero s
    apply State.eq_of_fields <;> simp [proc, boundaryStart_arbiter]
  case link =>
    rw [State.link_of_links links, boundaryStart_link, Link.countMissed_openFrame]
    have cuts : cutFrame s e = cut e := rfl
    have gives : givenFrame s.timer.period s e = given e := funext fun f => givenFrame_eq s.timer.period s e f
    rw [cuts, gives]
    rfl
  case mask =>
    have settled : (boundary zero s).notices = (boundaryQueued zero s).notices := by simp [boundary_eq]
    rw [← settled]
    exact boundary_mask zero s
  case bits =>
    rw [notices, boundaryStart_bit zero s below]
    simp only [Link.becomesLost_iff]
    rfl

end Sys2Proof.Machine
end
